-- ==== Sys2Proof/Word.lean ====
section
/-! DEFINITION. The widths of the block (spec 00_scope.md R6, R7, R10, R11). -/

namespace Sys2Proof

/-- A byte; also a symbol, "one byte value, 0 to 255" (R6). -/
abbrev Byte := BitVec 8

/-- A 64-bit unsigned quantity: a frequency, a length, a total (R7). -/
abbrev Count := BitVec 64

/-- A node index, 9 bits, 0 to 510 (R10). -/
abbrev NodeIdx := BitVec 9

/-- A code: an ordered sequence of bits, the root-most bit first (R17, R28). -/
abbrev Code := List Bool

end Sys2Proof
end

