-- ==== Sys2Proof/Syntax.lean ====
section
/-! DEFINITION. The eight commands and the command word's one format `C` (30_encoding.md R90, R91). -/

namespace Sys2Proof

/-- The eight commands of R91. "A command word has no operand fields" (R90). -/
inductive Instr where
  | clear
  | fcount
  | buildTree
  | genCodes
  | pack
  | unpack
  | encode
  | decode
deriving DecidableEq, Repr

/-- The fields of format `C` (R90): `rsv` is bits 7:4, `op` is bits 3:0. -/
structure CommandWord where
  rsv : BitVec 4
  op : BitVec 4
deriving DecidableEq, Repr

/-- The column `op` of R91. -/
def Instr.op : Instr → BitVec 4
  | .clear => 0x0
  | .fcount => 0x1
  | .buildTree => 0x2
  | .genCodes => 0x3
  | .pack => 0x4
  | .unpack => 0x5
  | .encode => 0x6
  | .decode => 0x7

/-- The command word of an instruction, as fields. -/
def Instr.commandWord (i : Instr) : CommandWord := { rsv := 0, op := i.op }

end Sys2Proof
end

