-- ==== Sys2Proof/WellFormed.lean ====
section
/-! DEFINITION. When the fields of a command word are those of a command (30_encoding.md R90, R92). -/

namespace Sys2Proof

/-- "reserved, must be 0000" (R90). -/
def CommandWord.rsvOk (c : CommandWord) : Bool := c.rsv == 0

/-- "Every word with `op` in 0x8 to 0xF ... is illegal" (R92). -/
def CommandWord.opOk (c : CommandWord) : Bool := c.op.toNat < 8

/-- A command word is well formed when both fields are. -/
def CommandWord.wf (c : CommandWord) : Bool := c.rsvOk && c.opOk

/-- An instruction is well formed when its command word is; it has no operands to check (R90). -/
def Instr.wf (i : Instr) : Bool := i.commandWord.wf

end Sys2Proof
end

