-- ==== Sys2Proof/Decode.lean ====
section
/-! DEFINITION. The command decoder and encoder (30_encoding.md R90, R91, R92, R109). -/

namespace Sys2Proof

/-- One row of the command table of R91: "a word `w` selects the row when `w & mask = match`". -/
structure CommandRow where
  instr : Instr
  pattern : Byte
  mask : Byte
deriving DecidableEq, Repr

/-- The eight rows of R91. -/
def commandRows : List CommandRow :=
  [ ⟨.clear, 0x00, 0xFF⟩, ⟨.fcount, 0x01, 0xFF⟩, ⟨.buildTree, 0x02, 0xFF⟩, ⟨.genCodes, 0x03, 0xFF⟩,
    ⟨.pack, 0x04, 0xFF⟩, ⟨.unpack, 0x05, 0xFF⟩, ⟨.encode, 0x06, 0xFF⟩, ⟨.decode, 0x07, 0xFF⟩ ]

/-- Does a word select a row (R91)? -/
def CommandRow.selects (r : CommandRow) (w : Byte) : Bool := (w &&& r.mask) == r.pattern

/-- The fields of a word (R90). -/
def wordFields (w : Byte) : CommandWord :=
  { rsv := w.extractLsb' 4 4, op := w.extractLsb' 0 4 }

/-- Why a word is no command. -/
inductive IllegalWord where
  /-- there is no word at all: the byte sequence is empty -/
  | noWord
  /-- `rsv` is not 0000 (R92) -/
  | reservedField
  /-- `op` is 0x8 to 0xF (R92) -/
  | illegalOp
deriving DecidableEq, Repr

/-- "compare the 8-bit word with the eight `match` values of rule R91; no match is rule R92" (R109). -/
def decode (w : Byte) : Except IllegalWord Instr :=
  match commandRows.find? (fun r => r.selects w) with
  | some r => .ok r.instr
  | none => if (wordFields w).rsvOk then .error .illegalOp else .error .reservedField

/-- Decoding from a byte sequence: all commands have the same length, 8 bits (R90). -/
def decodeBytes : List Byte → Except IllegalWord (Instr × List Byte)
  | [] => .error .noWord
  | w :: rest =>
    match decode w with
    | .ok i => .ok (i, rest)
    | .error e => .error e

/-- The word of a command: `{rsv, op}`, `rsv` more significant (R90). -/
def encode (i : Instr) : Byte := i.commandWord.rsv ++ i.commandWord.op

/-- The bytes of a command. -/
def encodeBytes (i : Instr) : List Byte := [encode i]

/-- The bytes of a table word, the first at the lowest address: every command is one byte, and the bits of `w`
above `nbits` are 0. -/
def tableBytes (nbits w : Nat) : List Byte := [BitVec.ofNat 8 (w % 2 ^ nbits)]

/-- The instruction the decoder reads from a table row's bits. -/
def decodeTableWord (nbits w : Nat) : Option Instr :=
  match decodeBytes (tableBytes nbits w) with
  | .ok (i, _) => some i
  | .error _ => none

end Sys2Proof
end

