-- ==== Sys2Proof/Config.lean ====
section
/-! DEFINITION. What is fixed for the hardware and what the spec leaves open (R8, R9, R46; 93_implementation_defined.md U3). -/

namespace Sys2Proof

/-- Which thing without a value a free value stands for, so that two different things never share one. -/
inductive FreeSite where
  | ncount | root | acc | fill | cur | emitted | bitpos | inOff | cmd
  | hostWord | hostLen | hostBits | hostKind | hostSym | hostFreq | hostLeft | hostRight
deriving DecidableEq, Repr

/-- DESIGN CHOICE (log entry 4, safe): a free value, `draw` numbers it. No body: nothing can be proved of it.
Used wherever the spec says "no value" or "any value" (R49, U3, U20, U21). -/
opaque Config.freeBits (w : Nat) (site : FreeSite) (draw : Nat) : BitVec w

/-- DESIGN CHOICE (log entry 6, safe): what a byte of IN that nothing has written holds (R49: the IN buffer has
"no value" after reset). `seed` numbers the reset. No body. -/
opaque Config.inPowerOn (seed offset : Nat) : Byte

/-- The four 7-bit characters of the magic (R8): OPEN in the spec, so no body (log entry 2, safe). -/
opaque Config.magicChar (k : Nat) : BitVec 7

/-- `MAGIC[k]`: "each byte in the range 0x00 to 0x7F because it is ASCII" (R8). -/
def Config.magicByte (k : Nat) : Byte := (Config.magicChar k).setWidth 8

/-- `MAGIC`, "a sequence of exactly 4 bytes" (R8). -/
def Config.magic : List Byte :=
  [Config.magicByte 0, Config.magicByte 1, Config.magicByte 2, Config.magicByte 3]

/-- `DUMMY_SYM = 0` (R9). -/
def Config.dummySym : Byte := 0

end Sys2Proof
end

