-- ==== Sys2Proof/Machine/State.lean ====
section
/-! DEFINITION. All the state the spec gives the machine, plain data (10_state.md R20 to R49), and the state after reset. -/

namespace Sys2Proof.Machine

/-- A node of the tree, "a tagged variant" (R23): a Leaf holds a symbol and its frequency, an Internal node a combined
frequency and the indices of its two children. The fields the spec gives no value are not there. -/
inductive Node where
  | leaf (sym : Byte) (f : Count)
  | internal (f : Count) (left right : NodeIdx)
deriving DecidableEq, Repr

/-- The state of the command sequencer (R43). -/
inductive Phase where
  | idle | count | build | gen | pack | hdrW | hdrR | walk | fill | clr
deriving DecidableEq, Repr

/-- The error kinds (R36, R221). -/
inductive ErrKind where
  | none | io | format | corruption | contract
deriving DecidableEq, Repr

/-- The error causes of R221. `nullChild` is "reserved for the source's null child" (R177); no run raises it. -/
inductive Cause where
  | none
  | srcUnreadable | dstUnwritable
  | badMagic | truncatedHeader | symcountTooLarge | symcountZero | tableOrder | zeroFreq | lengthMismatch
  | badTrailingBits | truncatedPayload
  | nullChild | payloadExhausted | dummyLeaf
  | illegalCommand | emptyTable | freqOverflow | noTree | noCodeTable | noCode
deriving DecidableEq, Repr

/-- The environment parameters of R12, "fixed by the host before a command is issued and constant while it runs"
(log entry 3): which offsets of IN are unreadable, and how many bytes OUT can take (`none` is infinity). -/
structure Env where
  inBad : List Nat
  outCap : Option Nat
deriving DecidableEq, Repr

/-- A node as the host reads it, with all five fields of R23. -/
structure NodeView where
  kind : BitVec 1
  sym : Byte
  f : Count
  left : NodeIdx
  right : NodeIdx
deriving DecidableEq, Repr

/-- What a host read returns (R47): a register's word, a code-table entry (length and bits), or a node. -/
inductive HostValue where
  | word (v : BitVec 64)
  | code (len : Byte) (bits : Code)
  | node (v : NodeView)
deriving DecidableEq, Repr

/-- What the host can do while the engine is idle (R14, R47, R93, R260). One action is one step (log entry 1). -/
inductive HostAction where
  /-- write a value to a register number of R48; number 0x000 is CMD and starts a command -/
  | writeReg (n : Nat) (v : BitVec 64)
  /-- read a register number of R48 -/
  | readReg (n : Nat)
  /-- write one byte of IN -/
  | writeIn (offset : Count) (b : Byte)
  /-- read one byte of IN -/
  | readIn (offset : Count)
  /-- read one byte of OUT -/
  | readOut (offset : Count)
  /-- LOADIN (R93) -/
  | loadIn (bytes : List Byte)
  /-- MOVEOUT (R93) -/
  | moveOut
  /-- fix the environment parameters (R12, R262) -/
  | setEnv (env : Env)
  /-- reset (R260) -/
  | reset
deriving DecidableEq, Repr

/-- Memory: the bytes that hold a value, addresses strictly rising. An address that is not listed holds no value
(R49: the buffers have no value after reset), so no entry can equal what an unlisted address reads as. -/
abbrev Memory := List Host.Cell

/-- What stops the machine. -/
inductive Fault where
  /-- Raised by the host action LOADIN with 2^64 bytes or more: the last of them have no offset in IN (R60: 64-bit
  offsets) and their number does not fit IN_LEN (R33). Safe: the spec has no such action. -/
  | loadPastInSpace
deriving DecidableEq, Repr

/-- What the model refuses. -/
inductive Refusal where
  /-- Raised by exec's arm of a command that has no meaning yet; no arm does. Safe. -/
  | notModelled (mnemonic : String)
  /-- Raised by step for any host action but reading STATUS while BUSY = 1 (R268, U1: "the architectural model has no
  such transition"). No run from reset reaches such a state. Safe. -/
  | hostActionWhileBusy
  /-- Raised by the host action MOVEOUT when OUT_VALID = 0 ("allowed only when OUT_VALID = 1", R93; U21). Safe. -/
  | moveOutWhileInvalid
deriving DecidableEq, Repr

/-- All the state of the machine. INVENTORY.md lists each field with its rule and its reset value. -/
structure State where
  /-- FT[0..255] (R20) -/
  ft : Vector Count 256
  /-- TOTAL (R22) -/
  total : Count
  /-- NODE: the entries in use, `NODE[0..NCOUNT-1]` (R23, R24); entries from NCOUNT on hold no value (log entry 5) -/
  node : List Node
  /-- NCOUNT (R24) -/
  ncount : BitVec 10
  /-- ROOT (R24) -/
  root : NodeIdx
  /-- TREE_VALID (R24) -/
  treeValid : Bool
  /-- CT: the 256 codes, indexed by symbol, when the table holds a value; no entry otherwise (R28, R29; log entry 5).
  A code's `len` is the length of the list; the empty code says the symbol has none. -/
  ct : List Code
  /-- CT_VALID (R29) -/
  ctValid : Bool
  /-- ORIG_LEN (R30) -/
  origLen : Count
  /-- SYM_COUNT (R31) -/
  symCount : BitVec 16
  /-- TRAIL (R32) -/
  trail : BitVec 3
  /-- the IN buffer (R60) -/
  inMem : Memory
  /-- IN_LEN (R33) -/
  inLen : Count
  /-- the OUT buffer (R60) -/
  outMem : Memory
  /-- OUT_LEN (R33) -/
  outLen : Count
  /-- OUT_VALID (R33) -/
  outValid : Bool
  /-- CMD, the last word written to it (R34) -/
  cmd : Byte
  /-- STATUS.BUSY (R35) -/
  busy : Bool
  /-- STATUS.DONE (R35) -/
  done : Bool
  /-- ERR_KIND (R36) -/
  errKind : ErrKind
  /-- ERR_CAUSE (R36) -/
  errCause : Cause
  /-- ERR_INFO (R36) -/
  errInfo : BitVec 64
  /-- ACC, the packer's accumulator (R37) -/
  acc : BitVec 8
  /-- FILL, the packer's fill counter (R37) -/
  fill : BitVec 4
  /-- PAY, the payload ENCODE buffers (R37) -/
  pay : List Byte
  /-- CUR, the node the walk is at (R38) -/
  cur : NodeIdx
  /-- EMITTED, the number of symbols emitted (R38) -/
  emitted : BitVec 64
  /-- BITPOS, the next payload bit (R38) -/
  bitpos : BitVec 67
  /-- Q, the builder's queue (R39) -/
  q : List NodeIdx
  /-- the generator's traversal stack (R40) -/
  genStack : List (NodeIdx × Code)
  /-- PHASE (R43) -/
  phase : Phase
  /-- the IN read offset (R42, R44) -/
  inOff : BitVec 64
  /-- IN_BAD and OUT_CAP (R12) -/
  env : Env
  /-- the program: the host actions still to be done, oldest first (R46; the model's own field) -/
  hostQ : List HostAction
  /-- what the host's last read returned (the model's own field) -/
  hostData : Option HostValue
  /-- the number of the next free value (the model's own field, log entry 4) -/
  draws : Nat
  /-- which power-on contents IN has (the model's own field, log entry 6) -/
  inSeed : Nat
deriving DecidableEq, Repr

/-- The column "value after reset" of R49, for the environment, the program and the host's data given. What R49 gives
no value holds free values of number `draw` (log entry 4). -/
def State.resetWith (draw : Nat) (env : Env) (hostQ : List HostAction) (hostData : Option HostValue) : State where
  ft := Vector.replicate 256 0
  total := 0
  node := []
  ncount := Config.freeBits 10 .ncount draw
  root := Config.freeBits 9 .root draw
  treeValid := false
  ct := []
  ctValid := false
  origLen := 0
  symCount := 0
  trail := 0
  inMem := []
  inLen := 0
  outMem := []
  outLen := 0
  outValid := false
  cmd := Config.freeBits 8 .cmd draw
  busy := false
  done := false
  errKind := .none
  errCause := .none
  errInfo := 0
  acc := Config.freeBits 8 .acc draw
  fill := Config.freeBits 4 .fill draw
  pay := []
  cur := Config.freeBits 9 .cur draw
  emitted := Config.freeBits 64 .emitted draw
  bitpos := Config.freeBits 67 .bitpos draw
  q := []
  genStack := []
  phase := .idle
  inOff := Config.freeBits 64 .inOff draw
  env := env
  hostQ := hostQ
  hostData := hostData
  draws := draw + 1
  inSeed := draw

/-- The machine right after reset (R49, R260). IN_BAD is empty and OUT_CAP infinite (log entry 3), the host has
nothing to do (log entry 1). -/
def State.reset : State := State.resetWith 0 { inBad := [], outCap := none } [] none

end Sys2Proof.Machine
end

