-- ==== Sys2Proof/Machine/Fields.lean ====
section
/-! DEFINITION. The named single updates of State: "`X <- v` writes" (00_scope.md R18). Every meaning is written with
them, so that a proof reads a field of an updated state by one lemma of Laws/State.lean. -/

namespace Sys2Proof.Machine

/-- `FT <- v; TOTAL <- t` -/
def State.setCounts (s : State) (v : Vector Count 256) (t : Count) : State := { s with ft := v, total := t }

/-- `FT <- v` -/
def State.setFt (s : State) (v : Vector Count 256) : State := { s with ft := v }

/-- `NODE`, `Q` and `NCOUNT` -/
def State.setNodes (s : State) (node : List Node) (q : List NodeIdx) (ncount : BitVec 10) : State :=
  { s with node := node, q := q, ncount := ncount }

/-- `ROOT` and `Q` -/
def State.setRoot (s : State) (root : NodeIdx) (q : List NodeIdx) : State := { s with root := root, q := q }

/-- `TREE_VALID` -/
def State.setTreeValid (s : State) (v : Bool) : State := { s with treeValid := v }

/-- `CT` and the traversal stack -/
def State.setGen (s : State) (ct : List Code) (stack : List (NodeIdx × Code)) : State :=
  { s with ct := ct, genStack := stack }

/-- `CT_VALID` -/
def State.setCtValid (s : State) (v : Bool) : State := { s with ctValid := v }

/-- `ORIG_LEN` -/
def State.setOrigLen (s : State) (v : Count) : State := { s with origLen := v }

/-- `SYM_COUNT` -/
def State.setSymCount (s : State) (v : BitVec 16) : State := { s with symCount := v }

/-- `TRAIL` -/
def State.setTrail (s : State) (v : BitVec 3) : State := { s with trail := v }

/-- the IN buffer -/
def State.setInMem (s : State) (m : Memory) : State := { s with inMem := m }

/-- `IN_LEN` -/
def State.setInLen (s : State) (v : Count) : State := { s with inLen := v }

/-- the OUT buffer and `OUT_LEN` -/
def State.setOut (s : State) (m : Memory) (len : Count) : State := { s with outMem := m, outLen := len }

/-- `OUT_VALID` -/
def State.setOutValid (s : State) (v : Bool) : State := { s with outValid := v }

/-- `CMD` -/
def State.setCmd (s : State) (w : Byte) : State := { s with cmd := w }

/-- `ACC` and `FILL` -/
def State.setPacker (s : State) (acc : BitVec 8) (fill : BitVec 4) : State := { s with acc := acc, fill := fill }

/-- `PAY` -/
def State.setPay (s : State) (p : List Byte) : State := { s with pay := p }

/-- `CUR` and `EMITTED` -/
def State.setWalk (s : State) (cur : NodeIdx) (emitted : BitVec 64) : State := { s with cur := cur, emitted := emitted }

/-- `BITPOS` -/
def State.setBitpos (s : State) (v : BitVec 67) : State := { s with bitpos := v }

/-- `PHASE` -/
def State.setPhase (s : State) (p : Phase) : State := { s with phase := p }

/-- the IN read offset -/
def State.setInOff (s : State) (v : BitVec 64) : State := { s with inOff := v }

/-- the environment -/
def State.setEnv (s : State) (e : Env) : State := { s with env := e }

/-- the program still to run -/
def State.setHostQ (s : State) (l : List HostAction) : State := { s with hostQ := l }

end Sys2Proof.Machine
end

