-- ==== Sys2Proof/Machine/Operands.lean ====
section
/-! DEFINITION. The operand forms: byte order, bytes of IN, table and tree lookups, the payload's usable bits. -/

namespace Sys2Proof.Machine

/-! ### Byte order (R16, R65, R98) -/

/-- The inverse of little-endian assembly: `n` bytes of `v`, least significant byte first (`LE16`, `LE64` of R16). -/
def leBytes : Nat → Nat → List Byte
  | 0, _ => []
  | n + 1, v => BitVec.ofNat 8 (v % 256) :: leBytes n (v / 256)

/-- Little-endian assembly: "the byte at the lowest offset is the least significant" (R98). -/
def leValue : List Byte → Nat
  | [] => 0
  | b :: bs => b.toNat + 256 * leValue bs

/-! ### Memory (log entry 6, 7) -/

/-- Read one byte: `none` where no value is held. -/
def Memory.get? : Memory → Nat → Option Byte
  | [], _ => none
  | (a, b) :: m, x => if a = x then some b else Memory.get? m x

/-- Write one byte, keeping the addresses strictly rising. -/
def Memory.set : Memory → Nat → Byte → Memory
  | [], x, v => [(x, v)]
  | (a, b) :: m, x, v =>
    if x < a then (x, v) :: (a, b) :: m
    else if x = a then (x, v) :: m
    else (a, b) :: Memory.set m x v

/-- Write bytes at consecutive addresses. -/
def Memory.setAll : Memory → Nat → List Byte → Memory
  | m, _, [] => m
  | m, x, b :: bs => Memory.setAll (Memory.set m x b) (x + 1) bs

/-- Do the addresses rise strictly, from `lo` on? -/
def Memory.risingFrom : Nat → Memory → Bool
  | _, [] => true
  | lo, (a, _) :: m => decide (lo ≤ a) && Memory.risingFrom (a + 1) m

/-- The canonical form: addresses strictly rising, each a 64-bit offset (R60). An unlisted address holds no value, so
no entry equals what an unlisted address reads as. -/
def Memory.wf (m : Memory) : Bool :=
  Memory.risingFrom 0 m && m.all (fun c => decide (c.1 < 2 ^ 64))

/-! ### IN (R61) -/

/-- `IN[o]`: the byte written there, or the free value of a byte nothing has written (log entry 6). -/
def State.inByte (s : State) (o : Nat) : Byte :=
  match Memory.get? s.inMem o with
  | some b => b
  | none => Config.inPowerOn s.inSeed o

/-- `n` bytes of IN from offset `o` on. -/
def State.inSlice (s : State) : Nat → Nat → List Byte
  | _, 0 => []
  | o, n + 1 => s.inByte o :: State.inSlice s (o + 1) n

/-- `IN[0..IN_LEN)`. -/
def State.inBytes (s : State) : List Byte := s.inSlice 0 s.inLen.toNat

/-- `IN_BAD(o)` (R12). -/
def State.inBadAt (s : State) (o : Nat) : Bool := s.env.inBad.contains o

/-! ### The frequency table (R20) -/

/-- `FT[s]`. -/
def ftAt (ft : Vector Count 256) (s : Byte) : Count := ft[s.toNat]'(s.isLt)

/-- `FT[s] <- v`. -/
def ftSet (ft : Vector Count 256) (s : Byte) (v : Count) : Vector Count 256 := ft.set s.toNat v s.isLt

/-- The table with all 256 entries 0. -/
def ftZero : Vector Count 256 := Vector.replicate 256 0

/-- The sum of a list of counts, "taken as a natural number" (R133). -/
def countSum : List Count → Nat
  | [] => 0
  | f :: fs => f.toNat + countSum fs

/-- The sum of all `FT[s]`. -/
def ftSum (ft : Vector Count 256) : Nat := countSum ft.toList

/-- The entries of a table from symbol `s` on that are not 0, in ascending symbol order. -/
def nonzeroFrom : Nat → List Count → List (Byte × Count)
  | _, [] => []
  | s, f :: fs =>
    if f = 0 then nonzeroFrom (s + 1) fs else (BitVec.ofNat 8 s, f) :: nonzeroFrom (s + 1) fs

/-- The pairs `(s, FT[s])` with `FT[s] != 0`, in ascending symbol order (R132, R190). -/
def ftEntries (ft : Vector Count 256) : List (Byte × Count) := nonzeroFrom 0 ft.toList

/-! ### The tree and the code table (R23, R28) -/

/-- `NODE[i].f`. -/
def Node.freq : Node → Count
  | .leaf _ f => f
  | .internal f _ _ => f

/-- `NODE[i]`, where the entry holds a value. -/
def nodeAt (node : List Node) (i : NodeIdx) : Option Node := node[i.toNat]?

/-- The child of node `i` that a bit selects, "bit 0 → left child, bit 1 → right child" (R111). -/
def childOf (node : List Node) (i : NodeIdx) (bit : Bool) : Option NodeIdx :=
  match nodeAt node i with
  | some (.internal _ l r) => some (if bit then r else l)
  | _ => none

/-- `CT[s].bits`; the empty code where the symbol has none (R28). -/
def codeOf (ct : List Code) (s : Byte) : Code :=
  match ct[s.toNat]? with
  | some c => c
  | none => []

/-! ### The payload (R172) -/

/-- "`avail = 8 * (P - 1) + (8 if tb = 0 else tb)`" (R172), for `P >= 1`. -/
def availBits (p tb : Nat) : Nat := 8 * (p - 1) + (if tb = 0 then 8 else tb)

/-- Bit `k` of a byte in stream order, the first bit being bit 7 (R17, R66). -/
def streamBit (b : Byte) (k : Nat) : Bool := b.getLsbD (7 - k)

end Sys2Proof.Machine
end

