-- ==== Sys2Proof/Machine/Flags.lean ====
section
/-! DEFINITION. STATUS, the error codes and the flags (10_state.md R35, R36, R43; 60_exceptions.md R221). -/

namespace Sys2Proof.Machine

/-- The code of ERR_KIND (R36). -/
def ErrKind.code : ErrKind → BitVec 3
  | .none => 0
  | .io => 1
  | .format => 2
  | .corruption => 3
  | .contract => 4

/-- The code of ERR_CAUSE (R221). -/
def Cause.code : Cause → BitVec 8
  | .none => 0x00
  | .srcUnreadable => 0x10
  | .dstUnwritable => 0x11
  | .badMagic => 0x20
  | .truncatedHeader => 0x21
  | .symcountTooLarge => 0x22
  | .symcountZero => 0x23
  | .tableOrder => 0x24
  | .zeroFreq => 0x25
  | .lengthMismatch => 0x26
  | .badTrailingBits => 0x27
  | .truncatedPayload => 0x28
  | .nullChild => 0x30
  | .payloadExhausted => 0x31
  | .dummyLeaf => 0x32
  | .illegalCommand => 0x40
  | .emptyTable => 0x41
  | .freqOverflow => 0x42
  | .noTree => 0x43
  | .noCodeTable => 0x44
  | .noCode => 0x45

/-- The kind each cause belongs to (R221). -/
def Cause.kind : Cause → ErrKind
  | .none => .none
  | .srcUnreadable | .dstUnwritable => .io
  | .badMagic | .truncatedHeader | .symcountTooLarge | .symcountZero | .tableOrder | .zeroFreq | .lengthMismatch
  | .badTrailingBits | .truncatedPayload => .format
  | .nullChild | .payloadExhausted | .dummyLeaf => .corruption
  | .illegalCommand | .emptyTable | .freqOverflow | .noTree | .noCodeTable | .noCode => .contract

/-- The number of a phase (R43). -/
def Phase.code : Phase → BitVec 4
  | .idle => 0
  | .count => 1
  | .build => 2
  | .gen => 3
  | .pack => 4
  | .hdrW => 5
  | .hdrR => 6
  | .walk => 7
  | .fill => 8
  | .clr => 9

/-- STATUS.ERR "equals ERR_KIND != 0" (R35). -/
def State.err (s : State) : Bool := s.errKind != .none

/-- STATUS as read (R35): bit 0 BUSY, 1 DONE, 2 ERR, 3 OUT_VALID, 4 TREE_VALID, 5 CT_VALID, 7:6 read as 0. -/
def State.status (s : State) : BitVec 8 :=
  (0 : BitVec 2) ++ BitVec.ofBool s.ctValid ++ BitVec.ofBool s.treeValid ++ BitVec.ofBool s.outValid
    ++ BitVec.ofBool s.err ++ BitVec.ofBool s.done ++ BitVec.ofBool s.busy

/-- "PACK, UNPACK, ENCODE or DECODE" (R33, R232 (3)): the commands that write OUT. -/
def writesOut : Instr → Bool
  | .clear => false
  | .fcount => false
  | .buildTree => false
  | .genCodes => false
  | .pack => true
  | .unpack => true
  | .encode => true
  | .decode => true

end Sys2Proof.Machine
end

