-- ==== Sys2Proof/Machine/Ops.lean ====
section
/-! DEFINITION. The shared operations: MemRead and MemWrite (20_memory.md R63, R64), beginning and ending a command
(60_exceptions.md R231, R232), and dropping what holds no value any more (10_state.md R24, R29, R37, R38). -/

namespace Sys2Proof.Machine

/-- What a `raise Kind(CAUSE, info)` carries (R18); the kind is the cause's (R221). -/
structure Raise where
  cause : Cause
  info : BitVec 64
deriving DecidableEq, Repr

/-- The outcome of a piece of a command: a result and the state reached, or a `raise` and the state at it. -/
inductive Res (α : Type) where
  | ok (a : α) (s : State)
  | raised (e : Raise) (s : State)
deriving DecidableEq, Repr

/-! ### Reading IN (R63) -/

/-- Bytes `addr .. addr + n - 1` in ascending order, the end of the stream and the unreadable offset as R63 says; the
IN read offset follows the bytes read (R44). -/
def memReadBytes : Nat → Nat → State → Res (Option (List Byte))
  | 0, _, s => .ok (some []) s
  | n + 1, addr, s =>
    if s.inLen.toNat ≤ addr then .ok none s
    else if s.inBadAt addr then .raised ⟨.srcUnreadable, BitVec.ofNat 64 addr⟩ s
    else
      match memReadBytes n (addr + 1) (s.setInOff (BitVec.ofNat 64 (addr + 1))) with
      | .ok (some bs) s1 => .ok (some (s.inByte addr :: bs)) s1
      | .ok none s1 => .ok none s1
      | .raised e s1 => .raised e s1

/-- `MemRead(addr, n)` (R63): `none` is EOS. -/
def memRead (addr n : Nat) (s : State) : Res (Option Nat) :=
  match memReadBytes n addr s with
  | .ok (some bs) s1 => .ok (some (leValue bs)) s1
  | .ok none s1 => .ok none s1
  | .raised e s1 => .raised e s1

/-! ### Writing OUT (R64) -/

/-- How many bytes OUT can take: OUT_CAP (R12), and never more than 2^64 - 1, the largest OUT_LEN that the 64-bit
register holds ("No cursor wraps", R44; log entry 8). -/
def outLimit (env : Env) : Nat :=
  match env.outCap with
  | some c => min c (2 ^ 64 - 1)
  | none => 2 ^ 64 - 1

/-- `OUT_LEN >= OUT_CAP` (R64). -/
def State.outFull (s : State) : Bool := decide (outLimit s.env ≤ s.outLen.toNat)

/-- `OutByte(v)` (R64). -/
def outByte (v : Byte) (s : State) : Res Unit :=
  if s.outFull then .raised ⟨.dstUnwritable, s.outLen⟩ s
  else .ok () (s.setOut (Memory.set s.outMem s.outLen.toNat v) (s.outLen + 1))

/-- `OutByte` for each byte of a list, in order. -/
def outBytes : List Byte → State → Res Unit
  | [], s => .ok () s
  | b :: bs, s =>
    match outByte b s with
    | .ok _ s1 => outBytes bs s1
    | .raised e s1 => .raised e s1

/-- `MemWrite(OUT_LEN, n, v)` (R64): the `n` low-order bytes of `v`, least significant byte first. -/
def memWrite (n v : Nat) (s : State) : Res Unit := outBytes (leBytes n v) s

/-! ### What holds no value any more

"No value" is written by `drop...`: a list forgets its entries, a register takes a fresh free value (log entry 4). -/

/-- NODE, NCOUNT, ROOT hold no value and TREE_VALID = 0 (R24, R193). -/
def State.dropTree (s : State) : State :=
  { s with
    node := []
    ncount := Config.freeBits 10 .ncount s.draws
    root := Config.freeBits 9 .root s.draws
    treeValid := false
    draws := s.draws + 1 }

/-- CT holds no value and CT_VALID = 0 (R29, R193). -/
def State.dropCodes (s : State) : State := { s with ct := [], ctValid := false }

/-- OUT has no definite content and OUT_VALID = 0 (R269, U2). -/
def State.dropOut (s : State) : State := { s with outMem := [], outValid := false }

/-- ACC and FILL hold no value (R37). -/
def State.dropPacker (s : State) : State :=
  { s with
    acc := Config.freeBits 8 .acc s.draws
    fill := Config.freeBits 4 .fill s.draws
    draws := s.draws + 1 }

/-- CUR, EMITTED and BITPOS hold no value (R38). -/
def State.dropWalker (s : State) : State :=
  { s with
    cur := Config.freeBits 9 .cur s.draws
    emitted := Config.freeBits 64 .emitted s.draws
    bitpos := Config.freeBits 67 .bitpos s.draws
    draws := s.draws + 1 }

/-- The IN read offset holds no value (log entry 17). -/
def State.dropInOff (s : State) : State :=
  { s with inOff := Config.freeBits 64 .inOff s.draws, draws := s.draws + 1 }

/-- `FT[0..255] <- 0; TOTAL <- 0`. -/
def State.clearCounts (s : State) : State := s.setCounts ftZero 0

/-- The discard of R193: FT and TOTAL cleared, tree and code table gone, PAY emptied. -/
def State.discard (s : State) : State := s.clearCounts.dropTree.dropCodes.setPay []

/-! ### Beginning and ending a command -/

/-- A command begins: BUSY = 1 until it ends (R45), DONE "cleared when a command starts" (R35), and PHASE is the
command's first (R44). -/
def State.begin (s : State) (p : Phase) : State := { s with busy := true, done := false, phase := p }

/-- `OUT_LEN <- 0; OUT_VALID <- 0` (R163, R180, R187, R194); with OUT_VALID = 0 OUT has no definite content (R269). -/
def State.openOut (s : State) : State := s.dropOut.setOut [] 0

/-- `finish` (R231). STATUS.ERR is computed from ERR_KIND. -/
def State.finish (s : State) : State :=
  { s with errKind := .none, errCause := .none, errInfo := 0, done := true, busy := false, phase := .idle }

/-- Writing the row of R221: (4) of R232. -/
def State.recordError (s : State) (e : Raise) : State :=
  { s with errKind := e.cause.kind, errCause := e.cause, errInfo := e.info, done := true, busy := false, phase := .idle }

/-- TAKING AN EXCEPTION: `raise Kind(CAUSE, info)` ends the command `i` (R232): "OUT_VALID <- 0 if the command is PACK,
UNPACK, ENCODE or DECODE, otherwise OUT_VALID is unchanged" (3), then (4). "Control goes nowhere: there is no handler,
no vector and no saved return address". (1) is `Res.raised`; (2) is done by the command's own meaning. -/
def State.raise (s : State) (i : Instr) (e : Raise) : State :=
  if writesOut i then s.dropOut.recordError e else s.recordError e

/-- There is no return instruction (R234): the error registers hold until the next command ends, and CLEAR resets
them. This is what CLEAR does to them (R185, R49). -/
def State.acknowledge (s : State) : State :=
  { s with errKind := .none, errCause := .none, errInfo := 0, done := false, busy := false, phase := .idle }

end Sys2Proof.Machine
end

