-- ==== Sys2Proof/Machine/BitPacker.lean ====
section
/-! DEFINITION. The bit packer: PACK (43_bit_packer.md R160 to R165). -/

namespace Sys2Proof.Machine

/-- `append to PAY`, the sink inside ENCODE (R189). -/
def payByte (v : Byte) (s : State) : Res Unit := .ok () (s.setPay (s.pay ++ [v]))

/-- One bit of R161: `ACC <- (2 * ACC + bit) mod 256; FILL <- FILL + 1`. -/
def State.shiftBit (s : State) (bit : Bool) : State :=
  s.setPacker (s.acc * 2 + (if bit then 1 else 0)) (s.fill + 1)

/-- One bit of R161, with the emission of a full accumulator. -/
def packBit (sink : Byte → State → Res Unit) (bit : Bool) (s : State) : Res Unit :=
  let s1 := s.shiftBit bit
  if s1.fill = 8 then
    match sink s1.acc s1 with
    | .ok _ s2 => .ok () (s2.setPacker 0 0)
    | .raised e s2 => .raised e s2
  else .ok () s1

/-- The bits of one code, "bits[0], the root-most bit, first" (R161). -/
def packBits (sink : Byte → State → Res Unit) : List Bool → State → Res Unit
  | [], s => .ok () s
  | bit :: bits, s =>
    match packBit sink bit s with
    | .ok _ s1 => packBits sink bits s1
    | .raised e s1 => .raised e s1

/-- The loop of R161 from offset `o`, `n` offsets being left before the end of the stream. -/
def packLoop (sink : Byte → State → Res Unit) : Nat → Nat → State → Res Unit
  | 0, _, s => .ok () s
  | n + 1, o, s =>
    match memRead o 1 s with
    | .ok none s1 => .ok () s1
    | .raised e s1 => .raised e s1
    | .ok (some b) s1 =>
      if codeOf s1.ct (BitVec.ofNat 8 b) = [] then .raised ⟨.noCode, BitVec.ofNat 64 o⟩ s1
      else
        match packBits sink (codeOf s1.ct (BitVec.ofNat 8 b)) s1 with
        | .ok _ s2 => packLoop sink n (o + 1) s2
        | .raised e s2 => .raised e s2

/-- `flush(sink)` (R162): the bits left over are padded with zero bits on the right; answers `tb`. -/
def packFlush (sink : Byte → State → Res Unit) (s : State) : Res (BitVec 3) :=
  if s.fill = 0 then .ok 0 s
  else
    match sink (s.acc <<< (8 - s.fill.toNat)) s with
    | .ok _ s1 => .ok (s.fill.setWidth 3) s1
    | .raised e s1 => .raised e s1

/-- `Pack(sink)` (R161, R162) from the offset 0 that `o <- 0` sets. -/
def packRun (sink : Byte → State → Res Unit) (s : State) : Res (BitVec 3) :=
  match packLoop sink s.inLen.toNat 0 (s.setPacker 0 0) with
  | .ok _ s1 => packFlush sink s1
  | .raised e s1 => .raised e s1

/-- `Pack(sink)` (R161, R162); the IN read offset "restarts at 0" (R44). -/
def packAll (sink : Byte → State → Res Unit) (s : State) : Res (BitVec 3) := packRun sink (s.setInOff 0)

/-- The body of PACK (R163). -/
def packBody (s : State) : Res Unit :=
  if s.ctValid = false then .raised ⟨.noCodeTable, 0⟩ s
  else
    match packAll outByte s with
    | .ok tb s1 => .ok () ((s1.setTrail tb).setOutValid true)
    | .raised e s1 => .raised e s1

/-- PACK (R163). ACC, FILL and the IN read offset hold no value afterwards (R37). -/
def execPack (s : State) : Host.Outcome State Fault Refusal :=
  match packBody (s.begin .pack).openOut with
  | .ok _ s1 => .next s1.dropPacker.dropInOff.finish
  | .raised e s1 => .next (s1.dropPacker.dropInOff.raise .pack e)

end Sys2Proof.Machine
end

