-- ==== Sys2Proof/Machine/BitUnpacker.lean ====
section
/-! DEFINITION. The bit unpacker: UNPACK (44_bit_unpacker.md R170 to R181). -/

namespace Sys2Proof.Machine

/-- The walk arrives at node `c` (R173): an Internal node is where the next bit is taken; a Leaf's symbol is emitted,
unless it is the dummy leaf (R176). No entry at `c` is the source's "null child" (R177, log entry 16). -/
def walkArrive (c : NodeIdx) (s : State) : Res Unit :=
  match nodeAt s.node c with
  | none => .raised ⟨.nullChild, s.emitted⟩ s
  | some (.internal _ _ _) => .ok () (s.setWalk c s.emitted)
  | some (.leaf sym f) =>
    if f = 0 then .raised ⟨.dummyLeaf, s.emitted⟩ s
    else
      match outByte sym s with
      | .ok _ s1 => .ok () (s1.setWalk s1.root (s1.emitted + 1))
      | .raised e s1 => .raised e s1

/-- One payload bit (R173): left child on 0, right child on 1. -/
def walkTake (bit : Bool) (s : State) : Res Unit :=
  match childOf s.node s.cur bit with
  | none => .raised ⟨.nullChild, s.emitted⟩ s
  | some c => walkArrive c s

/-- Reading the next bit and taking it (R173). The read is "never EOS here"; were it, the bits would have run out. -/
def walkBit (base : Nat) (s : State) : Res Unit :=
  match memRead (base + s.bitpos.toNat / 8) 1 s with
  | .raised e s1 => .raised e s1
  | .ok none s1 => .raised ⟨.payloadExhausted, s1.emitted⟩ s1
  | .ok (some b) s1 =>
    walkTake (streamBit (BitVec.ofNat 8 b) (s.bitpos.toNat % 8)) (s1.setBitpos (s1.bitpos + 1))

/-- The loop of R173; the first argument is `avail - BITPOS`, the bits still usable. The test `EMITTED < L` comes first
(R175), then the test that bits are left (R178). -/
def walkLoop (base len : Nat) : Nat → State → Res Unit
  | 0, s =>
    if len ≤ s.emitted.toNat then .ok () s
    else .raised ⟨.payloadExhausted, s.emitted⟩ s
  | k + 1, s =>
    if len ≤ s.emitted.toNat then .ok () s
    else
      match walkBit base s with
      | .ok _ s1 => walkLoop base len k s1
      | .raised e s1 => .raised e s1

/-- `Walk(base, tb, L)` (R173). -/
def walk (base tb len : Nat) (s : State) : Res Unit :=
  if len = 0 then .ok () s
  else if s.inLen.toNat - base = 0 then .raised ⟨.truncatedPayload, BitVec.ofNat 64 base⟩ s
  else
    walkLoop base len (availBits (s.inLen.toNat - base) tb) ((s.setWalk s.root 0).setBitpos 0)

/-- The body of UNPACK (R180, R171). -/
def unpackBody (s : State) : Res Unit :=
  if s.treeValid = false then .raised ⟨.noTree, 0⟩ s
  else
    match walk 0 s.trail.toNat s.origLen.toNat s with
    | .ok _ s1 => .ok () (s1.setOutValid true)
    | .raised e s1 => .raised e s1

/-- The start of UNPACK (R180); IN is read from offset 0 on (R44, R171). -/
def State.openUnpack (s : State) : State := (s.begin .walk).openOut.setInOff 0

/-- UNPACK (R180). CUR, EMITTED, BITPOS and the IN read offset hold no value afterwards (R38). -/
def execUnpack (s : State) : Host.Outcome State Fault Refusal :=
  match unpackBody s.openUnpack with
  | .ok _ s1 => .next s1.dropWalker.dropInOff.finish
  | .raised e s1 => .next (s1.dropWalker.dropInOff.raise .unpack e)

end Sys2Proof.Machine
end

