-- ==== Sys2Proof/Machine/CodeGenerator.lean ====
section
/-! DEFINITION. The code generator: GEN_CODES (42_code_generator.md R150 to R156). -/

namespace Sys2Proof.Machine

/-- The table with no code in any of its 256 entries: "for s in 0 .. 255: CT[s].len <- 0" (R153). -/
def noCodes : List Code := List.replicate 256 []

/-- The visit of a Leaf (R151): its path is its symbol's code; the dummy leaf, known by `f = 0`, gets no entry (R152). -/
def State.visitLeaf (s : State) (sym : Byte) (f : Count) (path : Code) : State :=
  if f = 0 then s else s.setGen (s.ct.set sym.toNat path) s.genStack

/-- The traversal of R151 with an explicit stack (R155): the node visited is `i`, reached by `path`; the stack holds the
right children still to visit. `k` bounds the visits. -/
def genLoop : Nat → NodeIdx → Code → State → State
  | 0, _, _, s => s
  | k + 1, i, path, s =>
    match nodeAt s.node i with
    | some (.internal _ l r) =>
      genLoop k l (path ++ [false]) (s.setGen s.ct ((r, path ++ [true]) :: s.genStack))
    | some (.leaf sym f) =>
      let s1 := s.visitLeaf sym f path
      match s1.genStack with
      | [] => s1
      | (j, p) :: rest => genLoop k j p (s1.setGen s1.ct rest)
    | none => s

/-- The body of GEN_CODES (R153): each node is visited once, so NCOUNT visits are enough; the stack is empty outside. -/
def genBody (s : State) : Res Unit :=
  let s1 := (s.setPhase .gen).dropCodes
  if s1.treeValid = false then .raised ⟨.noTree, 0⟩ s1
  else
    let s2 := genLoop s1.node.length s1.root [] (s1.setGen noCodes [])
    .ok () ((s2.setGen s2.ct []).setCtValid true)

/-- GEN_CODES (R153). -/
def execGenCodes (s : State) : Host.Outcome State Fault Refusal :=
  match genBody (s.begin .gen) with
  | .ok _ s1 => .next s1.finish
  | .raised e s1 => .next (s1.raise .genCodes e)

end Sys2Proof.Machine
end

