-- ==== Sys2Proof/Machine/FreqCounter.lean ====
section
/-! DEFINITION. The Frequency Counter: FCOUNT (40_freq_counter.md R120 to R123). -/

namespace Sys2Proof.Machine

/-- `FT[b] <- FT[b] + 1; TOTAL <- TOTAL + 1` (R121). -/
def State.countByte (s : State) (b : Byte) : State :=
  s.setCounts (ftSet s.ft b (ftAt s.ft b + 1)) (s.total + 1)

/-- The loop of R121 from offset `o`, `n` offsets being left before the end of the stream. -/
def countLoop : Nat → Nat → State → Res Unit
  | 0, _, s => .ok () s
  | n + 1, o, s =>
    match memRead o 1 s with
    | .ok (some b) s1 => countLoop n (o + 1) (s1.countByte (BitVec.ofNat 8 b))
    | .ok none s1 => .ok () s1
    | .raised e s1 => .raised e s1

/-- The body of FCOUNT (R121). -/
def countBody (s : State) : Res Unit :=
  countLoop s.inLen.toNat 0 ((s.clearCounts.setPhase .count).setInOff 0)

/-- FCOUNT (R121, R122): on an unreadable source FT and TOTAL are cleared. -/
def execFcount (s : State) : Host.Outcome State Fault Refusal :=
  match countBody (s.begin .count) with
  | .ok _ s1 => .next s1.dropInOff.finish
  | .raised e s1 => .next (s1.clearCounts.dropInOff.raise .fcount e)

end Sys2Proof.Machine
end

