-- ==== Sys2Proof/Machine/TreeBuilder.lean ====
section
/-! DEFINITION. The tree builder: BUILD_TREE (41_tree_builder.md R130 to R142). -/

namespace Sys2Proof.Machine

/-! ### The queue order (R131) -/

/-- A key: frequency, class (Internal 0, Leaf 1), tie (index of an Internal node, symbol of a Leaf). -/
structure Key where
  f : Nat
  cls : Nat
  tie : Nat
deriving DecidableEq, Repr

/-- "compared lexicographically, smaller first" (R131). -/
def Key.lt (a b : Key) : Bool :=
  decide (a.f < b.f) ||
    (decide (a.f = b.f) &&
      (decide (a.cls < b.cls) || (decide (a.cls = b.cls) && decide (a.tie < b.tie))))

/-- `key(i)` of a node at index `i` (R131). -/
def Node.key (n : Node) (i : Nat) : Key :=
  match n with
  | .leaf sym f => ⟨f.toNat, 1, sym.toNat⟩
  | .internal f _ _ => ⟨f.toNat, 0, i⟩

/-- `key(i)` in a node store; an index with no entry comes after every node (no queue holds one). -/
def keyAt (node : List Node) (i : NodeIdx) : Key :=
  match nodeAt node i with
  | some n => n.key i.toNat
  | none => ⟨2 ^ 64, 0, i.toNat⟩

/-- The member of `m :: q` with the smallest key. -/
def minIdx (node : List Node) : NodeIdx → List NodeIdx → NodeIdx
  | m, [] => m
  | m, i :: q => minIdx node (if (keyAt node i).lt (keyAt node m) then i else m) q

/-- `extract_min(Q)`: "removes and returns the member of `Q` with the smallest key" (R131). -/
def extractMin (node : List Node) : List NodeIdx → Option (NodeIdx × List NodeIdx)
  | [] => none
  | i :: q => some (minIdx node i q, (i :: q).erase (minIdx node i q))

/-! ### Seeding, the two cases (R132, R134, R135) -/

/-- A node store and a queue. -/
structure Forest where
  node : List Node
  q : List NodeIdx
deriving DecidableEq, Repr

/-- The leaves, "in ascending symbol order" (R132). -/
def leafNodes (ft : Vector Count 256) : List Node := (ftEntries ft).map (fun p => .leaf p.1 p.2)

/-- The indices `0 .. n-1`. -/
def indexList (n : Nat) : List NodeIdx := (List.range n).map (BitVec.ofNat 9)

/-- Seeding (R132): one Leaf per symbol with nonzero frequency, each in the queue. -/
def seedForest (ft : Vector Count 256) : Forest :=
  { node := leafNodes ft, q := indexList (leafNodes ft).length }

/-- The frequency of node `i`. -/
def freqAt (node : List Node) (i : NodeIdx) : Count :=
  match nodeAt node i with
  | some n => n.freq
  | none => 0

/-- The single-symbol case (R134): the real leaf left, the dummy leaf right. -/
def singleForest (fr : Forest) : Forest :=
  { node := fr.node ++ [.leaf Config.dummySym 0, .internal (freqAt fr.node 0) 0 1], q := [2] }

/-- One pass of the loop of R135: the two minima `a`, `b` become the left and right child of a new Internal node. With
fewer than two members the queue stays. -/
def mergeOnce (fr : Forest) : Forest :=
  match extractMin fr.node fr.q with
  | none => fr
  | some (a, q1) =>
    match extractMin fr.node q1 with
    | none => fr
    | some (b, q2) =>
      { node := fr.node ++ [.internal (freqAt fr.node a + freqAt fr.node b) a b]
        q := q2 ++ [BitVec.ofNat 9 fr.node.length] }

/-- `k` passes of the loop of R135. -/
def mergeLoop : Nat → Forest → Forest
  | 0, fr => fr
  | k + 1, fr => mergeLoop k (mergeOnce fr)

/-- The forest after the merges: the single-symbol case when `n = 1`, else the loop, which runs `n - 1` times (R136). -/
def growForest (fr : Forest) : Forest :=
  if fr.q.length = 1 then singleForest fr else mergeLoop (fr.q.length - 1) fr

/-! ### The command (R137) -/

/-- The node store and the queue take a forest; NCOUNT is the number of entries in use (R24). -/
def State.setForest (s : State) (fr : Forest) : State :=
  s.setNodes fr.node fr.q (BitVec.ofNat 10 fr.node.length)

/-- The forest in the state. -/
def State.forest (s : State) : Forest := { node := s.node, q := s.q }

/-- "ROOT <- the one member of Q; Q <- {}" (R135). -/
def State.takeRoot (s : State) : State :=
  match s.q with
  | [] => s
  | r :: _ => s.setRoot r []

/-- The body of BUILD_TREE (R137), its checks in the order of R133. -/
def buildBody (s : State) : Res Unit :=
  let s1 := (s.setPhase .build).dropTree.dropCodes
  if ftSum s1.ft = 0 then .raised ⟨.emptyTable, 0⟩ s1
  else if 2 ^ 64 ≤ ftSum s1.ft then .raised ⟨.freqOverflow, 0⟩ s1
  else
    let s2 := s1.setForest (seedForest s1.ft)
    let s3 := s2.setForest (growForest s2.forest)
    .ok () (s3.takeRoot.setTreeValid true)

/-- BUILD_TREE (R137). -/
def execBuildTree (s : State) : Host.Outcome State Fault Refusal :=
  match buildBody (s.begin .build) with
  | .ok _ s1 => .next s1.finish
  | .raised e s1 => .next (s1.raise .buildTree e)

end Sys2Proof.Machine
end

