-- ==== Sys2Proof/Machine/ContainerCodec.lean ====
section
/-! DEFINITION. The container codec: CLEAR, ENCODE, DECODE (45_container_codec.md R185 to R202). The two codec commands
are written over a magic given as an argument, so that they can be tried on a placeholder; the machine runs them on
`Config.magic` (log entry 2). -/

namespace Sys2Proof.Machine

/-! ### CLEAR -/

/-- The column "value after CLEAR" of R49. IN and IN_LEN are unchanged. -/
def State.clearAll (s : State) : State :=
  (((((s.discard.openOut.dropPacker.dropWalker.dropInOff.setOrigLen 0).setSymCount 0).setTrail 0).setNodes [] []
    (Config.freeBits 10 .ncount s.draws)).setGen [] [])

/-- CLEAR (R185): "the one command that ends with STATUS.DONE = 0". -/
def execClear (s : State) : Host.Outcome State Fault Refusal :=
  .next (s.begin .clr).clearAll.acknowledge

/-! ### ENCODE -/

/-- The symbol table of a container (R95, R190): each symbol with nonzero frequency and its frequency, "in symbol-value
order". -/
def symbolTable (ft : Vector Count 256) : List Byte :=
  (ftEntries ft).flatMap (fun p => p.1 :: leBytes 8 p.2.toNat)

/-- The header (R96, R190): magic, original length, symbol count, symbol table, trailing-bits byte. -/
def headerBytes (magic : List Byte) (len n : Nat) (ft : Vector Count 256) (tb : Nat) : List Byte :=
  magic ++ leBytes 8 len ++ leBytes 2 n ++ symbolTable ft ++ [BitVec.ofNat 8 tb]

/-- Step 2 of ENCODE, the empty input (R188). -/
def encodeEmpty (magic : List Byte) (s : State) : Res Unit :=
  outBytes (magic ++ leBytes 8 0 ++ leBytes 2 0 ++ [0]) (((s.setSymCount 0).setTrail 0).setPhase .hdrW)

/-- Step 4 of ENCODE, writing the container (R190). -/
def encodeWrite (magic : List Byte) (s : State) : Res Unit :=
  outBytes (headerBytes magic s.origLen.toNat s.symCount.toNat s.ft s.trail.toNat ++ s.pay) (s.setPhase .hdrW)

/-- Step 3 of ENCODE from the packing on (R189): PAY takes the payload, then SYM_COUNT and TRAIL are written. -/
def encodePack (magic : List Byte) (s : State) : Res Unit :=
  match packAll payByte ((s.setPhase .pack).setPay []) with
  | .raised e s1 => .raised e s1
  | .ok tb s1 =>
    encodeWrite magic ((s1.setSymCount (BitVec.ofNat 16 (ftEntries s1.ft).length)).setTrail tb)

/-- Step 3 of ENCODE (R189): build, generate, pack. -/
def encodeFull (magic : List Byte) (s : State) : Res Unit :=
  match buildBody s with
  | .raised e s1 => .raised e s1
  | .ok _ s1 =>
    match genBody s1 with
    | .raised e s2 => .raised e s2
    | .ok _ s2 => encodePack magic s2

/-- Steps 1 to 4 of ENCODE (R187 to R190). -/
def encodeBody (magic : List Byte) (s : State) : Res Unit :=
  match countBody s with
  | .raised e s1 => .raised e s1
  | .ok _ s1 =>
    let s2 := s1.setOrigLen s1.total
    if s2.total = 0 then encodeEmpty magic s2 else encodeFull magic s2

/-- The end of ENCODE, common to every exit path: the discard (R193); the packer and the IN read offset hold no value
(R37). -/
def State.closeEncode (s : State) : State := s.discard.dropPacker.dropInOff

/-- ENCODE on a given magic (R186 to R193). -/
def execEncodeWith (magic : List Byte) (s : State) : Host.Outcome State Fault Refusal :=
  match encodeBody magic (s.begin .count).openOut with
  | .ok _ s1 => .next (s1.setOutValid true).closeEncode.finish
  | .raised e s1 => .next (s1.closeEncode.raise .encode e)

/-- ENCODE (R186). -/
def execEncode (s : State) : Host.Outcome State Fault Refusal := execEncodeWith Config.magic s

/-! ### DECODE -/

/-- The start of DECODE (R194); IN is read from offset 0 on (R44). -/
def State.openDecode (s : State) : State :=
  ((((((s.begin .hdrR).openOut.setInOff 0).setOrigLen 0).setSymCount 0).setTrail 0).setFt ftZero).dropTree.dropCodes

/-- A header field: "a `MemRead` that returns `EOS` raises `FormatError(TRUNCATED_HEADER, need)`" (R194). -/
def readField (addr n need : Nat) (s : State) : Res Nat :=
  match memRead addr n s with
  | .ok (some v) s1 => .ok v s1
  | .ok none s1 => .raised ⟨.truncatedHeader, BitVec.ofNat 64 need⟩ s1
  | .raised e s1 => .raised e s1

/-- Step 1 of DECODE, the magic (R195), from byte `k` on. -/
def checkMagic : List Byte → Nat → State → Res Unit
  | [], _, s => .ok () s
  | m :: ms, k, s =>
    match memRead k 1 s with
    | .raised e s1 => .raised e s1
    | .ok none s1 => .raised ⟨.badMagic, BitVec.ofNat 64 k⟩ s1
    | .ok (some b) s1 =>
      if BitVec.ofNat 8 b = m then checkMagic ms (k + 1) s1
      else .raised ⟨.badMagic, BitVec.ofNat 64 k⟩ s1

/-- Step 2 of DECODE, the length (R196). -/
def readLength (s : State) : Res Nat :=
  match readField 4 8 12 s with
  | .raised e s1 => .raised e s1
  | .ok len s1 => .ok len (s1.setOrigLen (BitVec.ofNat 64 len))

/-- The loop of R197 from entry `k`, `r` entries being left: `lo` is `prev + 1`, `sum` a natural number. Answers the
final sum. -/
def tableLoop : Nat → Nat → Nat → Nat → State → Res Nat
  | 0, _, _, sum, s => .ok sum s
  | r + 1, k, lo, sum, s =>
    match readField (14 + 9 * k) 1 (15 + 9 * k) s with
    | .raised e s1 => .raised e s1
    | .ok sym s1 =>
      match readField (15 + 9 * k) 8 (23 + 9 * k) s1 with
      | .raised e s2 => .raised e s2
      | .ok f s2 =>
        if sym < lo then .raised ⟨.tableOrder, BitVec.ofNat 64 k⟩ s2
        else if f = 0 then .raised ⟨.zeroFreq, BitVec.ofNat 64 k⟩ s2
        else
          tableLoop r (k + 1) (sym + 1) (sum + f)
            (s2.setFt (ftSet s2.ft (BitVec.ofNat 8 sym) (BitVec.ofNat 64 f)))

/-- The entries of the symbol table and their sum's check (R197). Answers `n`. -/
def readEntries (n len : Nat) (s : State) : Res Nat :=
  match tableLoop n 0 0 0 s with
  | .raised e s1 => .raised e s1
  | .ok sum s1 => if sum = len then .ok n s1 else .raised ⟨.lengthMismatch, BitVec.ofNat 64 sum⟩ s1

/-- Step 3 of DECODE, the symbol table (R197), its checks in the order of R229. Answers `n`. -/
def readTable (len : Nat) (s : State) : Res Nat :=
  match readField 12 2 14 s with
  | .raised e s1 => .raised e s1
  | .ok n s1 =>
    let s2 := s1.setSymCount (BitVec.ofNat 16 n)
    if 256 < n then .raised ⟨.symcountTooLarge, BitVec.ofNat 64 n⟩ s2
    else if n = 0 then .raised ⟨.symcountZero, 0⟩ s2
    else if s2.inLen.toNat < 14 + 9 * n then .raised ⟨.truncatedHeader, BitVec.ofNat 64 (14 + 9 * n)⟩ s2
    else readEntries n len s2

/-- `for i in 0 .. L - 1: OutByte(s_0)` (R199). -/
def fillLoop : Nat → Byte → State → Res Unit
  | 0, _, s => .ok () s
  | k + 1, b, s =>
    match outByte b s with
    | .ok _ s1 => fillLoop k b s1
    | .raised e s1 => .raised e s1

/-- Step 6 of DECODE, the walk (R201). -/
def decodeWalk (n tb len : Nat) (s : State) : Res Unit :=
  walk (15 + 9 * n) tb len ((s.setTrail (BitVec.ofNat 3 tb)).setPhase .walk)

/-- Step 5 of DECODE, the tree and the trailing bits (R200), then step 6. -/
def decodeTree (n len : Nat) (s : State) : Res Unit :=
  match buildBody s with
  | .raised e s1 => .raised e s1
  | .ok _ s1 =>
    match readField (14 + 9 * n) 1 (15 + 9 * n) s1 with
    | .raised e s2 => .raised e s2
    | .ok tb s2 =>
      if 7 < tb then .raised ⟨.badTrailingBits, BitVec.ofNat 64 tb⟩ s2
      else decodeWalk n tb len s2

/-- Steps 3 to 6 of DECODE for a length that is not 0; `s_0 = C[14]` (R199). -/
def decodeSymbols (len : Nat) (s : State) : Res Unit :=
  match readTable len s with
  | .raised e s1 => .raised e s1
  | .ok n s1 =>
    if n = 1 then fillLoop len (s1.inByte 14) (s1.setPhase .fill)
    else decodeTree n len s1

/-- Steps 2 to 6 of DECODE; "if 0, produce an empty output and stop" (R196). -/
def decodeLength (s : State) : Res Unit :=
  match readLength s with
  | .raised e s1 => .raised e s1
  | .ok len s1 => if len = 0 then .ok () s1 else decodeSymbols len s1

/-- Steps 1 to 6 of DECODE (R195 to R201). -/
def decodeBody (magic : List Byte) (s : State) : Res Unit :=
  match checkMagic magic 0 s with
  | .raised e s1 => .raised e s1
  | .ok _ s1 => decodeLength s1

/-- The end of DECODE, common to every exit path: the discard (R193); the walker and the IN read offset hold no value
(R38). -/
def State.closeDecode (s : State) : State := s.discard.dropWalker.dropInOff

/-- DECODE on a given magic (R194 to R202). -/
def execDecodeWith (magic : List Byte) (s : State) : Host.Outcome State Fault Refusal :=
  match decodeBody magic s.openDecode with
  | .ok _ s1 => .next (s1.setOutValid true).closeDecode.finish
  | .raised e s1 => .next (s1.closeDecode.raise .decode e)

/-- DECODE (R194). -/
def execDecode (s : State) : Host.Outcome State Fault Refusal := execDecodeWith Config.magic s

end Sys2Proof.Machine
end

