-- ==== Sys2Proof/Machine/HostPort.lean ====
section
/-! DEFINITION. The host's actions while the engine is idle (10_state.md R34, R47, R48; 30_encoding.md R92, R93). -/

namespace Sys2Proof.Machine

/-- The registers of R48. -/
inductive Reg where
  | cmd | status | errKind | errCause | errInfo | inLen | outLen | origLen | symCount | trail | total | root | ncount
  | ft (s : Byte)
  | ct (s : Byte)
  | node (i : Nat)
  | reserved
deriving DecidableEq, Repr

/-- The thirteen single registers of R48, numbers 0x000 to 0x00C. -/
def plainReg (n : Nat) : Reg :=
  match n with
  | 0x000 => .cmd
  | 0x001 => .status
  | 0x002 => .errKind
  | 0x003 => .errCause
  | 0x004 => .errInfo
  | 0x005 => .inLen
  | 0x006 => .outLen
  | 0x007 => .origLen
  | 0x008 => .symCount
  | 0x009 => .trail
  | 0x00A => .total
  | 0x00B => .root
  | 0x00C => .ncount
  | _ => .reserved

/-- The register a number names (R48); "Numbers not in the table are reserved". -/
def regOf (n : Nat) : Reg :=
  if n ≤ 0x00C then plainReg n
  else if 0x100 ≤ n ∧ n < 0x200 then .ft (BitVec.ofNat 8 (n - 0x100))
  else if 0x200 ≤ n ∧ n < 0x300 then .ct (BitVec.ofNat 8 (n - 0x200))
  else if 0x400 ≤ n ∧ n ≤ 0x400 + 510 then .node (n - 0x400)
  else .reserved

/-! ### Commands -/

/-- An illegal word "ends at once with `raise ContractError(ILLEGAL_COMMAND, w)` ... and changes no other state"
(R92). No command runs, so OUT_VALID is unchanged (R232 (3)). -/
def State.illegalCommand (s : State) (w : Byte) : State := s.recordError ⟨.illegalCommand, w.setWidth 64⟩

/-- A host write to CMD (R34): the word is sampled once (R76), decoded (R109), and the command it encodes runs. -/
def runCommand (w : Byte) (s : State) : Host.Outcome State Fault Refusal :=
  match decode w with
  | .ok i => exec i (s.setCmd w)
  | .error _ => .next ((s.setCmd w).illegalCommand w)

/-! ### Register access -/

/-- A host write to a register other than CMD: the host-writable ones of R47 take the value's low bits (log entry 10);
"A host write to a read-only register has no effect" (R47), nor one to a reserved number (R48). -/
def State.writeRegister (s : State) (r : Reg) (v : BitVec 64) : State :=
  match r with
  | .inLen => s.setInLen v
  | .origLen => s.setOrigLen v
  | .trail => s.setTrail (v.setWidth 3)
  | .ft b => s.setFt (ftSet s.ft b v)
  | _ => s

/-- "any value" of a register `w` bits wide (U3, U20; log entry 4). -/
def State.anyWord (s : State) (w : Nat) : HostValue := .word ((Config.freeBits w .hostWord s.draws).setWidth 64)

/-- The word a host reads where `valid`, else any value. -/
def State.wordIf (s : State) (valid : Bool) (w : Nat) (v : BitVec w) : HostValue :=
  if valid then .word (v.setWidth 64) else s.anyWord w

/-- Any code: a length of 0 to 255 and that many bits (R28, U3). -/
def State.anyCode (s : State) : HostValue :=
  let len := Config.freeBits 8 .hostLen s.draws
  let bits := Config.freeBits 255 .hostBits s.draws
  .code len ((List.range len.toNat).map (fun i => bits.getLsbD i))

/-- Any node (U3). -/
def State.anyNode (s : State) : NodeView :=
  { kind := Config.freeBits 1 .hostKind s.draws
    sym := Config.freeBits 8 .hostSym s.draws
    f := Config.freeBits 64 .hostFreq s.draws
    left := Config.freeBits 9 .hostLeft s.draws
    right := Config.freeBits 9 .hostRight s.draws }

/-- The five fields of a node; "for an Internal node the field [sym] holds no value; for a Leaf the field [left, right]
holds no value" (R23), and any value is read there (U3). -/
def State.viewNode (s : State) (n : Node) : NodeView :=
  match n with
  | .leaf sym f => { s.anyNode with kind := 0, sym := sym, f := f }
  | .internal f l r => { s.anyNode with kind := 1, f := f, left := l, right := r }

/-- What a host read of `CT[s]` returns (R47). -/
def State.readCode (s : State) (b : Byte) : HostValue :=
  if s.ctValid then .code (BitVec.ofNat 8 (codeOf s.ct b).length) (codeOf s.ct b) else s.anyCode

/-- What a host read of `NODE[i]` returns (R47): a value for `i < NCOUNT` when TREE_VALID = 1, any value otherwise. -/
def State.readNode (s : State) (i : Nat) : HostValue :=
  match s.node[i]? with
  | some n => if s.treeValid ∧ i < s.ncount.toNat then .node (s.viewNode n) else .node s.anyNode
  | none => .node s.anyNode

/-- What a host read of a register returns (R47, R48), widened to a 64-bit word with zeros (log entry 10). -/
def State.readRegister (s : State) (r : Reg) : HostValue :=
  match r with
  | .cmd => s.anyWord 8
  | .status => .word (s.status.setWidth 64)
  | .errKind => .word (s.errKind.code.setWidth 64)
  | .errCause => .word (s.errCause.code.setWidth 64)
  | .errInfo => .word s.errInfo
  | .inLen => .word s.inLen
  | .outLen => .word s.outLen
  | .origLen => .word s.origLen
  | .symCount => .word (s.symCount.setWidth 64)
  | .trail => .word (s.trail.setWidth 64)
  | .total => .word s.total
  | .root => s.wordIf s.treeValid 9 s.root
  | .ncount => s.wordIf s.treeValid 10 s.ncount
  | .ft b => .word (ftAt s.ft b)
  | .ct b => s.readCode b
  | .node i => s.readNode i
  | .reserved => .word 0

/-! ### Buffer access -/

/-- What a host read of `IN[o]` returns: the byte for `o < IN_LEN` (R47); any value elsewhere (log entry 11). -/
def State.readIn (s : State) (o : Nat) : HostValue :=
  if o < s.inLen.toNat then .word ((s.inByte o).setWidth 64) else s.anyWord 8

/-- What a host read of `OUT[o]` returns: the byte for `o < OUT_LEN` if OUT_VALID = 1, else any value (R47). -/
def State.readOut (s : State) (o : Nat) : HostValue :=
  match Memory.get? s.outMem o with
  | some b => if s.outValid ∧ o < s.outLen.toNat then .word (b.setWidth 64) else s.anyWord 8
  | none => s.anyWord 8

/-- The host takes what its read returned; the free values of the read are used up (log entry 4). -/
def State.deliver (s : State) (v : HostValue) : State := { s with hostData := some v, draws := s.draws + 1 }

/-- LOADIN (R93): "writes the listed bytes to IN from offset 0 and sets IN_LEN to their number". -/
def State.loadBytes (s : State) (bytes : List Byte) : State :=
  (s.setInMem (Memory.setAll s.inMem 0 bytes)).setInLen (BitVec.ofNat 64 bytes.length)

/-- `OUT[0..n)` from offset `o` on, as the host copies it. -/
def State.outSlice (s : State) : Nat → Nat → List Byte
  | _, 0 => []
  | o, n + 1 => (Memory.get? s.outMem o).getD 0 :: State.outSlice s (o + 1) n

/-- MOVEOUT (R93): "copies OUT[0..OUT_LEN-1] to IN and sets IN_LEN <- OUT_LEN". With OUT_VALID = 1 every such byte of OUT
holds a value. -/
def State.moveOut (s : State) : State :=
  (s.setInMem (Memory.setAll s.inMem 0 (s.outSlice 0 s.outLen.toNat))).setInLen s.outLen

/-- Reset (R260) as the host sees it: the environment, the rest of its program and its own data are the host's and stay;
what R49 gives no value takes fresh free values. -/
def State.resetNow (s : State) : State := State.resetWith s.draws s.env s.hostQ s.hostData

/-! ### One host action -/

/-- "while BUSY = 1 the host may read STATUS and nothing else" (R45). -/
def HostAction.whileBusy : HostAction → Bool
  | .readReg n => decide (regOf n = .status)
  | _ => false

/-- One host action, done while the engine is idle (R47). -/
def hostStep (a : HostAction) (s : State) : Host.Outcome State Fault Refusal :=
  match a with
  | .writeReg n v => if regOf n = .cmd then runCommand (v.setWidth 8) s else .next (s.writeRegister (regOf n) v)
  | .readReg n => .next (s.deliver (s.readRegister (regOf n)))
  | .writeIn o b => .next (s.setInMem (Memory.set s.inMem o.toNat b))
  | .readIn o => .next (s.deliver (s.readIn o.toNat))
  | .readOut o => .next (s.deliver (s.readOut o.toNat))
  | .loadIn bytes => if bytes.length < 2 ^ 64 then .next (s.loadBytes bytes) else .fault .loadPastInSpace
  | .moveOut => if s.outValid then .next s.moveOut else .refused .moveOutWhileInvalid
  | .setEnv env => .next (s.setEnv env)
  | .reset => .next s.resetNow

end Sys2Proof.Machine
end

