-- ==== Sys2Proof/Machine/Step.lean ====
section
/-! DEFINITION. One step of the machine: the next host action (log entry 1). -/

namespace Sys2Proof.Machine

/-- One step: with no host action pending "nothing runs" (R260) and the state stays; otherwise the oldest pending action
is done. A CMD write runs a whole command, "one transition from an idle state to an idle state" (R45). While BUSY = 1
the host may only read STATUS (R45, R268). -/
def step (s : State) : Host.Outcome State Fault Refusal :=
  match s.hostQ with
  | [] => .next s
  | a :: rest =>
    if s.busy && !a.whileBusy then .refused .hostActionWhileBusy
    else hostStep a (s.setHostQ rest)

/-- `s` with a write of the word to CMD as the host's next action: that is where a command comes from (R34, R76). -/
def State.withFetchWord (s : State) (nbits w : Nat) : State :=
  s.setHostQ (.writeReg 0x000 (BitVec.ofNat 64 (w % 2 ^ nbits % 256)) :: s.hostQ)

end Sys2Proof.Machine
end

