-- ==== Sys2Proof/Safety.lean ====
section
/-! DEFINITION. The terms of the claims: what a good state is (the invariants), how a command ends, what stays unchanged,
and the spec's own description of trees, codes and packed bits. -/

namespace Sys2Proof.Machine

/-! ### How a command ends -/

/-- The command has ended: the engine is idle and DONE is set (R231, R232). -/
structure State.Ended (t : State) : Prop where
  busy : t.busy = false
  phase : t.phase = .idle
  done : t.done = true

/-- The command ended successfully (R231). -/
structure State.EndsOk (t : State) : Prop where
  ended : t.Ended
  kind : t.errKind = .none
  cause : t.errCause = .none
  info : t.errInfo = 0

/-- The command ended with an error (R232, R221). -/
structure State.EndsWith (t : State) (c : Cause) (info : BitVec 64) : Prop where
  ended : t.Ended
  kind : t.errKind = c.kind
  cause : t.errCause = c
  info : t.errInfo = info

/-- "Which command can raise which kind" (R225), with the causes it names. -/
def mayRaise : Instr → List Cause
  | .clear => []
  | .fcount => [.srcUnreadable]
  | .buildTree => [.emptyTable, .freqOverflow]
  | .genCodes => [.noTree]
  | .pack => [.srcUnreadable, .dstUnwritable, .noCodeTable, .noCode]
  | .unpack => [.srcUnreadable, .dstUnwritable, .truncatedPayload, .payloadExhausted, .dummyLeaf, .noTree]
  | .encode => [.srcUnreadable, .dstUnwritable]
  | .decode =>
    [.srcUnreadable, .dstUnwritable, .badMagic, .truncatedHeader, .symcountTooLarge, .symcountZero, .tableOrder, .zeroFreq,
      .lengthMismatch, .badTrailingBits, .truncatedPayload, .payloadExhausted]

/-! ### What stays unchanged -/

/-- FT and TOTAL. -/
structure SameCounts (s t : State) : Prop where
  ft : t.ft = s.ft
  total : t.total = s.total

/-- NODE, NCOUNT, ROOT, TREE_VALID. -/
structure SameTree (s t : State) : Prop where
  node : t.node = s.node
  ncount : t.ncount = s.ncount
  root : t.root = s.root
  treeValid : t.treeValid = s.treeValid

/-- CT and CT_VALID. -/
structure SameCodes (s t : State) : Prop where
  ct : t.ct = s.ct
  ctValid : t.ctValid = s.ctValid

/-- ORIG_LEN, SYM_COUNT, TRAIL. -/
structure SameHeader (s t : State) : Prop where
  origLen : t.origLen = s.origLen
  symCount : t.symCount = s.symCount
  trail : t.trail = s.trail

/-- IN_LEN and every byte of IN, those nothing has written too. -/
structure SameIn (s t : State) : Prop where
  inLen : t.inLen = s.inLen
  written : ∀ o, Memory.get? t.inMem o = Memory.get? s.inMem o
  byte : ∀ o, t.inByte o = s.inByte o

/-- OUT_LEN, OUT_VALID and every byte of OUT. -/
structure SameOut (s t : State) : Prop where
  outLen : t.outLen = s.outLen
  outValid : t.outValid = s.outValid
  byte : ∀ o, Memory.get? t.outMem o = Memory.get? s.outMem o

/-- ACC and FILL. -/
structure SamePacker (s t : State) : Prop where
  acc : t.acc = s.acc
  fill : t.fill = s.fill

/-- CUR, EMITTED, BITPOS. -/
structure SameWalker (s t : State) : Prop where
  cur : t.cur = s.cur
  emitted : t.emitted = s.emitted
  bitpos : t.bitpos = s.bitpos

/-- PAY, Q and the generator's stack. -/
structure SameScratch (s t : State) : Prop where
  pay : t.pay = s.pay
  queue : t.q = s.q
  stack : t.genStack = s.genStack

/-- CMD, the environment, the program still to run, the host's own data and IN's power-on contents. -/
structure SameHost (s t : State) : Prop where
  cmd : t.cmd = s.cmd
  env : t.env = s.env
  hostQ : t.hostQ = s.hostQ
  hostData : t.hostData = s.hostData
  inSeed : t.inSeed = s.inSeed

/-- NODE, CT and PAY hold nothing, FT and TOTAL are 0 and the tree and the code table are invalid (R193). -/
structure State.Discarded (t : State) : Prop where
  ft : ∀ b, ftAt t.ft b = 0
  total : t.total = 0
  treeValid : t.treeValid = false
  node : t.node = []
  ctValid : t.ctValid = false
  ct : t.ct = []
  pay : t.pay = []

/-- What the two columns of R49 have in common. -/
structure State.Cleared (t : State) : Prop where
  discarded : t.Discarded
  origLen : t.origLen = 0
  symCount : t.symCount = 0
  trail : t.trail = 0
  outLen : t.outLen = 0
  outByte : ∀ o, Memory.get? t.outMem o = none
  outValid : t.outValid = false
  busy : t.busy = false
  done : t.done = false
  err : t.err = false
  errKind : t.errKind = .none
  errCause : t.errCause = .none
  errInfo : t.errInfo = 0
  phase : t.phase = .idle
  queue : t.q = []
  stack : t.genStack = []

/-! ### Buffers -/

/-- No offset below `n` is unreadable (R12, R63). -/
abbrev State.ReadableTo (s : State) (n : Nat) : Prop := ∀ o, o < n → s.inBadAt o = false

/-- No offset below IN_LEN is unreadable. -/
abbrev State.Readable (s : State) : Prop := ∀ o, o < s.inLen.toNat → s.inBadAt o = false

/-- OUT can take `n` bytes: OUT_CAP is at least `n` (R12), and OUT_LEN, a 64-bit register, can
count them (R33; log entry 8). -/
structure State.CanHold (s : State) (n : Nat) : Prop where
  cap : ∀ c, s.env.outCap = some c → n ≤ c
  count : n < 2 ^ 64

/-- OUT holds exactly these bytes, from offset 0 on, and OUT_LEN is their number. -/
structure OutHolds (t : State) (bs : List Byte) : Prop where
  len : t.outLen.toNat = bs.length
  byte : ∀ o, Memory.get? t.outMem o = bs[o]?

/-! ### Bits (R17, R66, R101, R107) -/

/-- The bits of a byte in stream order: "the first bit in stream order is bit 7" (R17). -/
def byteBits (b : Byte) : List Bool := (List.range 8).map (streamBit b)

/-- The bits of a payload in stream order. -/
def payloadBits (p : List Byte) : List Bool := p.flatMap byteBits

/-- The concatenation, in input order, of the codes of the bytes (R101). -/
def codeBits (ct : List Code) (bytes : List Byte) : List Bool := bytes.flatMap (codeOf ct)

/-- Byte `j` of a cut of a bit stream: stream bit `8j + k` is bit `7 - k`; past the end the bits are 0 (R100, R101). -/
def packedByte (bits : List Bool) (j : Nat) : Byte :=
  (List.range 8).foldl (fun v k => v * 2 + (if bits.getD (8 * j + k) false then 1 else 0)) (0 : Byte)

/-- The bit stream "cut into bytes MSB-first ... and the last byte is zero-padded on the right" (R101): `ceil(T / 8)`
bytes (R107). -/
def packedBytes (bits : List Bool) : List Byte := (List.range ((bits.length + 7) / 8)).map (packedByte bits)

/-- The usable bits of a payload (R172). -/
def usableBits (p : List Byte) (tb : Nat) : List Bool := (payloadBits p).take (availBits p.length tb)

/-! ### Frequency tables -/

/-- The symbols `s` with `FT[s] != 0`, "in ascending symbol order" (R132). -/
def present (ft : Vector Count 256) : List Byte :=
  ((List.range 256).map (BitVec.ofNat 8)).filter (fun b => decide (ftAt ft b ≠ 0))

/-! ### Containers (R96, R194 to R200) -/

/-- DECODE comes to read offset `p` of the header of the container `bytes`: the byte belongs to a field that DECODE reads,
and everything before that field passes DECODE's checks (R229). -/
inductive HeaderReadAt (magic bytes : List Byte) (p : Nat) : Prop where
  /-- the magic (R195) -/
  | magic (h : p < 4) (good : ∀ i, i < p → bytes[i]? = magic[i]?)
  /-- original_length (R196) -/
  | length (rest : List Byte) (h1 : 4 ≤ p) (h2 : p < 12) (good : bytes = magic ++ rest)
  /-- symbol_count, behind a length that is not 0 (R197) -/
  | count (len : Nat) (rest : List Byte) (h1 : 12 ≤ p) (h2 : p < 14) (h0 : len ≠ 0) (hlt : len < 2 ^ 64)
      (good : bytes = magic ++ leBytes 8 len ++ rest)
  /-- the entry behind the good entries `es` of a table of `n` entries that is all there (R197) -/
  | entry (len n : Nat) (es : List (Byte × Count)) (rest : List Byte) (h1 : 14 + 9 * es.length ≤ p) (h2 : p < 23 + 9 * es.length)
      (h0 : len ≠ 0) (hlt : len < 2 ^ 64) (hn : es.length < n) (h256 : n ≤ 256) (there : 14 + 9 * n ≤ bytes.length)
      (order : es.Pairwise (fun e e' => e.1.toNat < e'.1.toNat)) (freqs : ∀ e ∈ es, e.2 ≠ 0)
      (good : bytes = magic ++ leBytes 8 len ++ leBytes 2 n ++ es.flatMap (fun e => e.1 :: leBytes 8 e.2.toNat) ++ rest)
  /-- trailing_bits, behind a good table of two symbols or more (R200) -/
  | trailing (ft : Vector Count 256) (rest : List Byte) (h2 : 2 ≤ (present ft).length) (hlt : ftSum ft < 2 ^ 64)
      (hp : p = 14 + 9 * (present ft).length)
      (good : bytes = magic ++ leBytes 8 (ftSum ft) ++ leBytes 2 (present ft).length ++
        (present ft).flatMap (fun b => b :: leBytes 8 (ftAt ft b).toNat) ++ rest)

/-! ### Trees (R25, R26) -/

/-- The children of the Internal nodes of a store, in index order. -/
def childList (node : List Node) : List NodeIdx :=
  node.flatMap (fun n => match n with
    | .leaf _ _ => []
    | .internal _ l r => [l, r])

/-- The symbols of the Leaves with `f >= 1`, in index order. -/
def leafSymbols (node : List Node) : List Byte :=
  node.filterMap (fun n => match n with
    | .leaf sym f => if f = 0 then none else some sym
    | .internal _ _ _ => none)

/-- One node's part of R25: an Internal node's children have lower indices (b) and its frequency is their sum, "with no
wrap-around" (a). -/
def nodeOk (node : List Node) (i : Nat) : Prop :=
  ∀ f l r, node[i]? = some (.internal f l r) →
    l.toNat < i ∧ r.toNat < i ∧ f.toNat = (freqAt node l).toNat + (freqAt node r).toNat

/-- The tree invariants of R25 and R26, for a node store, NCOUNT and ROOT. -/
structure TreeWf (node : List Node) (ncount : BitVec 10) (root : NodeIdx) : Prop where
  /-- NCOUNT is the number of entries in use (R24) -/
  count : ncount.toNat = node.length
  /-- at least three, at most NODE_MAX nodes (R26, R10) -/
  atLeast : 3 ≤ node.length
  atMost : node.length ≤ 511
  /-- "ROOT = NCOUNT - 1" (R25 (d)) -/
  rootLast : root.toNat + 1 = node.length
  /-- "NODE[ROOT].kind = Internal" (R26) -/
  rootInternal : ∃ f l r, node[root.toNat]? = some (.internal f l r)
  /-- R25 (a) and (b) -/
  nodes : ∀ i, nodeOk node i
  /-- "every node other than the root is the child of exactly one Internal node" (R25 (c)) -/
  oneParent : ∀ j : NodeIdx, (childList node).count j = if j.toNat < root.toNat then 1 else 0
  /-- "each real symbol is the symbol of exactly one Leaf" (R151) -/
  symbols : (leafSymbols node).Nodup
  /-- "A Leaf with f = 0 exists only in the degenerate tree and is the dummy leaf" (R26) -/
  dummy : ∀ i sym, node[i]? = some (.leaf sym 0) → node.length = 3 ∧ i = 1 ∧ sym = Config.dummySym

/-- The node a path leads to, "bit 0 → left child, bit 1 → right child" (R111, R106). -/
def followPath (node : List Node) : NodeIdx → Code → Option NodeIdx
  | i, [] => some i
  | i, b :: bs =>
    match childOf node i b with
    | some c => followPath node c bs
    | none => none

/-- The path leads from node `i` to a Leaf of symbol `sym` with `f >= 1`. -/
def LeadsTo (node : List Node) (i : NodeIdx) (path : Code) (sym : Byte) : Prop :=
  ∃ j f, followPath node i path = some j ∧ nodeAt node j = some (.leaf sym f) ∧ f ≠ 0

/-- What a code table of a tree is (R28, R29, R152): 256 entries; the entry of a symbol is the path to its Leaf with
`f >= 1`, of 1 to 255 bits, and is empty for every other symbol. -/
structure CodesOf (node : List Node) (root : NodeIdx) (ct : List Code) : Prop where
  entries : ct.length = 256
  path : ∀ sym, sym ∈ leafSymbols node → LeadsTo node root (codeOf ct sym) sym
  len : ∀ sym, sym ∈ leafSymbols node → 1 ≤ (codeOf ct sym).length ∧ (codeOf ct sym).length ≤ 255
  other : ∀ sym, sym ∉ leafSymbols node → codeOf ct sym = []

/-- `j` is in the queue when node `i` is created: it exists and no Internal node before `i` has it as a child (R135). -/
def InPool (node : List Node) (i : Nat) (j : NodeIdx) : Prop := j.toNat < i ∧ j ∉ childList (node.take i)

/-- Every Internal node takes the two nodes with the smallest keys, the smallest as its left child (R131, R135). -/
def GreedyTree (node : List Node) : Prop :=
  ∀ i f l r, node[i]? = some (.internal f l r) →
    InPool node i l ∧ InPool node i r ∧ (keyAt node l).lt (keyAt node r) = true ∧
      ∀ j, InPool node i j → j ≠ l → j ≠ r → (keyAt node r).lt (keyAt node j) = true

/-! ### Invariants of the machine -/

/-- Both memories are in canonical form. -/
structure State.MemInv (s : State) : Prop where
  inWf : Memory.wf s.inMem = true
  outWf : Memory.wf s.outMem = true

/-- OUT holds exactly the bytes below OUT_LEN when OUT_VALID = 1 (R33, R60), and nothing definite otherwise (R269). -/
structure State.OutInv (s : State) : Prop where
  valid : s.outValid = true → ∀ o, (Memory.get? s.outMem o).isSome = decide (o < s.outLen.toNat)
  invalid : s.outValid = false → s.outMem = []

/-- Between commands the engine is idle and PAY, Q and the generator's stack are empty (R37, R39, R40, R45). -/
structure State.IdleInv (s : State) : Prop where
  busy : s.busy = false
  phase : s.phase = .idle
  pay : s.pay = []
  queue : s.q = []
  stack : s.genStack = []

/-- The error registers agree (R36, R221): the kind is the cause's; with no error ERR_INFO is 0; an error was recorded by
a command that ended. -/
structure State.ErrInv (s : State) : Prop where
  kind : s.errKind = s.errCause.kind
  info : s.errKind = .none → s.errInfo = 0
  done : s.errKind ≠ .none → s.done = true

/-- "TREE_VALID (1 bit) is 1 exactly when NODE, NCOUNT and ROOT hold a tree" (R24), which then meets R25 and R26. -/
def State.TreeInv (s : State) : Prop := s.treeValid = true → TreeWf s.node s.ncount s.root

/-- "CT_VALID (1 bit) is 1 exactly when CT holds the table generated ... from the tree currently in the node store"
(R29). -/
def State.CodeInv (s : State) : Prop := s.ctValid = true → s.treeValid = true ∧ CodesOf s.node s.root s.ct

/-- The invariants that every state a run reaches meets. -/
structure State.Inv (s : State) : Prop where
  mem : s.MemInv
  out : s.OutInv
  idle : s.IdleInv
  err : s.ErrInv
  tree : s.TreeInv
  codes : s.CodeInv

/-- A safe step: the machine does not stop. -/
def SafeStep (s : State) : Prop := ∃ t, step s = .next t

end Sys2Proof.Machine
end

