-- ==== Sys2Proof/Certificates/Slice0/Obligations.lean ====
section
/-! DEFINITION. The statements about the machine, from the rules of the spec. OBLIGATIONS.json lists them. -/

open Sys2Proof Sys2Proof.Machine

/-! ### Command words (30_encoding.md) -/

/-- R91: a word selects a command exactly when `w & 0xFF` is its `match`. -/
def Obligations.EightCommandWords : Prop :=
  ∀ (w : Byte) (i : Instr), Sys2Proof.decode w = .ok i ↔
    (i, w &&& 0xFF) ∈
      [(Instr.clear, (0x00 : Byte)), (Instr.fcount, 0x01), (Instr.buildTree, 0x02), (Instr.genCodes, 0x03),
        (Instr.pack, 0x04), (Instr.unpack, 0x05), (Instr.encode, 0x06), (Instr.decode, 0x07)]

/-- Decoding and encoding agree in both directions (R90, R91, R109). -/
def Obligations.DecodeEncodeAgree : Prop :=
  (∀ (i : Instr) (rest : List Byte), i.wf = true → decodeBytes (encodeBytes i ++ rest) = .ok (i, rest)) ∧
  (∀ (w : Byte) (i : Instr), Sys2Proof.decode w = .ok i → Sys2Proof.encode i = w ∧ i.wf = true) ∧
  (∀ i : Instr, decodeTableWord 8 (Sys2Proof.encode i).toNat = some i)

/-- R92: an illegal word ends at once with ILLEGAL_COMMAND and changes nothing but CMD, DONE and the error registers; 248
words are illegal. -/
def Obligations.IllegalWordEndsAtOnce : Prop :=
  (∀ (s : State) (w : Byte), s.busy = false → s.phase = .idle →
    (w.extractLsb' 4 4 ≠ 0 ∨ 8 ≤ (w.extractLsb' 0 4).toNat) →
    hostStep (.writeReg 0x000 (w.setWidth 64)) s =
      .next { s with
        cmd := w, done := true, errKind := .contract, errCause := .illegalCommand, errInfo := w.setWidth 64 }) ∧
  ((List.range 256).filter (fun n => (decodeTableWord 8 n).isNone)).length = 248

/-- A step with a CMD write pending runs the command the word encodes (R34, R45). Three things here are the model's choice:
that the host's program is the list hostQ (log entry 1); that the command is the low 8 bits of a word wider than CMD (log
entry 10; for a word of 8 bits it is R34); and that any action but a read of STATUS is refused while BUSY = 1 (log entries 1
and 9; R268 says that there is no such transition). -/
def Obligations.StepRunsDecodedCommand : Prop :=
  (∀ (s : State) (v : BitVec 64) (rest : List HostAction) (i : Instr), s.busy = false →
    s.hostQ = .writeReg 0x000 v :: rest → Sys2Proof.decode (v.setWidth 8) = .ok i →
    step s = exec i ((s.setHostQ rest).setCmd (v.setWidth 8))) ∧
  (∀ (s : State) (w : Nat) (i : Instr), s.busy = false → w < 256 → decodeTableWord 8 w = some i →
    step (s.withFetchWord 8 w) = exec i (s.setCmd (BitVec.ofNat 8 w))) ∧
  (∀ (s : State) (a : HostAction) (rest : List HostAction), s.busy = true → s.hostQ = a :: rest → a ≠ .readReg 0x001 →
    step s = .refused .hostActionWhileBusy)

/-! ### Reset and CLEAR (10_state.md, 45_container_codec.md, 70_reset_and_hazards.md) -/

/-- R49, R185: both columns. After reset IN_LEN is 0 and IN has no value; CLEAR leaves both as they are, and CMD and what
is the host's. -/
def Obligations.ResetAndClearValues : Prop :=
  (State.reset.Cleared ∧ State.reset.inLen = 0 ∧ ∀ o, Memory.get? State.reset.inMem o = none) ∧
  (∀ s : State, ∃ t, hostStep .reset s = .next t ∧ t.Cleared ∧ t.inLen = 0 ∧ ∀ o, Memory.get? t.inMem o = none) ∧
  (∀ s : State, ∃ t, exec .clear s = .next t ∧ t.Cleared ∧ t.status = 0x00 ∧ SameIn s t ∧ SameHost s t)

/-- After reset the engine is idle with STATUS = 0x00 and holds what R49 gives it (R260). "Nothing runs until the host
writes CMD" (R260): with no host action pending a step changes nothing, and a pending action other than a CMD write, in
any state between commands, leaves all that a command writes, but for what the host itself may write (R47), or is a reset.
That the host is the list hostQ is the model's choice (log entry 1), and so is that a reset leaves hostQ (log entry 18). -/
def Obligations.NothingRunsAfterReset : Prop :=
  (∀ s t : State, (t = State.reset ∨ hostStep .reset s = .next t) →
    t.phase = .idle ∧ t.status = 0x00 ∧ t.Cleared ∧ t.inLen = 0 ∧ (∀ o, Memory.get? t.inMem o = none) ∧
      (t.hostQ = [] → step t = .next t)) ∧
  (∀ (s u : State) (a : HostAction) (rest : List HostAction), s.busy = false → s.hostQ = a :: rest →
    (∀ v, a ≠ .writeReg 0x000 v) → step s = .next u →
    if a = .reset then u.Cleared ∧ u.hostQ = rest
    else u.phase = s.phase ∧ u.status = s.status ∧ u.cmd = s.cmd ∧ u.errKind = s.errKind ∧ u.errCause = s.errCause ∧
      u.errInfo = s.errInfo ∧ u.total = s.total ∧ u.symCount = s.symCount ∧ SameTree s u ∧ SameCodes s u ∧ SameOut s u ∧
      SamePacker s u ∧ SameWalker s u ∧ SameScratch s u ∧ u.hostQ = rest)

/-- The state after reset meets the invariants. -/
def Obligations.ResetMeetsInvariants : Prop :=
  State.reset.Inv ∧ ∀ s t : State, hostStep .reset s = .next t → t.Inv

/-! ### FCOUNT (40_freq_counter.md) -/

/-- R121: on a readable input FT[s] is the number of offsets holding `s` and TOTAL is IN_LEN, the sum of all FT[s]. -/
def Obligations.FcountCountsInput : Prop :=
  ∀ s : State, s.Readable → ∃ t, exec .fcount s = .next t ∧ t.EndsOk ∧
    (∀ b, (ftAt t.ft b).toNat = s.inBytes.count b) ∧ t.total = s.inLen ∧ ftSum t.ft = t.total.toNat

/-- R122: the only error is SRC_UNREADABLE at the first unreadable offset, which clears FT and TOTAL; TREE_VALID, CT_VALID
and OUT_VALID do not change. -/
def Obligations.FcountErrors : Prop :=
  (∀ (s : State) (p : Nat), p < s.inLen.toNat → s.inBadAt p = true → (∀ k, k < p → s.inBadAt k = false) →
    ∃ t, exec .fcount s = .next t ∧ t.EndsWith .srcUnreadable (BitVec.ofNat 64 p) ∧
      (∀ b, ftAt t.ft b = 0) ∧ t.total = 0) ∧
  (∀ s : State, ∃ t, exec .fcount s = .next t ∧ t.treeValid = s.treeValid ∧ t.ctValid = s.ctValid ∧
    t.outValid = s.outValid ∧ t.done = true ∧ (t.EndsOk ∨ ∃ p, t.EndsWith .srcUnreadable p))

/-- FCOUNT writes FT, TOTAL and the status and error registers alone (R120, R122). -/
def Obligations.FcountFrame : Prop :=
  ∀ s : State, ∃ t, exec .fcount s = .next t ∧ SameTree s t ∧ SameCodes s t ∧ SameHeader s t ∧ SameIn s t ∧ SameOut s t ∧
    SamePacker s t ∧ SameWalker s t ∧ SameScratch s t ∧ SameHost s t

/-! ### BUILD_TREE (41_tree_builder.md) -/

/-- The tree built meets the tree invariants of R25 and R26. -/
def Obligations.BuildTreeMakesTree : Prop :=
  ∀ s : State, ftSum s.ft ≠ 0 → ftSum s.ft < 2 ^ 64 → ∃ t, exec .buildTree s = .next t ∧ t.EndsOk ∧
    t.treeValid = true ∧ t.ctValid = false ∧ t.q = [] ∧ TreeWf t.node t.ncount t.root

/-- R132: the first nodes are one Leaf per symbol with nonzero frequency, in ascending symbol order, and no other node is
a Leaf with `f >= 1`. -/
def Obligations.BuildTreeSeedsLeaves : Prop :=
  ∀ s : State, ftSum s.ft ≠ 0 → ftSum s.ft < 2 ^ 64 → ∃ t, exec .buildTree s = .next t ∧
    t.node.take (present s.ft).length = (present s.ft).map (fun b => Node.leaf b (ftAt s.ft b)) ∧
    leafSymbols t.node = present s.ft

/-- R134: the single-symbol tree. -/
def Obligations.BuildTreeSingleSymbol : Prop :=
  ∀ (s : State) (b : Byte), present s.ft = [b] → ∃ t, exec .buildTree s = .next t ∧ t.EndsOk ∧
    t.node = [.leaf b (ftAt s.ft b), .leaf 0 0, .internal (ftAt s.ft b) 0 1] ∧ t.ncount = 3 ∧ t.root = 2 ∧ t.q = []

/-- R136: the number of nodes, the root's index and the root's frequency. -/
def Obligations.BuildTreeSizes : Prop :=
  ∀ s : State, ftSum s.ft ≠ 0 → ftSum s.ft < 2 ^ 64 → ∃ t, exec .buildTree s = .next t ∧
    t.ncount.toNat = (if (present s.ft).length = 1 then 3 else 2 * (present s.ft).length - 1) ∧
    t.root.toNat + 1 = t.ncount.toNat ∧ t.node.length = t.ncount.toNat ∧ t.ncount.toNat ≤ 511 ∧
    (freqAt t.node t.root).toNat = ftSum s.ft

/-- R135: every node after the leaves is an Internal node made of the two smallest keys of the queue at that moment, the
smaller on the left, its frequency their sum; the last is the root. -/
def Obligations.BuildTreeMergesSmallest : Prop :=
  ∀ s : State, 2 ≤ (present s.ft).length → ftSum s.ft < 2 ^ 64 → ∃ t, exec .buildTree s = .next t ∧ t.EndsOk ∧
    (∀ i, (present s.ft).length ≤ i → i < t.node.length →
      ∃ l r, t.node[i]? = some (.internal (freqAt t.node l + freqAt t.node r) l r) ∧
        InPool t.node i l ∧ InPool t.node i r ∧ (keyAt t.node l).lt (keyAt t.node r) = true ∧
        ∀ j, InPool t.node i j → j ≠ l → j ≠ r → (keyAt t.node r).lt (keyAt t.node j) = true) ∧
    (∀ j, InPool t.node t.node.length j ↔ j = t.root) ∧ t.root.toNat + 1 = t.node.length ∧ t.q = []

/-- R137: the whole command: its two errors in their order, and success otherwise. -/
def Obligations.BuildTreeOutcomes : Prop :=
  ∀ s : State, ∃ t, exec .buildTree s = .next t ∧ t.ctValid = false ∧
    if ∀ b, ftAt s.ft b = 0 then t.EndsWith .emptyTable 0 ∧ t.treeValid = false ∧ t.node = [] ∧ t.ct = []
    else if 2 ^ 64 ≤ ftSum s.ft then t.EndsWith .freqOverflow 0 ∧ t.treeValid = false ∧ t.node = [] ∧ t.ct = []
    else t.EndsOk ∧ t.treeValid = true ∧ TreeWf t.node t.ncount t.root ∧ leafSymbols t.node = present s.ft

/-- R138: BUILD_TREE is a function of FT alone: the same table gives the same nodes, index for index. -/
def Obligations.BuildTreeFunctionOfTable : Prop :=
  ∀ s s' t t' : State, s.ft = s'.ft → exec .buildTree s = .next t → exec .buildTree s' = .next t' →
    t.treeValid = t'.treeValid ∧ t.node = t'.node ∧ t.errCause = t'.errCause ∧
      (t.treeValid = true → t.ncount = t'.ncount ∧ t.root = t'.root)

/-- BUILD_TREE writes the tree, CT_VALID and the status and error registers alone (R130, R137). -/
def Obligations.BuildTreeFrame : Prop :=
  ∀ s : State, ∃ t, exec .buildTree s = .next t ∧ SameCounts s t ∧ SameHeader s t ∧ SameIn s t ∧ SameOut s t ∧
    SamePacker s t ∧ SameWalker s t ∧ t.pay = s.pay ∧ t.genStack = s.genStack ∧ (s.q = [] → t.q = []) ∧ SameHost s t

/-! ### GEN_CODES (42_code_generator.md) -/

/-- R151 and R152: with a tree, the code of each symbol of a Leaf with `f >= 1` is its path, and no other symbol has one;
the tree is not changed. -/
def Obligations.GenCodesMakesPaths : Prop :=
  ∀ s : State, s.treeValid = true → s.TreeInv → ∃ t, exec .genCodes s = .next t ∧ t.EndsOk ∧ t.ctValid = true ∧
    CodesOf s.node s.root t.ct ∧ SameTree s t

/-- R154 (a): the codes are prefix-free. -/
def Obligations.GenCodesPrefixFree : Prop :=
  ∀ s : State, s.treeValid = true → s.TreeInv → ∃ t, exec .genCodes s = .next t ∧
    ∀ a b : Byte, a ≠ b → codeOf t.ct a ≠ [] → codeOf t.ct b ≠ [] → ¬ codeOf t.ct a <+: codeOf t.ct b

/-- R153: without a tree the command ends with NO_TREE and CT holds no value; with one it cannot fail; TREE_VALID is not
changed. On the single-symbol tree the one code is "0". -/
def Obligations.GenCodesOutcomes : Prop :=
  (∀ s : State, ∃ t, exec .genCodes s = .next t ∧ t.treeValid = s.treeValid ∧
    if s.treeValid = false then t.EndsWith .noTree 0 ∧ t.ctValid = false ∧ t.ct = []
    else t.EndsOk ∧ t.ctValid = true) ∧
  (∀ (s : State) (b : Byte) (f : Count), s.treeValid = true → f ≠ 0 → s.ncount = 3 → s.root = 2 →
    s.node = [.leaf b f, .leaf 0 0, .internal f 0 1] →
    ∃ t, exec .genCodes s = .next t ∧ t.EndsOk ∧ codeOf t.ct b = [false] ∧ ∀ c, c ≠ b → codeOf t.ct c = [])

/-- R206: an input with exactly one distinct symbol gives that symbol a code of length 1. -/
def Obligations.MinimumCodeLength : Prop :=
  ∀ (s : State) (b : Byte), s.Readable → s.inLen ≠ 0 → (∀ c ∈ s.inBytes, c = b) →
    ∃ s1 s2 s3, exec .fcount s = .next s1 ∧ exec .buildTree s1 = .next s2 ∧ exec .genCodes s2 = .next s3 ∧ s3.EndsOk ∧
      codeOf s3.ct b = [false] ∧ ∀ c, c ≠ b → codeOf s3.ct c = []

/-- GEN_CODES writes CT, CT_VALID and the status and error registers alone (R150, R153). -/
def Obligations.GenCodesFrame : Prop :=
  ∀ s : State, ∃ t, exec .genCodes s = .next t ∧ SameCounts s t ∧ SameTree s t ∧ SameHeader s t ∧ SameIn s t ∧
    SameOut s t ∧ SamePacker s t ∧ SameWalker s t ∧ t.pay = s.pay ∧ t.q = s.q ∧ (s.genStack = [] → t.genStack = []) ∧
    SameHost s t

/-! ### PACK (43_bit_packer.md) -/

/-- R101, R162: the bit stream of the input's codes, cut into bytes MSB-first and padded with zeros, goes to OUT, and TRAIL
takes `T mod 8`. -/
def Obligations.PackWritesBitStream : Prop :=
  ∀ s : State, s.ctValid = true → s.Readable → (∀ b ∈ s.inBytes, codeOf s.ct b ≠ []) →
    s.CanHold (((codeBits s.ct s.inBytes).length + 7) / 8) →
    ∃ t, exec .pack s = .next t ∧ t.EndsOk ∧ t.outValid = true ∧ OutHolds t (packedBytes (codeBits s.ct s.inBytes)) ∧
      t.trail.toNat = (codeBits s.ct s.inBytes).length % 8

/-- The errors of PACK (R163): no code table; the first byte without a code; the first unreadable byte; a stream longer than
OUT_CAP. After an error OUT_VALID = 0 and TRAIL is not written. That OUT_LEN can count OUT_CAP's bytes is a premise (log entry
8). -/
def Obligations.PackErrors : Prop :=
  (∀ s : State, ∃ t, exec .pack s = .next t ∧
    ((t.EndsOk ∧ t.outValid = true) ∨ (∃ c info, t.EndsWith c info ∧ c ∈ mayRaise .pack ∧ t.outValid = false ∧ t.trail = s.trail)) ∧
    (s.ctValid = false → t.EndsWith .noCodeTable 0 ∧ t.outLen = 0)) ∧
  (∀ (s : State) (o : Nat), s.ctValid = true → o < s.inLen.toNat → (∀ k, k < o → s.inBadAt k = false) →
    (∀ b ∈ s.inBytes.take o, codeOf s.ct b ≠ []) → s.CanHold ((codeBits s.ct (s.inBytes.take o)).length / 8) →
    ∃ t, exec .pack s = .next t ∧
      (s.inBadAt o = true → t.EndsWith .srcUnreadable (BitVec.ofNat 64 o)) ∧
      (s.inBadAt o = false → codeOf s.ct (s.inByte o) = [] → t.EndsWith .noCode (BitVec.ofNat 64 o))) ∧
  (∀ (s : State) (o c : Nat), s.ctValid = true → o ≤ s.inLen.toNat → (∀ k, k < o → s.inBadAt k = false) →
    (∀ b ∈ s.inBytes.take o, codeOf s.ct b ≠ []) → s.env.outCap = some c → c < 2 ^ 64 →
    (c < (codeBits s.ct (s.inBytes.take o)).length / 8 ∨
      (o = s.inLen.toNat ∧ c < ((codeBits s.ct s.inBytes).length + 7) / 8)) →
    ∃ t, exec .pack s = .next t ∧ t.EndsWith .dstUnwritable (BitVec.ofNat 64 c) ∧ t.outLen.toNat = c)

/-- PACK writes OUT, OUT_LEN, OUT_VALID, TRAIL, ACC and FILL and the status and error registers alone (R160, R163). -/
def Obligations.PackFrame : Prop :=
  ∀ s : State, ∃ t, exec .pack s = .next t ∧ SameCounts s t ∧ SameTree s t ∧ SameCodes s t ∧ t.origLen = s.origLen ∧
    t.symCount = s.symCount ∧ SameIn s t ∧ SameWalker s t ∧ SameScratch s t ∧ SameHost s t

/-! ### UNPACK (44_bit_unpacker.md) -/

/-- R174, R175: the symbols whose codes stand at the front of the payload's usable bits come out in that order; unused bits,
unused bytes and unreadable offsets behind the last byte needed are without effect. -/
def Obligations.UnpackEmitsSymbols : Prop :=
  ∀ (s : State) (ct : List Code) (syms : List Byte) (rest : List Bool), s.treeValid = true → s.TreeInv →
    CodesOf s.node s.root ct → (∀ b ∈ syms, b ∈ leafSymbols s.node) → syms.length = s.origLen.toNat →
    usableBits s.inBytes s.trail.toNat = codeBits ct syms ++ rest →
    s.ReadableTo (((codeBits ct syms).length + 7) / 8) → s.CanHold syms.length →
    ∃ t, exec .unpack s = .next t ∧ t.EndsOk ∧ t.outValid = true ∧ OutHolds t syms

/-- R181 (a), R173: ORIG_LEN = 0 succeeds with an empty OUT, whatever IN holds. -/
def Obligations.UnpackNothing : Prop :=
  ∀ s : State, s.treeValid = true → s.origLen = 0 →
    ∃ t, exec .unpack s = .next t ∧ t.EndsOk ∧ t.outValid = true ∧ OutHolds t []

/-- R178: usable bits that are the codes of fewer than ORIG_LEN symbols and the beginning of a path, or nothing, behind them
end with PAYLOAD_EXHAUSTED and the number of symbols emitted. -/
def Obligations.UnpackExhausted : Prop :=
  ∀ (s : State) (ct : List Code) (syms : List Byte) (c : Code) (j l r : NodeIdx) (f : Count), s.treeValid = true →
    s.TreeInv → CodesOf s.node s.root ct → (∀ b ∈ syms, b ∈ leafSymbols s.node) → syms.length < s.origLen.toNat →
    s.inLen ≠ 0 → usableBits s.inBytes s.trail.toNat = codeBits ct syms ++ c →
    followPath s.node s.root c = some j → nodeAt s.node j = some (.internal f l r) →
    s.Readable → s.CanHold syms.length →
    ∃ t, exec .unpack s = .next t ∧ t.EndsWith .payloadExhausted (BitVec.ofNat 64 syms.length) ∧ t.outValid = false ∧
      t.outLen.toNat = syms.length

/-- R176: a path to the Leaf with `f = 0` ends with DUMMY_LEAF, and that Leaf's symbol is not emitted: OUT_LEN counts the
symbols before it. IN is readable and OUT has room for those symbols. -/
def Obligations.UnpackDummyLeaf : Prop :=
  ∀ (s : State) (ct : List Code) (syms : List Byte) (c : Code) (b : Bool) (rest : List Bool) (i j : NodeIdx) (sym : Byte),
    s.treeValid = true → s.TreeInv → CodesOf s.node s.root ct → (∀ b ∈ syms, b ∈ leafSymbols s.node) →
    syms.length < s.origLen.toNat → usableBits s.inBytes s.trail.toNat = codeBits ct syms ++ (c ++ b :: rest) →
    followPath s.node s.root c = some i → childOf s.node i b = some j → nodeAt s.node j = some (.leaf sym 0) →
    s.Readable → s.CanHold syms.length →
    ∃ t, exec .unpack s = .next t ∧ t.EndsWith .dummyLeaf (BitVec.ofNat 64 syms.length) ∧ t.outValid = false ∧
      t.outLen.toNat = syms.length

/-- R179: symbols to produce and a payload of no bytes end with TRUNCATED_PAYLOAD at the payload's offset, in UNPACK and in
DECODE. -/
def Obligations.EmptyPayload : Prop :=
  (∀ s : State, s.treeValid = true → s.origLen ≠ 0 → s.inLen = 0 →
    ∃ t, exec .unpack s = .next t ∧ t.EndsWith .truncatedPayload 0 ∧ t.outValid = false) ∧
  (∀ (s : State) (ft : Vector Count 256) (tb : Byte), 2 ≤ (present ft).length → ftSum ft < 2 ^ 64 → tb.toNat ≤ 7 → s.Readable →
    s.inBytes = Config.magic ++ leBytes 8 (ftSum ft) ++ leBytes 2 (present ft).length ++
      (present ft).flatMap (fun b => b :: leBytes 8 (ftAt ft b).toNat) ++ [tb] →
    ∃ t, exec .decode s = .next t ∧ t.EndsWith .truncatedPayload (BitVec.ofNat 64 (15 + 9 * (present ft).length)) ∧
      t.outValid = false)

/-- R180: the whole command: NO_TREE without a tree; on success OUT_VALID = 1 and OUT_LEN = ORIG_LEN; after an error
OUT_VALID = 0; the tree, FT, CT, ORIG_LEN and TRAIL are not changed. When it ends with an IOError: an unreadable byte `q` of
the payload, as soon as its first bit is needed (R63, R173); a symbol for which OUT has no room (R64). -/
def Obligations.UnpackOutcomes : Prop :=
  (∀ s : State, s.TreeInv → ∃ t, exec .unpack s = .next t ∧ SameTree s t ∧ SameCounts s t ∧ SameCodes s t ∧
    t.origLen = s.origLen ∧ t.trail = s.trail ∧ (s.treeValid = false → t.EndsWith .noTree 0 ∧ t.outLen = 0) ∧
    ((t.EndsOk ∧ t.outValid = true ∧ t.outLen = s.origLen) ∨
      (∃ c info, t.EndsWith c info ∧ c ∈ mayRaise .unpack ∧ t.outValid = false))) ∧
  (∀ (s : State) (ct : List Code) (syms : List Byte) (c : Code) (b : Bool) (rest : List Bool) (q : Nat) (j l r : NodeIdx)
    (f : Count), s.treeValid = true → CodesOf s.node s.root ct → (∀ b ∈ syms, b ∈ leafSymbols s.node) →
    syms.length < s.origLen.toNat → usableBits s.inBytes s.trail.toNat = codeBits ct syms ++ (c ++ b :: rest) →
    followPath s.node s.root c = some j → nodeAt s.node j = some (.internal f l r) →
    (codeBits ct syms).length + c.length = 8 * q → s.ReadableTo q → s.inBadAt q = true → s.CanHold syms.length →
    ∃ t, exec .unpack s = .next t ∧ t.EndsWith .srcUnreadable (BitVec.ofNat 64 q) ∧ t.outLen.toNat = syms.length) ∧
  (∀ (s : State) (ct : List Code) (syms : List Byte) (rest : List Bool) (cap : Nat), s.treeValid = true →
    CodesOf s.node s.root ct → (∀ b ∈ syms, b ∈ leafSymbols s.node) → s.env.outCap = some cap → syms.length = cap + 1 →
    syms.length ≤ s.origLen.toNat → usableBits s.inBytes s.trail.toNat = codeBits ct syms ++ rest →
    s.ReadableTo (((codeBits ct syms).length + 7) / 8) →
    ∃ t, exec .unpack s = .next t ∧ t.EndsWith .dstUnwritable (BitVec.ofNat 64 cap) ∧ t.outLen.toNat = cap)

/-- UNPACK writes OUT, OUT_LEN, OUT_VALID, the walker's registers and the status and error registers alone (R170, R180). -/
def Obligations.UnpackFrame : Prop :=
  ∀ s : State, ∃ t, exec .unpack s = .next t ∧ SameCounts s t ∧ SameTree s t ∧ SameCodes s t ∧ SameHeader s t ∧
    SameIn s t ∧ SamePacker s t ∧ SameScratch s t ∧ SameHost s t

/-- Packing and unpacking with one tree give the bytes back (R101, R172, R174): PACK, then the payload moved to IN, then
UNPACK of as many symbols. -/
def Obligations.PackUnpackInverse : Prop :=
  ∀ s : State, s.treeValid = true → s.TreeInv → s.ctValid = true → s.CodeInv → s.env.inBad = [] →
    (∀ b ∈ s.inBytes, b ∈ leafSymbols s.node) → s.CanHold s.inLen.toNat →
    s.CanHold (((codeBits s.ct s.inBytes).length + 7) / 8) →
    ∃ t u v, exec .pack s = .next t ∧ hostStep .moveOut t = .next u ∧
      exec .unpack (u.setOrigLen s.inLen) = .next v ∧ v.EndsOk ∧ v.outValid = true ∧ OutHolds v s.inBytes

/-! ### ENCODE (45_container_codec.md) -/

/-- R190, R191: ENCODE of a readable input that is not empty writes the container of that input, with the table FCOUNT
counts, the tree BUILD_TREE builds of it, the codes GEN_CODES makes of that and the payload those codes give. -/
def Obligations.EncodeWritesContainer : Prop :=
  ∀ s : State, s.Readable → s.inLen ≠ 0 →
    ∃ s1 s2 s3, exec .fcount s = .next s1 ∧ exec .buildTree s1 = .next s2 ∧ exec .genCodes s2 = .next s3 ∧ s3.EndsOk ∧
      ∀ (n : Nat) (bits : List Bool) (c : List Byte), n = (present s1.ft).length → bits = codeBits s3.ct s.inBytes →
        c = Config.magic ++ leBytes 8 s.inLen.toNat ++ leBytes 2 n ++
          (present s1.ft).flatMap (fun b => b :: leBytes 8 (ftAt s1.ft b).toNat) ++ [BitVec.ofNat 8 (bits.length % 8)] ++
          packedBytes bits →
        s.CanHold c.length →
        ∃ t, exec .encode s = .next t ∧ t.EndsOk ∧ t.outValid = true ∧ OutHolds t c ∧ t.origLen = s.inLen ∧
          t.symCount.toNat = n ∧ t.trail.toNat = bits.length % 8 ∧ t.Discarded

/-- R102, R188: the container of the empty input has exactly 15 bytes. -/
def Obligations.EncodeEmptyInput : Prop :=
  ∀ s : State, s.inLen = 0 → s.CanHold 15 →
    ∃ t, exec .encode s = .next t ∧ t.EndsOk ∧ t.outValid = true ∧ t.outLen = 15 ∧
      OutHolds t (Config.magic ++ leBytes 8 0 ++ leBytes 2 0 ++ [0x00]) ∧ t.origLen = 0 ∧ t.symCount = 0 ∧ t.trail = 0

/-- R192: the errors of ENCODE: the first unreadable offset; a container longer than OUT_CAP. After an error OUT_VALID = 0
and the header registers keep what the steps before it wrote. -/
def Obligations.EncodeErrors : Prop :=
  (∀ (s : State) (p : Nat), p < s.inLen.toNat → s.inBadAt p = true → (∀ k, k < p → s.inBadAt k = false) →
    ∃ t, exec .encode s = .next t ∧ t.EndsWith .srcUnreadable (BitVec.ofNat 64 p) ∧ t.outValid = false ∧ t.Discarded ∧
      SameHeader s t) ∧
  (∀ (s u : State) (bytes : List Byte) (c : Nat), s.Readable →
    exec .encode (s.setEnv { s.env with outCap := none }) = .next u → u.EndsOk → OutHolds u bytes →
    s.env.outCap = some c → c < bytes.length →
    ∃ t, exec .encode s = .next t ∧ t.EndsWith .dstUnwritable (BitVec.ofNat 64 c) ∧ t.outValid = false ∧ t.Discarded ∧
      SameHeader u t) ∧
  (∀ s : State, ∃ t, exec .encode s = .next t ∧ (t.EndsOk ∨ ∃ c info, t.EndsWith c info ∧ c.kind = .io ∧ t.outValid = false))

/-- R205: original_length of a produced container equals the number of input bytes, symbol_count the number of distinct
byte values among them. -/
def Obligations.HeaderConsistency : Prop :=
  ∀ s t : State, exec .encode s = .next t → t.EndsOk → ∃ c, OutHolds t c ∧
    leValue ((c.drop 4).take 8) = s.inBytes.length ∧
    leValue ((c.drop 12).take 2) = ((List.range 256).filter (fun v => decide (BitVec.ofNat 8 v ∈ s.inBytes))).length

/-- R204: ENCODE is a function of the input and the magic alone: two runs that succeed on the same bytes write the same
container. -/
def Obligations.EncodeDeterministic : Prop :=
  ∀ s s' t t' : State, s.inBytes = s'.inBytes → exec .encode s = .next t → exec .encode s' = .next t' → t.EndsOk →
    t'.EndsOk → t.outLen = t'.outLen ∧ ∀ o, Memory.get? t.outMem o = Memory.get? t'.outMem o

/-- R193: ENCODE and DECODE discard FT, TOTAL, the tree, the code table and PAY on every exit path. -/
def Obligations.CodecDiscards : Prop :=
  ∀ s : State, (∃ t, exec .encode s = .next t ∧ t.Discarded) ∧ (∃ t, exec .decode s = .next t ∧ t.Discarded)

/-- What ENCODE leaves as it was (R186): IN, the walker's registers, CMD and the host's; the queue and the stack stay
empty. -/
def Obligations.EncodeFrame : Prop :=
  ∀ s : State, ∃ t, exec .encode s = .next t ∧ SameIn s t ∧ SameWalker s t ∧ SameHost s t ∧ (s.q = [] → t.q = []) ∧
    (s.genStack = [] → t.genStack = [])

/-! ### DECODE (45_container_codec.md) -/

/-- R195: the first byte of the magic that is missing or wrong ends with BAD_MAGIC at its offset. -/
def Obligations.DecodeChecksMagic : Prop :=
  ∀ (s : State) (k : Nat), k < 4 → (∀ i, i < k → s.inBytes[i]? = Config.magic[i]?) → s.inBytes[k]? ≠ Config.magic[k]? →
    s.ReadableTo (k + 1) →
    ∃ t, exec .decode s = .next t ∧ t.EndsWith .badMagic (BitVec.ofNat 64 k) ∧ t.outValid = false ∧ t.outLen = 0

/-- R196: original_length 0 gives an empty output whatever follows, read or unreadable; a length field that is cut ends with
TRUNCATED_HEADER. -/
def Obligations.DecodeReadsLength : Prop :=
  (∀ (s : State) (rest : List Byte), s.inBytes = Config.magic ++ leBytes 8 0 ++ rest → s.ReadableTo 12 →
    ∃ t, exec .decode s = .next t ∧ t.EndsOk ∧ t.outValid = true ∧ OutHolds t [] ∧ t.origLen = 0) ∧
  (∀ (s : State) (rest : List Byte), s.inBytes = Config.magic ++ rest → rest.length < 8 → s.Readable →
    ∃ t, exec .decode s = .next t ∧ t.EndsWith .truncatedHeader 12 ∧ t.outValid = false ∧ t.origLen = 0)

/-- R199: a container of one symbol gives that symbol original_length times; nothing from offset 23 on is read. -/
def Obligations.DecodeSingleSymbol : Prop :=
  ∀ (s : State) (b : Byte) (len : Nat) (rest : List Byte), len ≠ 0 → len < 2 ^ 64 →
    s.inBytes = Config.magic ++ leBytes 8 len ++ leBytes 2 1 ++ (b :: leBytes 8 len) ++ rest → s.ReadableTo 23 →
    s.CanHold len →
    ∃ t, exec .decode s = .next t ∧ t.EndsOk ∧ t.outValid = true ∧ OutHolds t (List.replicate len b) ∧
      t.origLen.toNat = len ∧ t.symCount = 1 ∧ t.trail = 0

/-- R197: the checks of the symbol table, in their order. -/
def Obligations.DecodeChecksTable : Prop :=
  ∀ (s : State) (len : Nat), len ≠ 0 → len < 2 ^ 64 →
    (∀ rest : List Byte, s.inBytes = Config.magic ++ leBytes 8 len ++ rest → rest.length < 2 → s.Readable →
      ∃ t, exec .decode s = .next t ∧ t.EndsWith .truncatedHeader 14 ∧ t.symCount = 0) ∧
    (∀ (n : Nat) (rest : List Byte), n < 2 ^ 16 → s.inBytes = Config.magic ++ leBytes 8 len ++ leBytes 2 n ++ rest →
      s.ReadableTo 14 →
      ∃ t, exec .decode s = .next t ∧
        (256 < n → t.EndsWith .symcountTooLarge (BitVec.ofNat 64 n) ∧ t.symCount.toNat = n) ∧
        (n = 0 → t.EndsWith .symcountZero 0) ∧
        (1 ≤ n → n ≤ 256 → rest.length < 9 * n → t.EndsWith .truncatedHeader (BitVec.ofNat 64 (14 + 9 * n)))) ∧
    (∀ (n : Nat) (es : List (Byte × Count)) (sym : Byte) (f : Count) (rest : List Byte), es.length < n → n ≤ 256 →
      s.inBytes = Config.magic ++ leBytes 8 len ++ leBytes 2 n ++ es.flatMap (fun p => p.1 :: leBytes 8 p.2.toNat) ++
        (sym :: leBytes 8 f.toNat) ++ rest →
      14 + 9 * n ≤ s.inLen.toNat → s.ReadableTo (23 + 9 * es.length) →
      es.Pairwise (fun p p' => p.1.toNat < p'.1.toNat) → (∀ p ∈ es, p.2 ≠ 0) →
      ∃ t, exec .decode s = .next t ∧
        ((∃ p ∈ es, sym.toNat ≤ p.1.toNat) → t.EndsWith .tableOrder (BitVec.ofNat 64 es.length)) ∧
        ((∀ p ∈ es, p.1.toNat < sym.toNat) → f = 0 → t.EndsWith .zeroFreq (BitVec.ofNat 64 es.length))) ∧
    (∀ (es : List (Byte × Count)) (rest : List Byte), 1 ≤ es.length → es.length ≤ 256 →
      s.inBytes = Config.magic ++ leBytes 8 len ++ leBytes 2 es.length ++
        es.flatMap (fun p => p.1 :: leBytes 8 p.2.toNat) ++ rest →
      s.ReadableTo (14 + 9 * es.length) → es.Pairwise (fun p p' => p.1.toNat < p'.1.toNat) → (∀ p ∈ es, p.2 ≠ 0) →
      countSum (es.map Prod.snd) ≠ len →
      ∃ t, exec .decode s = .next t ∧
        t.EndsWith .lengthMismatch (BitVec.ofNat 64 (countSum (es.map Prod.snd) % 2 ^ 64)))

/-- R200: behind a good table of two symbols or more, a missing trailing-bits byte ends with TRUNCATED_HEADER, a value above
7 with BAD_TRAILING_BITS, and any other is written to TRAIL. -/
def Obligations.DecodeChecksTrailing : Prop :=
  ∀ (s : State) (ft : Vector Count 256) (rest : List Byte), 2 ≤ (present ft).length → ftSum ft < 2 ^ 64 →
    s.inBytes = Config.magic ++ leBytes 8 (ftSum ft) ++ leBytes 2 (present ft).length ++
      (present ft).flatMap (fun b => b :: leBytes 8 (ftAt ft b).toNat) ++ rest →
    s.ReadableTo (15 + 9 * (present ft).length) →
    ∃ t, exec .decode s = .next t ∧ t.symCount.toNat = (present ft).length ∧
      (rest = [] → t.EndsWith .truncatedHeader (BitVec.ofNat 64 (15 + 9 * (present ft).length)) ∧ t.trail = 0) ∧
      ∀ (tb : Byte) (payload : List Byte), rest = tb :: payload →
        (7 < tb.toNat → t.EndsWith .badTrailingBits (BitVec.ofNat 64 tb.toNat) ∧ t.trail = 0) ∧
        (tb.toNat ≤ 7 → t.trail.toNat = tb.toNat)

/-- R201: behind a good header of two symbols or more DECODE walks the payload in the tree that BUILD_TREE builds of the
header's table: codes of original_length symbols give those symbols, fewer end with PAYLOAD_EXHAUSTED. -/
def Obligations.DecodeWalksPayload : Prop :=
  ∀ (s w w0 : State) (ct : List Code) (syms : List Byte) (tb : Byte) (payload : List Byte) (tail : List Bool),
    exec .buildTree w0 = .next w → 2 ≤ (present w0.ft).length → ftSum w0.ft < 2 ^ 64 → CodesOf w.node w.root ct →
    (∀ b ∈ syms, b ∈ present w0.ft) → tb.toNat ≤ 7 → payload ≠ [] → s.Readable → s.CanHold syms.length →
    s.inBytes = Config.magic ++ leBytes 8 (ftSum w0.ft) ++ leBytes 2 (present w0.ft).length ++
      (present w0.ft).flatMap (fun b => b :: leBytes 8 (ftAt w0.ft b).toNat) ++ [tb] ++ payload →
    usableBits payload tb.toNat = codeBits ct syms ++ tail →
    ∃ t, exec .decode s = .next t ∧
      (syms.length = ftSum w0.ft → t.EndsOk ∧ t.outValid = true ∧ OutHolds t syms) ∧
      (∀ (j l r : NodeIdx) (f : Count), syms.length < ftSum w0.ft → followPath w.node w.root tail = some j →
        nodeAt w.node j = some (.internal f l r) →
        t.EndsWith .payloadExhausted (BitVec.ofNat 64 syms.length) ∧ t.outValid = false ∧ t.outLen.toNat = syms.length)

/-- R202, R207: a successful DECODE has OUT_LEN = ORIG_LEN; after an error OUT_VALID = 0. When it ends with an IOError: the
first unreadable byte of the header that it comes to read (R63, R229); an unreadable byte `q` of the payload, as soon as its
first bit is needed (R173, R201); a symbol for which OUT has no room, in the fill (R199, R272) and in the walk (R201). -/
def Obligations.DecodeLengthHolds : Prop :=
  (∀ s : State, ∃ t, exec .decode s = .next t ∧ t.Discarded ∧
    ((t.EndsOk ∧ t.outValid = true ∧ t.outLen = t.origLen) ∨
      (∃ c info, t.EndsWith c info ∧ c ∈ mayRaise .decode ∧ t.outValid = false))) ∧
  (∀ (s : State) (p : Nat), HeaderReadAt Config.magic s.inBytes p → p < s.inLen.toNat → s.inBadAt p = true → s.ReadableTo p →
    ∃ t, exec .decode s = .next t ∧ t.EndsWith .srcUnreadable (BitVec.ofNat 64 p) ∧ t.outLen = 0) ∧
  (∀ (s : State) (b : Byte) (len cap : Nat) (rest : List Byte), len < 2 ^ 64 → cap < len → s.env.outCap = some cap →
    s.inBytes = Config.magic ++ leBytes 8 len ++ leBytes 2 1 ++ (b :: leBytes 8 len) ++ rest → s.ReadableTo 23 →
    ∃ t, exec .decode s = .next t ∧ t.EndsWith .dstUnwritable (BitVec.ofNat 64 cap) ∧ t.outLen.toNat = cap) ∧
  (∀ (s w w0 : State) (ct : List Code) (syms : List Byte) (tb : Byte) (payload : List Byte) (tail : List Bool) (n : Nat),
    exec .buildTree w0 = .next w → n = (present w0.ft).length → 2 ≤ n → ftSum w0.ft < 2 ^ 64 → CodesOf w.node w.root ct →
    (∀ b ∈ syms, b ∈ present w0.ft) → tb.toNat ≤ 7 →
    s.inBytes = Config.magic ++ leBytes 8 (ftSum w0.ft) ++ leBytes 2 n ++
      (present w0.ft).flatMap (fun b => b :: leBytes 8 (ftAt w0.ft b).toNat) ++ [tb] ++ payload →
    usableBits payload tb.toNat = codeBits ct syms ++ tail →
    (∀ (c : Code) (b : Bool) (rest : List Bool) (q : Nat) (j l r : NodeIdx) (f : Count), tail = c ++ b :: rest →
      syms.length < ftSum w0.ft → followPath w.node w.root c = some j → nodeAt w.node j = some (.internal f l r) →
      (codeBits ct syms).length + c.length = 8 * q → s.ReadableTo (15 + 9 * n + q) → s.inBadAt (15 + 9 * n + q) = true →
      s.CanHold syms.length →
      ∃ t, exec .decode s = .next t ∧ t.EndsWith .srcUnreadable (BitVec.ofNat 64 (15 + 9 * n + q)) ∧
        t.outLen.toNat = syms.length) ∧
    (∀ cap : Nat, s.env.outCap = some cap → syms.length = cap + 1 → syms.length ≤ ftSum w0.ft →
      s.ReadableTo (15 + 9 * n + ((codeBits ct syms).length + 7) / 8) →
      ∃ t, exec .decode s = .next t ∧ t.EndsWith .dstUnwritable (BitVec.ofNat 64 cap) ∧ t.outLen.toNat = cap))

/-- What DECODE leaves as it was (R194): IN, the packer's registers, CMD and the host's; the queue and the stack stay
empty. -/
def Obligations.DecodeFrame : Prop :=
  ∀ s : State, ∃ t, exec .decode s = .next t ∧ SameIn s t ∧ SamePacker s t ∧ SameHost s t ∧ (s.q = [] → t.q = []) ∧
    (s.genStack = [] → t.genStack = [])

/-- R203: the round trip. LOADIN, ENCODE, MOVEOUT, DECODE give the bytes back where OUT has room for the container and for
the bytes; an unbounded OUT has room for the container of every input below 2^58 bytes. -/
def Obligations.RoundTrip : Prop :=
  ∀ (s : State) (bytes : List Byte), bytes.length < 2 ^ 64 → s.env.inBad = [] →
    ∃ s1 t, hostStep (.loadIn bytes) s = .next s1 ∧ exec .encode s1 = .next t ∧
      (s.env.outCap = none → bytes.length < 2 ^ 58 → t.EndsOk) ∧
      (t.EndsOk → s.CanHold bytes.length →
        ∃ u v, hostStep .moveOut t = .next u ∧ exec .decode u = .next v ∧ v.EndsOk ∧ v.outValid = true ∧
          OutHolds v bytes)

/-! ### All commands -/

/-- R45, R274: every command ends, in an idle state; DONE is set, but for CLEAR (R35, R185). -/
def Obligations.EveryCommandEnds : Prop :=
  ∀ (i : Instr) (s : State), ∃ t, exec i s = .next t ∧ t.busy = false ∧ t.phase = .idle ∧ (t.done = true ↔ i ≠ .clear)

/-- R225: which command can end with which cause; NULL_CHILD (R177) is no command's. -/
def Obligations.ErrorKindsByCommand : Prop :=
  ∀ (i : Instr) (s : State), s.TreeInv → ∃ t, exec i s = .next t ∧ t.errKind = t.errCause.kind ∧
    (t.errCause = .none ∨ t.errCause ∈ mayRaise i)

/-- R33, R232 (3): after PACK, UNPACK, ENCODE and DECODE OUT_VALID says whether the command succeeded; FCOUNT, BUILD_TREE
and GEN_CODES leave it; no command writes IN_LEN. -/
def Obligations.OutValidExactly : Prop :=
  ∀ (i : Instr) (s : State), ∃ t, exec i s = .next t ∧ t.inLen = s.inLen ∧
    (writesOut i = true → (t.outValid = true ↔ t.errKind = .none)) ∧
    (i = .fcount ∨ i = .buildTree ∨ i = .genCodes → t.outValid = s.outValid)

/-- R231, R232: what `finish` and `raise` write; nothing else changes but OUT, which a failed PACK, UNPACK, ENCODE or
DECODE leaves without a value, OUT_LEN apart (R269). -/
def Obligations.FinishAndRaise : Prop :=
  (∀ s : State, s.finish =
    { s with errKind := .none, errCause := .none, errInfo := 0, done := true, busy := false, phase := .idle }) ∧
  (∀ (s : State) (i : Instr) (e : Raise), (s.raise i e).EndsWith e.cause e.info ∧
    (i ∈ [.pack, .unpack, .encode, .decode] → s.raise i e =
      { s with
        errKind := e.cause.kind, errCause := e.cause, errInfo := e.info, done := true, busy := false, phase := .idle,
        outValid := false, outMem := [] }) ∧
    (i ∈ [.clear, .fcount, .buildTree, .genCodes] → s.raise i e =
      { s with
        errKind := e.cause.kind, errCause := e.cause, errInfo := e.info, done := true, busy := false, phase := .idle }))

/-- Every step keeps the invariants. -/
def Obligations.StepKeepsInvariants : Prop :=
  ∀ s t : State, s.Inv → step s = .next t → t.Inv

/-! ### The host's side (10_state.md R47, R48; 30_encoding.md R93) -/

/-- R47, R48: host writes to the writable registers, and to any other number but CMD without effect. That a register takes
the low bits of the host's word is the model's choice (log entry 10). -/
def Obligations.HostRegisterWrites : Prop :=
  ∀ (s : State) (v : BitVec 64),
    hostStep (.writeReg 0x005 v) s = .next { s with inLen := v } ∧
    hostStep (.writeReg 0x007 v) s = .next { s with origLen := v } ∧
    hostStep (.writeReg 0x009 v) s = .next { s with trail := v.setWidth 3 } ∧
    (∀ b : Byte, hostStep (.writeReg (0x100 + b.toNat) v) s = .next { s with ft := ftSet s.ft b v } ∧
      ∀ c, ftAt (ftSet s.ft b v) c = if c = b then v else ftAt s.ft c) ∧
    (∀ n, n ≠ 0 → n ≠ 0x005 → n ≠ 0x007 → n ≠ 0x009 → ¬ (0x100 ≤ n ∧ n < 0x200) →
      hostStep (.writeReg n v) s = .next s)

/-- R35, R36, R47, R48, R221: what host reads of the registers return, the kind of each cause, and the codes by which
ERR_KIND and ERR_CAUSE read; a read changes nothing but the host's own data.
That a word is widened with zeros is the model's choice (log entry 10). -/
def Obligations.HostRegisterReads : Prop :=
  (∀ c : Cause, (c, c.kind, c.kind.code, c.code) ∈
    ([(.none, .none, 0, 0x00), (.srcUnreadable, .io, 1, 0x10), (.dstUnwritable, .io, 1, 0x11), (.badMagic, .format, 2, 0x20),
      (.truncatedHeader, .format, 2, 0x21), (.symcountTooLarge, .format, 2, 0x22), (.symcountZero, .format, 2, 0x23),
      (.tableOrder, .format, 2, 0x24), (.zeroFreq, .format, 2, 0x25), (.lengthMismatch, .format, 2, 0x26),
      (.badTrailingBits, .format, 2, 0x27), (.truncatedPayload, .format, 2, 0x28), (.nullChild, .corruption, 3, 0x30),
      (.payloadExhausted, .corruption, 3, 0x31), (.dummyLeaf, .corruption, 3, 0x32), (.illegalCommand, .contract, 4, 0x40),
      (.emptyTable, .contract, 4, 0x41), (.freqOverflow, .contract, 4, 0x42), (.noTree, .contract, 4, 0x43),
      (.noCodeTable, .contract, 4, 0x44), (.noCode, .contract, 4, 0x45)] :
        List (Cause × ErrKind × BitVec 3 × BitVec 8))) ∧
  ∀ s : State,
    (∀ n, hostStep (.readReg n) s =
      .next { s with hostData := some (s.readRegister (regOf n)), draws := s.draws + 1 }) ∧
    s.readRegister (regOf 0x001) = .word ((0 : BitVec 58) ++ BitVec.ofBool s.ctValid ++ BitVec.ofBool s.treeValid ++
      BitVec.ofBool s.outValid ++ BitVec.ofBool (decide (s.errKind ≠ .none)) ++ BitVec.ofBool s.done ++ BitVec.ofBool s.busy) ∧
    s.readRegister (regOf 0x002) = .word (s.errKind.code.setWidth 64) ∧
    s.readRegister (regOf 0x003) = .word (s.errCause.code.setWidth 64) ∧
    s.readRegister (regOf 0x004) = .word s.errInfo ∧
    s.readRegister (regOf 0x005) = .word s.inLen ∧
    s.readRegister (regOf 0x006) = .word s.outLen ∧
    s.readRegister (regOf 0x007) = .word s.origLen ∧
    s.readRegister (regOf 0x008) = .word (s.symCount.setWidth 64) ∧
    s.readRegister (regOf 0x009) = .word (s.trail.setWidth 64) ∧
    s.readRegister (regOf 0x00A) = .word s.total ∧
    (s.treeValid = true → s.readRegister (regOf 0x00B) = .word (s.root.setWidth 64) ∧
      s.readRegister (regOf 0x00C) = .word (s.ncount.setWidth 64)) ∧
    (∀ b : Byte, s.readRegister (regOf (0x100 + b.toNat)) = .word (ftAt s.ft b)) ∧
    (∀ b : Byte, s.ctValid = true →
      s.readRegister (regOf (0x200 + b.toNat)) = .code (BitVec.ofNat 8 (codeOf s.ct b).length) (codeOf s.ct b)) ∧
    (∀ i, i ≤ 510 → s.treeValid = true → i < s.ncount.toNat →
      (∀ sym f, s.node[i]? = some (.leaf sym f) →
        ∃ l r, s.readRegister (regOf (0x400 + i)) = .node ⟨0, sym, f, l, r⟩) ∧
      (∀ f l r, s.node[i]? = some (.internal f l r) →
        ∃ sym, s.readRegister (regOf (0x400 + i)) = .node ⟨1, sym, f, l, r⟩)) ∧
    (∀ n, 0x00C < n → ¬ (0x100 ≤ n ∧ n < 0x300) → ¬ (0x400 ≤ n ∧ n ≤ 0x5FE) → s.readRegister (regOf n) = .word 0)

/-- R93: LOADIN and MOVEOUT, and where they stop (log entry 12). Host reads of IN and OUT, and a host write of one byte of
IN (R47); that the write stores the byte at or past IN_LEN too is the model's choice (log entry 11). Setting IN_BAD and
OUT_CAP between commands changes them alone (R12, log entry 3). -/
def Obligations.LoadInMoveOut : Prop :=
  (∀ (s : State) (bytes : List Byte), bytes.length < 2 ^ 64 → ∃ t, hostStep (.loadIn bytes) s = .next t ∧
    t.inBytes = bytes ∧ t = { s with inMem := t.inMem, inLen := BitVec.ofNat 64 bytes.length }) ∧
  (∀ (s : State) (bytes : List Byte), 2 ^ 64 ≤ bytes.length → hostStep (.loadIn bytes) s = .fault .loadPastInSpace) ∧
  (∀ (s : State) (bytes : List Byte), s.outValid = true → OutHolds s bytes → ∃ t, hostStep .moveOut s = .next t ∧
    t.inBytes = bytes ∧ t = { s with inMem := t.inMem, inLen := s.outLen }) ∧
  (∀ s : State, s.outValid = false → hostStep .moveOut s = .refused .moveOutWhileInvalid) ∧
  (∀ (s : State) (o : Count), (o.toNat < s.inLen.toNat →
      ∃ t, hostStep (.readIn o) s = .next t ∧ t.hostData = some (.word ((s.inByte o.toNat).setWidth 64))) ∧
    (∀ b, s.outValid = true → o.toNat < s.outLen.toNat → Memory.get? s.outMem o.toNat = some b →
      ∃ t, hostStep (.readOut o) s = .next t ∧ t.hostData = some (.word (b.setWidth 64)))) ∧
  (∀ (s : State) (o : Count) (b : Byte), ∃ t, hostStep (.writeIn o b) s = .next t ∧ t = { s with inMem := t.inMem } ∧
    Memory.get? t.inMem o.toNat = some b ∧ ∀ a, a ≠ o.toNat → Memory.get? t.inMem a = Memory.get? s.inMem a) ∧
  (∀ (s : State) (env : Env), hostStep (.setEnv env) s = .next { s with env := env })

/-! ### Memory (20_memory.md) -/

/-- R63: MemRead: the little-endian number of the bytes read; the first offset past IN_LEN or unreadable decides. -/
def Obligations.MemReadValue : Prop :=
  ∀ (s : State) (addr n : Nat), n ∈ [1, 2, 8] →
    ((∀ k, k < n → addr + k < s.inLen.toNat ∧ s.inBadAt (addr + k) = false) →
      ∃ x, memRead addr n s =
        .ok (some (((List.range n).map (fun k => (s.inByte (addr + k)).toNat * 256 ^ k)).sum)) (s.setInOff x)) ∧
    (∀ j, j < n → (∀ k, k < j → addr + k < s.inLen.toNat ∧ s.inBadAt (addr + k) = false) →
      (s.inLen.toNat ≤ addr + j → ∃ x, memRead addr n s = .ok none (s.setInOff x)) ∧
      (addr + j < s.inLen.toNat → s.inBadAt (addr + j) = true →
        ∃ x, memRead addr n s = .raised ⟨.srcUnreadable, BitVec.ofNat 64 (addr + j)⟩ (s.setInOff x)))

/-- R64: MemWrite at OUT_LEN: the low-order bytes, least significant first, each at OUT_LEN; the write that finds OUT full
ends with DST_UNWRITABLE and OUT_LEN, which is OUT_CAP. Every other byte of OUT stays. That OUT_LEN, a 64-bit register, can
count the bytes is a premise (log entry 8). -/
def Obligations.MemWriteAppends : Prop :=
  (∀ (s : State) (n v : Nat), n ∈ [1, 2, 8] → s.CanHold (s.outLen.toNat + n) →
    ∃ t, memWrite n v s = .ok () t ∧ t.outLen.toNat = s.outLen.toNat + n ∧
      (∀ k, k < n → Memory.get? t.outMem (s.outLen.toNat + k) = some (BitVec.ofNat 8 (v / 256 ^ k % 256))) ∧
      (∀ o, o < s.outLen.toNat ∨ s.outLen.toNat + n ≤ o → Memory.get? t.outMem o = Memory.get? s.outMem o)) ∧
  (∀ (s : State) (n v c : Nat), n ∈ [1, 2, 8] → s.env.outCap = some c → c < 2 ^ 64 → s.outLen.toNat ≤ c →
    c < s.outLen.toNat + n →
    ∃ t, memWrite n v s = .raised ⟨.dstUnwritable, BitVec.ofNat 64 c⟩ t ∧ t.outLen.toNat = c ∧
      (∀ k, s.outLen.toNat + k < c → Memory.get? t.outMem (s.outLen.toNat + k) = some (BitVec.ofNat 8 (v / 256 ^ k % 256))) ∧
      (∀ o, o < s.outLen.toNat ∨ c ≤ o → Memory.get? t.outMem o = Memory.get? s.outMem o))
end

