-- ==== Sys2Proof/Laws/Bits.lean ====
section
/-! SUPPORT. Bit streams cut into bytes and read back (00_scope.md R17; 20_memory.md R66; 30_encoding.md R101, R107). -/

namespace Sys2Proof.Machine

/-- The value of up to eight bits, the first the most significant: what ACC holds (R161). -/
def accOf (bits : List Bool) : Byte := bits.foldl (fun v b => v * 2 + (if b then 1 else 0)) 0

/-- Full bytes of a bit stream behind a buffer, and the bits left over: what the packer's sink gets and what it keeps. -/
def cutBits : List Bool → List Bool → List Byte × List Bool
  | buf, [] => ([], buf)
  | buf, b :: bs =>
    if buf.length = 7 then (accOf (buf ++ [b]) :: (cutBits [] bs).1, (cutBits [] bs).2) else cutBits (buf ++ [b]) bs

theorem accOf_concat (bits : List Bool) (b : Bool) : accOf (bits ++ [b]) = accOf bits * 2 + (if b then 1 else 0) := by
  simp [accOf, List.foldl_append]

theorem cutBits_append (buf a b : List Bool) :
    cutBits buf (a ++ b) = ((cutBits buf a).1 ++ (cutBits (cutBits buf a).2 b).1, (cutBits (cutBits buf a).2 b).2) := by
  induction a generalizing buf with
  | nil => rfl
  | cons x a ih =>
    rw [List.cons_append, cutBits, cutBits]
    split
    · rw [ih]; rfl
    · rw [ih]

theorem cutBits_length {buf bits : List Bool} (h : buf.length < 8) :
    (cutBits buf bits).2.length < 8 ∧
      8 * (cutBits buf bits).1.length + (cutBits buf bits).2.length = buf.length + bits.length := by
  induction bits generalizing buf with
  | nil => simp [cutBits, h]
  | cons x bits ih =>
    rw [cutBits]
    split
    · have := ih (buf := []) (by simp)
      simp only [List.length_cons, List.length_nil] at *
      omega
    · have := ih (buf := buf ++ [x]) (by simp; omega)
      simp only [List.length_cons, List.length_append, List.length_nil] at *
      omega

theorem packedByte_eq (bits : List Bool) (j : Nat) :
    packedByte bits j = accOf ((List.range 8).map (fun k => bits.getD (8 * j + k) false)) := by
  rw [packedByte, accOf, List.foldl_map]

/-- The first eight bits make the first byte; the rest follows. -/
theorem packedBytes_append {a rest : List Bool} (h : a.length = 8) :
    packedBytes (a ++ rest) = accOf a :: packedBytes rest := by
  have hn : ((a ++ rest).length + 7) / 8 = (rest.length + 7) / 8 + 1 := by rw [List.length_append, h]; omega
  rw [packedBytes, hn, List.range_succ_eq_map, List.map_cons, List.map_map, packedBytes]
  congr 1
  · rw [packedByte_eq]
    congr 1
    apply List.ext_getElem?
    intro i
    rw [List.getElem?_map]
    by_cases hi : i < 8
    · rw [List.getElem?_range hi, Option.map_some, Nat.mul_zero, Nat.zero_add, List.getD_eq_getElem?_getD,
        List.getElem?_append_left (by omega), List.getElem?_eq_getElem (by omega), Option.getD_some]
    · rw [List.getElem?_eq_none (by simp; omega), List.getElem?_eq_none (by omega)]
      rfl
  · apply List.map_congr_left
    intro j _
    simp only [Function.comp, packedByte_eq]
    congr 1
    apply List.map_congr_left
    intro k _
    rw [List.getD_eq_getElem?_getD, List.getD_eq_getElem?_getD, List.getElem?_append_right (by omega)]
    congr 2
    omega

theorem accOf_pad (r : List Bool) (k : Nat) : accOf (r ++ List.replicate k false) = accOf r <<< k := by
  induction k with
  | zero => simp
  | succ k ih =>
    rw [List.replicate_succ', ← List.append_assoc, accOf_concat, ih]
    apply BitVec.eq_of_toNat_eq
    simp [BitVec.toNat_shiftLeft, Nat.shiftLeft_eq, pow_succ, Nat.mul_assoc]

/-- A last byte with fewer than eight bits is padded with zeros on the right (R101, R162). -/
theorem packedBytes_short {r : List Bool} (h0 : r ≠ []) (h : r.length < 8) :
    packedBytes r = [accOf r <<< (8 - r.length)] := by
  have hpos : 0 < r.length := List.length_pos_iff.mpr h0
  have hn : (r.length + 7) / 8 = 1 := by omega
  rw [packedBytes, hn, ← accOf_pad]
  simp only [List.range_one, List.map_cons, List.map_nil, packedByte_eq]
  congr 2
  apply List.ext_getElem?
  intro i
  rw [List.getElem?_map, Nat.mul_zero]
  by_cases hi : i < 8
  · rw [List.getElem?_range hi, Option.map_some, Nat.zero_add, List.getD_eq_getElem?_getD, List.getElem?_append]
    split
    · rename_i hlt; rw [List.getElem?_eq_getElem hlt]; rfl
    · rename_i hge
      rw [List.getElem?_eq_none (by omega), List.getElem?_replicate, if_pos (by omega)]
      rfl
  · rw [List.getElem?_eq_none (by simp; omega), List.getElem?_eq_none (by simp; omega)]
    rfl

@[simp] theorem packedBytes_nil : packedBytes [] = [] := rfl

/-- The padded last byte, if bits are left over. -/
def lastByte (r : List Bool) : List Byte := if r = [] then [] else [accOf r <<< (8 - r.length)]

/-- The bytes of a whole stream are the full bytes and the padded remainder. -/
theorem packedBytes_cut {buf bits : List Bool} (h : buf.length < 8) :
    packedBytes (buf ++ bits) = (cutBits buf bits).1 ++ lastByte (cutBits buf bits).2 := by
  induction bits generalizing buf with
  | nil =>
    simp only [cutBits, List.append_nil, List.nil_append]
    rw [lastByte]
    by_cases h0 : buf = []
    · rw [if_pos h0, h0]; rfl
    · rw [if_neg h0]; exact packedBytes_short h0 h
  | cons x bits ih =>
    rw [cutBits]
    split
    · rename_i h7
      have := ih (buf := []) (by simp)
      rw [List.nil_append] at this
      rw [show buf ++ x :: bits = (buf ++ [x]) ++ bits by simp, packedBytes_append (by simp [h7]), this]
      rfl
    · rw [← ih (buf := buf ++ [x]) (by simp; omega)]
      simp

@[simp] theorem packedBytes_length (bits : List Bool) : (packedBytes bits).length = (bits.length + 7) / 8 := by
  simp [packedBytes]

/-! ### Reading back -/

@[simp] theorem byteBits_length (b : Byte) : (byteBits b).length = 8 := by simp [byteBits]

theorem byteBits_accOf {a : List Bool} (h : a.length = 8) : byteBits (accOf a) = a := by
  match a, h with
  | [b7, b6, b5, b4, b3, b2, b1, b0], _ =>
    revert b7 b6 b5 b4 b3 b2 b1 b0
    decide

theorem payloadBits_cons (b : Byte) (p : List Byte) : payloadBits (b :: p) = byteBits b ++ payloadBits p := by
  simp [payloadBits]

@[simp] theorem payloadBits_length (p : List Byte) : (payloadBits p).length = 8 * p.length := by
  induction p with
  | nil => rfl
  | cons b p ih => rw [payloadBits_cons, List.length_append, ih, byteBits_length, List.length_cons]; omega

/-- The bits of the packed bytes are the stream, then zeros. -/
theorem payloadBits_packedBytes (bits : List Bool) :
    ∃ k, payloadBits (packedBytes bits) = bits ++ List.replicate k false := by
  induction h : bits.length using Nat.strong_induction_on generalizing bits with
  | _ n ih =>
    by_cases h8 : 8 ≤ bits.length
    · obtain ⟨k, hk⟩ := ih (bits.drop 8).length (by rw [List.length_drop]; omega) (bits.drop 8) rfl
      refine ⟨k, ?_⟩
      have ht : (bits.take 8).length = 8 := by rw [List.length_take]; omega
      conv_lhs => rw [← List.take_append_drop 8 bits]
      rw [packedBytes_append ht, payloadBits_cons, byteBits_accOf ht, hk, ← List.append_assoc, List.take_append_drop]
    · by_cases h0 : bits = []
      · subst h0; exact ⟨0, rfl⟩
      · refine ⟨8 - bits.length, ?_⟩
        rw [packedBytes_short h0 (by omega), ← accOf_pad, payloadBits_cons,
          byteBits_accOf (by simp; omega)]
        simp [payloadBits]

/-- With the trailing-bits count of R107 the usable bits (R172) are exactly the stream. -/
theorem usableBits_packedBytes {bits : List Bool} (h : bits ≠ []) :
    usableBits (packedBytes bits) (bits.length % 8) = bits := by
  obtain ⟨k, hk⟩ := payloadBits_packedBytes bits
  have hpos : 0 < bits.length := List.length_pos_iff.mpr h
  have ha : availBits (packedBytes bits).length (bits.length % 8) = bits.length := by
    rw [availBits, packedBytes_length]
    split <;> omega
  rw [usableBits, ha, hk, List.take_left]

/-- A usable bit as the walk reads it: bit `7 - k mod 8` of byte `k / 8` (R173). -/
theorem payloadBits_getElem? {p : List Byte} {k : Nat} (h : k < 8 * p.length) :
    (payloadBits p)[k]? = (p[k / 8]?).map (fun b => streamBit b (k % 8)) := by
  induction p generalizing k with
  | nil => simp at h
  | cons b p ih =>
    rw [payloadBits_cons]
    by_cases hk : k < 8
    · rw [List.getElem?_append_left (by simpa using hk), Nat.div_eq_of_lt hk, Nat.mod_eq_of_lt hk, byteBits,
        List.getElem?_map, List.getElem?_range hk]
      rfl
    · simp only [List.length_cons] at h
      rw [List.getElem?_append_right (by rw [byteBits_length]; omega), byteBits_length, ih (by omega),
        show k / 8 = (k - 8) / 8 + 1 by omega, show (k - 8) % 8 = k % 8 by omega, List.getElem?_cons_succ]

end Sys2Proof.Machine
end

