-- ==== Sys2Proof/Laws/Memory.lean ====
section
/-! SUPPORT. Memory: read after write, the canonical form, writing a list of bytes. -/

namespace Sys2Proof.Machine

/-! ### Reading after writing -/

@[simp] theorem Memory.get?_nil (x : Nat) : Memory.get? [] x = none := rfl

theorem Memory.get?_cons (a : Nat) (b : Byte) (m : Memory) (x : Nat) :
    Memory.get? ((a, b) :: m) x = if a = x then some b else Memory.get? m x := rfl

theorem Memory.get?_set (m : Memory) (x y : Nat) (v : Byte) :
    Memory.get? (Memory.set m x v) y = if x = y then some v else Memory.get? m y := by
  induction m with
  | nil => simp [Memory.set, Memory.get?_cons]
  | cons c m ih =>
    obtain ⟨a, b⟩ := c
    simp only [Memory.set]
    split
    · simp [Memory.get?_cons]
    · split
      · rename_i h; subst h
        by_cases hxy : x = y <;> simp [Memory.get?_cons, hxy]
      · rename_i h1 h2
        simp only [Memory.get?_cons, ih]
        by_cases hay : a = y
        · have : x ≠ y := by omega
          simp [hay, this]
        · simp [hay]

theorem Memory.get?_setAll (m : Memory) (x : Nat) (bs : List Byte) (y : Nat) :
    Memory.get? (Memory.setAll m x bs) y =
      if x ≤ y ∧ y < x + bs.length then bs[y - x]? else Memory.get? m y := by
  induction bs generalizing m x with
  | nil => simp [Memory.setAll]
  | cons b bs ih =>
    rw [Memory.setAll, ih, Memory.get?_set]
    simp only [List.length_cons]
    by_cases h1 : x = y
    · subst h1
      have h2 : ¬ (x + 1 ≤ x ∧ x < x + 1 + bs.length) := by omega
      have h3 : x ≤ x ∧ x < x + (bs.length + 1) := by omega
      simp
    · by_cases h2 : x + 1 ≤ y ∧ y < x + 1 + bs.length
      · have h3 : x ≤ y ∧ y < x + (bs.length + 1) := by omega
        rw [if_pos h2, if_pos h3]
        have : y - x = (y - (x + 1)) + 1 := by omega
        rw [this, List.getElem?_cons_succ]
      · have h3 : ¬ (x ≤ y ∧ y < x + (bs.length + 1)) := by omega
        rw [if_neg h2, if_neg h3, if_neg h1]

/-! ### The canonical form -/

theorem Memory.risingFrom_mono {m : Memory} {lo hi : Nat} (h : lo ≤ hi) (hm : Memory.risingFrom hi m = true) :
    Memory.risingFrom lo m = true := by
  cases m with
  | nil => rfl
  | cons c m =>
    simp only [Memory.risingFrom, Bool.and_eq_true, decide_eq_true_eq] at hm ⊢
    exact ⟨by omega, hm.2⟩

theorem Memory.risingFrom_set {m : Memory} {lo x : Nat} {v : Byte} (hx : lo ≤ x)
    (hm : Memory.risingFrom lo m = true) : Memory.risingFrom lo (Memory.set m x v) = true := by
  induction m generalizing lo with
  | nil => simp [Memory.set, Memory.risingFrom, hx]
  | cons c m ih =>
    obtain ⟨a, b⟩ := c
    simp only [Memory.risingFrom, Bool.and_eq_true, decide_eq_true_eq] at hm
    simp only [Memory.set]
    split
    · simp only [Memory.risingFrom, Bool.and_eq_true, decide_eq_true_eq]
      exact ⟨hx, by omega, hm.2⟩
    · split
      · rename_i h; subst h
        simp only [Memory.risingFrom, Bool.and_eq_true, decide_eq_true_eq]
        exact hm
      · simp only [Memory.risingFrom, Bool.and_eq_true, decide_eq_true_eq]
        exact ⟨hm.1, ih (by omega) hm.2⟩

theorem Memory.all_set {m : Memory} {x : Nat} {v : Byte} {p : Host.Cell → Bool} (hx : p (x, v) = true)
    (hm : m.all p = true) : (Memory.set m x v).all p = true := by
  induction m with
  | nil => simp [Memory.set, hx]
  | cons c m ih =>
    obtain ⟨a, b⟩ := c
    simp only [List.all_cons, Bool.and_eq_true] at hm
    simp only [Memory.set]
    split
    · simp [hx, hm.1, hm.2]
    · split
      · simp [hx, hm.2]
      · simp only [List.all_cons, Bool.and_eq_true]
        exact ⟨hm.1, ih hm.2⟩

/-- Writing a byte keeps the canonical form. -/
theorem Memory.wf_set {m : Memory} {x : Nat} {v : Byte} (hx : x < 2 ^ 64) (hm : Memory.wf m = true) :
    Memory.wf (Memory.set m x v) = true := by
  simp only [Memory.wf, Bool.and_eq_true] at hm ⊢
  exact ⟨Memory.risingFrom_set (Nat.zero_le _) hm.1, Memory.all_set (by simpa using hx) hm.2⟩

/-- Writing a list of bytes keeps the canonical form. -/
theorem Memory.wf_setAll {m : Memory} {x : Nat} {bs : List Byte} (hx : x + bs.length ≤ 2 ^ 64)
    (hm : Memory.wf m = true) : Memory.wf (Memory.setAll m x bs) = true := by
  induction bs generalizing m x with
  | nil => exact hm
  | cons b bs ih =>
    simp only [List.length_cons] at hx
    exact ih (by omega) (Memory.wf_set (by omega) hm)

@[simp] theorem Memory.wf_nil : Memory.wf [] = true := rfl

/-- In a canonical memory every read address is a 64-bit offset. -/
theorem Memory.lt_of_get? {m : Memory} {x : Nat} {b : Byte} (hm : Memory.wf m = true)
    (h : Memory.get? m x = some b) : x < 2 ^ 64 := by
  simp only [Memory.wf, Bool.and_eq_true] at hm
  have hall := hm.2
  clear hm
  induction m with
  | nil => simp at h
  | cons c m ih =>
    obtain ⟨a, v⟩ := c
    simp only [List.all_cons, Bool.and_eq_true, decide_eq_true_eq] at hall
    rw [Memory.get?_cons] at h
    split at h
    · rename_i hax; subst hax; exact hall.1
    · exact ih h hall.2

theorem Memory.get?_below {m : Memory} {lo x : Nat} (hm : Memory.risingFrom lo m = true) (hx : x < lo) :
    Memory.get? m x = none := by
  induction m generalizing lo with
  | nil => rfl
  | cons c m ih =>
    obtain ⟨a, v⟩ := c
    simp only [Memory.risingFrom, Bool.and_eq_true, decide_eq_true_eq] at hm
    rw [Memory.get?_cons, if_neg (by omega)]
    exact ih hm.2 (by omega)

theorem Memory.ext_rising {m m' : Memory} {lo : Nat} (h : Memory.risingFrom lo m = true)
    (h' : Memory.risingFrom lo m' = true) (heq : ∀ x, Memory.get? m x = Memory.get? m' x) : m = m' := by
  induction m generalizing m' lo with
  | nil =>
    cases m' with
    | nil => rfl
    | cons c m' => obtain ⟨a, v⟩ := c; have := heq a; simp [Memory.get?_cons] at this
  | cons c m ih =>
    obtain ⟨a, v⟩ := c
    cases m' with
    | nil => have := heq a; simp [Memory.get?_cons] at this
    | cons c' m' =>
      obtain ⟨a', v'⟩ := c'
      simp only [Memory.risingFrom, Bool.and_eq_true, decide_eq_true_eq] at h h'
      have hm : ∀ x, x < a + 1 → Memory.get? m x = none := fun x hx => Memory.get?_below h.2 hx
      have hm' : ∀ x, x < a' + 1 → Memory.get? m' x = none := fun x hx => Memory.get?_below h'.2 hx
      have haa : a = a' := by
        rcases Nat.lt_trichotomy a a' with hlt | heq' | hgt
        · have := heq a
          rw [Memory.get?_cons, if_pos rfl, Memory.get?_cons, if_neg (by omega), hm' a (by omega)] at this
          simp at this
        · exact heq'
        · have := heq a'
          rw [Memory.get?_cons, if_neg (by omega), Memory.get?_cons, if_pos rfl, hm a' (by omega)] at this
          simp at this
      subst haa
      have hv : v = v' := by
        have := heq a
        simpa [Memory.get?_cons] using this
      subst hv
      have : m = m' := by
        refine ih h.2 h'.2 (fun x => ?_)
        have := heq x
        rw [Memory.get?_cons, Memory.get?_cons] at this
        by_cases hx : a = x
        · subst hx; rw [hm a (by omega), hm' a (by omega)]
        · simpa [hx] using this
      rw [this]

/-- Equal canonical memories are equal data: two memories that read alike everywhere are the same list. -/
theorem Memory.ext {m m' : Memory} (h : Memory.wf m = true) (h' : Memory.wf m' = true)
    (heq : ∀ x, Memory.get? m x = Memory.get? m' x) : m = m' := by
  simp only [Memory.wf, Bool.and_eq_true] at h h'
  exact Memory.ext_rising h.1 h'.1 heq

/-! ### Byte order -/

@[simp] theorem leBytes_length (n v : Nat) : (leBytes n v).length = n := by
  induction n generalizing v with
  | zero => rfl
  | succ n ih => simp [leBytes, ih]

/-- Little-endian assembly undoes little-endian cutting (R16). -/
theorem leValue_leBytes (n v : Nat) : leValue (leBytes n v) = v % 256 ^ n := by
  induction n generalizing v with
  | zero => simp [leBytes, leValue, Nat.mod_one]
  | succ n ih =>
    simp only [leBytes, leValue, ih, BitVec.toNat_ofNat]
    have h1 : 256 ^ (n + 1) = 256 * 256 ^ n := Nat.pow_succ'
    have h2 : v % 256 % 2 ^ 8 = v % 256 := Nat.mod_mod _ _
    rw [h1, Nat.mod_mul, h2]

theorem leValue_lt (bs : List Byte) : leValue bs < 256 ^ bs.length := by
  induction bs with
  | nil => simp [leValue]
  | cons b bs ih =>
    have h1 : 256 ^ (bs.length + 1) = 256 * 256 ^ bs.length := Nat.pow_succ'
    have := b.isLt
    simp only [leValue, List.length_cons, h1]
    omega

@[simp] theorem leValue_single (b : Byte) : leValue [b] = b.toNat := by simp [leValue]

end Sys2Proof.Machine
end

