-- ==== Sys2Proof/Laws/State.lean ====
section
/-! SUPPORT. One lemma per field per named update of State (true by rfl), so that no proof unfolds a record update. -/

namespace Sys2Proof.Machine

/-- The state with bytes appended to OUT, as a list of OutByte leaves it. -/
def State.appendOut (s : State) (bs : List Byte) : State :=
  s.setOut (Memory.setAll s.outMem s.outLen.toNat bs) (s.outLen + BitVec.ofNat 64 bs.length)

/-- The state BUILD_TREE's body leaves: a new tree, no code table. -/
def State.plant (s : State) (nd : List Node) (r : NodeIdx) : State :=
  ((((s.setPhase .build).dropTree.dropCodes).setNodes nd [] (BitVec.ofNat 10 nd.length)).setRoot r []).setTreeValid true

/-- The state after the walker emits symbols, `n` bits having been taken (R173). -/
def State.emit (s : State) (bs : List Byte) (n : Nat) : State :=
  ((s.appendOut bs).setWalk s.root (s.emitted + BitVec.ofNat 64 bs.length)).setBitpos (s.bitpos + BitVec.ofNat 67 n)

/-- Two states with the same fields are the same. -/
theorem State.ext_fields {s t : State}
    (h_ft : s.ft = t.ft)
    (h_total : s.total = t.total)
    (h_node : s.node = t.node)
    (h_ncount : s.ncount = t.ncount)
    (h_root : s.root = t.root)
    (h_treeValid : s.treeValid = t.treeValid)
    (h_ct : s.ct = t.ct)
    (h_ctValid : s.ctValid = t.ctValid)
    (h_origLen : s.origLen = t.origLen)
    (h_symCount : s.symCount = t.symCount)
    (h_trail : s.trail = t.trail)
    (h_inMem : s.inMem = t.inMem)
    (h_inLen : s.inLen = t.inLen)
    (h_outMem : s.outMem = t.outMem)
    (h_outLen : s.outLen = t.outLen)
    (h_outValid : s.outValid = t.outValid)
    (h_cmd : s.cmd = t.cmd)
    (h_busy : s.busy = t.busy)
    (h_done : s.done = t.done)
    (h_errKind : s.errKind = t.errKind)
    (h_errCause : s.errCause = t.errCause)
    (h_errInfo : s.errInfo = t.errInfo)
    (h_acc : s.acc = t.acc)
    (h_fill : s.fill = t.fill)
    (h_pay : s.pay = t.pay)
    (h_cur : s.cur = t.cur)
    (h_emitted : s.emitted = t.emitted)
    (h_bitpos : s.bitpos = t.bitpos)
    (h_q : s.q = t.q)
    (h_genStack : s.genStack = t.genStack)
    (h_phase : s.phase = t.phase)
    (h_inOff : s.inOff = t.inOff)
    (h_env : s.env = t.env)
    (h_hostQ : s.hostQ = t.hostQ)
    (h_hostData : s.hostData = t.hostData)
    (h_draws : s.draws = t.draws)
    (h_inSeed : s.inSeed = t.inSeed) : s = t := by
  cases s; cases t
  simp only at h_ft h_total h_node h_ncount h_root h_treeValid h_ct h_ctValid h_origLen h_symCount h_trail h_inMem h_inLen h_outMem h_outLen h_outValid h_cmd h_busy h_done h_errKind h_errCause h_errInfo h_acc h_fill h_pay h_cur h_emitted h_bitpos h_q h_genStack h_phase h_inOff h_env h_hostQ h_hostData h_draws h_inSeed
  subst h_ft h_total h_node h_ncount h_root h_treeValid h_ct h_ctValid h_origLen h_symCount h_trail h_inMem h_inLen h_outMem h_outLen h_outValid h_cmd h_busy h_done h_errKind h_errCause h_errInfo h_acc h_fill h_pay h_cur h_emitted h_bitpos h_q h_genStack h_phase h_inOff h_env h_hostQ h_hostData h_draws h_inSeed
  rfl

/-! ### `State.setCounts` -/

@[simp] theorem State.setCounts_ft (s : State) (v : Vector Count 256) (t : Count) : (s.setCounts v t).ft = v := rfl
@[simp] theorem State.setCounts_total (s : State) (v : Vector Count 256) (t : Count) : (s.setCounts v t).total = t := rfl
@[simp] theorem State.setCounts_node (s : State) (v : Vector Count 256) (t : Count) : (s.setCounts v t).node = s.node := rfl
@[simp] theorem State.setCounts_ncount (s : State) (v : Vector Count 256) (t : Count) : (s.setCounts v t).ncount = s.ncount := rfl
@[simp] theorem State.setCounts_root (s : State) (v : Vector Count 256) (t : Count) : (s.setCounts v t).root = s.root := rfl
@[simp] theorem State.setCounts_treeValid (s : State) (v : Vector Count 256) (t : Count) : (s.setCounts v t).treeValid = s.treeValid := rfl
@[simp] theorem State.setCounts_ct (s : State) (v : Vector Count 256) (t : Count) : (s.setCounts v t).ct = s.ct := rfl
@[simp] theorem State.setCounts_ctValid (s : State) (v : Vector Count 256) (t : Count) : (s.setCounts v t).ctValid = s.ctValid := rfl
@[simp] theorem State.setCounts_origLen (s : State) (v : Vector Count 256) (t : Count) : (s.setCounts v t).origLen = s.origLen := rfl
@[simp] theorem State.setCounts_symCount (s : State) (v : Vector Count 256) (t : Count) : (s.setCounts v t).symCount = s.symCount := rfl
@[simp] theorem State.setCounts_trail (s : State) (v : Vector Count 256) (t : Count) : (s.setCounts v t).trail = s.trail := rfl
@[simp] theorem State.setCounts_inMem (s : State) (v : Vector Count 256) (t : Count) : (s.setCounts v t).inMem = s.inMem := rfl
@[simp] theorem State.setCounts_inLen (s : State) (v : Vector Count 256) (t : Count) : (s.setCounts v t).inLen = s.inLen := rfl
@[simp] theorem State.setCounts_outMem (s : State) (v : Vector Count 256) (t : Count) : (s.setCounts v t).outMem = s.outMem := rfl
@[simp] theorem State.setCounts_outLen (s : State) (v : Vector Count 256) (t : Count) : (s.setCounts v t).outLen = s.outLen := rfl
@[simp] theorem State.setCounts_outValid (s : State) (v : Vector Count 256) (t : Count) : (s.setCounts v t).outValid = s.outValid := rfl
@[simp] theorem State.setCounts_cmd (s : State) (v : Vector Count 256) (t : Count) : (s.setCounts v t).cmd = s.cmd := rfl
@[simp] theorem State.setCounts_busy (s : State) (v : Vector Count 256) (t : Count) : (s.setCounts v t).busy = s.busy := rfl
@[simp] theorem State.setCounts_done (s : State) (v : Vector Count 256) (t : Count) : (s.setCounts v t).done = s.done := rfl
@[simp] theorem State.setCounts_errKind (s : State) (v : Vector Count 256) (t : Count) : (s.setCounts v t).errKind = s.errKind := rfl
@[simp] theorem State.setCounts_errCause (s : State) (v : Vector Count 256) (t : Count) : (s.setCounts v t).errCause = s.errCause := rfl
@[simp] theorem State.setCounts_errInfo (s : State) (v : Vector Count 256) (t : Count) : (s.setCounts v t).errInfo = s.errInfo := rfl
@[simp] theorem State.setCounts_acc (s : State) (v : Vector Count 256) (t : Count) : (s.setCounts v t).acc = s.acc := rfl
@[simp] theorem State.setCounts_fill (s : State) (v : Vector Count 256) (t : Count) : (s.setCounts v t).fill = s.fill := rfl
@[simp] theorem State.setCounts_pay (s : State) (v : Vector Count 256) (t : Count) : (s.setCounts v t).pay = s.pay := rfl
@[simp] theorem State.setCounts_cur (s : State) (v : Vector Count 256) (t : Count) : (s.setCounts v t).cur = s.cur := rfl
@[simp] theorem State.setCounts_emitted (s : State) (v : Vector Count 256) (t : Count) : (s.setCounts v t).emitted = s.emitted := rfl
@[simp] theorem State.setCounts_bitpos (s : State) (v : Vector Count 256) (t : Count) : (s.setCounts v t).bitpos = s.bitpos := rfl
@[simp] theorem State.setCounts_q (s : State) (v : Vector Count 256) (t : Count) : (s.setCounts v t).q = s.q := rfl
@[simp] theorem State.setCounts_genStack (s : State) (v : Vector Count 256) (t : Count) : (s.setCounts v t).genStack = s.genStack := rfl
@[simp] theorem State.setCounts_phase (s : State) (v : Vector Count 256) (t : Count) : (s.setCounts v t).phase = s.phase := rfl
@[simp] theorem State.setCounts_inOff (s : State) (v : Vector Count 256) (t : Count) : (s.setCounts v t).inOff = s.inOff := rfl
@[simp] theorem State.setCounts_env (s : State) (v : Vector Count 256) (t : Count) : (s.setCounts v t).env = s.env := rfl
@[simp] theorem State.setCounts_hostQ (s : State) (v : Vector Count 256) (t : Count) : (s.setCounts v t).hostQ = s.hostQ := rfl
@[simp] theorem State.setCounts_hostData (s : State) (v : Vector Count 256) (t : Count) : (s.setCounts v t).hostData = s.hostData := rfl
@[simp] theorem State.setCounts_draws (s : State) (v : Vector Count 256) (t : Count) : (s.setCounts v t).draws = s.draws := rfl
@[simp] theorem State.setCounts_inSeed (s : State) (v : Vector Count 256) (t : Count) : (s.setCounts v t).inSeed = s.inSeed := rfl

/-! ### `State.setFt` -/

@[simp] theorem State.setFt_ft (s : State) (v : Vector Count 256) : (s.setFt v).ft = v := rfl
@[simp] theorem State.setFt_total (s : State) (v : Vector Count 256) : (s.setFt v).total = s.total := rfl
@[simp] theorem State.setFt_node (s : State) (v : Vector Count 256) : (s.setFt v).node = s.node := rfl
@[simp] theorem State.setFt_ncount (s : State) (v : Vector Count 256) : (s.setFt v).ncount = s.ncount := rfl
@[simp] theorem State.setFt_root (s : State) (v : Vector Count 256) : (s.setFt v).root = s.root := rfl
@[simp] theorem State.setFt_treeValid (s : State) (v : Vector Count 256) : (s.setFt v).treeValid = s.treeValid := rfl
@[simp] theorem State.setFt_ct (s : State) (v : Vector Count 256) : (s.setFt v).ct = s.ct := rfl
@[simp] theorem State.setFt_ctValid (s : State) (v : Vector Count 256) : (s.setFt v).ctValid = s.ctValid := rfl
@[simp] theorem State.setFt_origLen (s : State) (v : Vector Count 256) : (s.setFt v).origLen = s.origLen := rfl
@[simp] theorem State.setFt_symCount (s : State) (v : Vector Count 256) : (s.setFt v).symCount = s.symCount := rfl
@[simp] theorem State.setFt_trail (s : State) (v : Vector Count 256) : (s.setFt v).trail = s.trail := rfl
@[simp] theorem State.setFt_inMem (s : State) (v : Vector Count 256) : (s.setFt v).inMem = s.inMem := rfl
@[simp] theorem State.setFt_inLen (s : State) (v : Vector Count 256) : (s.setFt v).inLen = s.inLen := rfl
@[simp] theorem State.setFt_outMem (s : State) (v : Vector Count 256) : (s.setFt v).outMem = s.outMem := rfl
@[simp] theorem State.setFt_outLen (s : State) (v : Vector Count 256) : (s.setFt v).outLen = s.outLen := rfl
@[simp] theorem State.setFt_outValid (s : State) (v : Vector Count 256) : (s.setFt v).outValid = s.outValid := rfl
@[simp] theorem State.setFt_cmd (s : State) (v : Vector Count 256) : (s.setFt v).cmd = s.cmd := rfl
@[simp] theorem State.setFt_busy (s : State) (v : Vector Count 256) : (s.setFt v).busy = s.busy := rfl
@[simp] theorem State.setFt_done (s : State) (v : Vector Count 256) : (s.setFt v).done = s.done := rfl
@[simp] theorem State.setFt_errKind (s : State) (v : Vector Count 256) : (s.setFt v).errKind = s.errKind := rfl
@[simp] theorem State.setFt_errCause (s : State) (v : Vector Count 256) : (s.setFt v).errCause = s.errCause := rfl
@[simp] theorem State.setFt_errInfo (s : State) (v : Vector Count 256) : (s.setFt v).errInfo = s.errInfo := rfl
@[simp] theorem State.setFt_acc (s : State) (v : Vector Count 256) : (s.setFt v).acc = s.acc := rfl
@[simp] theorem State.setFt_fill (s : State) (v : Vector Count 256) : (s.setFt v).fill = s.fill := rfl
@[simp] theorem State.setFt_pay (s : State) (v : Vector Count 256) : (s.setFt v).pay = s.pay := rfl
@[simp] theorem State.setFt_cur (s : State) (v : Vector Count 256) : (s.setFt v).cur = s.cur := rfl
@[simp] theorem State.setFt_emitted (s : State) (v : Vector Count 256) : (s.setFt v).emitted = s.emitted := rfl
@[simp] theorem State.setFt_bitpos (s : State) (v : Vector Count 256) : (s.setFt v).bitpos = s.bitpos := rfl
@[simp] theorem State.setFt_q (s : State) (v : Vector Count 256) : (s.setFt v).q = s.q := rfl
@[simp] theorem State.setFt_genStack (s : State) (v : Vector Count 256) : (s.setFt v).genStack = s.genStack := rfl
@[simp] theorem State.setFt_phase (s : State) (v : Vector Count 256) : (s.setFt v).phase = s.phase := rfl
@[simp] theorem State.setFt_inOff (s : State) (v : Vector Count 256) : (s.setFt v).inOff = s.inOff := rfl
@[simp] theorem State.setFt_env (s : State) (v : Vector Count 256) : (s.setFt v).env = s.env := rfl
@[simp] theorem State.setFt_hostQ (s : State) (v : Vector Count 256) : (s.setFt v).hostQ = s.hostQ := rfl
@[simp] theorem State.setFt_hostData (s : State) (v : Vector Count 256) : (s.setFt v).hostData = s.hostData := rfl
@[simp] theorem State.setFt_draws (s : State) (v : Vector Count 256) : (s.setFt v).draws = s.draws := rfl
@[simp] theorem State.setFt_inSeed (s : State) (v : Vector Count 256) : (s.setFt v).inSeed = s.inSeed := rfl

/-! ### `State.setNodes` -/

@[simp] theorem State.setNodes_ft (s : State) (nd : List Node) (ql : List NodeIdx) (n : BitVec 10) : (s.setNodes nd ql n).ft = s.ft := rfl
@[simp] theorem State.setNodes_total (s : State) (nd : List Node) (ql : List NodeIdx) (n : BitVec 10) : (s.setNodes nd ql n).total = s.total := rfl
@[simp] theorem State.setNodes_node (s : State) (nd : List Node) (ql : List NodeIdx) (n : BitVec 10) : (s.setNodes nd ql n).node = nd := rfl
@[simp] theorem State.setNodes_ncount (s : State) (nd : List Node) (ql : List NodeIdx) (n : BitVec 10) : (s.setNodes nd ql n).ncount = n := rfl
@[simp] theorem State.setNodes_root (s : State) (nd : List Node) (ql : List NodeIdx) (n : BitVec 10) : (s.setNodes nd ql n).root = s.root := rfl
@[simp] theorem State.setNodes_treeValid (s : State) (nd : List Node) (ql : List NodeIdx) (n : BitVec 10) : (s.setNodes nd ql n).treeValid = s.treeValid := rfl
@[simp] theorem State.setNodes_ct (s : State) (nd : List Node) (ql : List NodeIdx) (n : BitVec 10) : (s.setNodes nd ql n).ct = s.ct := rfl
@[simp] theorem State.setNodes_ctValid (s : State) (nd : List Node) (ql : List NodeIdx) (n : BitVec 10) : (s.setNodes nd ql n).ctValid = s.ctValid := rfl
@[simp] theorem State.setNodes_origLen (s : State) (nd : List Node) (ql : List NodeIdx) (n : BitVec 10) : (s.setNodes nd ql n).origLen = s.origLen := rfl
@[simp] theorem State.setNodes_symCount (s : State) (nd : List Node) (ql : List NodeIdx) (n : BitVec 10) : (s.setNodes nd ql n).symCount = s.symCount := rfl
@[simp] theorem State.setNodes_trail (s : State) (nd : List Node) (ql : List NodeIdx) (n : BitVec 10) : (s.setNodes nd ql n).trail = s.trail := rfl
@[simp] theorem State.setNodes_inMem (s : State) (nd : List Node) (ql : List NodeIdx) (n : BitVec 10) : (s.setNodes nd ql n).inMem = s.inMem := rfl
@[simp] theorem State.setNodes_inLen (s : State) (nd : List Node) (ql : List NodeIdx) (n : BitVec 10) : (s.setNodes nd ql n).inLen = s.inLen := rfl
@[simp] theorem State.setNodes_outMem (s : State) (nd : List Node) (ql : List NodeIdx) (n : BitVec 10) : (s.setNodes nd ql n).outMem = s.outMem := rfl
@[simp] theorem State.setNodes_outLen (s : State) (nd : List Node) (ql : List NodeIdx) (n : BitVec 10) : (s.setNodes nd ql n).outLen = s.outLen := rfl
@[simp] theorem State.setNodes_outValid (s : State) (nd : List Node) (ql : List NodeIdx) (n : BitVec 10) : (s.setNodes nd ql n).outValid = s.outValid := rfl
@[simp] theorem State.setNodes_cmd (s : State) (nd : List Node) (ql : List NodeIdx) (n : BitVec 10) : (s.setNodes nd ql n).cmd = s.cmd := rfl
@[simp] theorem State.setNodes_busy (s : State) (nd : List Node) (ql : List NodeIdx) (n : BitVec 10) : (s.setNodes nd ql n).busy = s.busy := rfl
@[simp] theorem State.setNodes_done (s : State) (nd : List Node) (ql : List NodeIdx) (n : BitVec 10) : (s.setNodes nd ql n).done = s.done := rfl
@[simp] theorem State.setNodes_errKind (s : State) (nd : List Node) (ql : List NodeIdx) (n : BitVec 10) : (s.setNodes nd ql n).errKind = s.errKind := rfl
@[simp] theorem State.setNodes_errCause (s : State) (nd : List Node) (ql : List NodeIdx) (n : BitVec 10) : (s.setNodes nd ql n).errCause = s.errCause := rfl
@[simp] theorem State.setNodes_errInfo (s : State) (nd : List Node) (ql : List NodeIdx) (n : BitVec 10) : (s.setNodes nd ql n).errInfo = s.errInfo := rfl
@[simp] theorem State.setNodes_acc (s : State) (nd : List Node) (ql : List NodeIdx) (n : BitVec 10) : (s.setNodes nd ql n).acc = s.acc := rfl
@[simp] theorem State.setNodes_fill (s : State) (nd : List Node) (ql : List NodeIdx) (n : BitVec 10) : (s.setNodes nd ql n).fill = s.fill := rfl
@[simp] theorem State.setNodes_pay (s : State) (nd : List Node) (ql : List NodeIdx) (n : BitVec 10) : (s.setNodes nd ql n).pay = s.pay := rfl
@[simp] theorem State.setNodes_cur (s : State) (nd : List Node) (ql : List NodeIdx) (n : BitVec 10) : (s.setNodes nd ql n).cur = s.cur := rfl
@[simp] theorem State.setNodes_emitted (s : State) (nd : List Node) (ql : List NodeIdx) (n : BitVec 10) : (s.setNodes nd ql n).emitted = s.emitted := rfl
@[simp] theorem State.setNodes_bitpos (s : State) (nd : List Node) (ql : List NodeIdx) (n : BitVec 10) : (s.setNodes nd ql n).bitpos = s.bitpos := rfl
@[simp] theorem State.setNodes_q (s : State) (nd : List Node) (ql : List NodeIdx) (n : BitVec 10) : (s.setNodes nd ql n).q = ql := rfl
@[simp] theorem State.setNodes_genStack (s : State) (nd : List Node) (ql : List NodeIdx) (n : BitVec 10) : (s.setNodes nd ql n).genStack = s.genStack := rfl
@[simp] theorem State.setNodes_phase (s : State) (nd : List Node) (ql : List NodeIdx) (n : BitVec 10) : (s.setNodes nd ql n).phase = s.phase := rfl
@[simp] theorem State.setNodes_inOff (s : State) (nd : List Node) (ql : List NodeIdx) (n : BitVec 10) : (s.setNodes nd ql n).inOff = s.inOff := rfl
@[simp] theorem State.setNodes_env (s : State) (nd : List Node) (ql : List NodeIdx) (n : BitVec 10) : (s.setNodes nd ql n).env = s.env := rfl
@[simp] theorem State.setNodes_hostQ (s : State) (nd : List Node) (ql : List NodeIdx) (n : BitVec 10) : (s.setNodes nd ql n).hostQ = s.hostQ := rfl
@[simp] theorem State.setNodes_hostData (s : State) (nd : List Node) (ql : List NodeIdx) (n : BitVec 10) : (s.setNodes nd ql n).hostData = s.hostData := rfl
@[simp] theorem State.setNodes_draws (s : State) (nd : List Node) (ql : List NodeIdx) (n : BitVec 10) : (s.setNodes nd ql n).draws = s.draws := rfl
@[simp] theorem State.setNodes_inSeed (s : State) (nd : List Node) (ql : List NodeIdx) (n : BitVec 10) : (s.setNodes nd ql n).inSeed = s.inSeed := rfl

/-! ### `State.setRoot` -/

@[simp] theorem State.setRoot_ft (s : State) (r : NodeIdx) (ql : List NodeIdx) : (s.setRoot r ql).ft = s.ft := rfl
@[simp] theorem State.setRoot_total (s : State) (r : NodeIdx) (ql : List NodeIdx) : (s.setRoot r ql).total = s.total := rfl
@[simp] theorem State.setRoot_node (s : State) (r : NodeIdx) (ql : List NodeIdx) : (s.setRoot r ql).node = s.node := rfl
@[simp] theorem State.setRoot_ncount (s : State) (r : NodeIdx) (ql : List NodeIdx) : (s.setRoot r ql).ncount = s.ncount := rfl
@[simp] theorem State.setRoot_root (s : State) (r : NodeIdx) (ql : List NodeIdx) : (s.setRoot r ql).root = r := rfl
@[simp] theorem State.setRoot_treeValid (s : State) (r : NodeIdx) (ql : List NodeIdx) : (s.setRoot r ql).treeValid = s.treeValid := rfl
@[simp] theorem State.setRoot_ct (s : State) (r : NodeIdx) (ql : List NodeIdx) : (s.setRoot r ql).ct = s.ct := rfl
@[simp] theorem State.setRoot_ctValid (s : State) (r : NodeIdx) (ql : List NodeIdx) : (s.setRoot r ql).ctValid = s.ctValid := rfl
@[simp] theorem State.setRoot_origLen (s : State) (r : NodeIdx) (ql : List NodeIdx) : (s.setRoot r ql).origLen = s.origLen := rfl
@[simp] theorem State.setRoot_symCount (s : State) (r : NodeIdx) (ql : List NodeIdx) : (s.setRoot r ql).symCount = s.symCount := rfl
@[simp] theorem State.setRoot_trail (s : State) (r : NodeIdx) (ql : List NodeIdx) : (s.setRoot r ql).trail = s.trail := rfl
@[simp] theorem State.setRoot_inMem (s : State) (r : NodeIdx) (ql : List NodeIdx) : (s.setRoot r ql).inMem = s.inMem := rfl
@[simp] theorem State.setRoot_inLen (s : State) (r : NodeIdx) (ql : List NodeIdx) : (s.setRoot r ql).inLen = s.inLen := rfl
@[simp] theorem State.setRoot_outMem (s : State) (r : NodeIdx) (ql : List NodeIdx) : (s.setRoot r ql).outMem = s.outMem := rfl
@[simp] theorem State.setRoot_outLen (s : State) (r : NodeIdx) (ql : List NodeIdx) : (s.setRoot r ql).outLen = s.outLen := rfl
@[simp] theorem State.setRoot_outValid (s : State) (r : NodeIdx) (ql : List NodeIdx) : (s.setRoot r ql).outValid = s.outValid := rfl
@[simp] theorem State.setRoot_cmd (s : State) (r : NodeIdx) (ql : List NodeIdx) : (s.setRoot r ql).cmd = s.cmd := rfl
@[simp] theorem State.setRoot_busy (s : State) (r : NodeIdx) (ql : List NodeIdx) : (s.setRoot r ql).busy = s.busy := rfl
@[simp] theorem State.setRoot_done (s : State) (r : NodeIdx) (ql : List NodeIdx) : (s.setRoot r ql).done = s.done := rfl
@[simp] theorem State.setRoot_errKind (s : State) (r : NodeIdx) (ql : List NodeIdx) : (s.setRoot r ql).errKind = s.errKind := rfl
@[simp] theorem State.setRoot_errCause (s : State) (r : NodeIdx) (ql : List NodeIdx) : (s.setRoot r ql).errCause = s.errCause := rfl
@[simp] theorem State.setRoot_errInfo (s : State) (r : NodeIdx) (ql : List NodeIdx) : (s.setRoot r ql).errInfo = s.errInfo := rfl
@[simp] theorem State.setRoot_acc (s : State) (r : NodeIdx) (ql : List NodeIdx) : (s.setRoot r ql).acc = s.acc := rfl
@[simp] theorem State.setRoot_fill (s : State) (r : NodeIdx) (ql : List NodeIdx) : (s.setRoot r ql).fill = s.fill := rfl
@[simp] theorem State.setRoot_pay (s : State) (r : NodeIdx) (ql : List NodeIdx) : (s.setRoot r ql).pay = s.pay := rfl
@[simp] theorem State.setRoot_cur (s : State) (r : NodeIdx) (ql : List NodeIdx) : (s.setRoot r ql).cur = s.cur := rfl
@[simp] theorem State.setRoot_emitted (s : State) (r : NodeIdx) (ql : List NodeIdx) : (s.setRoot r ql).emitted = s.emitted := rfl
@[simp] theorem State.setRoot_bitpos (s : State) (r : NodeIdx) (ql : List NodeIdx) : (s.setRoot r ql).bitpos = s.bitpos := rfl
@[simp] theorem State.setRoot_q (s : State) (r : NodeIdx) (ql : List NodeIdx) : (s.setRoot r ql).q = ql := rfl
@[simp] theorem State.setRoot_genStack (s : State) (r : NodeIdx) (ql : List NodeIdx) : (s.setRoot r ql).genStack = s.genStack := rfl
@[simp] theorem State.setRoot_phase (s : State) (r : NodeIdx) (ql : List NodeIdx) : (s.setRoot r ql).phase = s.phase := rfl
@[simp] theorem State.setRoot_inOff (s : State) (r : NodeIdx) (ql : List NodeIdx) : (s.setRoot r ql).inOff = s.inOff := rfl
@[simp] theorem State.setRoot_env (s : State) (r : NodeIdx) (ql : List NodeIdx) : (s.setRoot r ql).env = s.env := rfl
@[simp] theorem State.setRoot_hostQ (s : State) (r : NodeIdx) (ql : List NodeIdx) : (s.setRoot r ql).hostQ = s.hostQ := rfl
@[simp] theorem State.setRoot_hostData (s : State) (r : NodeIdx) (ql : List NodeIdx) : (s.setRoot r ql).hostData = s.hostData := rfl
@[simp] theorem State.setRoot_draws (s : State) (r : NodeIdx) (ql : List NodeIdx) : (s.setRoot r ql).draws = s.draws := rfl
@[simp] theorem State.setRoot_inSeed (s : State) (r : NodeIdx) (ql : List NodeIdx) : (s.setRoot r ql).inSeed = s.inSeed := rfl

/-! ### `State.setTreeValid` -/

@[simp] theorem State.setTreeValid_ft (s : State) (v : Bool) : (s.setTreeValid v).ft = s.ft := rfl
@[simp] theorem State.setTreeValid_total (s : State) (v : Bool) : (s.setTreeValid v).total = s.total := rfl
@[simp] theorem State.setTreeValid_node (s : State) (v : Bool) : (s.setTreeValid v).node = s.node := rfl
@[simp] theorem State.setTreeValid_ncount (s : State) (v : Bool) : (s.setTreeValid v).ncount = s.ncount := rfl
@[simp] theorem State.setTreeValid_root (s : State) (v : Bool) : (s.setTreeValid v).root = s.root := rfl
@[simp] theorem State.setTreeValid_treeValid (s : State) (v : Bool) : (s.setTreeValid v).treeValid = v := rfl
@[simp] theorem State.setTreeValid_ct (s : State) (v : Bool) : (s.setTreeValid v).ct = s.ct := rfl
@[simp] theorem State.setTreeValid_ctValid (s : State) (v : Bool) : (s.setTreeValid v).ctValid = s.ctValid := rfl
@[simp] theorem State.setTreeValid_origLen (s : State) (v : Bool) : (s.setTreeValid v).origLen = s.origLen := rfl
@[simp] theorem State.setTreeValid_symCount (s : State) (v : Bool) : (s.setTreeValid v).symCount = s.symCount := rfl
@[simp] theorem State.setTreeValid_trail (s : State) (v : Bool) : (s.setTreeValid v).trail = s.trail := rfl
@[simp] theorem State.setTreeValid_inMem (s : State) (v : Bool) : (s.setTreeValid v).inMem = s.inMem := rfl
@[simp] theorem State.setTreeValid_inLen (s : State) (v : Bool) : (s.setTreeValid v).inLen = s.inLen := rfl
@[simp] theorem State.setTreeValid_outMem (s : State) (v : Bool) : (s.setTreeValid v).outMem = s.outMem := rfl
@[simp] theorem State.setTreeValid_outLen (s : State) (v : Bool) : (s.setTreeValid v).outLen = s.outLen := rfl
@[simp] theorem State.setTreeValid_outValid (s : State) (v : Bool) : (s.setTreeValid v).outValid = s.outValid := rfl
@[simp] theorem State.setTreeValid_cmd (s : State) (v : Bool) : (s.setTreeValid v).cmd = s.cmd := rfl
@[simp] theorem State.setTreeValid_busy (s : State) (v : Bool) : (s.setTreeValid v).busy = s.busy := rfl
@[simp] theorem State.setTreeValid_done (s : State) (v : Bool) : (s.setTreeValid v).done = s.done := rfl
@[simp] theorem State.setTreeValid_errKind (s : State) (v : Bool) : (s.setTreeValid v).errKind = s.errKind := rfl
@[simp] theorem State.setTreeValid_errCause (s : State) (v : Bool) : (s.setTreeValid v).errCause = s.errCause := rfl
@[simp] theorem State.setTreeValid_errInfo (s : State) (v : Bool) : (s.setTreeValid v).errInfo = s.errInfo := rfl
@[simp] theorem State.setTreeValid_acc (s : State) (v : Bool) : (s.setTreeValid v).acc = s.acc := rfl
@[simp] theorem State.setTreeValid_fill (s : State) (v : Bool) : (s.setTreeValid v).fill = s.fill := rfl
@[simp] theorem State.setTreeValid_pay (s : State) (v : Bool) : (s.setTreeValid v).pay = s.pay := rfl
@[simp] theorem State.setTreeValid_cur (s : State) (v : Bool) : (s.setTreeValid v).cur = s.cur := rfl
@[simp] theorem State.setTreeValid_emitted (s : State) (v : Bool) : (s.setTreeValid v).emitted = s.emitted := rfl
@[simp] theorem State.setTreeValid_bitpos (s : State) (v : Bool) : (s.setTreeValid v).bitpos = s.bitpos := rfl
@[simp] theorem State.setTreeValid_q (s : State) (v : Bool) : (s.setTreeValid v).q = s.q := rfl
@[simp] theorem State.setTreeValid_genStack (s : State) (v : Bool) : (s.setTreeValid v).genStack = s.genStack := rfl
@[simp] theorem State.setTreeValid_phase (s : State) (v : Bool) : (s.setTreeValid v).phase = s.phase := rfl
@[simp] theorem State.setTreeValid_inOff (s : State) (v : Bool) : (s.setTreeValid v).inOff = s.inOff := rfl
@[simp] theorem State.setTreeValid_env (s : State) (v : Bool) : (s.setTreeValid v).env = s.env := rfl
@[simp] theorem State.setTreeValid_hostQ (s : State) (v : Bool) : (s.setTreeValid v).hostQ = s.hostQ := rfl
@[simp] theorem State.setTreeValid_hostData (s : State) (v : Bool) : (s.setTreeValid v).hostData = s.hostData := rfl
@[simp] theorem State.setTreeValid_draws (s : State) (v : Bool) : (s.setTreeValid v).draws = s.draws := rfl
@[simp] theorem State.setTreeValid_inSeed (s : State) (v : Bool) : (s.setTreeValid v).inSeed = s.inSeed := rfl

/-! ### `State.setGen` -/

@[simp] theorem State.setGen_ft (s : State) (c : List Code) (st : List (NodeIdx × Code)) : (s.setGen c st).ft = s.ft := rfl
@[simp] theorem State.setGen_total (s : State) (c : List Code) (st : List (NodeIdx × Code)) : (s.setGen c st).total = s.total := rfl
@[simp] theorem State.setGen_node (s : State) (c : List Code) (st : List (NodeIdx × Code)) : (s.setGen c st).node = s.node := rfl
@[simp] theorem State.setGen_ncount (s : State) (c : List Code) (st : List (NodeIdx × Code)) : (s.setGen c st).ncount = s.ncount := rfl
@[simp] theorem State.setGen_root (s : State) (c : List Code) (st : List (NodeIdx × Code)) : (s.setGen c st).root = s.root := rfl
@[simp] theorem State.setGen_treeValid (s : State) (c : List Code) (st : List (NodeIdx × Code)) : (s.setGen c st).treeValid = s.treeValid := rfl
@[simp] theorem State.setGen_ct (s : State) (c : List Code) (st : List (NodeIdx × Code)) : (s.setGen c st).ct = c := rfl
@[simp] theorem State.setGen_ctValid (s : State) (c : List Code) (st : List (NodeIdx × Code)) : (s.setGen c st).ctValid = s.ctValid := rfl
@[simp] theorem State.setGen_origLen (s : State) (c : List Code) (st : List (NodeIdx × Code)) : (s.setGen c st).origLen = s.origLen := rfl
@[simp] theorem State.setGen_symCount (s : State) (c : List Code) (st : List (NodeIdx × Code)) : (s.setGen c st).symCount = s.symCount := rfl
@[simp] theorem State.setGen_trail (s : State) (c : List Code) (st : List (NodeIdx × Code)) : (s.setGen c st).trail = s.trail := rfl
@[simp] theorem State.setGen_inMem (s : State) (c : List Code) (st : List (NodeIdx × Code)) : (s.setGen c st).inMem = s.inMem := rfl
@[simp] theorem State.setGen_inLen (s : State) (c : List Code) (st : List (NodeIdx × Code)) : (s.setGen c st).inLen = s.inLen := rfl
@[simp] theorem State.setGen_outMem (s : State) (c : List Code) (st : List (NodeIdx × Code)) : (s.setGen c st).outMem = s.outMem := rfl
@[simp] theorem State.setGen_outLen (s : State) (c : List Code) (st : List (NodeIdx × Code)) : (s.setGen c st).outLen = s.outLen := rfl
@[simp] theorem State.setGen_outValid (s : State) (c : List Code) (st : List (NodeIdx × Code)) : (s.setGen c st).outValid = s.outValid := rfl
@[simp] theorem State.setGen_cmd (s : State) (c : List Code) (st : List (NodeIdx × Code)) : (s.setGen c st).cmd = s.cmd := rfl
@[simp] theorem State.setGen_busy (s : State) (c : List Code) (st : List (NodeIdx × Code)) : (s.setGen c st).busy = s.busy := rfl
@[simp] theorem State.setGen_done (s : State) (c : List Code) (st : List (NodeIdx × Code)) : (s.setGen c st).done = s.done := rfl
@[simp] theorem State.setGen_errKind (s : State) (c : List Code) (st : List (NodeIdx × Code)) : (s.setGen c st).errKind = s.errKind := rfl
@[simp] theorem State.setGen_errCause (s : State) (c : List Code) (st : List (NodeIdx × Code)) : (s.setGen c st).errCause = s.errCause := rfl
@[simp] theorem State.setGen_errInfo (s : State) (c : List Code) (st : List (NodeIdx × Code)) : (s.setGen c st).errInfo = s.errInfo := rfl
@[simp] theorem State.setGen_acc (s : State) (c : List Code) (st : List (NodeIdx × Code)) : (s.setGen c st).acc = s.acc := rfl
@[simp] theorem State.setGen_fill (s : State) (c : List Code) (st : List (NodeIdx × Code)) : (s.setGen c st).fill = s.fill := rfl
@[simp] theorem State.setGen_pay (s : State) (c : List Code) (st : List (NodeIdx × Code)) : (s.setGen c st).pay = s.pay := rfl
@[simp] theorem State.setGen_cur (s : State) (c : List Code) (st : List (NodeIdx × Code)) : (s.setGen c st).cur = s.cur := rfl
@[simp] theorem State.setGen_emitted (s : State) (c : List Code) (st : List (NodeIdx × Code)) : (s.setGen c st).emitted = s.emitted := rfl
@[simp] theorem State.setGen_bitpos (s : State) (c : List Code) (st : List (NodeIdx × Code)) : (s.setGen c st).bitpos = s.bitpos := rfl
@[simp] theorem State.setGen_q (s : State) (c : List Code) (st : List (NodeIdx × Code)) : (s.setGen c st).q = s.q := rfl
@[simp] theorem State.setGen_genStack (s : State) (c : List Code) (st : List (NodeIdx × Code)) : (s.setGen c st).genStack = st := rfl
@[simp] theorem State.setGen_phase (s : State) (c : List Code) (st : List (NodeIdx × Code)) : (s.setGen c st).phase = s.phase := rfl
@[simp] theorem State.setGen_inOff (s : State) (c : List Code) (st : List (NodeIdx × Code)) : (s.setGen c st).inOff = s.inOff := rfl
@[simp] theorem State.setGen_env (s : State) (c : List Code) (st : List (NodeIdx × Code)) : (s.setGen c st).env = s.env := rfl
@[simp] theorem State.setGen_hostQ (s : State) (c : List Code) (st : List (NodeIdx × Code)) : (s.setGen c st).hostQ = s.hostQ := rfl
@[simp] theorem State.setGen_hostData (s : State) (c : List Code) (st : List (NodeIdx × Code)) : (s.setGen c st).hostData = s.hostData := rfl
@[simp] theorem State.setGen_draws (s : State) (c : List Code) (st : List (NodeIdx × Code)) : (s.setGen c st).draws = s.draws := rfl
@[simp] theorem State.setGen_inSeed (s : State) (c : List Code) (st : List (NodeIdx × Code)) : (s.setGen c st).inSeed = s.inSeed := rfl

/-! ### `State.setCtValid` -/

@[simp] theorem State.setCtValid_ft (s : State) (v : Bool) : (s.setCtValid v).ft = s.ft := rfl
@[simp] theorem State.setCtValid_total (s : State) (v : Bool) : (s.setCtValid v).total = s.total := rfl
@[simp] theorem State.setCtValid_node (s : State) (v : Bool) : (s.setCtValid v).node = s.node := rfl
@[simp] theorem State.setCtValid_ncount (s : State) (v : Bool) : (s.setCtValid v).ncount = s.ncount := rfl
@[simp] theorem State.setCtValid_root (s : State) (v : Bool) : (s.setCtValid v).root = s.root := rfl
@[simp] theorem State.setCtValid_treeValid (s : State) (v : Bool) : (s.setCtValid v).treeValid = s.treeValid := rfl
@[simp] theorem State.setCtValid_ct (s : State) (v : Bool) : (s.setCtValid v).ct = s.ct := rfl
@[simp] theorem State.setCtValid_ctValid (s : State) (v : Bool) : (s.setCtValid v).ctValid = v := rfl
@[simp] theorem State.setCtValid_origLen (s : State) (v : Bool) : (s.setCtValid v).origLen = s.origLen := rfl
@[simp] theorem State.setCtValid_symCount (s : State) (v : Bool) : (s.setCtValid v).symCount = s.symCount := rfl
@[simp] theorem State.setCtValid_trail (s : State) (v : Bool) : (s.setCtValid v).trail = s.trail := rfl
@[simp] theorem State.setCtValid_inMem (s : State) (v : Bool) : (s.setCtValid v).inMem = s.inMem := rfl
@[simp] theorem State.setCtValid_inLen (s : State) (v : Bool) : (s.setCtValid v).inLen = s.inLen := rfl
@[simp] theorem State.setCtValid_outMem (s : State) (v : Bool) : (s.setCtValid v).outMem = s.outMem := rfl
@[simp] theorem State.setCtValid_outLen (s : State) (v : Bool) : (s.setCtValid v).outLen = s.outLen := rfl
@[simp] theorem State.setCtValid_outValid (s : State) (v : Bool) : (s.setCtValid v).outValid = s.outValid := rfl
@[simp] theorem State.setCtValid_cmd (s : State) (v : Bool) : (s.setCtValid v).cmd = s.cmd := rfl
@[simp] theorem State.setCtValid_busy (s : State) (v : Bool) : (s.setCtValid v).busy = s.busy := rfl
@[simp] theorem State.setCtValid_done (s : State) (v : Bool) : (s.setCtValid v).done = s.done := rfl
@[simp] theorem State.setCtValid_errKind (s : State) (v : Bool) : (s.setCtValid v).errKind = s.errKind := rfl
@[simp] theorem State.setCtValid_errCause (s : State) (v : Bool) : (s.setCtValid v).errCause = s.errCause := rfl
@[simp] theorem State.setCtValid_errInfo (s : State) (v : Bool) : (s.setCtValid v).errInfo = s.errInfo := rfl
@[simp] theorem State.setCtValid_acc (s : State) (v : Bool) : (s.setCtValid v).acc = s.acc := rfl
@[simp] theorem State.setCtValid_fill (s : State) (v : Bool) : (s.setCtValid v).fill = s.fill := rfl
@[simp] theorem State.setCtValid_pay (s : State) (v : Bool) : (s.setCtValid v).pay = s.pay := rfl
@[simp] theorem State.setCtValid_cur (s : State) (v : Bool) : (s.setCtValid v).cur = s.cur := rfl
@[simp] theorem State.setCtValid_emitted (s : State) (v : Bool) : (s.setCtValid v).emitted = s.emitted := rfl
@[simp] theorem State.setCtValid_bitpos (s : State) (v : Bool) : (s.setCtValid v).bitpos = s.bitpos := rfl
@[simp] theorem State.setCtValid_q (s : State) (v : Bool) : (s.setCtValid v).q = s.q := rfl
@[simp] theorem State.setCtValid_genStack (s : State) (v : Bool) : (s.setCtValid v).genStack = s.genStack := rfl
@[simp] theorem State.setCtValid_phase (s : State) (v : Bool) : (s.setCtValid v).phase = s.phase := rfl
@[simp] theorem State.setCtValid_inOff (s : State) (v : Bool) : (s.setCtValid v).inOff = s.inOff := rfl
@[simp] theorem State.setCtValid_env (s : State) (v : Bool) : (s.setCtValid v).env = s.env := rfl
@[simp] theorem State.setCtValid_hostQ (s : State) (v : Bool) : (s.setCtValid v).hostQ = s.hostQ := rfl
@[simp] theorem State.setCtValid_hostData (s : State) (v : Bool) : (s.setCtValid v).hostData = s.hostData := rfl
@[simp] theorem State.setCtValid_draws (s : State) (v : Bool) : (s.setCtValid v).draws = s.draws := rfl
@[simp] theorem State.setCtValid_inSeed (s : State) (v : Bool) : (s.setCtValid v).inSeed = s.inSeed := rfl

/-! ### `State.setOrigLen` -/

@[simp] theorem State.setOrigLen_ft (s : State) (v : Count) : (s.setOrigLen v).ft = s.ft := rfl
@[simp] theorem State.setOrigLen_total (s : State) (v : Count) : (s.setOrigLen v).total = s.total := rfl
@[simp] theorem State.setOrigLen_node (s : State) (v : Count) : (s.setOrigLen v).node = s.node := rfl
@[simp] theorem State.setOrigLen_ncount (s : State) (v : Count) : (s.setOrigLen v).ncount = s.ncount := rfl
@[simp] theorem State.setOrigLen_root (s : State) (v : Count) : (s.setOrigLen v).root = s.root := rfl
@[simp] theorem State.setOrigLen_treeValid (s : State) (v : Count) : (s.setOrigLen v).treeValid = s.treeValid := rfl
@[simp] theorem State.setOrigLen_ct (s : State) (v : Count) : (s.setOrigLen v).ct = s.ct := rfl
@[simp] theorem State.setOrigLen_ctValid (s : State) (v : Count) : (s.setOrigLen v).ctValid = s.ctValid := rfl
@[simp] theorem State.setOrigLen_origLen (s : State) (v : Count) : (s.setOrigLen v).origLen = v := rfl
@[simp] theorem State.setOrigLen_symCount (s : State) (v : Count) : (s.setOrigLen v).symCount = s.symCount := rfl
@[simp] theorem State.setOrigLen_trail (s : State) (v : Count) : (s.setOrigLen v).trail = s.trail := rfl
@[simp] theorem State.setOrigLen_inMem (s : State) (v : Count) : (s.setOrigLen v).inMem = s.inMem := rfl
@[simp] theorem State.setOrigLen_inLen (s : State) (v : Count) : (s.setOrigLen v).inLen = s.inLen := rfl
@[simp] theorem State.setOrigLen_outMem (s : State) (v : Count) : (s.setOrigLen v).outMem = s.outMem := rfl
@[simp] theorem State.setOrigLen_outLen (s : State) (v : Count) : (s.setOrigLen v).outLen = s.outLen := rfl
@[simp] theorem State.setOrigLen_outValid (s : State) (v : Count) : (s.setOrigLen v).outValid = s.outValid := rfl
@[simp] theorem State.setOrigLen_cmd (s : State) (v : Count) : (s.setOrigLen v).cmd = s.cmd := rfl
@[simp] theorem State.setOrigLen_busy (s : State) (v : Count) : (s.setOrigLen v).busy = s.busy := rfl
@[simp] theorem State.setOrigLen_done (s : State) (v : Count) : (s.setOrigLen v).done = s.done := rfl
@[simp] theorem State.setOrigLen_errKind (s : State) (v : Count) : (s.setOrigLen v).errKind = s.errKind := rfl
@[simp] theorem State.setOrigLen_errCause (s : State) (v : Count) : (s.setOrigLen v).errCause = s.errCause := rfl
@[simp] theorem State.setOrigLen_errInfo (s : State) (v : Count) : (s.setOrigLen v).errInfo = s.errInfo := rfl
@[simp] theorem State.setOrigLen_acc (s : State) (v : Count) : (s.setOrigLen v).acc = s.acc := rfl
@[simp] theorem State.setOrigLen_fill (s : State) (v : Count) : (s.setOrigLen v).fill = s.fill := rfl
@[simp] theorem State.setOrigLen_pay (s : State) (v : Count) : (s.setOrigLen v).pay = s.pay := rfl
@[simp] theorem State.setOrigLen_cur (s : State) (v : Count) : (s.setOrigLen v).cur = s.cur := rfl
@[simp] theorem State.setOrigLen_emitted (s : State) (v : Count) : (s.setOrigLen v).emitted = s.emitted := rfl
@[simp] theorem State.setOrigLen_bitpos (s : State) (v : Count) : (s.setOrigLen v).bitpos = s.bitpos := rfl
@[simp] theorem State.setOrigLen_q (s : State) (v : Count) : (s.setOrigLen v).q = s.q := rfl
@[simp] theorem State.setOrigLen_genStack (s : State) (v : Count) : (s.setOrigLen v).genStack = s.genStack := rfl
@[simp] theorem State.setOrigLen_phase (s : State) (v : Count) : (s.setOrigLen v).phase = s.phase := rfl
@[simp] theorem State.setOrigLen_inOff (s : State) (v : Count) : (s.setOrigLen v).inOff = s.inOff := rfl
@[simp] theorem State.setOrigLen_env (s : State) (v : Count) : (s.setOrigLen v).env = s.env := rfl
@[simp] theorem State.setOrigLen_hostQ (s : State) (v : Count) : (s.setOrigLen v).hostQ = s.hostQ := rfl
@[simp] theorem State.setOrigLen_hostData (s : State) (v : Count) : (s.setOrigLen v).hostData = s.hostData := rfl
@[simp] theorem State.setOrigLen_draws (s : State) (v : Count) : (s.setOrigLen v).draws = s.draws := rfl
@[simp] theorem State.setOrigLen_inSeed (s : State) (v : Count) : (s.setOrigLen v).inSeed = s.inSeed := rfl

/-! ### `State.setSymCount` -/

@[simp] theorem State.setSymCount_ft (s : State) (v : BitVec 16) : (s.setSymCount v).ft = s.ft := rfl
@[simp] theorem State.setSymCount_total (s : State) (v : BitVec 16) : (s.setSymCount v).total = s.total := rfl
@[simp] theorem State.setSymCount_node (s : State) (v : BitVec 16) : (s.setSymCount v).node = s.node := rfl
@[simp] theorem State.setSymCount_ncount (s : State) (v : BitVec 16) : (s.setSymCount v).ncount = s.ncount := rfl
@[simp] theorem State.setSymCount_root (s : State) (v : BitVec 16) : (s.setSymCount v).root = s.root := rfl
@[simp] theorem State.setSymCount_treeValid (s : State) (v : BitVec 16) : (s.setSymCount v).treeValid = s.treeValid := rfl
@[simp] theorem State.setSymCount_ct (s : State) (v : BitVec 16) : (s.setSymCount v).ct = s.ct := rfl
@[simp] theorem State.setSymCount_ctValid (s : State) (v : BitVec 16) : (s.setSymCount v).ctValid = s.ctValid := rfl
@[simp] theorem State.setSymCount_origLen (s : State) (v : BitVec 16) : (s.setSymCount v).origLen = s.origLen := rfl
@[simp] theorem State.setSymCount_symCount (s : State) (v : BitVec 16) : (s.setSymCount v).symCount = v := rfl
@[simp] theorem State.setSymCount_trail (s : State) (v : BitVec 16) : (s.setSymCount v).trail = s.trail := rfl
@[simp] theorem State.setSymCount_inMem (s : State) (v : BitVec 16) : (s.setSymCount v).inMem = s.inMem := rfl
@[simp] theorem State.setSymCount_inLen (s : State) (v : BitVec 16) : (s.setSymCount v).inLen = s.inLen := rfl
@[simp] theorem State.setSymCount_outMem (s : State) (v : BitVec 16) : (s.setSymCount v).outMem = s.outMem := rfl
@[simp] theorem State.setSymCount_outLen (s : State) (v : BitVec 16) : (s.setSymCount v).outLen = s.outLen := rfl
@[simp] theorem State.setSymCount_outValid (s : State) (v : BitVec 16) : (s.setSymCount v).outValid = s.outValid := rfl
@[simp] theorem State.setSymCount_cmd (s : State) (v : BitVec 16) : (s.setSymCount v).cmd = s.cmd := rfl
@[simp] theorem State.setSymCount_busy (s : State) (v : BitVec 16) : (s.setSymCount v).busy = s.busy := rfl
@[simp] theorem State.setSymCount_done (s : State) (v : BitVec 16) : (s.setSymCount v).done = s.done := rfl
@[simp] theorem State.setSymCount_errKind (s : State) (v : BitVec 16) : (s.setSymCount v).errKind = s.errKind := rfl
@[simp] theorem State.setSymCount_errCause (s : State) (v : BitVec 16) : (s.setSymCount v).errCause = s.errCause := rfl
@[simp] theorem State.setSymCount_errInfo (s : State) (v : BitVec 16) : (s.setSymCount v).errInfo = s.errInfo := rfl
@[simp] theorem State.setSymCount_acc (s : State) (v : BitVec 16) : (s.setSymCount v).acc = s.acc := rfl
@[simp] theorem State.setSymCount_fill (s : State) (v : BitVec 16) : (s.setSymCount v).fill = s.fill := rfl
@[simp] theorem State.setSymCount_pay (s : State) (v : BitVec 16) : (s.setSymCount v).pay = s.pay := rfl
@[simp] theorem State.setSymCount_cur (s : State) (v : BitVec 16) : (s.setSymCount v).cur = s.cur := rfl
@[simp] theorem State.setSymCount_emitted (s : State) (v : BitVec 16) : (s.setSymCount v).emitted = s.emitted := rfl
@[simp] theorem State.setSymCount_bitpos (s : State) (v : BitVec 16) : (s.setSymCount v).bitpos = s.bitpos := rfl
@[simp] theorem State.setSymCount_q (s : State) (v : BitVec 16) : (s.setSymCount v).q = s.q := rfl
@[simp] theorem State.setSymCount_genStack (s : State) (v : BitVec 16) : (s.setSymCount v).genStack = s.genStack := rfl
@[simp] theorem State.setSymCount_phase (s : State) (v : BitVec 16) : (s.setSymCount v).phase = s.phase := rfl
@[simp] theorem State.setSymCount_inOff (s : State) (v : BitVec 16) : (s.setSymCount v).inOff = s.inOff := rfl
@[simp] theorem State.setSymCount_env (s : State) (v : BitVec 16) : (s.setSymCount v).env = s.env := rfl
@[simp] theorem State.setSymCount_hostQ (s : State) (v : BitVec 16) : (s.setSymCount v).hostQ = s.hostQ := rfl
@[simp] theorem State.setSymCount_hostData (s : State) (v : BitVec 16) : (s.setSymCount v).hostData = s.hostData := rfl
@[simp] theorem State.setSymCount_draws (s : State) (v : BitVec 16) : (s.setSymCount v).draws = s.draws := rfl
@[simp] theorem State.setSymCount_inSeed (s : State) (v : BitVec 16) : (s.setSymCount v).inSeed = s.inSeed := rfl

/-! ### `State.setTrail` -/

@[simp] theorem State.setTrail_ft (s : State) (v : BitVec 3) : (s.setTrail v).ft = s.ft := rfl
@[simp] theorem State.setTrail_total (s : State) (v : BitVec 3) : (s.setTrail v).total = s.total := rfl
@[simp] theorem State.setTrail_node (s : State) (v : BitVec 3) : (s.setTrail v).node = s.node := rfl
@[simp] theorem State.setTrail_ncount (s : State) (v : BitVec 3) : (s.setTrail v).ncount = s.ncount := rfl
@[simp] theorem State.setTrail_root (s : State) (v : BitVec 3) : (s.setTrail v).root = s.root := rfl
@[simp] theorem State.setTrail_treeValid (s : State) (v : BitVec 3) : (s.setTrail v).treeValid = s.treeValid := rfl
@[simp] theorem State.setTrail_ct (s : State) (v : BitVec 3) : (s.setTrail v).ct = s.ct := rfl
@[simp] theorem State.setTrail_ctValid (s : State) (v : BitVec 3) : (s.setTrail v).ctValid = s.ctValid := rfl
@[simp] theorem State.setTrail_origLen (s : State) (v : BitVec 3) : (s.setTrail v).origLen = s.origLen := rfl
@[simp] theorem State.setTrail_symCount (s : State) (v : BitVec 3) : (s.setTrail v).symCount = s.symCount := rfl
@[simp] theorem State.setTrail_trail (s : State) (v : BitVec 3) : (s.setTrail v).trail = v := rfl
@[simp] theorem State.setTrail_inMem (s : State) (v : BitVec 3) : (s.setTrail v).inMem = s.inMem := rfl
@[simp] theorem State.setTrail_inLen (s : State) (v : BitVec 3) : (s.setTrail v).inLen = s.inLen := rfl
@[simp] theorem State.setTrail_outMem (s : State) (v : BitVec 3) : (s.setTrail v).outMem = s.outMem := rfl
@[simp] theorem State.setTrail_outLen (s : State) (v : BitVec 3) : (s.setTrail v).outLen = s.outLen := rfl
@[simp] theorem State.setTrail_outValid (s : State) (v : BitVec 3) : (s.setTrail v).outValid = s.outValid := rfl
@[simp] theorem State.setTrail_cmd (s : State) (v : BitVec 3) : (s.setTrail v).cmd = s.cmd := rfl
@[simp] theorem State.setTrail_busy (s : State) (v : BitVec 3) : (s.setTrail v).busy = s.busy := rfl
@[simp] theorem State.setTrail_done (s : State) (v : BitVec 3) : (s.setTrail v).done = s.done := rfl
@[simp] theorem State.setTrail_errKind (s : State) (v : BitVec 3) : (s.setTrail v).errKind = s.errKind := rfl
@[simp] theorem State.setTrail_errCause (s : State) (v : BitVec 3) : (s.setTrail v).errCause = s.errCause := rfl
@[simp] theorem State.setTrail_errInfo (s : State) (v : BitVec 3) : (s.setTrail v).errInfo = s.errInfo := rfl
@[simp] theorem State.setTrail_acc (s : State) (v : BitVec 3) : (s.setTrail v).acc = s.acc := rfl
@[simp] theorem State.setTrail_fill (s : State) (v : BitVec 3) : (s.setTrail v).fill = s.fill := rfl
@[simp] theorem State.setTrail_pay (s : State) (v : BitVec 3) : (s.setTrail v).pay = s.pay := rfl
@[simp] theorem State.setTrail_cur (s : State) (v : BitVec 3) : (s.setTrail v).cur = s.cur := rfl
@[simp] theorem State.setTrail_emitted (s : State) (v : BitVec 3) : (s.setTrail v).emitted = s.emitted := rfl
@[simp] theorem State.setTrail_bitpos (s : State) (v : BitVec 3) : (s.setTrail v).bitpos = s.bitpos := rfl
@[simp] theorem State.setTrail_q (s : State) (v : BitVec 3) : (s.setTrail v).q = s.q := rfl
@[simp] theorem State.setTrail_genStack (s : State) (v : BitVec 3) : (s.setTrail v).genStack = s.genStack := rfl
@[simp] theorem State.setTrail_phase (s : State) (v : BitVec 3) : (s.setTrail v).phase = s.phase := rfl
@[simp] theorem State.setTrail_inOff (s : State) (v : BitVec 3) : (s.setTrail v).inOff = s.inOff := rfl
@[simp] theorem State.setTrail_env (s : State) (v : BitVec 3) : (s.setTrail v).env = s.env := rfl
@[simp] theorem State.setTrail_hostQ (s : State) (v : BitVec 3) : (s.setTrail v).hostQ = s.hostQ := rfl
@[simp] theorem State.setTrail_hostData (s : State) (v : BitVec 3) : (s.setTrail v).hostData = s.hostData := rfl
@[simp] theorem State.setTrail_draws (s : State) (v : BitVec 3) : (s.setTrail v).draws = s.draws := rfl
@[simp] theorem State.setTrail_inSeed (s : State) (v : BitVec 3) : (s.setTrail v).inSeed = s.inSeed := rfl

/-! ### `State.setInMem` -/

@[simp] theorem State.setInMem_ft (s : State) (m : Memory) : (s.setInMem m).ft = s.ft := rfl
@[simp] theorem State.setInMem_total (s : State) (m : Memory) : (s.setInMem m).total = s.total := rfl
@[simp] theorem State.setInMem_node (s : State) (m : Memory) : (s.setInMem m).node = s.node := rfl
@[simp] theorem State.setInMem_ncount (s : State) (m : Memory) : (s.setInMem m).ncount = s.ncount := rfl
@[simp] theorem State.setInMem_root (s : State) (m : Memory) : (s.setInMem m).root = s.root := rfl
@[simp] theorem State.setInMem_treeValid (s : State) (m : Memory) : (s.setInMem m).treeValid = s.treeValid := rfl
@[simp] theorem State.setInMem_ct (s : State) (m : Memory) : (s.setInMem m).ct = s.ct := rfl
@[simp] theorem State.setInMem_ctValid (s : State) (m : Memory) : (s.setInMem m).ctValid = s.ctValid := rfl
@[simp] theorem State.setInMem_origLen (s : State) (m : Memory) : (s.setInMem m).origLen = s.origLen := rfl
@[simp] theorem State.setInMem_symCount (s : State) (m : Memory) : (s.setInMem m).symCount = s.symCount := rfl
@[simp] theorem State.setInMem_trail (s : State) (m : Memory) : (s.setInMem m).trail = s.trail := rfl
@[simp] theorem State.setInMem_inMem (s : State) (m : Memory) : (s.setInMem m).inMem = m := rfl
@[simp] theorem State.setInMem_inLen (s : State) (m : Memory) : (s.setInMem m).inLen = s.inLen := rfl
@[simp] theorem State.setInMem_outMem (s : State) (m : Memory) : (s.setInMem m).outMem = s.outMem := rfl
@[simp] theorem State.setInMem_outLen (s : State) (m : Memory) : (s.setInMem m).outLen = s.outLen := rfl
@[simp] theorem State.setInMem_outValid (s : State) (m : Memory) : (s.setInMem m).outValid = s.outValid := rfl
@[simp] theorem State.setInMem_cmd (s : State) (m : Memory) : (s.setInMem m).cmd = s.cmd := rfl
@[simp] theorem State.setInMem_busy (s : State) (m : Memory) : (s.setInMem m).busy = s.busy := rfl
@[simp] theorem State.setInMem_done (s : State) (m : Memory) : (s.setInMem m).done = s.done := rfl
@[simp] theorem State.setInMem_errKind (s : State) (m : Memory) : (s.setInMem m).errKind = s.errKind := rfl
@[simp] theorem State.setInMem_errCause (s : State) (m : Memory) : (s.setInMem m).errCause = s.errCause := rfl
@[simp] theorem State.setInMem_errInfo (s : State) (m : Memory) : (s.setInMem m).errInfo = s.errInfo := rfl
@[simp] theorem State.setInMem_acc (s : State) (m : Memory) : (s.setInMem m).acc = s.acc := rfl
@[simp] theorem State.setInMem_fill (s : State) (m : Memory) : (s.setInMem m).fill = s.fill := rfl
@[simp] theorem State.setInMem_pay (s : State) (m : Memory) : (s.setInMem m).pay = s.pay := rfl
@[simp] theorem State.setInMem_cur (s : State) (m : Memory) : (s.setInMem m).cur = s.cur := rfl
@[simp] theorem State.setInMem_emitted (s : State) (m : Memory) : (s.setInMem m).emitted = s.emitted := rfl
@[simp] theorem State.setInMem_bitpos (s : State) (m : Memory) : (s.setInMem m).bitpos = s.bitpos := rfl
@[simp] theorem State.setInMem_q (s : State) (m : Memory) : (s.setInMem m).q = s.q := rfl
@[simp] theorem State.setInMem_genStack (s : State) (m : Memory) : (s.setInMem m).genStack = s.genStack := rfl
@[simp] theorem State.setInMem_phase (s : State) (m : Memory) : (s.setInMem m).phase = s.phase := rfl
@[simp] theorem State.setInMem_inOff (s : State) (m : Memory) : (s.setInMem m).inOff = s.inOff := rfl
@[simp] theorem State.setInMem_env (s : State) (m : Memory) : (s.setInMem m).env = s.env := rfl
@[simp] theorem State.setInMem_hostQ (s : State) (m : Memory) : (s.setInMem m).hostQ = s.hostQ := rfl
@[simp] theorem State.setInMem_hostData (s : State) (m : Memory) : (s.setInMem m).hostData = s.hostData := rfl
@[simp] theorem State.setInMem_draws (s : State) (m : Memory) : (s.setInMem m).draws = s.draws := rfl
@[simp] theorem State.setInMem_inSeed (s : State) (m : Memory) : (s.setInMem m).inSeed = s.inSeed := rfl

/-! ### `State.setInLen` -/

@[simp] theorem State.setInLen_ft (s : State) (v : Count) : (s.setInLen v).ft = s.ft := rfl
@[simp] theorem State.setInLen_total (s : State) (v : Count) : (s.setInLen v).total = s.total := rfl
@[simp] theorem State.setInLen_node (s : State) (v : Count) : (s.setInLen v).node = s.node := rfl
@[simp] theorem State.setInLen_ncount (s : State) (v : Count) : (s.setInLen v).ncount = s.ncount := rfl
@[simp] theorem State.setInLen_root (s : State) (v : Count) : (s.setInLen v).root = s.root := rfl
@[simp] theorem State.setInLen_treeValid (s : State) (v : Count) : (s.setInLen v).treeValid = s.treeValid := rfl
@[simp] theorem State.setInLen_ct (s : State) (v : Count) : (s.setInLen v).ct = s.ct := rfl
@[simp] theorem State.setInLen_ctValid (s : State) (v : Count) : (s.setInLen v).ctValid = s.ctValid := rfl
@[simp] theorem State.setInLen_origLen (s : State) (v : Count) : (s.setInLen v).origLen = s.origLen := rfl
@[simp] theorem State.setInLen_symCount (s : State) (v : Count) : (s.setInLen v).symCount = s.symCount := rfl
@[simp] theorem State.setInLen_trail (s : State) (v : Count) : (s.setInLen v).trail = s.trail := rfl
@[simp] theorem State.setInLen_inMem (s : State) (v : Count) : (s.setInLen v).inMem = s.inMem := rfl
@[simp] theorem State.setInLen_inLen (s : State) (v : Count) : (s.setInLen v).inLen = v := rfl
@[simp] theorem State.setInLen_outMem (s : State) (v : Count) : (s.setInLen v).outMem = s.outMem := rfl
@[simp] theorem State.setInLen_outLen (s : State) (v : Count) : (s.setInLen v).outLen = s.outLen := rfl
@[simp] theorem State.setInLen_outValid (s : State) (v : Count) : (s.setInLen v).outValid = s.outValid := rfl
@[simp] theorem State.setInLen_cmd (s : State) (v : Count) : (s.setInLen v).cmd = s.cmd := rfl
@[simp] theorem State.setInLen_busy (s : State) (v : Count) : (s.setInLen v).busy = s.busy := rfl
@[simp] theorem State.setInLen_done (s : State) (v : Count) : (s.setInLen v).done = s.done := rfl
@[simp] theorem State.setInLen_errKind (s : State) (v : Count) : (s.setInLen v).errKind = s.errKind := rfl
@[simp] theorem State.setInLen_errCause (s : State) (v : Count) : (s.setInLen v).errCause = s.errCause := rfl
@[simp] theorem State.setInLen_errInfo (s : State) (v : Count) : (s.setInLen v).errInfo = s.errInfo := rfl
@[simp] theorem State.setInLen_acc (s : State) (v : Count) : (s.setInLen v).acc = s.acc := rfl
@[simp] theorem State.setInLen_fill (s : State) (v : Count) : (s.setInLen v).fill = s.fill := rfl
@[simp] theorem State.setInLen_pay (s : State) (v : Count) : (s.setInLen v).pay = s.pay := rfl
@[simp] theorem State.setInLen_cur (s : State) (v : Count) : (s.setInLen v).cur = s.cur := rfl
@[simp] theorem State.setInLen_emitted (s : State) (v : Count) : (s.setInLen v).emitted = s.emitted := rfl
@[simp] theorem State.setInLen_bitpos (s : State) (v : Count) : (s.setInLen v).bitpos = s.bitpos := rfl
@[simp] theorem State.setInLen_q (s : State) (v : Count) : (s.setInLen v).q = s.q := rfl
@[simp] theorem State.setInLen_genStack (s : State) (v : Count) : (s.setInLen v).genStack = s.genStack := rfl
@[simp] theorem State.setInLen_phase (s : State) (v : Count) : (s.setInLen v).phase = s.phase := rfl
@[simp] theorem State.setInLen_inOff (s : State) (v : Count) : (s.setInLen v).inOff = s.inOff := rfl
@[simp] theorem State.setInLen_env (s : State) (v : Count) : (s.setInLen v).env = s.env := rfl
@[simp] theorem State.setInLen_hostQ (s : State) (v : Count) : (s.setInLen v).hostQ = s.hostQ := rfl
@[simp] theorem State.setInLen_hostData (s : State) (v : Count) : (s.setInLen v).hostData = s.hostData := rfl
@[simp] theorem State.setInLen_draws (s : State) (v : Count) : (s.setInLen v).draws = s.draws := rfl
@[simp] theorem State.setInLen_inSeed (s : State) (v : Count) : (s.setInLen v).inSeed = s.inSeed := rfl

/-! ### `State.setOut` -/

@[simp] theorem State.setOut_ft (s : State) (m : Memory) (l : Count) : (s.setOut m l).ft = s.ft := rfl
@[simp] theorem State.setOut_total (s : State) (m : Memory) (l : Count) : (s.setOut m l).total = s.total := rfl
@[simp] theorem State.setOut_node (s : State) (m : Memory) (l : Count) : (s.setOut m l).node = s.node := rfl
@[simp] theorem State.setOut_ncount (s : State) (m : Memory) (l : Count) : (s.setOut m l).ncount = s.ncount := rfl
@[simp] theorem State.setOut_root (s : State) (m : Memory) (l : Count) : (s.setOut m l).root = s.root := rfl
@[simp] theorem State.setOut_treeValid (s : State) (m : Memory) (l : Count) : (s.setOut m l).treeValid = s.treeValid := rfl
@[simp] theorem State.setOut_ct (s : State) (m : Memory) (l : Count) : (s.setOut m l).ct = s.ct := rfl
@[simp] theorem State.setOut_ctValid (s : State) (m : Memory) (l : Count) : (s.setOut m l).ctValid = s.ctValid := rfl
@[simp] theorem State.setOut_origLen (s : State) (m : Memory) (l : Count) : (s.setOut m l).origLen = s.origLen := rfl
@[simp] theorem State.setOut_symCount (s : State) (m : Memory) (l : Count) : (s.setOut m l).symCount = s.symCount := rfl
@[simp] theorem State.setOut_trail (s : State) (m : Memory) (l : Count) : (s.setOut m l).trail = s.trail := rfl
@[simp] theorem State.setOut_inMem (s : State) (m : Memory) (l : Count) : (s.setOut m l).inMem = s.inMem := rfl
@[simp] theorem State.setOut_inLen (s : State) (m : Memory) (l : Count) : (s.setOut m l).inLen = s.inLen := rfl
@[simp] theorem State.setOut_outMem (s : State) (m : Memory) (l : Count) : (s.setOut m l).outMem = m := rfl
@[simp] theorem State.setOut_outLen (s : State) (m : Memory) (l : Count) : (s.setOut m l).outLen = l := rfl
@[simp] theorem State.setOut_outValid (s : State) (m : Memory) (l : Count) : (s.setOut m l).outValid = s.outValid := rfl
@[simp] theorem State.setOut_cmd (s : State) (m : Memory) (l : Count) : (s.setOut m l).cmd = s.cmd := rfl
@[simp] theorem State.setOut_busy (s : State) (m : Memory) (l : Count) : (s.setOut m l).busy = s.busy := rfl
@[simp] theorem State.setOut_done (s : State) (m : Memory) (l : Count) : (s.setOut m l).done = s.done := rfl
@[simp] theorem State.setOut_errKind (s : State) (m : Memory) (l : Count) : (s.setOut m l).errKind = s.errKind := rfl
@[simp] theorem State.setOut_errCause (s : State) (m : Memory) (l : Count) : (s.setOut m l).errCause = s.errCause := rfl
@[simp] theorem State.setOut_errInfo (s : State) (m : Memory) (l : Count) : (s.setOut m l).errInfo = s.errInfo := rfl
@[simp] theorem State.setOut_acc (s : State) (m : Memory) (l : Count) : (s.setOut m l).acc = s.acc := rfl
@[simp] theorem State.setOut_fill (s : State) (m : Memory) (l : Count) : (s.setOut m l).fill = s.fill := rfl
@[simp] theorem State.setOut_pay (s : State) (m : Memory) (l : Count) : (s.setOut m l).pay = s.pay := rfl
@[simp] theorem State.setOut_cur (s : State) (m : Memory) (l : Count) : (s.setOut m l).cur = s.cur := rfl
@[simp] theorem State.setOut_emitted (s : State) (m : Memory) (l : Count) : (s.setOut m l).emitted = s.emitted := rfl
@[simp] theorem State.setOut_bitpos (s : State) (m : Memory) (l : Count) : (s.setOut m l).bitpos = s.bitpos := rfl
@[simp] theorem State.setOut_q (s : State) (m : Memory) (l : Count) : (s.setOut m l).q = s.q := rfl
@[simp] theorem State.setOut_genStack (s : State) (m : Memory) (l : Count) : (s.setOut m l).genStack = s.genStack := rfl
@[simp] theorem State.setOut_phase (s : State) (m : Memory) (l : Count) : (s.setOut m l).phase = s.phase := rfl
@[simp] theorem State.setOut_inOff (s : State) (m : Memory) (l : Count) : (s.setOut m l).inOff = s.inOff := rfl
@[simp] theorem State.setOut_env (s : State) (m : Memory) (l : Count) : (s.setOut m l).env = s.env := rfl
@[simp] theorem State.setOut_hostQ (s : State) (m : Memory) (l : Count) : (s.setOut m l).hostQ = s.hostQ := rfl
@[simp] theorem State.setOut_hostData (s : State) (m : Memory) (l : Count) : (s.setOut m l).hostData = s.hostData := rfl
@[simp] theorem State.setOut_draws (s : State) (m : Memory) (l : Count) : (s.setOut m l).draws = s.draws := rfl
@[simp] theorem State.setOut_inSeed (s : State) (m : Memory) (l : Count) : (s.setOut m l).inSeed = s.inSeed := rfl

/-! ### `State.setOutValid` -/

@[simp] theorem State.setOutValid_ft (s : State) (v : Bool) : (s.setOutValid v).ft = s.ft := rfl
@[simp] theorem State.setOutValid_total (s : State) (v : Bool) : (s.setOutValid v).total = s.total := rfl
@[simp] theorem State.setOutValid_node (s : State) (v : Bool) : (s.setOutValid v).node = s.node := rfl
@[simp] theorem State.setOutValid_ncount (s : State) (v : Bool) : (s.setOutValid v).ncount = s.ncount := rfl
@[simp] theorem State.setOutValid_root (s : State) (v : Bool) : (s.setOutValid v).root = s.root := rfl
@[simp] theorem State.setOutValid_treeValid (s : State) (v : Bool) : (s.setOutValid v).treeValid = s.treeValid := rfl
@[simp] theorem State.setOutValid_ct (s : State) (v : Bool) : (s.setOutValid v).ct = s.ct := rfl
@[simp] theorem State.setOutValid_ctValid (s : State) (v : Bool) : (s.setOutValid v).ctValid = s.ctValid := rfl
@[simp] theorem State.setOutValid_origLen (s : State) (v : Bool) : (s.setOutValid v).origLen = s.origLen := rfl
@[simp] theorem State.setOutValid_symCount (s : State) (v : Bool) : (s.setOutValid v).symCount = s.symCount := rfl
@[simp] theorem State.setOutValid_trail (s : State) (v : Bool) : (s.setOutValid v).trail = s.trail := rfl
@[simp] theorem State.setOutValid_inMem (s : State) (v : Bool) : (s.setOutValid v).inMem = s.inMem := rfl
@[simp] theorem State.setOutValid_inLen (s : State) (v : Bool) : (s.setOutValid v).inLen = s.inLen := rfl
@[simp] theorem State.setOutValid_outMem (s : State) (v : Bool) : (s.setOutValid v).outMem = s.outMem := rfl
@[simp] theorem State.setOutValid_outLen (s : State) (v : Bool) : (s.setOutValid v).outLen = s.outLen := rfl
@[simp] theorem State.setOutValid_outValid (s : State) (v : Bool) : (s.setOutValid v).outValid = v := rfl
@[simp] theorem State.setOutValid_cmd (s : State) (v : Bool) : (s.setOutValid v).cmd = s.cmd := rfl
@[simp] theorem State.setOutValid_busy (s : State) (v : Bool) : (s.setOutValid v).busy = s.busy := rfl
@[simp] theorem State.setOutValid_done (s : State) (v : Bool) : (s.setOutValid v).done = s.done := rfl
@[simp] theorem State.setOutValid_errKind (s : State) (v : Bool) : (s.setOutValid v).errKind = s.errKind := rfl
@[simp] theorem State.setOutValid_errCause (s : State) (v : Bool) : (s.setOutValid v).errCause = s.errCause := rfl
@[simp] theorem State.setOutValid_errInfo (s : State) (v : Bool) : (s.setOutValid v).errInfo = s.errInfo := rfl
@[simp] theorem State.setOutValid_acc (s : State) (v : Bool) : (s.setOutValid v).acc = s.acc := rfl
@[simp] theorem State.setOutValid_fill (s : State) (v : Bool) : (s.setOutValid v).fill = s.fill := rfl
@[simp] theorem State.setOutValid_pay (s : State) (v : Bool) : (s.setOutValid v).pay = s.pay := rfl
@[simp] theorem State.setOutValid_cur (s : State) (v : Bool) : (s.setOutValid v).cur = s.cur := rfl
@[simp] theorem State.setOutValid_emitted (s : State) (v : Bool) : (s.setOutValid v).emitted = s.emitted := rfl
@[simp] theorem State.setOutValid_bitpos (s : State) (v : Bool) : (s.setOutValid v).bitpos = s.bitpos := rfl
@[simp] theorem State.setOutValid_q (s : State) (v : Bool) : (s.setOutValid v).q = s.q := rfl
@[simp] theorem State.setOutValid_genStack (s : State) (v : Bool) : (s.setOutValid v).genStack = s.genStack := rfl
@[simp] theorem State.setOutValid_phase (s : State) (v : Bool) : (s.setOutValid v).phase = s.phase := rfl
@[simp] theorem State.setOutValid_inOff (s : State) (v : Bool) : (s.setOutValid v).inOff = s.inOff := rfl
@[simp] theorem State.setOutValid_env (s : State) (v : Bool) : (s.setOutValid v).env = s.env := rfl
@[simp] theorem State.setOutValid_hostQ (s : State) (v : Bool) : (s.setOutValid v).hostQ = s.hostQ := rfl
@[simp] theorem State.setOutValid_hostData (s : State) (v : Bool) : (s.setOutValid v).hostData = s.hostData := rfl
@[simp] theorem State.setOutValid_draws (s : State) (v : Bool) : (s.setOutValid v).draws = s.draws := rfl
@[simp] theorem State.setOutValid_inSeed (s : State) (v : Bool) : (s.setOutValid v).inSeed = s.inSeed := rfl

/-! ### `State.setCmd` -/

@[simp] theorem State.setCmd_ft (s : State) (w : Byte) : (s.setCmd w).ft = s.ft := rfl
@[simp] theorem State.setCmd_total (s : State) (w : Byte) : (s.setCmd w).total = s.total := rfl
@[simp] theorem State.setCmd_node (s : State) (w : Byte) : (s.setCmd w).node = s.node := rfl
@[simp] theorem State.setCmd_ncount (s : State) (w : Byte) : (s.setCmd w).ncount = s.ncount := rfl
@[simp] theorem State.setCmd_root (s : State) (w : Byte) : (s.setCmd w).root = s.root := rfl
@[simp] theorem State.setCmd_treeValid (s : State) (w : Byte) : (s.setCmd w).treeValid = s.treeValid := rfl
@[simp] theorem State.setCmd_ct (s : State) (w : Byte) : (s.setCmd w).ct = s.ct := rfl
@[simp] theorem State.setCmd_ctValid (s : State) (w : Byte) : (s.setCmd w).ctValid = s.ctValid := rfl
@[simp] theorem State.setCmd_origLen (s : State) (w : Byte) : (s.setCmd w).origLen = s.origLen := rfl
@[simp] theorem State.setCmd_symCount (s : State) (w : Byte) : (s.setCmd w).symCount = s.symCount := rfl
@[simp] theorem State.setCmd_trail (s : State) (w : Byte) : (s.setCmd w).trail = s.trail := rfl
@[simp] theorem State.setCmd_inMem (s : State) (w : Byte) : (s.setCmd w).inMem = s.inMem := rfl
@[simp] theorem State.setCmd_inLen (s : State) (w : Byte) : (s.setCmd w).inLen = s.inLen := rfl
@[simp] theorem State.setCmd_outMem (s : State) (w : Byte) : (s.setCmd w).outMem = s.outMem := rfl
@[simp] theorem State.setCmd_outLen (s : State) (w : Byte) : (s.setCmd w).outLen = s.outLen := rfl
@[simp] theorem State.setCmd_outValid (s : State) (w : Byte) : (s.setCmd w).outValid = s.outValid := rfl
@[simp] theorem State.setCmd_cmd (s : State) (w : Byte) : (s.setCmd w).cmd = w := rfl
@[simp] theorem State.setCmd_busy (s : State) (w : Byte) : (s.setCmd w).busy = s.busy := rfl
@[simp] theorem State.setCmd_done (s : State) (w : Byte) : (s.setCmd w).done = s.done := rfl
@[simp] theorem State.setCmd_errKind (s : State) (w : Byte) : (s.setCmd w).errKind = s.errKind := rfl
@[simp] theorem State.setCmd_errCause (s : State) (w : Byte) : (s.setCmd w).errCause = s.errCause := rfl
@[simp] theorem State.setCmd_errInfo (s : State) (w : Byte) : (s.setCmd w).errInfo = s.errInfo := rfl
@[simp] theorem State.setCmd_acc (s : State) (w : Byte) : (s.setCmd w).acc = s.acc := rfl
@[simp] theorem State.setCmd_fill (s : State) (w : Byte) : (s.setCmd w).fill = s.fill := rfl
@[simp] theorem State.setCmd_pay (s : State) (w : Byte) : (s.setCmd w).pay = s.pay := rfl
@[simp] theorem State.setCmd_cur (s : State) (w : Byte) : (s.setCmd w).cur = s.cur := rfl
@[simp] theorem State.setCmd_emitted (s : State) (w : Byte) : (s.setCmd w).emitted = s.emitted := rfl
@[simp] theorem State.setCmd_bitpos (s : State) (w : Byte) : (s.setCmd w).bitpos = s.bitpos := rfl
@[simp] theorem State.setCmd_q (s : State) (w : Byte) : (s.setCmd w).q = s.q := rfl
@[simp] theorem State.setCmd_genStack (s : State) (w : Byte) : (s.setCmd w).genStack = s.genStack := rfl
@[simp] theorem State.setCmd_phase (s : State) (w : Byte) : (s.setCmd w).phase = s.phase := rfl
@[simp] theorem State.setCmd_inOff (s : State) (w : Byte) : (s.setCmd w).inOff = s.inOff := rfl
@[simp] theorem State.setCmd_env (s : State) (w : Byte) : (s.setCmd w).env = s.env := rfl
@[simp] theorem State.setCmd_hostQ (s : State) (w : Byte) : (s.setCmd w).hostQ = s.hostQ := rfl
@[simp] theorem State.setCmd_hostData (s : State) (w : Byte) : (s.setCmd w).hostData = s.hostData := rfl
@[simp] theorem State.setCmd_draws (s : State) (w : Byte) : (s.setCmd w).draws = s.draws := rfl
@[simp] theorem State.setCmd_inSeed (s : State) (w : Byte) : (s.setCmd w).inSeed = s.inSeed := rfl

/-! ### `State.setPacker` -/

@[simp] theorem State.setPacker_ft (s : State) (a : BitVec 8) (n : BitVec 4) : (s.setPacker a n).ft = s.ft := rfl
@[simp] theorem State.setPacker_total (s : State) (a : BitVec 8) (n : BitVec 4) : (s.setPacker a n).total = s.total := rfl
@[simp] theorem State.setPacker_node (s : State) (a : BitVec 8) (n : BitVec 4) : (s.setPacker a n).node = s.node := rfl
@[simp] theorem State.setPacker_ncount (s : State) (a : BitVec 8) (n : BitVec 4) : (s.setPacker a n).ncount = s.ncount := rfl
@[simp] theorem State.setPacker_root (s : State) (a : BitVec 8) (n : BitVec 4) : (s.setPacker a n).root = s.root := rfl
@[simp] theorem State.setPacker_treeValid (s : State) (a : BitVec 8) (n : BitVec 4) : (s.setPacker a n).treeValid = s.treeValid := rfl
@[simp] theorem State.setPacker_ct (s : State) (a : BitVec 8) (n : BitVec 4) : (s.setPacker a n).ct = s.ct := rfl
@[simp] theorem State.setPacker_ctValid (s : State) (a : BitVec 8) (n : BitVec 4) : (s.setPacker a n).ctValid = s.ctValid := rfl
@[simp] theorem State.setPacker_origLen (s : State) (a : BitVec 8) (n : BitVec 4) : (s.setPacker a n).origLen = s.origLen := rfl
@[simp] theorem State.setPacker_symCount (s : State) (a : BitVec 8) (n : BitVec 4) : (s.setPacker a n).symCount = s.symCount := rfl
@[simp] theorem State.setPacker_trail (s : State) (a : BitVec 8) (n : BitVec 4) : (s.setPacker a n).trail = s.trail := rfl
@[simp] theorem State.setPacker_inMem (s : State) (a : BitVec 8) (n : BitVec 4) : (s.setPacker a n).inMem = s.inMem := rfl
@[simp] theorem State.setPacker_inLen (s : State) (a : BitVec 8) (n : BitVec 4) : (s.setPacker a n).inLen = s.inLen := rfl
@[simp] theorem State.setPacker_outMem (s : State) (a : BitVec 8) (n : BitVec 4) : (s.setPacker a n).outMem = s.outMem := rfl
@[simp] theorem State.setPacker_outLen (s : State) (a : BitVec 8) (n : BitVec 4) : (s.setPacker a n).outLen = s.outLen := rfl
@[simp] theorem State.setPacker_outValid (s : State) (a : BitVec 8) (n : BitVec 4) : (s.setPacker a n).outValid = s.outValid := rfl
@[simp] theorem State.setPacker_cmd (s : State) (a : BitVec 8) (n : BitVec 4) : (s.setPacker a n).cmd = s.cmd := rfl
@[simp] theorem State.setPacker_busy (s : State) (a : BitVec 8) (n : BitVec 4) : (s.setPacker a n).busy = s.busy := rfl
@[simp] theorem State.setPacker_done (s : State) (a : BitVec 8) (n : BitVec 4) : (s.setPacker a n).done = s.done := rfl
@[simp] theorem State.setPacker_errKind (s : State) (a : BitVec 8) (n : BitVec 4) : (s.setPacker a n).errKind = s.errKind := rfl
@[simp] theorem State.setPacker_errCause (s : State) (a : BitVec 8) (n : BitVec 4) : (s.setPacker a n).errCause = s.errCause := rfl
@[simp] theorem State.setPacker_errInfo (s : State) (a : BitVec 8) (n : BitVec 4) : (s.setPacker a n).errInfo = s.errInfo := rfl
@[simp] theorem State.setPacker_acc (s : State) (a : BitVec 8) (n : BitVec 4) : (s.setPacker a n).acc = a := rfl
@[simp] theorem State.setPacker_fill (s : State) (a : BitVec 8) (n : BitVec 4) : (s.setPacker a n).fill = n := rfl
@[simp] theorem State.setPacker_pay (s : State) (a : BitVec 8) (n : BitVec 4) : (s.setPacker a n).pay = s.pay := rfl
@[simp] theorem State.setPacker_cur (s : State) (a : BitVec 8) (n : BitVec 4) : (s.setPacker a n).cur = s.cur := rfl
@[simp] theorem State.setPacker_emitted (s : State) (a : BitVec 8) (n : BitVec 4) : (s.setPacker a n).emitted = s.emitted := rfl
@[simp] theorem State.setPacker_bitpos (s : State) (a : BitVec 8) (n : BitVec 4) : (s.setPacker a n).bitpos = s.bitpos := rfl
@[simp] theorem State.setPacker_q (s : State) (a : BitVec 8) (n : BitVec 4) : (s.setPacker a n).q = s.q := rfl
@[simp] theorem State.setPacker_genStack (s : State) (a : BitVec 8) (n : BitVec 4) : (s.setPacker a n).genStack = s.genStack := rfl
@[simp] theorem State.setPacker_phase (s : State) (a : BitVec 8) (n : BitVec 4) : (s.setPacker a n).phase = s.phase := rfl
@[simp] theorem State.setPacker_inOff (s : State) (a : BitVec 8) (n : BitVec 4) : (s.setPacker a n).inOff = s.inOff := rfl
@[simp] theorem State.setPacker_env (s : State) (a : BitVec 8) (n : BitVec 4) : (s.setPacker a n).env = s.env := rfl
@[simp] theorem State.setPacker_hostQ (s : State) (a : BitVec 8) (n : BitVec 4) : (s.setPacker a n).hostQ = s.hostQ := rfl
@[simp] theorem State.setPacker_hostData (s : State) (a : BitVec 8) (n : BitVec 4) : (s.setPacker a n).hostData = s.hostData := rfl
@[simp] theorem State.setPacker_draws (s : State) (a : BitVec 8) (n : BitVec 4) : (s.setPacker a n).draws = s.draws := rfl
@[simp] theorem State.setPacker_inSeed (s : State) (a : BitVec 8) (n : BitVec 4) : (s.setPacker a n).inSeed = s.inSeed := rfl

/-! ### `State.setPay` -/

@[simp] theorem State.setPay_ft (s : State) (p : List Byte) : (s.setPay p).ft = s.ft := rfl
@[simp] theorem State.setPay_total (s : State) (p : List Byte) : (s.setPay p).total = s.total := rfl
@[simp] theorem State.setPay_node (s : State) (p : List Byte) : (s.setPay p).node = s.node := rfl
@[simp] theorem State.setPay_ncount (s : State) (p : List Byte) : (s.setPay p).ncount = s.ncount := rfl
@[simp] theorem State.setPay_root (s : State) (p : List Byte) : (s.setPay p).root = s.root := rfl
@[simp] theorem State.setPay_treeValid (s : State) (p : List Byte) : (s.setPay p).treeValid = s.treeValid := rfl
@[simp] theorem State.setPay_ct (s : State) (p : List Byte) : (s.setPay p).ct = s.ct := rfl
@[simp] theorem State.setPay_ctValid (s : State) (p : List Byte) : (s.setPay p).ctValid = s.ctValid := rfl
@[simp] theorem State.setPay_origLen (s : State) (p : List Byte) : (s.setPay p).origLen = s.origLen := rfl
@[simp] theorem State.setPay_symCount (s : State) (p : List Byte) : (s.setPay p).symCount = s.symCount := rfl
@[simp] theorem State.setPay_trail (s : State) (p : List Byte) : (s.setPay p).trail = s.trail := rfl
@[simp] theorem State.setPay_inMem (s : State) (p : List Byte) : (s.setPay p).inMem = s.inMem := rfl
@[simp] theorem State.setPay_inLen (s : State) (p : List Byte) : (s.setPay p).inLen = s.inLen := rfl
@[simp] theorem State.setPay_outMem (s : State) (p : List Byte) : (s.setPay p).outMem = s.outMem := rfl
@[simp] theorem State.setPay_outLen (s : State) (p : List Byte) : (s.setPay p).outLen = s.outLen := rfl
@[simp] theorem State.setPay_outValid (s : State) (p : List Byte) : (s.setPay p).outValid = s.outValid := rfl
@[simp] theorem State.setPay_cmd (s : State) (p : List Byte) : (s.setPay p).cmd = s.cmd := rfl
@[simp] theorem State.setPay_busy (s : State) (p : List Byte) : (s.setPay p).busy = s.busy := rfl
@[simp] theorem State.setPay_done (s : State) (p : List Byte) : (s.setPay p).done = s.done := rfl
@[simp] theorem State.setPay_errKind (s : State) (p : List Byte) : (s.setPay p).errKind = s.errKind := rfl
@[simp] theorem State.setPay_errCause (s : State) (p : List Byte) : (s.setPay p).errCause = s.errCause := rfl
@[simp] theorem State.setPay_errInfo (s : State) (p : List Byte) : (s.setPay p).errInfo = s.errInfo := rfl
@[simp] theorem State.setPay_acc (s : State) (p : List Byte) : (s.setPay p).acc = s.acc := rfl
@[simp] theorem State.setPay_fill (s : State) (p : List Byte) : (s.setPay p).fill = s.fill := rfl
@[simp] theorem State.setPay_pay (s : State) (p : List Byte) : (s.setPay p).pay = p := rfl
@[simp] theorem State.setPay_cur (s : State) (p : List Byte) : (s.setPay p).cur = s.cur := rfl
@[simp] theorem State.setPay_emitted (s : State) (p : List Byte) : (s.setPay p).emitted = s.emitted := rfl
@[simp] theorem State.setPay_bitpos (s : State) (p : List Byte) : (s.setPay p).bitpos = s.bitpos := rfl
@[simp] theorem State.setPay_q (s : State) (p : List Byte) : (s.setPay p).q = s.q := rfl
@[simp] theorem State.setPay_genStack (s : State) (p : List Byte) : (s.setPay p).genStack = s.genStack := rfl
@[simp] theorem State.setPay_phase (s : State) (p : List Byte) : (s.setPay p).phase = s.phase := rfl
@[simp] theorem State.setPay_inOff (s : State) (p : List Byte) : (s.setPay p).inOff = s.inOff := rfl
@[simp] theorem State.setPay_env (s : State) (p : List Byte) : (s.setPay p).env = s.env := rfl
@[simp] theorem State.setPay_hostQ (s : State) (p : List Byte) : (s.setPay p).hostQ = s.hostQ := rfl
@[simp] theorem State.setPay_hostData (s : State) (p : List Byte) : (s.setPay p).hostData = s.hostData := rfl
@[simp] theorem State.setPay_draws (s : State) (p : List Byte) : (s.setPay p).draws = s.draws := rfl
@[simp] theorem State.setPay_inSeed (s : State) (p : List Byte) : (s.setPay p).inSeed = s.inSeed := rfl

/-! ### `State.setWalk` -/

@[simp] theorem State.setWalk_ft (s : State) (c : NodeIdx) (n : BitVec 64) : (s.setWalk c n).ft = s.ft := rfl
@[simp] theorem State.setWalk_total (s : State) (c : NodeIdx) (n : BitVec 64) : (s.setWalk c n).total = s.total := rfl
@[simp] theorem State.setWalk_node (s : State) (c : NodeIdx) (n : BitVec 64) : (s.setWalk c n).node = s.node := rfl
@[simp] theorem State.setWalk_ncount (s : State) (c : NodeIdx) (n : BitVec 64) : (s.setWalk c n).ncount = s.ncount := rfl
@[simp] theorem State.setWalk_root (s : State) (c : NodeIdx) (n : BitVec 64) : (s.setWalk c n).root = s.root := rfl
@[simp] theorem State.setWalk_treeValid (s : State) (c : NodeIdx) (n : BitVec 64) : (s.setWalk c n).treeValid = s.treeValid := rfl
@[simp] theorem State.setWalk_ct (s : State) (c : NodeIdx) (n : BitVec 64) : (s.setWalk c n).ct = s.ct := rfl
@[simp] theorem State.setWalk_ctValid (s : State) (c : NodeIdx) (n : BitVec 64) : (s.setWalk c n).ctValid = s.ctValid := rfl
@[simp] theorem State.setWalk_origLen (s : State) (c : NodeIdx) (n : BitVec 64) : (s.setWalk c n).origLen = s.origLen := rfl
@[simp] theorem State.setWalk_symCount (s : State) (c : NodeIdx) (n : BitVec 64) : (s.setWalk c n).symCount = s.symCount := rfl
@[simp] theorem State.setWalk_trail (s : State) (c : NodeIdx) (n : BitVec 64) : (s.setWalk c n).trail = s.trail := rfl
@[simp] theorem State.setWalk_inMem (s : State) (c : NodeIdx) (n : BitVec 64) : (s.setWalk c n).inMem = s.inMem := rfl
@[simp] theorem State.setWalk_inLen (s : State) (c : NodeIdx) (n : BitVec 64) : (s.setWalk c n).inLen = s.inLen := rfl
@[simp] theorem State.setWalk_outMem (s : State) (c : NodeIdx) (n : BitVec 64) : (s.setWalk c n).outMem = s.outMem := rfl
@[simp] theorem State.setWalk_outLen (s : State) (c : NodeIdx) (n : BitVec 64) : (s.setWalk c n).outLen = s.outLen := rfl
@[simp] theorem State.setWalk_outValid (s : State) (c : NodeIdx) (n : BitVec 64) : (s.setWalk c n).outValid = s.outValid := rfl
@[simp] theorem State.setWalk_cmd (s : State) (c : NodeIdx) (n : BitVec 64) : (s.setWalk c n).cmd = s.cmd := rfl
@[simp] theorem State.setWalk_busy (s : State) (c : NodeIdx) (n : BitVec 64) : (s.setWalk c n).busy = s.busy := rfl
@[simp] theorem State.setWalk_done (s : State) (c : NodeIdx) (n : BitVec 64) : (s.setWalk c n).done = s.done := rfl
@[simp] theorem State.setWalk_errKind (s : State) (c : NodeIdx) (n : BitVec 64) : (s.setWalk c n).errKind = s.errKind := rfl
@[simp] theorem State.setWalk_errCause (s : State) (c : NodeIdx) (n : BitVec 64) : (s.setWalk c n).errCause = s.errCause := rfl
@[simp] theorem State.setWalk_errInfo (s : State) (c : NodeIdx) (n : BitVec 64) : (s.setWalk c n).errInfo = s.errInfo := rfl
@[simp] theorem State.setWalk_acc (s : State) (c : NodeIdx) (n : BitVec 64) : (s.setWalk c n).acc = s.acc := rfl
@[simp] theorem State.setWalk_fill (s : State) (c : NodeIdx) (n : BitVec 64) : (s.setWalk c n).fill = s.fill := rfl
@[simp] theorem State.setWalk_pay (s : State) (c : NodeIdx) (n : BitVec 64) : (s.setWalk c n).pay = s.pay := rfl
@[simp] theorem State.setWalk_cur (s : State) (c : NodeIdx) (n : BitVec 64) : (s.setWalk c n).cur = c := rfl
@[simp] theorem State.setWalk_emitted (s : State) (c : NodeIdx) (n : BitVec 64) : (s.setWalk c n).emitted = n := rfl
@[simp] theorem State.setWalk_bitpos (s : State) (c : NodeIdx) (n : BitVec 64) : (s.setWalk c n).bitpos = s.bitpos := rfl
@[simp] theorem State.setWalk_q (s : State) (c : NodeIdx) (n : BitVec 64) : (s.setWalk c n).q = s.q := rfl
@[simp] theorem State.setWalk_genStack (s : State) (c : NodeIdx) (n : BitVec 64) : (s.setWalk c n).genStack = s.genStack := rfl
@[simp] theorem State.setWalk_phase (s : State) (c : NodeIdx) (n : BitVec 64) : (s.setWalk c n).phase = s.phase := rfl
@[simp] theorem State.setWalk_inOff (s : State) (c : NodeIdx) (n : BitVec 64) : (s.setWalk c n).inOff = s.inOff := rfl
@[simp] theorem State.setWalk_env (s : State) (c : NodeIdx) (n : BitVec 64) : (s.setWalk c n).env = s.env := rfl
@[simp] theorem State.setWalk_hostQ (s : State) (c : NodeIdx) (n : BitVec 64) : (s.setWalk c n).hostQ = s.hostQ := rfl
@[simp] theorem State.setWalk_hostData (s : State) (c : NodeIdx) (n : BitVec 64) : (s.setWalk c n).hostData = s.hostData := rfl
@[simp] theorem State.setWalk_draws (s : State) (c : NodeIdx) (n : BitVec 64) : (s.setWalk c n).draws = s.draws := rfl
@[simp] theorem State.setWalk_inSeed (s : State) (c : NodeIdx) (n : BitVec 64) : (s.setWalk c n).inSeed = s.inSeed := rfl

/-! ### `State.setBitpos` -/

@[simp] theorem State.setBitpos_ft (s : State) (v : BitVec 67) : (s.setBitpos v).ft = s.ft := rfl
@[simp] theorem State.setBitpos_total (s : State) (v : BitVec 67) : (s.setBitpos v).total = s.total := rfl
@[simp] theorem State.setBitpos_node (s : State) (v : BitVec 67) : (s.setBitpos v).node = s.node := rfl
@[simp] theorem State.setBitpos_ncount (s : State) (v : BitVec 67) : (s.setBitpos v).ncount = s.ncount := rfl
@[simp] theorem State.setBitpos_root (s : State) (v : BitVec 67) : (s.setBitpos v).root = s.root := rfl
@[simp] theorem State.setBitpos_treeValid (s : State) (v : BitVec 67) : (s.setBitpos v).treeValid = s.treeValid := rfl
@[simp] theorem State.setBitpos_ct (s : State) (v : BitVec 67) : (s.setBitpos v).ct = s.ct := rfl
@[simp] theorem State.setBitpos_ctValid (s : State) (v : BitVec 67) : (s.setBitpos v).ctValid = s.ctValid := rfl
@[simp] theorem State.setBitpos_origLen (s : State) (v : BitVec 67) : (s.setBitpos v).origLen = s.origLen := rfl
@[simp] theorem State.setBitpos_symCount (s : State) (v : BitVec 67) : (s.setBitpos v).symCount = s.symCount := rfl
@[simp] theorem State.setBitpos_trail (s : State) (v : BitVec 67) : (s.setBitpos v).trail = s.trail := rfl
@[simp] theorem State.setBitpos_inMem (s : State) (v : BitVec 67) : (s.setBitpos v).inMem = s.inMem := rfl
@[simp] theorem State.setBitpos_inLen (s : State) (v : BitVec 67) : (s.setBitpos v).inLen = s.inLen := rfl
@[simp] theorem State.setBitpos_outMem (s : State) (v : BitVec 67) : (s.setBitpos v).outMem = s.outMem := rfl
@[simp] theorem State.setBitpos_outLen (s : State) (v : BitVec 67) : (s.setBitpos v).outLen = s.outLen := rfl
@[simp] theorem State.setBitpos_outValid (s : State) (v : BitVec 67) : (s.setBitpos v).outValid = s.outValid := rfl
@[simp] theorem State.setBitpos_cmd (s : State) (v : BitVec 67) : (s.setBitpos v).cmd = s.cmd := rfl
@[simp] theorem State.setBitpos_busy (s : State) (v : BitVec 67) : (s.setBitpos v).busy = s.busy := rfl
@[simp] theorem State.setBitpos_done (s : State) (v : BitVec 67) : (s.setBitpos v).done = s.done := rfl
@[simp] theorem State.setBitpos_errKind (s : State) (v : BitVec 67) : (s.setBitpos v).errKind = s.errKind := rfl
@[simp] theorem State.setBitpos_errCause (s : State) (v : BitVec 67) : (s.setBitpos v).errCause = s.errCause := rfl
@[simp] theorem State.setBitpos_errInfo (s : State) (v : BitVec 67) : (s.setBitpos v).errInfo = s.errInfo := rfl
@[simp] theorem State.setBitpos_acc (s : State) (v : BitVec 67) : (s.setBitpos v).acc = s.acc := rfl
@[simp] theorem State.setBitpos_fill (s : State) (v : BitVec 67) : (s.setBitpos v).fill = s.fill := rfl
@[simp] theorem State.setBitpos_pay (s : State) (v : BitVec 67) : (s.setBitpos v).pay = s.pay := rfl
@[simp] theorem State.setBitpos_cur (s : State) (v : BitVec 67) : (s.setBitpos v).cur = s.cur := rfl
@[simp] theorem State.setBitpos_emitted (s : State) (v : BitVec 67) : (s.setBitpos v).emitted = s.emitted := rfl
@[simp] theorem State.setBitpos_bitpos (s : State) (v : BitVec 67) : (s.setBitpos v).bitpos = v := rfl
@[simp] theorem State.setBitpos_q (s : State) (v : BitVec 67) : (s.setBitpos v).q = s.q := rfl
@[simp] theorem State.setBitpos_genStack (s : State) (v : BitVec 67) : (s.setBitpos v).genStack = s.genStack := rfl
@[simp] theorem State.setBitpos_phase (s : State) (v : BitVec 67) : (s.setBitpos v).phase = s.phase := rfl
@[simp] theorem State.setBitpos_inOff (s : State) (v : BitVec 67) : (s.setBitpos v).inOff = s.inOff := rfl
@[simp] theorem State.setBitpos_env (s : State) (v : BitVec 67) : (s.setBitpos v).env = s.env := rfl
@[simp] theorem State.setBitpos_hostQ (s : State) (v : BitVec 67) : (s.setBitpos v).hostQ = s.hostQ := rfl
@[simp] theorem State.setBitpos_hostData (s : State) (v : BitVec 67) : (s.setBitpos v).hostData = s.hostData := rfl
@[simp] theorem State.setBitpos_draws (s : State) (v : BitVec 67) : (s.setBitpos v).draws = s.draws := rfl
@[simp] theorem State.setBitpos_inSeed (s : State) (v : BitVec 67) : (s.setBitpos v).inSeed = s.inSeed := rfl

/-! ### `State.setPhase` -/

@[simp] theorem State.setPhase_ft (s : State) (p : Phase) : (s.setPhase p).ft = s.ft := rfl
@[simp] theorem State.setPhase_total (s : State) (p : Phase) : (s.setPhase p).total = s.total := rfl
@[simp] theorem State.setPhase_node (s : State) (p : Phase) : (s.setPhase p).node = s.node := rfl
@[simp] theorem State.setPhase_ncount (s : State) (p : Phase) : (s.setPhase p).ncount = s.ncount := rfl
@[simp] theorem State.setPhase_root (s : State) (p : Phase) : (s.setPhase p).root = s.root := rfl
@[simp] theorem State.setPhase_treeValid (s : State) (p : Phase) : (s.setPhase p).treeValid = s.treeValid := rfl
@[simp] theorem State.setPhase_ct (s : State) (p : Phase) : (s.setPhase p).ct = s.ct := rfl
@[simp] theorem State.setPhase_ctValid (s : State) (p : Phase) : (s.setPhase p).ctValid = s.ctValid := rfl
@[simp] theorem State.setPhase_origLen (s : State) (p : Phase) : (s.setPhase p).origLen = s.origLen := rfl
@[simp] theorem State.setPhase_symCount (s : State) (p : Phase) : (s.setPhase p).symCount = s.symCount := rfl
@[simp] theorem State.setPhase_trail (s : State) (p : Phase) : (s.setPhase p).trail = s.trail := rfl
@[simp] theorem State.setPhase_inMem (s : State) (p : Phase) : (s.setPhase p).inMem = s.inMem := rfl
@[simp] theorem State.setPhase_inLen (s : State) (p : Phase) : (s.setPhase p).inLen = s.inLen := rfl
@[simp] theorem State.setPhase_outMem (s : State) (p : Phase) : (s.setPhase p).outMem = s.outMem := rfl
@[simp] theorem State.setPhase_outLen (s : State) (p : Phase) : (s.setPhase p).outLen = s.outLen := rfl
@[simp] theorem State.setPhase_outValid (s : State) (p : Phase) : (s.setPhase p).outValid = s.outValid := rfl
@[simp] theorem State.setPhase_cmd (s : State) (p : Phase) : (s.setPhase p).cmd = s.cmd := rfl
@[simp] theorem State.setPhase_busy (s : State) (p : Phase) : (s.setPhase p).busy = s.busy := rfl
@[simp] theorem State.setPhase_done (s : State) (p : Phase) : (s.setPhase p).done = s.done := rfl
@[simp] theorem State.setPhase_errKind (s : State) (p : Phase) : (s.setPhase p).errKind = s.errKind := rfl
@[simp] theorem State.setPhase_errCause (s : State) (p : Phase) : (s.setPhase p).errCause = s.errCause := rfl
@[simp] theorem State.setPhase_errInfo (s : State) (p : Phase) : (s.setPhase p).errInfo = s.errInfo := rfl
@[simp] theorem State.setPhase_acc (s : State) (p : Phase) : (s.setPhase p).acc = s.acc := rfl
@[simp] theorem State.setPhase_fill (s : State) (p : Phase) : (s.setPhase p).fill = s.fill := rfl
@[simp] theorem State.setPhase_pay (s : State) (p : Phase) : (s.setPhase p).pay = s.pay := rfl
@[simp] theorem State.setPhase_cur (s : State) (p : Phase) : (s.setPhase p).cur = s.cur := rfl
@[simp] theorem State.setPhase_emitted (s : State) (p : Phase) : (s.setPhase p).emitted = s.emitted := rfl
@[simp] theorem State.setPhase_bitpos (s : State) (p : Phase) : (s.setPhase p).bitpos = s.bitpos := rfl
@[simp] theorem State.setPhase_q (s : State) (p : Phase) : (s.setPhase p).q = s.q := rfl
@[simp] theorem State.setPhase_genStack (s : State) (p : Phase) : (s.setPhase p).genStack = s.genStack := rfl
@[simp] theorem State.setPhase_phase (s : State) (p : Phase) : (s.setPhase p).phase = p := rfl
@[simp] theorem State.setPhase_inOff (s : State) (p : Phase) : (s.setPhase p).inOff = s.inOff := rfl
@[simp] theorem State.setPhase_env (s : State) (p : Phase) : (s.setPhase p).env = s.env := rfl
@[simp] theorem State.setPhase_hostQ (s : State) (p : Phase) : (s.setPhase p).hostQ = s.hostQ := rfl
@[simp] theorem State.setPhase_hostData (s : State) (p : Phase) : (s.setPhase p).hostData = s.hostData := rfl
@[simp] theorem State.setPhase_draws (s : State) (p : Phase) : (s.setPhase p).draws = s.draws := rfl
@[simp] theorem State.setPhase_inSeed (s : State) (p : Phase) : (s.setPhase p).inSeed = s.inSeed := rfl

/-! ### `State.setInOff` -/

@[simp] theorem State.setInOff_ft (s : State) (v : BitVec 64) : (s.setInOff v).ft = s.ft := rfl
@[simp] theorem State.setInOff_total (s : State) (v : BitVec 64) : (s.setInOff v).total = s.total := rfl
@[simp] theorem State.setInOff_node (s : State) (v : BitVec 64) : (s.setInOff v).node = s.node := rfl
@[simp] theorem State.setInOff_ncount (s : State) (v : BitVec 64) : (s.setInOff v).ncount = s.ncount := rfl
@[simp] theorem State.setInOff_root (s : State) (v : BitVec 64) : (s.setInOff v).root = s.root := rfl
@[simp] theorem State.setInOff_treeValid (s : State) (v : BitVec 64) : (s.setInOff v).treeValid = s.treeValid := rfl
@[simp] theorem State.setInOff_ct (s : State) (v : BitVec 64) : (s.setInOff v).ct = s.ct := rfl
@[simp] theorem State.setInOff_ctValid (s : State) (v : BitVec 64) : (s.setInOff v).ctValid = s.ctValid := rfl
@[simp] theorem State.setInOff_origLen (s : State) (v : BitVec 64) : (s.setInOff v).origLen = s.origLen := rfl
@[simp] theorem State.setInOff_symCount (s : State) (v : BitVec 64) : (s.setInOff v).symCount = s.symCount := rfl
@[simp] theorem State.setInOff_trail (s : State) (v : BitVec 64) : (s.setInOff v).trail = s.trail := rfl
@[simp] theorem State.setInOff_inMem (s : State) (v : BitVec 64) : (s.setInOff v).inMem = s.inMem := rfl
@[simp] theorem State.setInOff_inLen (s : State) (v : BitVec 64) : (s.setInOff v).inLen = s.inLen := rfl
@[simp] theorem State.setInOff_outMem (s : State) (v : BitVec 64) : (s.setInOff v).outMem = s.outMem := rfl
@[simp] theorem State.setInOff_outLen (s : State) (v : BitVec 64) : (s.setInOff v).outLen = s.outLen := rfl
@[simp] theorem State.setInOff_outValid (s : State) (v : BitVec 64) : (s.setInOff v).outValid = s.outValid := rfl
@[simp] theorem State.setInOff_cmd (s : State) (v : BitVec 64) : (s.setInOff v).cmd = s.cmd := rfl
@[simp] theorem State.setInOff_busy (s : State) (v : BitVec 64) : (s.setInOff v).busy = s.busy := rfl
@[simp] theorem State.setInOff_done (s : State) (v : BitVec 64) : (s.setInOff v).done = s.done := rfl
@[simp] theorem State.setInOff_errKind (s : State) (v : BitVec 64) : (s.setInOff v).errKind = s.errKind := rfl
@[simp] theorem State.setInOff_errCause (s : State) (v : BitVec 64) : (s.setInOff v).errCause = s.errCause := rfl
@[simp] theorem State.setInOff_errInfo (s : State) (v : BitVec 64) : (s.setInOff v).errInfo = s.errInfo := rfl
@[simp] theorem State.setInOff_acc (s : State) (v : BitVec 64) : (s.setInOff v).acc = s.acc := rfl
@[simp] theorem State.setInOff_fill (s : State) (v : BitVec 64) : (s.setInOff v).fill = s.fill := rfl
@[simp] theorem State.setInOff_pay (s : State) (v : BitVec 64) : (s.setInOff v).pay = s.pay := rfl
@[simp] theorem State.setInOff_cur (s : State) (v : BitVec 64) : (s.setInOff v).cur = s.cur := rfl
@[simp] theorem State.setInOff_emitted (s : State) (v : BitVec 64) : (s.setInOff v).emitted = s.emitted := rfl
@[simp] theorem State.setInOff_bitpos (s : State) (v : BitVec 64) : (s.setInOff v).bitpos = s.bitpos := rfl
@[simp] theorem State.setInOff_q (s : State) (v : BitVec 64) : (s.setInOff v).q = s.q := rfl
@[simp] theorem State.setInOff_genStack (s : State) (v : BitVec 64) : (s.setInOff v).genStack = s.genStack := rfl
@[simp] theorem State.setInOff_phase (s : State) (v : BitVec 64) : (s.setInOff v).phase = s.phase := rfl
@[simp] theorem State.setInOff_inOff (s : State) (v : BitVec 64) : (s.setInOff v).inOff = v := rfl
@[simp] theorem State.setInOff_env (s : State) (v : BitVec 64) : (s.setInOff v).env = s.env := rfl
@[simp] theorem State.setInOff_hostQ (s : State) (v : BitVec 64) : (s.setInOff v).hostQ = s.hostQ := rfl
@[simp] theorem State.setInOff_hostData (s : State) (v : BitVec 64) : (s.setInOff v).hostData = s.hostData := rfl
@[simp] theorem State.setInOff_draws (s : State) (v : BitVec 64) : (s.setInOff v).draws = s.draws := rfl
@[simp] theorem State.setInOff_inSeed (s : State) (v : BitVec 64) : (s.setInOff v).inSeed = s.inSeed := rfl

/-! ### `State.setEnv` -/

@[simp] theorem State.setEnv_ft (s : State) (e : Env) : (s.setEnv e).ft = s.ft := rfl
@[simp] theorem State.setEnv_total (s : State) (e : Env) : (s.setEnv e).total = s.total := rfl
@[simp] theorem State.setEnv_node (s : State) (e : Env) : (s.setEnv e).node = s.node := rfl
@[simp] theorem State.setEnv_ncount (s : State) (e : Env) : (s.setEnv e).ncount = s.ncount := rfl
@[simp] theorem State.setEnv_root (s : State) (e : Env) : (s.setEnv e).root = s.root := rfl
@[simp] theorem State.setEnv_treeValid (s : State) (e : Env) : (s.setEnv e).treeValid = s.treeValid := rfl
@[simp] theorem State.setEnv_ct (s : State) (e : Env) : (s.setEnv e).ct = s.ct := rfl
@[simp] theorem State.setEnv_ctValid (s : State) (e : Env) : (s.setEnv e).ctValid = s.ctValid := rfl
@[simp] theorem State.setEnv_origLen (s : State) (e : Env) : (s.setEnv e).origLen = s.origLen := rfl
@[simp] theorem State.setEnv_symCount (s : State) (e : Env) : (s.setEnv e).symCount = s.symCount := rfl
@[simp] theorem State.setEnv_trail (s : State) (e : Env) : (s.setEnv e).trail = s.trail := rfl
@[simp] theorem State.setEnv_inMem (s : State) (e : Env) : (s.setEnv e).inMem = s.inMem := rfl
@[simp] theorem State.setEnv_inLen (s : State) (e : Env) : (s.setEnv e).inLen = s.inLen := rfl
@[simp] theorem State.setEnv_outMem (s : State) (e : Env) : (s.setEnv e).outMem = s.outMem := rfl
@[simp] theorem State.setEnv_outLen (s : State) (e : Env) : (s.setEnv e).outLen = s.outLen := rfl
@[simp] theorem State.setEnv_outValid (s : State) (e : Env) : (s.setEnv e).outValid = s.outValid := rfl
@[simp] theorem State.setEnv_cmd (s : State) (e : Env) : (s.setEnv e).cmd = s.cmd := rfl
@[simp] theorem State.setEnv_busy (s : State) (e : Env) : (s.setEnv e).busy = s.busy := rfl
@[simp] theorem State.setEnv_done (s : State) (e : Env) : (s.setEnv e).done = s.done := rfl
@[simp] theorem State.setEnv_errKind (s : State) (e : Env) : (s.setEnv e).errKind = s.errKind := rfl
@[simp] theorem State.setEnv_errCause (s : State) (e : Env) : (s.setEnv e).errCause = s.errCause := rfl
@[simp] theorem State.setEnv_errInfo (s : State) (e : Env) : (s.setEnv e).errInfo = s.errInfo := rfl
@[simp] theorem State.setEnv_acc (s : State) (e : Env) : (s.setEnv e).acc = s.acc := rfl
@[simp] theorem State.setEnv_fill (s : State) (e : Env) : (s.setEnv e).fill = s.fill := rfl
@[simp] theorem State.setEnv_pay (s : State) (e : Env) : (s.setEnv e).pay = s.pay := rfl
@[simp] theorem State.setEnv_cur (s : State) (e : Env) : (s.setEnv e).cur = s.cur := rfl
@[simp] theorem State.setEnv_emitted (s : State) (e : Env) : (s.setEnv e).emitted = s.emitted := rfl
@[simp] theorem State.setEnv_bitpos (s : State) (e : Env) : (s.setEnv e).bitpos = s.bitpos := rfl
@[simp] theorem State.setEnv_q (s : State) (e : Env) : (s.setEnv e).q = s.q := rfl
@[simp] theorem State.setEnv_genStack (s : State) (e : Env) : (s.setEnv e).genStack = s.genStack := rfl
@[simp] theorem State.setEnv_phase (s : State) (e : Env) : (s.setEnv e).phase = s.phase := rfl
@[simp] theorem State.setEnv_inOff (s : State) (e : Env) : (s.setEnv e).inOff = s.inOff := rfl
@[simp] theorem State.setEnv_env (s : State) (e : Env) : (s.setEnv e).env = e := rfl
@[simp] theorem State.setEnv_hostQ (s : State) (e : Env) : (s.setEnv e).hostQ = s.hostQ := rfl
@[simp] theorem State.setEnv_hostData (s : State) (e : Env) : (s.setEnv e).hostData = s.hostData := rfl
@[simp] theorem State.setEnv_draws (s : State) (e : Env) : (s.setEnv e).draws = s.draws := rfl
@[simp] theorem State.setEnv_inSeed (s : State) (e : Env) : (s.setEnv e).inSeed = s.inSeed := rfl

/-! ### `State.setHostQ` -/

@[simp] theorem State.setHostQ_ft (s : State) (l : List HostAction) : (s.setHostQ l).ft = s.ft := rfl
@[simp] theorem State.setHostQ_total (s : State) (l : List HostAction) : (s.setHostQ l).total = s.total := rfl
@[simp] theorem State.setHostQ_node (s : State) (l : List HostAction) : (s.setHostQ l).node = s.node := rfl
@[simp] theorem State.setHostQ_ncount (s : State) (l : List HostAction) : (s.setHostQ l).ncount = s.ncount := rfl
@[simp] theorem State.setHostQ_root (s : State) (l : List HostAction) : (s.setHostQ l).root = s.root := rfl
@[simp] theorem State.setHostQ_treeValid (s : State) (l : List HostAction) : (s.setHostQ l).treeValid = s.treeValid := rfl
@[simp] theorem State.setHostQ_ct (s : State) (l : List HostAction) : (s.setHostQ l).ct = s.ct := rfl
@[simp] theorem State.setHostQ_ctValid (s : State) (l : List HostAction) : (s.setHostQ l).ctValid = s.ctValid := rfl
@[simp] theorem State.setHostQ_origLen (s : State) (l : List HostAction) : (s.setHostQ l).origLen = s.origLen := rfl
@[simp] theorem State.setHostQ_symCount (s : State) (l : List HostAction) : (s.setHostQ l).symCount = s.symCount := rfl
@[simp] theorem State.setHostQ_trail (s : State) (l : List HostAction) : (s.setHostQ l).trail = s.trail := rfl
@[simp] theorem State.setHostQ_inMem (s : State) (l : List HostAction) : (s.setHostQ l).inMem = s.inMem := rfl
@[simp] theorem State.setHostQ_inLen (s : State) (l : List HostAction) : (s.setHostQ l).inLen = s.inLen := rfl
@[simp] theorem State.setHostQ_outMem (s : State) (l : List HostAction) : (s.setHostQ l).outMem = s.outMem := rfl
@[simp] theorem State.setHostQ_outLen (s : State) (l : List HostAction) : (s.setHostQ l).outLen = s.outLen := rfl
@[simp] theorem State.setHostQ_outValid (s : State) (l : List HostAction) : (s.setHostQ l).outValid = s.outValid := rfl
@[simp] theorem State.setHostQ_cmd (s : State) (l : List HostAction) : (s.setHostQ l).cmd = s.cmd := rfl
@[simp] theorem State.setHostQ_busy (s : State) (l : List HostAction) : (s.setHostQ l).busy = s.busy := rfl
@[simp] theorem State.setHostQ_done (s : State) (l : List HostAction) : (s.setHostQ l).done = s.done := rfl
@[simp] theorem State.setHostQ_errKind (s : State) (l : List HostAction) : (s.setHostQ l).errKind = s.errKind := rfl
@[simp] theorem State.setHostQ_errCause (s : State) (l : List HostAction) : (s.setHostQ l).errCause = s.errCause := rfl
@[simp] theorem State.setHostQ_errInfo (s : State) (l : List HostAction) : (s.setHostQ l).errInfo = s.errInfo := rfl
@[simp] theorem State.setHostQ_acc (s : State) (l : List HostAction) : (s.setHostQ l).acc = s.acc := rfl
@[simp] theorem State.setHostQ_fill (s : State) (l : List HostAction) : (s.setHostQ l).fill = s.fill := rfl
@[simp] theorem State.setHostQ_pay (s : State) (l : List HostAction) : (s.setHostQ l).pay = s.pay := rfl
@[simp] theorem State.setHostQ_cur (s : State) (l : List HostAction) : (s.setHostQ l).cur = s.cur := rfl
@[simp] theorem State.setHostQ_emitted (s : State) (l : List HostAction) : (s.setHostQ l).emitted = s.emitted := rfl
@[simp] theorem State.setHostQ_bitpos (s : State) (l : List HostAction) : (s.setHostQ l).bitpos = s.bitpos := rfl
@[simp] theorem State.setHostQ_q (s : State) (l : List HostAction) : (s.setHostQ l).q = s.q := rfl
@[simp] theorem State.setHostQ_genStack (s : State) (l : List HostAction) : (s.setHostQ l).genStack = s.genStack := rfl
@[simp] theorem State.setHostQ_phase (s : State) (l : List HostAction) : (s.setHostQ l).phase = s.phase := rfl
@[simp] theorem State.setHostQ_inOff (s : State) (l : List HostAction) : (s.setHostQ l).inOff = s.inOff := rfl
@[simp] theorem State.setHostQ_env (s : State) (l : List HostAction) : (s.setHostQ l).env = s.env := rfl
@[simp] theorem State.setHostQ_hostQ (s : State) (l : List HostAction) : (s.setHostQ l).hostQ = l := rfl
@[simp] theorem State.setHostQ_hostData (s : State) (l : List HostAction) : (s.setHostQ l).hostData = s.hostData := rfl
@[simp] theorem State.setHostQ_draws (s : State) (l : List HostAction) : (s.setHostQ l).draws = s.draws := rfl
@[simp] theorem State.setHostQ_inSeed (s : State) (l : List HostAction) : (s.setHostQ l).inSeed = s.inSeed := rfl

/-! ### `State.clearCounts` -/

@[simp] theorem State.clearCounts_ft (s : State) : s.clearCounts.ft = ftZero := rfl
@[simp] theorem State.clearCounts_total (s : State) : s.clearCounts.total = 0 := rfl
@[simp] theorem State.clearCounts_node (s : State) : s.clearCounts.node = s.node := rfl
@[simp] theorem State.clearCounts_ncount (s : State) : s.clearCounts.ncount = s.ncount := rfl
@[simp] theorem State.clearCounts_root (s : State) : s.clearCounts.root = s.root := rfl
@[simp] theorem State.clearCounts_treeValid (s : State) : s.clearCounts.treeValid = s.treeValid := rfl
@[simp] theorem State.clearCounts_ct (s : State) : s.clearCounts.ct = s.ct := rfl
@[simp] theorem State.clearCounts_ctValid (s : State) : s.clearCounts.ctValid = s.ctValid := rfl
@[simp] theorem State.clearCounts_origLen (s : State) : s.clearCounts.origLen = s.origLen := rfl
@[simp] theorem State.clearCounts_symCount (s : State) : s.clearCounts.symCount = s.symCount := rfl
@[simp] theorem State.clearCounts_trail (s : State) : s.clearCounts.trail = s.trail := rfl
@[simp] theorem State.clearCounts_inMem (s : State) : s.clearCounts.inMem = s.inMem := rfl
@[simp] theorem State.clearCounts_inLen (s : State) : s.clearCounts.inLen = s.inLen := rfl
@[simp] theorem State.clearCounts_outMem (s : State) : s.clearCounts.outMem = s.outMem := rfl
@[simp] theorem State.clearCounts_outLen (s : State) : s.clearCounts.outLen = s.outLen := rfl
@[simp] theorem State.clearCounts_outValid (s : State) : s.clearCounts.outValid = s.outValid := rfl
@[simp] theorem State.clearCounts_cmd (s : State) : s.clearCounts.cmd = s.cmd := rfl
@[simp] theorem State.clearCounts_busy (s : State) : s.clearCounts.busy = s.busy := rfl
@[simp] theorem State.clearCounts_done (s : State) : s.clearCounts.done = s.done := rfl
@[simp] theorem State.clearCounts_errKind (s : State) : s.clearCounts.errKind = s.errKind := rfl
@[simp] theorem State.clearCounts_errCause (s : State) : s.clearCounts.errCause = s.errCause := rfl
@[simp] theorem State.clearCounts_errInfo (s : State) : s.clearCounts.errInfo = s.errInfo := rfl
@[simp] theorem State.clearCounts_acc (s : State) : s.clearCounts.acc = s.acc := rfl
@[simp] theorem State.clearCounts_fill (s : State) : s.clearCounts.fill = s.fill := rfl
@[simp] theorem State.clearCounts_pay (s : State) : s.clearCounts.pay = s.pay := rfl
@[simp] theorem State.clearCounts_cur (s : State) : s.clearCounts.cur = s.cur := rfl
@[simp] theorem State.clearCounts_emitted (s : State) : s.clearCounts.emitted = s.emitted := rfl
@[simp] theorem State.clearCounts_bitpos (s : State) : s.clearCounts.bitpos = s.bitpos := rfl
@[simp] theorem State.clearCounts_q (s : State) : s.clearCounts.q = s.q := rfl
@[simp] theorem State.clearCounts_genStack (s : State) : s.clearCounts.genStack = s.genStack := rfl
@[simp] theorem State.clearCounts_phase (s : State) : s.clearCounts.phase = s.phase := rfl
@[simp] theorem State.clearCounts_inOff (s : State) : s.clearCounts.inOff = s.inOff := rfl
@[simp] theorem State.clearCounts_env (s : State) : s.clearCounts.env = s.env := rfl
@[simp] theorem State.clearCounts_hostQ (s : State) : s.clearCounts.hostQ = s.hostQ := rfl
@[simp] theorem State.clearCounts_hostData (s : State) : s.clearCounts.hostData = s.hostData := rfl
@[simp] theorem State.clearCounts_draws (s : State) : s.clearCounts.draws = s.draws := rfl
@[simp] theorem State.clearCounts_inSeed (s : State) : s.clearCounts.inSeed = s.inSeed := rfl

/-! ### `State.dropTree` -/

@[simp] theorem State.dropTree_ft (s : State) : s.dropTree.ft = s.ft := rfl
@[simp] theorem State.dropTree_total (s : State) : s.dropTree.total = s.total := rfl
@[simp] theorem State.dropTree_node (s : State) : s.dropTree.node = [] := rfl
@[simp] theorem State.dropTree_ncount (s : State) : s.dropTree.ncount = Config.freeBits 10 .ncount s.draws := rfl
@[simp] theorem State.dropTree_root (s : State) : s.dropTree.root = Config.freeBits 9 .root s.draws := rfl
@[simp] theorem State.dropTree_treeValid (s : State) : s.dropTree.treeValid = false := rfl
@[simp] theorem State.dropTree_ct (s : State) : s.dropTree.ct = s.ct := rfl
@[simp] theorem State.dropTree_ctValid (s : State) : s.dropTree.ctValid = s.ctValid := rfl
@[simp] theorem State.dropTree_origLen (s : State) : s.dropTree.origLen = s.origLen := rfl
@[simp] theorem State.dropTree_symCount (s : State) : s.dropTree.symCount = s.symCount := rfl
@[simp] theorem State.dropTree_trail (s : State) : s.dropTree.trail = s.trail := rfl
@[simp] theorem State.dropTree_inMem (s : State) : s.dropTree.inMem = s.inMem := rfl
@[simp] theorem State.dropTree_inLen (s : State) : s.dropTree.inLen = s.inLen := rfl
@[simp] theorem State.dropTree_outMem (s : State) : s.dropTree.outMem = s.outMem := rfl
@[simp] theorem State.dropTree_outLen (s : State) : s.dropTree.outLen = s.outLen := rfl
@[simp] theorem State.dropTree_outValid (s : State) : s.dropTree.outValid = s.outValid := rfl
@[simp] theorem State.dropTree_cmd (s : State) : s.dropTree.cmd = s.cmd := rfl
@[simp] theorem State.dropTree_busy (s : State) : s.dropTree.busy = s.busy := rfl
@[simp] theorem State.dropTree_done (s : State) : s.dropTree.done = s.done := rfl
@[simp] theorem State.dropTree_errKind (s : State) : s.dropTree.errKind = s.errKind := rfl
@[simp] theorem State.dropTree_errCause (s : State) : s.dropTree.errCause = s.errCause := rfl
@[simp] theorem State.dropTree_errInfo (s : State) : s.dropTree.errInfo = s.errInfo := rfl
@[simp] theorem State.dropTree_acc (s : State) : s.dropTree.acc = s.acc := rfl
@[simp] theorem State.dropTree_fill (s : State) : s.dropTree.fill = s.fill := rfl
@[simp] theorem State.dropTree_pay (s : State) : s.dropTree.pay = s.pay := rfl
@[simp] theorem State.dropTree_cur (s : State) : s.dropTree.cur = s.cur := rfl
@[simp] theorem State.dropTree_emitted (s : State) : s.dropTree.emitted = s.emitted := rfl
@[simp] theorem State.dropTree_bitpos (s : State) : s.dropTree.bitpos = s.bitpos := rfl
@[simp] theorem State.dropTree_q (s : State) : s.dropTree.q = s.q := rfl
@[simp] theorem State.dropTree_genStack (s : State) : s.dropTree.genStack = s.genStack := rfl
@[simp] theorem State.dropTree_phase (s : State) : s.dropTree.phase = s.phase := rfl
@[simp] theorem State.dropTree_inOff (s : State) : s.dropTree.inOff = s.inOff := rfl
@[simp] theorem State.dropTree_env (s : State) : s.dropTree.env = s.env := rfl
@[simp] theorem State.dropTree_hostQ (s : State) : s.dropTree.hostQ = s.hostQ := rfl
@[simp] theorem State.dropTree_hostData (s : State) : s.dropTree.hostData = s.hostData := rfl
@[simp] theorem State.dropTree_draws (s : State) : s.dropTree.draws = s.draws + 1 := rfl
@[simp] theorem State.dropTree_inSeed (s : State) : s.dropTree.inSeed = s.inSeed := rfl

/-! ### `State.dropCodes` -/

@[simp] theorem State.dropCodes_ft (s : State) : s.dropCodes.ft = s.ft := rfl
@[simp] theorem State.dropCodes_total (s : State) : s.dropCodes.total = s.total := rfl
@[simp] theorem State.dropCodes_node (s : State) : s.dropCodes.node = s.node := rfl
@[simp] theorem State.dropCodes_ncount (s : State) : s.dropCodes.ncount = s.ncount := rfl
@[simp] theorem State.dropCodes_root (s : State) : s.dropCodes.root = s.root := rfl
@[simp] theorem State.dropCodes_treeValid (s : State) : s.dropCodes.treeValid = s.treeValid := rfl
@[simp] theorem State.dropCodes_ct (s : State) : s.dropCodes.ct = [] := rfl
@[simp] theorem State.dropCodes_ctValid (s : State) : s.dropCodes.ctValid = false := rfl
@[simp] theorem State.dropCodes_origLen (s : State) : s.dropCodes.origLen = s.origLen := rfl
@[simp] theorem State.dropCodes_symCount (s : State) : s.dropCodes.symCount = s.symCount := rfl
@[simp] theorem State.dropCodes_trail (s : State) : s.dropCodes.trail = s.trail := rfl
@[simp] theorem State.dropCodes_inMem (s : State) : s.dropCodes.inMem = s.inMem := rfl
@[simp] theorem State.dropCodes_inLen (s : State) : s.dropCodes.inLen = s.inLen := rfl
@[simp] theorem State.dropCodes_outMem (s : State) : s.dropCodes.outMem = s.outMem := rfl
@[simp] theorem State.dropCodes_outLen (s : State) : s.dropCodes.outLen = s.outLen := rfl
@[simp] theorem State.dropCodes_outValid (s : State) : s.dropCodes.outValid = s.outValid := rfl
@[simp] theorem State.dropCodes_cmd (s : State) : s.dropCodes.cmd = s.cmd := rfl
@[simp] theorem State.dropCodes_busy (s : State) : s.dropCodes.busy = s.busy := rfl
@[simp] theorem State.dropCodes_done (s : State) : s.dropCodes.done = s.done := rfl
@[simp] theorem State.dropCodes_errKind (s : State) : s.dropCodes.errKind = s.errKind := rfl
@[simp] theorem State.dropCodes_errCause (s : State) : s.dropCodes.errCause = s.errCause := rfl
@[simp] theorem State.dropCodes_errInfo (s : State) : s.dropCodes.errInfo = s.errInfo := rfl
@[simp] theorem State.dropCodes_acc (s : State) : s.dropCodes.acc = s.acc := rfl
@[simp] theorem State.dropCodes_fill (s : State) : s.dropCodes.fill = s.fill := rfl
@[simp] theorem State.dropCodes_pay (s : State) : s.dropCodes.pay = s.pay := rfl
@[simp] theorem State.dropCodes_cur (s : State) : s.dropCodes.cur = s.cur := rfl
@[simp] theorem State.dropCodes_emitted (s : State) : s.dropCodes.emitted = s.emitted := rfl
@[simp] theorem State.dropCodes_bitpos (s : State) : s.dropCodes.bitpos = s.bitpos := rfl
@[simp] theorem State.dropCodes_q (s : State) : s.dropCodes.q = s.q := rfl
@[simp] theorem State.dropCodes_genStack (s : State) : s.dropCodes.genStack = s.genStack := rfl
@[simp] theorem State.dropCodes_phase (s : State) : s.dropCodes.phase = s.phase := rfl
@[simp] theorem State.dropCodes_inOff (s : State) : s.dropCodes.inOff = s.inOff := rfl
@[simp] theorem State.dropCodes_env (s : State) : s.dropCodes.env = s.env := rfl
@[simp] theorem State.dropCodes_hostQ (s : State) : s.dropCodes.hostQ = s.hostQ := rfl
@[simp] theorem State.dropCodes_hostData (s : State) : s.dropCodes.hostData = s.hostData := rfl
@[simp] theorem State.dropCodes_draws (s : State) : s.dropCodes.draws = s.draws := rfl
@[simp] theorem State.dropCodes_inSeed (s : State) : s.dropCodes.inSeed = s.inSeed := rfl

/-! ### `State.dropOut` -/

@[simp] theorem State.dropOut_ft (s : State) : s.dropOut.ft = s.ft := rfl
@[simp] theorem State.dropOut_total (s : State) : s.dropOut.total = s.total := rfl
@[simp] theorem State.dropOut_node (s : State) : s.dropOut.node = s.node := rfl
@[simp] theorem State.dropOut_ncount (s : State) : s.dropOut.ncount = s.ncount := rfl
@[simp] theorem State.dropOut_root (s : State) : s.dropOut.root = s.root := rfl
@[simp] theorem State.dropOut_treeValid (s : State) : s.dropOut.treeValid = s.treeValid := rfl
@[simp] theorem State.dropOut_ct (s : State) : s.dropOut.ct = s.ct := rfl
@[simp] theorem State.dropOut_ctValid (s : State) : s.dropOut.ctValid = s.ctValid := rfl
@[simp] theorem State.dropOut_origLen (s : State) : s.dropOut.origLen = s.origLen := rfl
@[simp] theorem State.dropOut_symCount (s : State) : s.dropOut.symCount = s.symCount := rfl
@[simp] theorem State.dropOut_trail (s : State) : s.dropOut.trail = s.trail := rfl
@[simp] theorem State.dropOut_inMem (s : State) : s.dropOut.inMem = s.inMem := rfl
@[simp] theorem State.dropOut_inLen (s : State) : s.dropOut.inLen = s.inLen := rfl
@[simp] theorem State.dropOut_outMem (s : State) : s.dropOut.outMem = [] := rfl
@[simp] theorem State.dropOut_outLen (s : State) : s.dropOut.outLen = s.outLen := rfl
@[simp] theorem State.dropOut_outValid (s : State) : s.dropOut.outValid = false := rfl
@[simp] theorem State.dropOut_cmd (s : State) : s.dropOut.cmd = s.cmd := rfl
@[simp] theorem State.dropOut_busy (s : State) : s.dropOut.busy = s.busy := rfl
@[simp] theorem State.dropOut_done (s : State) : s.dropOut.done = s.done := rfl
@[simp] theorem State.dropOut_errKind (s : State) : s.dropOut.errKind = s.errKind := rfl
@[simp] theorem State.dropOut_errCause (s : State) : s.dropOut.errCause = s.errCause := rfl
@[simp] theorem State.dropOut_errInfo (s : State) : s.dropOut.errInfo = s.errInfo := rfl
@[simp] theorem State.dropOut_acc (s : State) : s.dropOut.acc = s.acc := rfl
@[simp] theorem State.dropOut_fill (s : State) : s.dropOut.fill = s.fill := rfl
@[simp] theorem State.dropOut_pay (s : State) : s.dropOut.pay = s.pay := rfl
@[simp] theorem State.dropOut_cur (s : State) : s.dropOut.cur = s.cur := rfl
@[simp] theorem State.dropOut_emitted (s : State) : s.dropOut.emitted = s.emitted := rfl
@[simp] theorem State.dropOut_bitpos (s : State) : s.dropOut.bitpos = s.bitpos := rfl
@[simp] theorem State.dropOut_q (s : State) : s.dropOut.q = s.q := rfl
@[simp] theorem State.dropOut_genStack (s : State) : s.dropOut.genStack = s.genStack := rfl
@[simp] theorem State.dropOut_phase (s : State) : s.dropOut.phase = s.phase := rfl
@[simp] theorem State.dropOut_inOff (s : State) : s.dropOut.inOff = s.inOff := rfl
@[simp] theorem State.dropOut_env (s : State) : s.dropOut.env = s.env := rfl
@[simp] theorem State.dropOut_hostQ (s : State) : s.dropOut.hostQ = s.hostQ := rfl
@[simp] theorem State.dropOut_hostData (s : State) : s.dropOut.hostData = s.hostData := rfl
@[simp] theorem State.dropOut_draws (s : State) : s.dropOut.draws = s.draws := rfl
@[simp] theorem State.dropOut_inSeed (s : State) : s.dropOut.inSeed = s.inSeed := rfl

/-! ### `State.dropPacker` -/

@[simp] theorem State.dropPacker_ft (s : State) : s.dropPacker.ft = s.ft := rfl
@[simp] theorem State.dropPacker_total (s : State) : s.dropPacker.total = s.total := rfl
@[simp] theorem State.dropPacker_node (s : State) : s.dropPacker.node = s.node := rfl
@[simp] theorem State.dropPacker_ncount (s : State) : s.dropPacker.ncount = s.ncount := rfl
@[simp] theorem State.dropPacker_root (s : State) : s.dropPacker.root = s.root := rfl
@[simp] theorem State.dropPacker_treeValid (s : State) : s.dropPacker.treeValid = s.treeValid := rfl
@[simp] theorem State.dropPacker_ct (s : State) : s.dropPacker.ct = s.ct := rfl
@[simp] theorem State.dropPacker_ctValid (s : State) : s.dropPacker.ctValid = s.ctValid := rfl
@[simp] theorem State.dropPacker_origLen (s : State) : s.dropPacker.origLen = s.origLen := rfl
@[simp] theorem State.dropPacker_symCount (s : State) : s.dropPacker.symCount = s.symCount := rfl
@[simp] theorem State.dropPacker_trail (s : State) : s.dropPacker.trail = s.trail := rfl
@[simp] theorem State.dropPacker_inMem (s : State) : s.dropPacker.inMem = s.inMem := rfl
@[simp] theorem State.dropPacker_inLen (s : State) : s.dropPacker.inLen = s.inLen := rfl
@[simp] theorem State.dropPacker_outMem (s : State) : s.dropPacker.outMem = s.outMem := rfl
@[simp] theorem State.dropPacker_outLen (s : State) : s.dropPacker.outLen = s.outLen := rfl
@[simp] theorem State.dropPacker_outValid (s : State) : s.dropPacker.outValid = s.outValid := rfl
@[simp] theorem State.dropPacker_cmd (s : State) : s.dropPacker.cmd = s.cmd := rfl
@[simp] theorem State.dropPacker_busy (s : State) : s.dropPacker.busy = s.busy := rfl
@[simp] theorem State.dropPacker_done (s : State) : s.dropPacker.done = s.done := rfl
@[simp] theorem State.dropPacker_errKind (s : State) : s.dropPacker.errKind = s.errKind := rfl
@[simp] theorem State.dropPacker_errCause (s : State) : s.dropPacker.errCause = s.errCause := rfl
@[simp] theorem State.dropPacker_errInfo (s : State) : s.dropPacker.errInfo = s.errInfo := rfl
@[simp] theorem State.dropPacker_acc (s : State) : s.dropPacker.acc = Config.freeBits 8 .acc s.draws := rfl
@[simp] theorem State.dropPacker_fill (s : State) : s.dropPacker.fill = Config.freeBits 4 .fill s.draws := rfl
@[simp] theorem State.dropPacker_pay (s : State) : s.dropPacker.pay = s.pay := rfl
@[simp] theorem State.dropPacker_cur (s : State) : s.dropPacker.cur = s.cur := rfl
@[simp] theorem State.dropPacker_emitted (s : State) : s.dropPacker.emitted = s.emitted := rfl
@[simp] theorem State.dropPacker_bitpos (s : State) : s.dropPacker.bitpos = s.bitpos := rfl
@[simp] theorem State.dropPacker_q (s : State) : s.dropPacker.q = s.q := rfl
@[simp] theorem State.dropPacker_genStack (s : State) : s.dropPacker.genStack = s.genStack := rfl
@[simp] theorem State.dropPacker_phase (s : State) : s.dropPacker.phase = s.phase := rfl
@[simp] theorem State.dropPacker_inOff (s : State) : s.dropPacker.inOff = s.inOff := rfl
@[simp] theorem State.dropPacker_env (s : State) : s.dropPacker.env = s.env := rfl
@[simp] theorem State.dropPacker_hostQ (s : State) : s.dropPacker.hostQ = s.hostQ := rfl
@[simp] theorem State.dropPacker_hostData (s : State) : s.dropPacker.hostData = s.hostData := rfl
@[simp] theorem State.dropPacker_draws (s : State) : s.dropPacker.draws = s.draws + 1 := rfl
@[simp] theorem State.dropPacker_inSeed (s : State) : s.dropPacker.inSeed = s.inSeed := rfl

/-! ### `State.dropWalker` -/

@[simp] theorem State.dropWalker_ft (s : State) : s.dropWalker.ft = s.ft := rfl
@[simp] theorem State.dropWalker_total (s : State) : s.dropWalker.total = s.total := rfl
@[simp] theorem State.dropWalker_node (s : State) : s.dropWalker.node = s.node := rfl
@[simp] theorem State.dropWalker_ncount (s : State) : s.dropWalker.ncount = s.ncount := rfl
@[simp] theorem State.dropWalker_root (s : State) : s.dropWalker.root = s.root := rfl
@[simp] theorem State.dropWalker_treeValid (s : State) : s.dropWalker.treeValid = s.treeValid := rfl
@[simp] theorem State.dropWalker_ct (s : State) : s.dropWalker.ct = s.ct := rfl
@[simp] theorem State.dropWalker_ctValid (s : State) : s.dropWalker.ctValid = s.ctValid := rfl
@[simp] theorem State.dropWalker_origLen (s : State) : s.dropWalker.origLen = s.origLen := rfl
@[simp] theorem State.dropWalker_symCount (s : State) : s.dropWalker.symCount = s.symCount := rfl
@[simp] theorem State.dropWalker_trail (s : State) : s.dropWalker.trail = s.trail := rfl
@[simp] theorem State.dropWalker_inMem (s : State) : s.dropWalker.inMem = s.inMem := rfl
@[simp] theorem State.dropWalker_inLen (s : State) : s.dropWalker.inLen = s.inLen := rfl
@[simp] theorem State.dropWalker_outMem (s : State) : s.dropWalker.outMem = s.outMem := rfl
@[simp] theorem State.dropWalker_outLen (s : State) : s.dropWalker.outLen = s.outLen := rfl
@[simp] theorem State.dropWalker_outValid (s : State) : s.dropWalker.outValid = s.outValid := rfl
@[simp] theorem State.dropWalker_cmd (s : State) : s.dropWalker.cmd = s.cmd := rfl
@[simp] theorem State.dropWalker_busy (s : State) : s.dropWalker.busy = s.busy := rfl
@[simp] theorem State.dropWalker_done (s : State) : s.dropWalker.done = s.done := rfl
@[simp] theorem State.dropWalker_errKind (s : State) : s.dropWalker.errKind = s.errKind := rfl
@[simp] theorem State.dropWalker_errCause (s : State) : s.dropWalker.errCause = s.errCause := rfl
@[simp] theorem State.dropWalker_errInfo (s : State) : s.dropWalker.errInfo = s.errInfo := rfl
@[simp] theorem State.dropWalker_acc (s : State) : s.dropWalker.acc = s.acc := rfl
@[simp] theorem State.dropWalker_fill (s : State) : s.dropWalker.fill = s.fill := rfl
@[simp] theorem State.dropWalker_pay (s : State) : s.dropWalker.pay = s.pay := rfl
@[simp] theorem State.dropWalker_cur (s : State) : s.dropWalker.cur = Config.freeBits 9 .cur s.draws := rfl
@[simp] theorem State.dropWalker_emitted (s : State) : s.dropWalker.emitted = Config.freeBits 64 .emitted s.draws := rfl
@[simp] theorem State.dropWalker_bitpos (s : State) : s.dropWalker.bitpos = Config.freeBits 67 .bitpos s.draws := rfl
@[simp] theorem State.dropWalker_q (s : State) : s.dropWalker.q = s.q := rfl
@[simp] theorem State.dropWalker_genStack (s : State) : s.dropWalker.genStack = s.genStack := rfl
@[simp] theorem State.dropWalker_phase (s : State) : s.dropWalker.phase = s.phase := rfl
@[simp] theorem State.dropWalker_inOff (s : State) : s.dropWalker.inOff = s.inOff := rfl
@[simp] theorem State.dropWalker_env (s : State) : s.dropWalker.env = s.env := rfl
@[simp] theorem State.dropWalker_hostQ (s : State) : s.dropWalker.hostQ = s.hostQ := rfl
@[simp] theorem State.dropWalker_hostData (s : State) : s.dropWalker.hostData = s.hostData := rfl
@[simp] theorem State.dropWalker_draws (s : State) : s.dropWalker.draws = s.draws + 1 := rfl
@[simp] theorem State.dropWalker_inSeed (s : State) : s.dropWalker.inSeed = s.inSeed := rfl

/-! ### `State.dropInOff` -/

@[simp] theorem State.dropInOff_ft (s : State) : s.dropInOff.ft = s.ft := rfl
@[simp] theorem State.dropInOff_total (s : State) : s.dropInOff.total = s.total := rfl
@[simp] theorem State.dropInOff_node (s : State) : s.dropInOff.node = s.node := rfl
@[simp] theorem State.dropInOff_ncount (s : State) : s.dropInOff.ncount = s.ncount := rfl
@[simp] theorem State.dropInOff_root (s : State) : s.dropInOff.root = s.root := rfl
@[simp] theorem State.dropInOff_treeValid (s : State) : s.dropInOff.treeValid = s.treeValid := rfl
@[simp] theorem State.dropInOff_ct (s : State) : s.dropInOff.ct = s.ct := rfl
@[simp] theorem State.dropInOff_ctValid (s : State) : s.dropInOff.ctValid = s.ctValid := rfl
@[simp] theorem State.dropInOff_origLen (s : State) : s.dropInOff.origLen = s.origLen := rfl
@[simp] theorem State.dropInOff_symCount (s : State) : s.dropInOff.symCount = s.symCount := rfl
@[simp] theorem State.dropInOff_trail (s : State) : s.dropInOff.trail = s.trail := rfl
@[simp] theorem State.dropInOff_inMem (s : State) : s.dropInOff.inMem = s.inMem := rfl
@[simp] theorem State.dropInOff_inLen (s : State) : s.dropInOff.inLen = s.inLen := rfl
@[simp] theorem State.dropInOff_outMem (s : State) : s.dropInOff.outMem = s.outMem := rfl
@[simp] theorem State.dropInOff_outLen (s : State) : s.dropInOff.outLen = s.outLen := rfl
@[simp] theorem State.dropInOff_outValid (s : State) : s.dropInOff.outValid = s.outValid := rfl
@[simp] theorem State.dropInOff_cmd (s : State) : s.dropInOff.cmd = s.cmd := rfl
@[simp] theorem State.dropInOff_busy (s : State) : s.dropInOff.busy = s.busy := rfl
@[simp] theorem State.dropInOff_done (s : State) : s.dropInOff.done = s.done := rfl
@[simp] theorem State.dropInOff_errKind (s : State) : s.dropInOff.errKind = s.errKind := rfl
@[simp] theorem State.dropInOff_errCause (s : State) : s.dropInOff.errCause = s.errCause := rfl
@[simp] theorem State.dropInOff_errInfo (s : State) : s.dropInOff.errInfo = s.errInfo := rfl
@[simp] theorem State.dropInOff_acc (s : State) : s.dropInOff.acc = s.acc := rfl
@[simp] theorem State.dropInOff_fill (s : State) : s.dropInOff.fill = s.fill := rfl
@[simp] theorem State.dropInOff_pay (s : State) : s.dropInOff.pay = s.pay := rfl
@[simp] theorem State.dropInOff_cur (s : State) : s.dropInOff.cur = s.cur := rfl
@[simp] theorem State.dropInOff_emitted (s : State) : s.dropInOff.emitted = s.emitted := rfl
@[simp] theorem State.dropInOff_bitpos (s : State) : s.dropInOff.bitpos = s.bitpos := rfl
@[simp] theorem State.dropInOff_q (s : State) : s.dropInOff.q = s.q := rfl
@[simp] theorem State.dropInOff_genStack (s : State) : s.dropInOff.genStack = s.genStack := rfl
@[simp] theorem State.dropInOff_phase (s : State) : s.dropInOff.phase = s.phase := rfl
@[simp] theorem State.dropInOff_inOff (s : State) : s.dropInOff.inOff = Config.freeBits 64 .inOff s.draws := rfl
@[simp] theorem State.dropInOff_env (s : State) : s.dropInOff.env = s.env := rfl
@[simp] theorem State.dropInOff_hostQ (s : State) : s.dropInOff.hostQ = s.hostQ := rfl
@[simp] theorem State.dropInOff_hostData (s : State) : s.dropInOff.hostData = s.hostData := rfl
@[simp] theorem State.dropInOff_draws (s : State) : s.dropInOff.draws = s.draws + 1 := rfl
@[simp] theorem State.dropInOff_inSeed (s : State) : s.dropInOff.inSeed = s.inSeed := rfl

/-! ### `State.begin` -/

@[simp] theorem State.begin_ft (s : State) (p : Phase) : (s.begin p).ft = s.ft := rfl
@[simp] theorem State.begin_total (s : State) (p : Phase) : (s.begin p).total = s.total := rfl
@[simp] theorem State.begin_node (s : State) (p : Phase) : (s.begin p).node = s.node := rfl
@[simp] theorem State.begin_ncount (s : State) (p : Phase) : (s.begin p).ncount = s.ncount := rfl
@[simp] theorem State.begin_root (s : State) (p : Phase) : (s.begin p).root = s.root := rfl
@[simp] theorem State.begin_treeValid (s : State) (p : Phase) : (s.begin p).treeValid = s.treeValid := rfl
@[simp] theorem State.begin_ct (s : State) (p : Phase) : (s.begin p).ct = s.ct := rfl
@[simp] theorem State.begin_ctValid (s : State) (p : Phase) : (s.begin p).ctValid = s.ctValid := rfl
@[simp] theorem State.begin_origLen (s : State) (p : Phase) : (s.begin p).origLen = s.origLen := rfl
@[simp] theorem State.begin_symCount (s : State) (p : Phase) : (s.begin p).symCount = s.symCount := rfl
@[simp] theorem State.begin_trail (s : State) (p : Phase) : (s.begin p).trail = s.trail := rfl
@[simp] theorem State.begin_inMem (s : State) (p : Phase) : (s.begin p).inMem = s.inMem := rfl
@[simp] theorem State.begin_inLen (s : State) (p : Phase) : (s.begin p).inLen = s.inLen := rfl
@[simp] theorem State.begin_outMem (s : State) (p : Phase) : (s.begin p).outMem = s.outMem := rfl
@[simp] theorem State.begin_outLen (s : State) (p : Phase) : (s.begin p).outLen = s.outLen := rfl
@[simp] theorem State.begin_outValid (s : State) (p : Phase) : (s.begin p).outValid = s.outValid := rfl
@[simp] theorem State.begin_cmd (s : State) (p : Phase) : (s.begin p).cmd = s.cmd := rfl
@[simp] theorem State.begin_busy (s : State) (p : Phase) : (s.begin p).busy = true := rfl
@[simp] theorem State.begin_done (s : State) (p : Phase) : (s.begin p).done = false := rfl
@[simp] theorem State.begin_errKind (s : State) (p : Phase) : (s.begin p).errKind = s.errKind := rfl
@[simp] theorem State.begin_errCause (s : State) (p : Phase) : (s.begin p).errCause = s.errCause := rfl
@[simp] theorem State.begin_errInfo (s : State) (p : Phase) : (s.begin p).errInfo = s.errInfo := rfl
@[simp] theorem State.begin_acc (s : State) (p : Phase) : (s.begin p).acc = s.acc := rfl
@[simp] theorem State.begin_fill (s : State) (p : Phase) : (s.begin p).fill = s.fill := rfl
@[simp] theorem State.begin_pay (s : State) (p : Phase) : (s.begin p).pay = s.pay := rfl
@[simp] theorem State.begin_cur (s : State) (p : Phase) : (s.begin p).cur = s.cur := rfl
@[simp] theorem State.begin_emitted (s : State) (p : Phase) : (s.begin p).emitted = s.emitted := rfl
@[simp] theorem State.begin_bitpos (s : State) (p : Phase) : (s.begin p).bitpos = s.bitpos := rfl
@[simp] theorem State.begin_q (s : State) (p : Phase) : (s.begin p).q = s.q := rfl
@[simp] theorem State.begin_genStack (s : State) (p : Phase) : (s.begin p).genStack = s.genStack := rfl
@[simp] theorem State.begin_phase (s : State) (p : Phase) : (s.begin p).phase = p := rfl
@[simp] theorem State.begin_inOff (s : State) (p : Phase) : (s.begin p).inOff = s.inOff := rfl
@[simp] theorem State.begin_env (s : State) (p : Phase) : (s.begin p).env = s.env := rfl
@[simp] theorem State.begin_hostQ (s : State) (p : Phase) : (s.begin p).hostQ = s.hostQ := rfl
@[simp] theorem State.begin_hostData (s : State) (p : Phase) : (s.begin p).hostData = s.hostData := rfl
@[simp] theorem State.begin_draws (s : State) (p : Phase) : (s.begin p).draws = s.draws := rfl
@[simp] theorem State.begin_inSeed (s : State) (p : Phase) : (s.begin p).inSeed = s.inSeed := rfl

/-! ### `State.finish` -/

@[simp] theorem State.finish_ft (s : State) : s.finish.ft = s.ft := rfl
@[simp] theorem State.finish_total (s : State) : s.finish.total = s.total := rfl
@[simp] theorem State.finish_node (s : State) : s.finish.node = s.node := rfl
@[simp] theorem State.finish_ncount (s : State) : s.finish.ncount = s.ncount := rfl
@[simp] theorem State.finish_root (s : State) : s.finish.root = s.root := rfl
@[simp] theorem State.finish_treeValid (s : State) : s.finish.treeValid = s.treeValid := rfl
@[simp] theorem State.finish_ct (s : State) : s.finish.ct = s.ct := rfl
@[simp] theorem State.finish_ctValid (s : State) : s.finish.ctValid = s.ctValid := rfl
@[simp] theorem State.finish_origLen (s : State) : s.finish.origLen = s.origLen := rfl
@[simp] theorem State.finish_symCount (s : State) : s.finish.symCount = s.symCount := rfl
@[simp] theorem State.finish_trail (s : State) : s.finish.trail = s.trail := rfl
@[simp] theorem State.finish_inMem (s : State) : s.finish.inMem = s.inMem := rfl
@[simp] theorem State.finish_inLen (s : State) : s.finish.inLen = s.inLen := rfl
@[simp] theorem State.finish_outMem (s : State) : s.finish.outMem = s.outMem := rfl
@[simp] theorem State.finish_outLen (s : State) : s.finish.outLen = s.outLen := rfl
@[simp] theorem State.finish_outValid (s : State) : s.finish.outValid = s.outValid := rfl
@[simp] theorem State.finish_cmd (s : State) : s.finish.cmd = s.cmd := rfl
@[simp] theorem State.finish_busy (s : State) : s.finish.busy = false := rfl
@[simp] theorem State.finish_done (s : State) : s.finish.done = true := rfl
@[simp] theorem State.finish_errKind (s : State) : s.finish.errKind = .none := rfl
@[simp] theorem State.finish_errCause (s : State) : s.finish.errCause = .none := rfl
@[simp] theorem State.finish_errInfo (s : State) : s.finish.errInfo = 0 := rfl
@[simp] theorem State.finish_acc (s : State) : s.finish.acc = s.acc := rfl
@[simp] theorem State.finish_fill (s : State) : s.finish.fill = s.fill := rfl
@[simp] theorem State.finish_pay (s : State) : s.finish.pay = s.pay := rfl
@[simp] theorem State.finish_cur (s : State) : s.finish.cur = s.cur := rfl
@[simp] theorem State.finish_emitted (s : State) : s.finish.emitted = s.emitted := rfl
@[simp] theorem State.finish_bitpos (s : State) : s.finish.bitpos = s.bitpos := rfl
@[simp] theorem State.finish_q (s : State) : s.finish.q = s.q := rfl
@[simp] theorem State.finish_genStack (s : State) : s.finish.genStack = s.genStack := rfl
@[simp] theorem State.finish_phase (s : State) : s.finish.phase = .idle := rfl
@[simp] theorem State.finish_inOff (s : State) : s.finish.inOff = s.inOff := rfl
@[simp] theorem State.finish_env (s : State) : s.finish.env = s.env := rfl
@[simp] theorem State.finish_hostQ (s : State) : s.finish.hostQ = s.hostQ := rfl
@[simp] theorem State.finish_hostData (s : State) : s.finish.hostData = s.hostData := rfl
@[simp] theorem State.finish_draws (s : State) : s.finish.draws = s.draws := rfl
@[simp] theorem State.finish_inSeed (s : State) : s.finish.inSeed = s.inSeed := rfl

/-! ### `State.recordError` -/

@[simp] theorem State.recordError_ft (s : State) (e : Raise) : (s.recordError e).ft = s.ft := rfl
@[simp] theorem State.recordError_total (s : State) (e : Raise) : (s.recordError e).total = s.total := rfl
@[simp] theorem State.recordError_node (s : State) (e : Raise) : (s.recordError e).node = s.node := rfl
@[simp] theorem State.recordError_ncount (s : State) (e : Raise) : (s.recordError e).ncount = s.ncount := rfl
@[simp] theorem State.recordError_root (s : State) (e : Raise) : (s.recordError e).root = s.root := rfl
@[simp] theorem State.recordError_treeValid (s : State) (e : Raise) : (s.recordError e).treeValid = s.treeValid := rfl
@[simp] theorem State.recordError_ct (s : State) (e : Raise) : (s.recordError e).ct = s.ct := rfl
@[simp] theorem State.recordError_ctValid (s : State) (e : Raise) : (s.recordError e).ctValid = s.ctValid := rfl
@[simp] theorem State.recordError_origLen (s : State) (e : Raise) : (s.recordError e).origLen = s.origLen := rfl
@[simp] theorem State.recordError_symCount (s : State) (e : Raise) : (s.recordError e).symCount = s.symCount := rfl
@[simp] theorem State.recordError_trail (s : State) (e : Raise) : (s.recordError e).trail = s.trail := rfl
@[simp] theorem State.recordError_inMem (s : State) (e : Raise) : (s.recordError e).inMem = s.inMem := rfl
@[simp] theorem State.recordError_inLen (s : State) (e : Raise) : (s.recordError e).inLen = s.inLen := rfl
@[simp] theorem State.recordError_outMem (s : State) (e : Raise) : (s.recordError e).outMem = s.outMem := rfl
@[simp] theorem State.recordError_outLen (s : State) (e : Raise) : (s.recordError e).outLen = s.outLen := rfl
@[simp] theorem State.recordError_outValid (s : State) (e : Raise) : (s.recordError e).outValid = s.outValid := rfl
@[simp] theorem State.recordError_cmd (s : State) (e : Raise) : (s.recordError e).cmd = s.cmd := rfl
@[simp] theorem State.recordError_busy (s : State) (e : Raise) : (s.recordError e).busy = false := rfl
@[simp] theorem State.recordError_done (s : State) (e : Raise) : (s.recordError e).done = true := rfl
@[simp] theorem State.recordError_errKind (s : State) (e : Raise) : (s.recordError e).errKind = e.cause.kind := rfl
@[simp] theorem State.recordError_errCause (s : State) (e : Raise) : (s.recordError e).errCause = e.cause := rfl
@[simp] theorem State.recordError_errInfo (s : State) (e : Raise) : (s.recordError e).errInfo = e.info := rfl
@[simp] theorem State.recordError_acc (s : State) (e : Raise) : (s.recordError e).acc = s.acc := rfl
@[simp] theorem State.recordError_fill (s : State) (e : Raise) : (s.recordError e).fill = s.fill := rfl
@[simp] theorem State.recordError_pay (s : State) (e : Raise) : (s.recordError e).pay = s.pay := rfl
@[simp] theorem State.recordError_cur (s : State) (e : Raise) : (s.recordError e).cur = s.cur := rfl
@[simp] theorem State.recordError_emitted (s : State) (e : Raise) : (s.recordError e).emitted = s.emitted := rfl
@[simp] theorem State.recordError_bitpos (s : State) (e : Raise) : (s.recordError e).bitpos = s.bitpos := rfl
@[simp] theorem State.recordError_q (s : State) (e : Raise) : (s.recordError e).q = s.q := rfl
@[simp] theorem State.recordError_genStack (s : State) (e : Raise) : (s.recordError e).genStack = s.genStack := rfl
@[simp] theorem State.recordError_phase (s : State) (e : Raise) : (s.recordError e).phase = .idle := rfl
@[simp] theorem State.recordError_inOff (s : State) (e : Raise) : (s.recordError e).inOff = s.inOff := rfl
@[simp] theorem State.recordError_env (s : State) (e : Raise) : (s.recordError e).env = s.env := rfl
@[simp] theorem State.recordError_hostQ (s : State) (e : Raise) : (s.recordError e).hostQ = s.hostQ := rfl
@[simp] theorem State.recordError_hostData (s : State) (e : Raise) : (s.recordError e).hostData = s.hostData := rfl
@[simp] theorem State.recordError_draws (s : State) (e : Raise) : (s.recordError e).draws = s.draws := rfl
@[simp] theorem State.recordError_inSeed (s : State) (e : Raise) : (s.recordError e).inSeed = s.inSeed := rfl

/-! ### `State.acknowledge` -/

@[simp] theorem State.acknowledge_ft (s : State) : s.acknowledge.ft = s.ft := rfl
@[simp] theorem State.acknowledge_total (s : State) : s.acknowledge.total = s.total := rfl
@[simp] theorem State.acknowledge_node (s : State) : s.acknowledge.node = s.node := rfl
@[simp] theorem State.acknowledge_ncount (s : State) : s.acknowledge.ncount = s.ncount := rfl
@[simp] theorem State.acknowledge_root (s : State) : s.acknowledge.root = s.root := rfl
@[simp] theorem State.acknowledge_treeValid (s : State) : s.acknowledge.treeValid = s.treeValid := rfl
@[simp] theorem State.acknowledge_ct (s : State) : s.acknowledge.ct = s.ct := rfl
@[simp] theorem State.acknowledge_ctValid (s : State) : s.acknowledge.ctValid = s.ctValid := rfl
@[simp] theorem State.acknowledge_origLen (s : State) : s.acknowledge.origLen = s.origLen := rfl
@[simp] theorem State.acknowledge_symCount (s : State) : s.acknowledge.symCount = s.symCount := rfl
@[simp] theorem State.acknowledge_trail (s : State) : s.acknowledge.trail = s.trail := rfl
@[simp] theorem State.acknowledge_inMem (s : State) : s.acknowledge.inMem = s.inMem := rfl
@[simp] theorem State.acknowledge_inLen (s : State) : s.acknowledge.inLen = s.inLen := rfl
@[simp] theorem State.acknowledge_outMem (s : State) : s.acknowledge.outMem = s.outMem := rfl
@[simp] theorem State.acknowledge_outLen (s : State) : s.acknowledge.outLen = s.outLen := rfl
@[simp] theorem State.acknowledge_outValid (s : State) : s.acknowledge.outValid = s.outValid := rfl
@[simp] theorem State.acknowledge_cmd (s : State) : s.acknowledge.cmd = s.cmd := rfl
@[simp] theorem State.acknowledge_busy (s : State) : s.acknowledge.busy = false := rfl
@[simp] theorem State.acknowledge_done (s : State) : s.acknowledge.done = false := rfl
@[simp] theorem State.acknowledge_errKind (s : State) : s.acknowledge.errKind = .none := rfl
@[simp] theorem State.acknowledge_errCause (s : State) : s.acknowledge.errCause = .none := rfl
@[simp] theorem State.acknowledge_errInfo (s : State) : s.acknowledge.errInfo = 0 := rfl
@[simp] theorem State.acknowledge_acc (s : State) : s.acknowledge.acc = s.acc := rfl
@[simp] theorem State.acknowledge_fill (s : State) : s.acknowledge.fill = s.fill := rfl
@[simp] theorem State.acknowledge_pay (s : State) : s.acknowledge.pay = s.pay := rfl
@[simp] theorem State.acknowledge_cur (s : State) : s.acknowledge.cur = s.cur := rfl
@[simp] theorem State.acknowledge_emitted (s : State) : s.acknowledge.emitted = s.emitted := rfl
@[simp] theorem State.acknowledge_bitpos (s : State) : s.acknowledge.bitpos = s.bitpos := rfl
@[simp] theorem State.acknowledge_q (s : State) : s.acknowledge.q = s.q := rfl
@[simp] theorem State.acknowledge_genStack (s : State) : s.acknowledge.genStack = s.genStack := rfl
@[simp] theorem State.acknowledge_phase (s : State) : s.acknowledge.phase = .idle := rfl
@[simp] theorem State.acknowledge_inOff (s : State) : s.acknowledge.inOff = s.inOff := rfl
@[simp] theorem State.acknowledge_env (s : State) : s.acknowledge.env = s.env := rfl
@[simp] theorem State.acknowledge_hostQ (s : State) : s.acknowledge.hostQ = s.hostQ := rfl
@[simp] theorem State.acknowledge_hostData (s : State) : s.acknowledge.hostData = s.hostData := rfl
@[simp] theorem State.acknowledge_draws (s : State) : s.acknowledge.draws = s.draws := rfl
@[simp] theorem State.acknowledge_inSeed (s : State) : s.acknowledge.inSeed = s.inSeed := rfl

/-! ### `State.openOut` -/

@[simp] theorem State.openOut_ft (s : State) : s.openOut.ft = s.ft := by simp [State.openOut]
@[simp] theorem State.openOut_total (s : State) : s.openOut.total = s.total := by simp [State.openOut]
@[simp] theorem State.openOut_node (s : State) : s.openOut.node = s.node := by simp [State.openOut]
@[simp] theorem State.openOut_ncount (s : State) : s.openOut.ncount = s.ncount := by simp [State.openOut]
@[simp] theorem State.openOut_root (s : State) : s.openOut.root = s.root := by simp [State.openOut]
@[simp] theorem State.openOut_treeValid (s : State) : s.openOut.treeValid = s.treeValid := by simp [State.openOut]
@[simp] theorem State.openOut_ct (s : State) : s.openOut.ct = s.ct := by simp [State.openOut]
@[simp] theorem State.openOut_ctValid (s : State) : s.openOut.ctValid = s.ctValid := by simp [State.openOut]
@[simp] theorem State.openOut_origLen (s : State) : s.openOut.origLen = s.origLen := by simp [State.openOut]
@[simp] theorem State.openOut_symCount (s : State) : s.openOut.symCount = s.symCount := by simp [State.openOut]
@[simp] theorem State.openOut_trail (s : State) : s.openOut.trail = s.trail := by simp [State.openOut]
@[simp] theorem State.openOut_inMem (s : State) : s.openOut.inMem = s.inMem := by simp [State.openOut]
@[simp] theorem State.openOut_inLen (s : State) : s.openOut.inLen = s.inLen := by simp [State.openOut]
@[simp] theorem State.openOut_outMem (s : State) : s.openOut.outMem = [] := by simp [State.openOut]
@[simp] theorem State.openOut_outLen (s : State) : s.openOut.outLen = 0 := by simp [State.openOut]
@[simp] theorem State.openOut_outValid (s : State) : s.openOut.outValid = false := by simp [State.openOut]
@[simp] theorem State.openOut_cmd (s : State) : s.openOut.cmd = s.cmd := by simp [State.openOut]
@[simp] theorem State.openOut_busy (s : State) : s.openOut.busy = s.busy := by simp [State.openOut]
@[simp] theorem State.openOut_done (s : State) : s.openOut.done = s.done := by simp [State.openOut]
@[simp] theorem State.openOut_errKind (s : State) : s.openOut.errKind = s.errKind := by simp [State.openOut]
@[simp] theorem State.openOut_errCause (s : State) : s.openOut.errCause = s.errCause := by simp [State.openOut]
@[simp] theorem State.openOut_errInfo (s : State) : s.openOut.errInfo = s.errInfo := by simp [State.openOut]
@[simp] theorem State.openOut_acc (s : State) : s.openOut.acc = s.acc := by simp [State.openOut]
@[simp] theorem State.openOut_fill (s : State) : s.openOut.fill = s.fill := by simp [State.openOut]
@[simp] theorem State.openOut_pay (s : State) : s.openOut.pay = s.pay := by simp [State.openOut]
@[simp] theorem State.openOut_cur (s : State) : s.openOut.cur = s.cur := by simp [State.openOut]
@[simp] theorem State.openOut_emitted (s : State) : s.openOut.emitted = s.emitted := by simp [State.openOut]
@[simp] theorem State.openOut_bitpos (s : State) : s.openOut.bitpos = s.bitpos := by simp [State.openOut]
@[simp] theorem State.openOut_q (s : State) : s.openOut.q = s.q := by simp [State.openOut]
@[simp] theorem State.openOut_genStack (s : State) : s.openOut.genStack = s.genStack := by simp [State.openOut]
@[simp] theorem State.openOut_phase (s : State) : s.openOut.phase = s.phase := by simp [State.openOut]
@[simp] theorem State.openOut_inOff (s : State) : s.openOut.inOff = s.inOff := by simp [State.openOut]
@[simp] theorem State.openOut_env (s : State) : s.openOut.env = s.env := by simp [State.openOut]
@[simp] theorem State.openOut_hostQ (s : State) : s.openOut.hostQ = s.hostQ := by simp [State.openOut]
@[simp] theorem State.openOut_hostData (s : State) : s.openOut.hostData = s.hostData := by simp [State.openOut]
@[simp] theorem State.openOut_draws (s : State) : s.openOut.draws = s.draws := by simp [State.openOut]
@[simp] theorem State.openOut_inSeed (s : State) : s.openOut.inSeed = s.inSeed := by simp [State.openOut]

/-! ### `State.countByte` -/

@[simp] theorem State.countByte_ft (s : State) (b : Byte) : (s.countByte b).ft = ftSet s.ft b (ftAt s.ft b + 1) := rfl
@[simp] theorem State.countByte_total (s : State) (b : Byte) : (s.countByte b).total = s.total + 1 := rfl
@[simp] theorem State.countByte_node (s : State) (b : Byte) : (s.countByte b).node = s.node := rfl
@[simp] theorem State.countByte_ncount (s : State) (b : Byte) : (s.countByte b).ncount = s.ncount := rfl
@[simp] theorem State.countByte_root (s : State) (b : Byte) : (s.countByte b).root = s.root := rfl
@[simp] theorem State.countByte_treeValid (s : State) (b : Byte) : (s.countByte b).treeValid = s.treeValid := rfl
@[simp] theorem State.countByte_ct (s : State) (b : Byte) : (s.countByte b).ct = s.ct := rfl
@[simp] theorem State.countByte_ctValid (s : State) (b : Byte) : (s.countByte b).ctValid = s.ctValid := rfl
@[simp] theorem State.countByte_origLen (s : State) (b : Byte) : (s.countByte b).origLen = s.origLen := rfl
@[simp] theorem State.countByte_symCount (s : State) (b : Byte) : (s.countByte b).symCount = s.symCount := rfl
@[simp] theorem State.countByte_trail (s : State) (b : Byte) : (s.countByte b).trail = s.trail := rfl
@[simp] theorem State.countByte_inMem (s : State) (b : Byte) : (s.countByte b).inMem = s.inMem := rfl
@[simp] theorem State.countByte_inLen (s : State) (b : Byte) : (s.countByte b).inLen = s.inLen := rfl
@[simp] theorem State.countByte_outMem (s : State) (b : Byte) : (s.countByte b).outMem = s.outMem := rfl
@[simp] theorem State.countByte_outLen (s : State) (b : Byte) : (s.countByte b).outLen = s.outLen := rfl
@[simp] theorem State.countByte_outValid (s : State) (b : Byte) : (s.countByte b).outValid = s.outValid := rfl
@[simp] theorem State.countByte_cmd (s : State) (b : Byte) : (s.countByte b).cmd = s.cmd := rfl
@[simp] theorem State.countByte_busy (s : State) (b : Byte) : (s.countByte b).busy = s.busy := rfl
@[simp] theorem State.countByte_done (s : State) (b : Byte) : (s.countByte b).done = s.done := rfl
@[simp] theorem State.countByte_errKind (s : State) (b : Byte) : (s.countByte b).errKind = s.errKind := rfl
@[simp] theorem State.countByte_errCause (s : State) (b : Byte) : (s.countByte b).errCause = s.errCause := rfl
@[simp] theorem State.countByte_errInfo (s : State) (b : Byte) : (s.countByte b).errInfo = s.errInfo := rfl
@[simp] theorem State.countByte_acc (s : State) (b : Byte) : (s.countByte b).acc = s.acc := rfl
@[simp] theorem State.countByte_fill (s : State) (b : Byte) : (s.countByte b).fill = s.fill := rfl
@[simp] theorem State.countByte_pay (s : State) (b : Byte) : (s.countByte b).pay = s.pay := rfl
@[simp] theorem State.countByte_cur (s : State) (b : Byte) : (s.countByte b).cur = s.cur := rfl
@[simp] theorem State.countByte_emitted (s : State) (b : Byte) : (s.countByte b).emitted = s.emitted := rfl
@[simp] theorem State.countByte_bitpos (s : State) (b : Byte) : (s.countByte b).bitpos = s.bitpos := rfl
@[simp] theorem State.countByte_q (s : State) (b : Byte) : (s.countByte b).q = s.q := rfl
@[simp] theorem State.countByte_genStack (s : State) (b : Byte) : (s.countByte b).genStack = s.genStack := rfl
@[simp] theorem State.countByte_phase (s : State) (b : Byte) : (s.countByte b).phase = s.phase := rfl
@[simp] theorem State.countByte_inOff (s : State) (b : Byte) : (s.countByte b).inOff = s.inOff := rfl
@[simp] theorem State.countByte_env (s : State) (b : Byte) : (s.countByte b).env = s.env := rfl
@[simp] theorem State.countByte_hostQ (s : State) (b : Byte) : (s.countByte b).hostQ = s.hostQ := rfl
@[simp] theorem State.countByte_hostData (s : State) (b : Byte) : (s.countByte b).hostData = s.hostData := rfl
@[simp] theorem State.countByte_draws (s : State) (b : Byte) : (s.countByte b).draws = s.draws := rfl
@[simp] theorem State.countByte_inSeed (s : State) (b : Byte) : (s.countByte b).inSeed = s.inSeed := rfl

/-! ### `State.setForest` -/

@[simp] theorem State.setForest_ft (s : State) (fr : Forest) : (s.setForest fr).ft = s.ft := rfl
@[simp] theorem State.setForest_total (s : State) (fr : Forest) : (s.setForest fr).total = s.total := rfl
@[simp] theorem State.setForest_node (s : State) (fr : Forest) : (s.setForest fr).node = fr.node := rfl
@[simp] theorem State.setForest_ncount (s : State) (fr : Forest) : (s.setForest fr).ncount = BitVec.ofNat 10 fr.node.length := rfl
@[simp] theorem State.setForest_root (s : State) (fr : Forest) : (s.setForest fr).root = s.root := rfl
@[simp] theorem State.setForest_treeValid (s : State) (fr : Forest) : (s.setForest fr).treeValid = s.treeValid := rfl
@[simp] theorem State.setForest_ct (s : State) (fr : Forest) : (s.setForest fr).ct = s.ct := rfl
@[simp] theorem State.setForest_ctValid (s : State) (fr : Forest) : (s.setForest fr).ctValid = s.ctValid := rfl
@[simp] theorem State.setForest_origLen (s : State) (fr : Forest) : (s.setForest fr).origLen = s.origLen := rfl
@[simp] theorem State.setForest_symCount (s : State) (fr : Forest) : (s.setForest fr).symCount = s.symCount := rfl
@[simp] theorem State.setForest_trail (s : State) (fr : Forest) : (s.setForest fr).trail = s.trail := rfl
@[simp] theorem State.setForest_inMem (s : State) (fr : Forest) : (s.setForest fr).inMem = s.inMem := rfl
@[simp] theorem State.setForest_inLen (s : State) (fr : Forest) : (s.setForest fr).inLen = s.inLen := rfl
@[simp] theorem State.setForest_outMem (s : State) (fr : Forest) : (s.setForest fr).outMem = s.outMem := rfl
@[simp] theorem State.setForest_outLen (s : State) (fr : Forest) : (s.setForest fr).outLen = s.outLen := rfl
@[simp] theorem State.setForest_outValid (s : State) (fr : Forest) : (s.setForest fr).outValid = s.outValid := rfl
@[simp] theorem State.setForest_cmd (s : State) (fr : Forest) : (s.setForest fr).cmd = s.cmd := rfl
@[simp] theorem State.setForest_busy (s : State) (fr : Forest) : (s.setForest fr).busy = s.busy := rfl
@[simp] theorem State.setForest_done (s : State) (fr : Forest) : (s.setForest fr).done = s.done := rfl
@[simp] theorem State.setForest_errKind (s : State) (fr : Forest) : (s.setForest fr).errKind = s.errKind := rfl
@[simp] theorem State.setForest_errCause (s : State) (fr : Forest) : (s.setForest fr).errCause = s.errCause := rfl
@[simp] theorem State.setForest_errInfo (s : State) (fr : Forest) : (s.setForest fr).errInfo = s.errInfo := rfl
@[simp] theorem State.setForest_acc (s : State) (fr : Forest) : (s.setForest fr).acc = s.acc := rfl
@[simp] theorem State.setForest_fill (s : State) (fr : Forest) : (s.setForest fr).fill = s.fill := rfl
@[simp] theorem State.setForest_pay (s : State) (fr : Forest) : (s.setForest fr).pay = s.pay := rfl
@[simp] theorem State.setForest_cur (s : State) (fr : Forest) : (s.setForest fr).cur = s.cur := rfl
@[simp] theorem State.setForest_emitted (s : State) (fr : Forest) : (s.setForest fr).emitted = s.emitted := rfl
@[simp] theorem State.setForest_bitpos (s : State) (fr : Forest) : (s.setForest fr).bitpos = s.bitpos := rfl
@[simp] theorem State.setForest_q (s : State) (fr : Forest) : (s.setForest fr).q = fr.q := rfl
@[simp] theorem State.setForest_genStack (s : State) (fr : Forest) : (s.setForest fr).genStack = s.genStack := rfl
@[simp] theorem State.setForest_phase (s : State) (fr : Forest) : (s.setForest fr).phase = s.phase := rfl
@[simp] theorem State.setForest_inOff (s : State) (fr : Forest) : (s.setForest fr).inOff = s.inOff := rfl
@[simp] theorem State.setForest_env (s : State) (fr : Forest) : (s.setForest fr).env = s.env := rfl
@[simp] theorem State.setForest_hostQ (s : State) (fr : Forest) : (s.setForest fr).hostQ = s.hostQ := rfl
@[simp] theorem State.setForest_hostData (s : State) (fr : Forest) : (s.setForest fr).hostData = s.hostData := rfl
@[simp] theorem State.setForest_draws (s : State) (fr : Forest) : (s.setForest fr).draws = s.draws := rfl
@[simp] theorem State.setForest_inSeed (s : State) (fr : Forest) : (s.setForest fr).inSeed = s.inSeed := rfl

/-! ### `State.shiftBit` -/

@[simp] theorem State.shiftBit_ft (s : State) (bit : Bool) : (s.shiftBit bit).ft = s.ft := rfl
@[simp] theorem State.shiftBit_total (s : State) (bit : Bool) : (s.shiftBit bit).total = s.total := rfl
@[simp] theorem State.shiftBit_node (s : State) (bit : Bool) : (s.shiftBit bit).node = s.node := rfl
@[simp] theorem State.shiftBit_ncount (s : State) (bit : Bool) : (s.shiftBit bit).ncount = s.ncount := rfl
@[simp] theorem State.shiftBit_root (s : State) (bit : Bool) : (s.shiftBit bit).root = s.root := rfl
@[simp] theorem State.shiftBit_treeValid (s : State) (bit : Bool) : (s.shiftBit bit).treeValid = s.treeValid := rfl
@[simp] theorem State.shiftBit_ct (s : State) (bit : Bool) : (s.shiftBit bit).ct = s.ct := rfl
@[simp] theorem State.shiftBit_ctValid (s : State) (bit : Bool) : (s.shiftBit bit).ctValid = s.ctValid := rfl
@[simp] theorem State.shiftBit_origLen (s : State) (bit : Bool) : (s.shiftBit bit).origLen = s.origLen := rfl
@[simp] theorem State.shiftBit_symCount (s : State) (bit : Bool) : (s.shiftBit bit).symCount = s.symCount := rfl
@[simp] theorem State.shiftBit_trail (s : State) (bit : Bool) : (s.shiftBit bit).trail = s.trail := rfl
@[simp] theorem State.shiftBit_inMem (s : State) (bit : Bool) : (s.shiftBit bit).inMem = s.inMem := rfl
@[simp] theorem State.shiftBit_inLen (s : State) (bit : Bool) : (s.shiftBit bit).inLen = s.inLen := rfl
@[simp] theorem State.shiftBit_outMem (s : State) (bit : Bool) : (s.shiftBit bit).outMem = s.outMem := rfl
@[simp] theorem State.shiftBit_outLen (s : State) (bit : Bool) : (s.shiftBit bit).outLen = s.outLen := rfl
@[simp] theorem State.shiftBit_outValid (s : State) (bit : Bool) : (s.shiftBit bit).outValid = s.outValid := rfl
@[simp] theorem State.shiftBit_cmd (s : State) (bit : Bool) : (s.shiftBit bit).cmd = s.cmd := rfl
@[simp] theorem State.shiftBit_busy (s : State) (bit : Bool) : (s.shiftBit bit).busy = s.busy := rfl
@[simp] theorem State.shiftBit_done (s : State) (bit : Bool) : (s.shiftBit bit).done = s.done := rfl
@[simp] theorem State.shiftBit_errKind (s : State) (bit : Bool) : (s.shiftBit bit).errKind = s.errKind := rfl
@[simp] theorem State.shiftBit_errCause (s : State) (bit : Bool) : (s.shiftBit bit).errCause = s.errCause := rfl
@[simp] theorem State.shiftBit_errInfo (s : State) (bit : Bool) : (s.shiftBit bit).errInfo = s.errInfo := rfl
@[simp] theorem State.shiftBit_acc (s : State) (bit : Bool) : (s.shiftBit bit).acc = s.acc * 2 + (if bit then 1 else 0) := rfl
@[simp] theorem State.shiftBit_fill (s : State) (bit : Bool) : (s.shiftBit bit).fill = s.fill + 1 := rfl
@[simp] theorem State.shiftBit_pay (s : State) (bit : Bool) : (s.shiftBit bit).pay = s.pay := rfl
@[simp] theorem State.shiftBit_cur (s : State) (bit : Bool) : (s.shiftBit bit).cur = s.cur := rfl
@[simp] theorem State.shiftBit_emitted (s : State) (bit : Bool) : (s.shiftBit bit).emitted = s.emitted := rfl
@[simp] theorem State.shiftBit_bitpos (s : State) (bit : Bool) : (s.shiftBit bit).bitpos = s.bitpos := rfl
@[simp] theorem State.shiftBit_q (s : State) (bit : Bool) : (s.shiftBit bit).q = s.q := rfl
@[simp] theorem State.shiftBit_genStack (s : State) (bit : Bool) : (s.shiftBit bit).genStack = s.genStack := rfl
@[simp] theorem State.shiftBit_phase (s : State) (bit : Bool) : (s.shiftBit bit).phase = s.phase := rfl
@[simp] theorem State.shiftBit_inOff (s : State) (bit : Bool) : (s.shiftBit bit).inOff = s.inOff := rfl
@[simp] theorem State.shiftBit_env (s : State) (bit : Bool) : (s.shiftBit bit).env = s.env := rfl
@[simp] theorem State.shiftBit_hostQ (s : State) (bit : Bool) : (s.shiftBit bit).hostQ = s.hostQ := rfl
@[simp] theorem State.shiftBit_hostData (s : State) (bit : Bool) : (s.shiftBit bit).hostData = s.hostData := rfl
@[simp] theorem State.shiftBit_draws (s : State) (bit : Bool) : (s.shiftBit bit).draws = s.draws := rfl
@[simp] theorem State.shiftBit_inSeed (s : State) (bit : Bool) : (s.shiftBit bit).inSeed = s.inSeed := rfl

/-! ### `State.appendOut` -/

@[simp] theorem State.appendOut_ft (s : State) (bs : List Byte) : (s.appendOut bs).ft = s.ft := rfl
@[simp] theorem State.appendOut_total (s : State) (bs : List Byte) : (s.appendOut bs).total = s.total := rfl
@[simp] theorem State.appendOut_node (s : State) (bs : List Byte) : (s.appendOut bs).node = s.node := rfl
@[simp] theorem State.appendOut_ncount (s : State) (bs : List Byte) : (s.appendOut bs).ncount = s.ncount := rfl
@[simp] theorem State.appendOut_root (s : State) (bs : List Byte) : (s.appendOut bs).root = s.root := rfl
@[simp] theorem State.appendOut_treeValid (s : State) (bs : List Byte) : (s.appendOut bs).treeValid = s.treeValid := rfl
@[simp] theorem State.appendOut_ct (s : State) (bs : List Byte) : (s.appendOut bs).ct = s.ct := rfl
@[simp] theorem State.appendOut_ctValid (s : State) (bs : List Byte) : (s.appendOut bs).ctValid = s.ctValid := rfl
@[simp] theorem State.appendOut_origLen (s : State) (bs : List Byte) : (s.appendOut bs).origLen = s.origLen := rfl
@[simp] theorem State.appendOut_symCount (s : State) (bs : List Byte) : (s.appendOut bs).symCount = s.symCount := rfl
@[simp] theorem State.appendOut_trail (s : State) (bs : List Byte) : (s.appendOut bs).trail = s.trail := rfl
@[simp] theorem State.appendOut_inMem (s : State) (bs : List Byte) : (s.appendOut bs).inMem = s.inMem := rfl
@[simp] theorem State.appendOut_inLen (s : State) (bs : List Byte) : (s.appendOut bs).inLen = s.inLen := rfl
@[simp] theorem State.appendOut_outMem (s : State) (bs : List Byte) : (s.appendOut bs).outMem = Memory.setAll s.outMem s.outLen.toNat bs := rfl
@[simp] theorem State.appendOut_outLen (s : State) (bs : List Byte) : (s.appendOut bs).outLen = s.outLen + BitVec.ofNat 64 bs.length := rfl
@[simp] theorem State.appendOut_outValid (s : State) (bs : List Byte) : (s.appendOut bs).outValid = s.outValid := rfl
@[simp] theorem State.appendOut_cmd (s : State) (bs : List Byte) : (s.appendOut bs).cmd = s.cmd := rfl
@[simp] theorem State.appendOut_busy (s : State) (bs : List Byte) : (s.appendOut bs).busy = s.busy := rfl
@[simp] theorem State.appendOut_done (s : State) (bs : List Byte) : (s.appendOut bs).done = s.done := rfl
@[simp] theorem State.appendOut_errKind (s : State) (bs : List Byte) : (s.appendOut bs).errKind = s.errKind := rfl
@[simp] theorem State.appendOut_errCause (s : State) (bs : List Byte) : (s.appendOut bs).errCause = s.errCause := rfl
@[simp] theorem State.appendOut_errInfo (s : State) (bs : List Byte) : (s.appendOut bs).errInfo = s.errInfo := rfl
@[simp] theorem State.appendOut_acc (s : State) (bs : List Byte) : (s.appendOut bs).acc = s.acc := rfl
@[simp] theorem State.appendOut_fill (s : State) (bs : List Byte) : (s.appendOut bs).fill = s.fill := rfl
@[simp] theorem State.appendOut_pay (s : State) (bs : List Byte) : (s.appendOut bs).pay = s.pay := rfl
@[simp] theorem State.appendOut_cur (s : State) (bs : List Byte) : (s.appendOut bs).cur = s.cur := rfl
@[simp] theorem State.appendOut_emitted (s : State) (bs : List Byte) : (s.appendOut bs).emitted = s.emitted := rfl
@[simp] theorem State.appendOut_bitpos (s : State) (bs : List Byte) : (s.appendOut bs).bitpos = s.bitpos := rfl
@[simp] theorem State.appendOut_q (s : State) (bs : List Byte) : (s.appendOut bs).q = s.q := rfl
@[simp] theorem State.appendOut_genStack (s : State) (bs : List Byte) : (s.appendOut bs).genStack = s.genStack := rfl
@[simp] theorem State.appendOut_phase (s : State) (bs : List Byte) : (s.appendOut bs).phase = s.phase := rfl
@[simp] theorem State.appendOut_inOff (s : State) (bs : List Byte) : (s.appendOut bs).inOff = s.inOff := rfl
@[simp] theorem State.appendOut_env (s : State) (bs : List Byte) : (s.appendOut bs).env = s.env := rfl
@[simp] theorem State.appendOut_hostQ (s : State) (bs : List Byte) : (s.appendOut bs).hostQ = s.hostQ := rfl
@[simp] theorem State.appendOut_hostData (s : State) (bs : List Byte) : (s.appendOut bs).hostData = s.hostData := rfl
@[simp] theorem State.appendOut_draws (s : State) (bs : List Byte) : (s.appendOut bs).draws = s.draws := rfl
@[simp] theorem State.appendOut_inSeed (s : State) (bs : List Byte) : (s.appendOut bs).inSeed = s.inSeed := rfl

/-! ### `State.plant` -/

@[simp] theorem State.plant_ft (s : State) (nd : List Node) (r : NodeIdx) : (s.plant nd r).ft = s.ft := by simp [State.plant]
@[simp] theorem State.plant_total (s : State) (nd : List Node) (r : NodeIdx) : (s.plant nd r).total = s.total := by simp [State.plant]
@[simp] theorem State.plant_node (s : State) (nd : List Node) (r : NodeIdx) : (s.plant nd r).node = nd := by simp [State.plant]
@[simp] theorem State.plant_ncount (s : State) (nd : List Node) (r : NodeIdx) : (s.plant nd r).ncount = BitVec.ofNat 10 nd.length := by simp [State.plant]
@[simp] theorem State.plant_root (s : State) (nd : List Node) (r : NodeIdx) : (s.plant nd r).root = r := by simp [State.plant]
@[simp] theorem State.plant_treeValid (s : State) (nd : List Node) (r : NodeIdx) : (s.plant nd r).treeValid = true := by simp [State.plant]
@[simp] theorem State.plant_ct (s : State) (nd : List Node) (r : NodeIdx) : (s.plant nd r).ct = [] := by simp [State.plant]
@[simp] theorem State.plant_ctValid (s : State) (nd : List Node) (r : NodeIdx) : (s.plant nd r).ctValid = false := by simp [State.plant]
@[simp] theorem State.plant_origLen (s : State) (nd : List Node) (r : NodeIdx) : (s.plant nd r).origLen = s.origLen := by simp [State.plant]
@[simp] theorem State.plant_symCount (s : State) (nd : List Node) (r : NodeIdx) : (s.plant nd r).symCount = s.symCount := by simp [State.plant]
@[simp] theorem State.plant_trail (s : State) (nd : List Node) (r : NodeIdx) : (s.plant nd r).trail = s.trail := by simp [State.plant]
@[simp] theorem State.plant_inMem (s : State) (nd : List Node) (r : NodeIdx) : (s.plant nd r).inMem = s.inMem := by simp [State.plant]
@[simp] theorem State.plant_inLen (s : State) (nd : List Node) (r : NodeIdx) : (s.plant nd r).inLen = s.inLen := by simp [State.plant]
@[simp] theorem State.plant_outMem (s : State) (nd : List Node) (r : NodeIdx) : (s.plant nd r).outMem = s.outMem := by simp [State.plant]
@[simp] theorem State.plant_outLen (s : State) (nd : List Node) (r : NodeIdx) : (s.plant nd r).outLen = s.outLen := by simp [State.plant]
@[simp] theorem State.plant_outValid (s : State) (nd : List Node) (r : NodeIdx) : (s.plant nd r).outValid = s.outValid := by simp [State.plant]
@[simp] theorem State.plant_cmd (s : State) (nd : List Node) (r : NodeIdx) : (s.plant nd r).cmd = s.cmd := by simp [State.plant]
@[simp] theorem State.plant_busy (s : State) (nd : List Node) (r : NodeIdx) : (s.plant nd r).busy = s.busy := by simp [State.plant]
@[simp] theorem State.plant_done (s : State) (nd : List Node) (r : NodeIdx) : (s.plant nd r).done = s.done := by simp [State.plant]
@[simp] theorem State.plant_errKind (s : State) (nd : List Node) (r : NodeIdx) : (s.plant nd r).errKind = s.errKind := by simp [State.plant]
@[simp] theorem State.plant_errCause (s : State) (nd : List Node) (r : NodeIdx) : (s.plant nd r).errCause = s.errCause := by simp [State.plant]
@[simp] theorem State.plant_errInfo (s : State) (nd : List Node) (r : NodeIdx) : (s.plant nd r).errInfo = s.errInfo := by simp [State.plant]
@[simp] theorem State.plant_acc (s : State) (nd : List Node) (r : NodeIdx) : (s.plant nd r).acc = s.acc := by simp [State.plant]
@[simp] theorem State.plant_fill (s : State) (nd : List Node) (r : NodeIdx) : (s.plant nd r).fill = s.fill := by simp [State.plant]
@[simp] theorem State.plant_pay (s : State) (nd : List Node) (r : NodeIdx) : (s.plant nd r).pay = s.pay := by simp [State.plant]
@[simp] theorem State.plant_cur (s : State) (nd : List Node) (r : NodeIdx) : (s.plant nd r).cur = s.cur := by simp [State.plant]
@[simp] theorem State.plant_emitted (s : State) (nd : List Node) (r : NodeIdx) : (s.plant nd r).emitted = s.emitted := by simp [State.plant]
@[simp] theorem State.plant_bitpos (s : State) (nd : List Node) (r : NodeIdx) : (s.plant nd r).bitpos = s.bitpos := by simp [State.plant]
@[simp] theorem State.plant_q (s : State) (nd : List Node) (r : NodeIdx) : (s.plant nd r).q = [] := by simp [State.plant]
@[simp] theorem State.plant_genStack (s : State) (nd : List Node) (r : NodeIdx) : (s.plant nd r).genStack = s.genStack := by simp [State.plant]
@[simp] theorem State.plant_phase (s : State) (nd : List Node) (r : NodeIdx) : (s.plant nd r).phase = .build := by simp [State.plant]
@[simp] theorem State.plant_inOff (s : State) (nd : List Node) (r : NodeIdx) : (s.plant nd r).inOff = s.inOff := by simp [State.plant]
@[simp] theorem State.plant_env (s : State) (nd : List Node) (r : NodeIdx) : (s.plant nd r).env = s.env := by simp [State.plant]
@[simp] theorem State.plant_hostQ (s : State) (nd : List Node) (r : NodeIdx) : (s.plant nd r).hostQ = s.hostQ := by simp [State.plant]
@[simp] theorem State.plant_hostData (s : State) (nd : List Node) (r : NodeIdx) : (s.plant nd r).hostData = s.hostData := by simp [State.plant]
@[simp] theorem State.plant_draws (s : State) (nd : List Node) (r : NodeIdx) : (s.plant nd r).draws = s.draws + 1 := by simp [State.plant]
@[simp] theorem State.plant_inSeed (s : State) (nd : List Node) (r : NodeIdx) : (s.plant nd r).inSeed = s.inSeed := by simp [State.plant]

/-! ### `State.emit` -/

@[simp] theorem State.emit_ft (s : State) (bs : List Byte) (n : Nat) : (s.emit bs n).ft = s.ft := by simp [State.emit]
@[simp] theorem State.emit_total (s : State) (bs : List Byte) (n : Nat) : (s.emit bs n).total = s.total := by simp [State.emit]
@[simp] theorem State.emit_node (s : State) (bs : List Byte) (n : Nat) : (s.emit bs n).node = s.node := by simp [State.emit]
@[simp] theorem State.emit_ncount (s : State) (bs : List Byte) (n : Nat) : (s.emit bs n).ncount = s.ncount := by simp [State.emit]
@[simp] theorem State.emit_root (s : State) (bs : List Byte) (n : Nat) : (s.emit bs n).root = s.root := by simp [State.emit]
@[simp] theorem State.emit_treeValid (s : State) (bs : List Byte) (n : Nat) : (s.emit bs n).treeValid = s.treeValid := by simp [State.emit]
@[simp] theorem State.emit_ct (s : State) (bs : List Byte) (n : Nat) : (s.emit bs n).ct = s.ct := by simp [State.emit]
@[simp] theorem State.emit_ctValid (s : State) (bs : List Byte) (n : Nat) : (s.emit bs n).ctValid = s.ctValid := by simp [State.emit]
@[simp] theorem State.emit_origLen (s : State) (bs : List Byte) (n : Nat) : (s.emit bs n).origLen = s.origLen := by simp [State.emit]
@[simp] theorem State.emit_symCount (s : State) (bs : List Byte) (n : Nat) : (s.emit bs n).symCount = s.symCount := by simp [State.emit]
@[simp] theorem State.emit_trail (s : State) (bs : List Byte) (n : Nat) : (s.emit bs n).trail = s.trail := by simp [State.emit]
@[simp] theorem State.emit_inMem (s : State) (bs : List Byte) (n : Nat) : (s.emit bs n).inMem = s.inMem := by simp [State.emit]
@[simp] theorem State.emit_inLen (s : State) (bs : List Byte) (n : Nat) : (s.emit bs n).inLen = s.inLen := by simp [State.emit]
@[simp] theorem State.emit_outMem (s : State) (bs : List Byte) (n : Nat) : (s.emit bs n).outMem = Memory.setAll s.outMem s.outLen.toNat bs := by simp [State.emit]
@[simp] theorem State.emit_outLen (s : State) (bs : List Byte) (n : Nat) : (s.emit bs n).outLen = s.outLen + BitVec.ofNat 64 bs.length := by simp [State.emit]
@[simp] theorem State.emit_outValid (s : State) (bs : List Byte) (n : Nat) : (s.emit bs n).outValid = s.outValid := by simp [State.emit]
@[simp] theorem State.emit_cmd (s : State) (bs : List Byte) (n : Nat) : (s.emit bs n).cmd = s.cmd := by simp [State.emit]
@[simp] theorem State.emit_busy (s : State) (bs : List Byte) (n : Nat) : (s.emit bs n).busy = s.busy := by simp [State.emit]
@[simp] theorem State.emit_done (s : State) (bs : List Byte) (n : Nat) : (s.emit bs n).done = s.done := by simp [State.emit]
@[simp] theorem State.emit_errKind (s : State) (bs : List Byte) (n : Nat) : (s.emit bs n).errKind = s.errKind := by simp [State.emit]
@[simp] theorem State.emit_errCause (s : State) (bs : List Byte) (n : Nat) : (s.emit bs n).errCause = s.errCause := by simp [State.emit]
@[simp] theorem State.emit_errInfo (s : State) (bs : List Byte) (n : Nat) : (s.emit bs n).errInfo = s.errInfo := by simp [State.emit]
@[simp] theorem State.emit_acc (s : State) (bs : List Byte) (n : Nat) : (s.emit bs n).acc = s.acc := by simp [State.emit]
@[simp] theorem State.emit_fill (s : State) (bs : List Byte) (n : Nat) : (s.emit bs n).fill = s.fill := by simp [State.emit]
@[simp] theorem State.emit_pay (s : State) (bs : List Byte) (n : Nat) : (s.emit bs n).pay = s.pay := by simp [State.emit]
@[simp] theorem State.emit_cur (s : State) (bs : List Byte) (n : Nat) : (s.emit bs n).cur = s.root := by simp [State.emit]
@[simp] theorem State.emit_emitted (s : State) (bs : List Byte) (n : Nat) : (s.emit bs n).emitted = s.emitted + BitVec.ofNat 64 bs.length := by simp [State.emit]
@[simp] theorem State.emit_bitpos (s : State) (bs : List Byte) (n : Nat) : (s.emit bs n).bitpos = s.bitpos + BitVec.ofNat 67 n := by simp [State.emit]
@[simp] theorem State.emit_q (s : State) (bs : List Byte) (n : Nat) : (s.emit bs n).q = s.q := by simp [State.emit]
@[simp] theorem State.emit_genStack (s : State) (bs : List Byte) (n : Nat) : (s.emit bs n).genStack = s.genStack := by simp [State.emit]
@[simp] theorem State.emit_phase (s : State) (bs : List Byte) (n : Nat) : (s.emit bs n).phase = s.phase := by simp [State.emit]
@[simp] theorem State.emit_inOff (s : State) (bs : List Byte) (n : Nat) : (s.emit bs n).inOff = s.inOff := by simp [State.emit]
@[simp] theorem State.emit_env (s : State) (bs : List Byte) (n : Nat) : (s.emit bs n).env = s.env := by simp [State.emit]
@[simp] theorem State.emit_hostQ (s : State) (bs : List Byte) (n : Nat) : (s.emit bs n).hostQ = s.hostQ := by simp [State.emit]
@[simp] theorem State.emit_hostData (s : State) (bs : List Byte) (n : Nat) : (s.emit bs n).hostData = s.hostData := by simp [State.emit]
@[simp] theorem State.emit_draws (s : State) (bs : List Byte) (n : Nat) : (s.emit bs n).draws = s.draws := by simp [State.emit]
@[simp] theorem State.emit_inSeed (s : State) (bs : List Byte) (n : Nat) : (s.emit bs n).inSeed = s.inSeed := by simp [State.emit]

/-! ### `State.discard` -/

@[simp] theorem State.discard_ft (s : State) : s.discard.ft = ftZero := by simp [State.discard]
@[simp] theorem State.discard_total (s : State) : s.discard.total = 0 := by simp [State.discard]
@[simp] theorem State.discard_node (s : State) : s.discard.node = [] := by simp [State.discard]
@[simp] theorem State.discard_ncount (s : State) : s.discard.ncount = Config.freeBits 10 .ncount s.draws := by simp [State.discard]
@[simp] theorem State.discard_root (s : State) : s.discard.root = Config.freeBits 9 .root s.draws := by simp [State.discard]
@[simp] theorem State.discard_treeValid (s : State) : s.discard.treeValid = false := by simp [State.discard]
@[simp] theorem State.discard_ct (s : State) : s.discard.ct = [] := by simp [State.discard]
@[simp] theorem State.discard_ctValid (s : State) : s.discard.ctValid = false := by simp [State.discard]
@[simp] theorem State.discard_origLen (s : State) : s.discard.origLen = s.origLen := by simp [State.discard]
@[simp] theorem State.discard_symCount (s : State) : s.discard.symCount = s.symCount := by simp [State.discard]
@[simp] theorem State.discard_trail (s : State) : s.discard.trail = s.trail := by simp [State.discard]
@[simp] theorem State.discard_inMem (s : State) : s.discard.inMem = s.inMem := by simp [State.discard]
@[simp] theorem State.discard_inLen (s : State) : s.discard.inLen = s.inLen := by simp [State.discard]
@[simp] theorem State.discard_outMem (s : State) : s.discard.outMem = s.outMem := by simp [State.discard]
@[simp] theorem State.discard_outLen (s : State) : s.discard.outLen = s.outLen := by simp [State.discard]
@[simp] theorem State.discard_outValid (s : State) : s.discard.outValid = s.outValid := by simp [State.discard]
@[simp] theorem State.discard_cmd (s : State) : s.discard.cmd = s.cmd := by simp [State.discard]
@[simp] theorem State.discard_busy (s : State) : s.discard.busy = s.busy := by simp [State.discard]
@[simp] theorem State.discard_done (s : State) : s.discard.done = s.done := by simp [State.discard]
@[simp] theorem State.discard_errKind (s : State) : s.discard.errKind = s.errKind := by simp [State.discard]
@[simp] theorem State.discard_errCause (s : State) : s.discard.errCause = s.errCause := by simp [State.discard]
@[simp] theorem State.discard_errInfo (s : State) : s.discard.errInfo = s.errInfo := by simp [State.discard]
@[simp] theorem State.discard_acc (s : State) : s.discard.acc = s.acc := by simp [State.discard]
@[simp] theorem State.discard_fill (s : State) : s.discard.fill = s.fill := by simp [State.discard]
@[simp] theorem State.discard_pay (s : State) : s.discard.pay = [] := by simp [State.discard]
@[simp] theorem State.discard_cur (s : State) : s.discard.cur = s.cur := by simp [State.discard]
@[simp] theorem State.discard_emitted (s : State) : s.discard.emitted = s.emitted := by simp [State.discard]
@[simp] theorem State.discard_bitpos (s : State) : s.discard.bitpos = s.bitpos := by simp [State.discard]
@[simp] theorem State.discard_q (s : State) : s.discard.q = s.q := by simp [State.discard]
@[simp] theorem State.discard_genStack (s : State) : s.discard.genStack = s.genStack := by simp [State.discard]
@[simp] theorem State.discard_phase (s : State) : s.discard.phase = s.phase := by simp [State.discard]
@[simp] theorem State.discard_inOff (s : State) : s.discard.inOff = s.inOff := by simp [State.discard]
@[simp] theorem State.discard_env (s : State) : s.discard.env = s.env := by simp [State.discard]
@[simp] theorem State.discard_hostQ (s : State) : s.discard.hostQ = s.hostQ := by simp [State.discard]
@[simp] theorem State.discard_hostData (s : State) : s.discard.hostData = s.hostData := by simp [State.discard]
@[simp] theorem State.discard_draws (s : State) : s.discard.draws = s.draws + 1 := by simp [State.discard]
@[simp] theorem State.discard_inSeed (s : State) : s.discard.inSeed = s.inSeed := by simp [State.discard]

/-! ### `State.closeEncode` -/

@[simp] theorem State.closeEncode_ft (s : State) : s.closeEncode.ft = ftZero := by simp [State.closeEncode]
@[simp] theorem State.closeEncode_total (s : State) : s.closeEncode.total = 0 := by simp [State.closeEncode]
@[simp] theorem State.closeEncode_node (s : State) : s.closeEncode.node = [] := by simp [State.closeEncode]
@[simp] theorem State.closeEncode_ncount (s : State) : s.closeEncode.ncount = Config.freeBits 10 .ncount s.draws := by simp [State.closeEncode]
@[simp] theorem State.closeEncode_root (s : State) : s.closeEncode.root = Config.freeBits 9 .root s.draws := by simp [State.closeEncode]
@[simp] theorem State.closeEncode_treeValid (s : State) : s.closeEncode.treeValid = false := by simp [State.closeEncode]
@[simp] theorem State.closeEncode_ct (s : State) : s.closeEncode.ct = [] := by simp [State.closeEncode]
@[simp] theorem State.closeEncode_ctValid (s : State) : s.closeEncode.ctValid = false := by simp [State.closeEncode]
@[simp] theorem State.closeEncode_origLen (s : State) : s.closeEncode.origLen = s.origLen := by simp [State.closeEncode]
@[simp] theorem State.closeEncode_symCount (s : State) : s.closeEncode.symCount = s.symCount := by simp [State.closeEncode]
@[simp] theorem State.closeEncode_trail (s : State) : s.closeEncode.trail = s.trail := by simp [State.closeEncode]
@[simp] theorem State.closeEncode_inMem (s : State) : s.closeEncode.inMem = s.inMem := by simp [State.closeEncode]
@[simp] theorem State.closeEncode_inLen (s : State) : s.closeEncode.inLen = s.inLen := by simp [State.closeEncode]
@[simp] theorem State.closeEncode_outMem (s : State) : s.closeEncode.outMem = s.outMem := by simp [State.closeEncode]
@[simp] theorem State.closeEncode_outLen (s : State) : s.closeEncode.outLen = s.outLen := by simp [State.closeEncode]
@[simp] theorem State.closeEncode_outValid (s : State) : s.closeEncode.outValid = s.outValid := by simp [State.closeEncode]
@[simp] theorem State.closeEncode_cmd (s : State) : s.closeEncode.cmd = s.cmd := by simp [State.closeEncode]
@[simp] theorem State.closeEncode_busy (s : State) : s.closeEncode.busy = s.busy := by simp [State.closeEncode]
@[simp] theorem State.closeEncode_done (s : State) : s.closeEncode.done = s.done := by simp [State.closeEncode]
@[simp] theorem State.closeEncode_errKind (s : State) : s.closeEncode.errKind = s.errKind := by simp [State.closeEncode]
@[simp] theorem State.closeEncode_errCause (s : State) : s.closeEncode.errCause = s.errCause := by simp [State.closeEncode]
@[simp] theorem State.closeEncode_errInfo (s : State) : s.closeEncode.errInfo = s.errInfo := by simp [State.closeEncode]
@[simp] theorem State.closeEncode_acc (s : State) : s.closeEncode.acc = Config.freeBits 8 .acc (s.draws + 1) := by simp [State.closeEncode]
@[simp] theorem State.closeEncode_fill (s : State) : s.closeEncode.fill = Config.freeBits 4 .fill (s.draws + 1) := by simp [State.closeEncode]
@[simp] theorem State.closeEncode_pay (s : State) : s.closeEncode.pay = [] := by simp [State.closeEncode]
@[simp] theorem State.closeEncode_cur (s : State) : s.closeEncode.cur = s.cur := by simp [State.closeEncode]
@[simp] theorem State.closeEncode_emitted (s : State) : s.closeEncode.emitted = s.emitted := by simp [State.closeEncode]
@[simp] theorem State.closeEncode_bitpos (s : State) : s.closeEncode.bitpos = s.bitpos := by simp [State.closeEncode]
@[simp] theorem State.closeEncode_q (s : State) : s.closeEncode.q = s.q := by simp [State.closeEncode]
@[simp] theorem State.closeEncode_genStack (s : State) : s.closeEncode.genStack = s.genStack := by simp [State.closeEncode]
@[simp] theorem State.closeEncode_phase (s : State) : s.closeEncode.phase = s.phase := by simp [State.closeEncode]
@[simp] theorem State.closeEncode_inOff (s : State) : s.closeEncode.inOff = Config.freeBits 64 .inOff (s.draws + 2) := by simp [State.closeEncode]
@[simp] theorem State.closeEncode_env (s : State) : s.closeEncode.env = s.env := by simp [State.closeEncode]
@[simp] theorem State.closeEncode_hostQ (s : State) : s.closeEncode.hostQ = s.hostQ := by simp [State.closeEncode]
@[simp] theorem State.closeEncode_hostData (s : State) : s.closeEncode.hostData = s.hostData := by simp [State.closeEncode]
@[simp] theorem State.closeEncode_draws (s : State) : s.closeEncode.draws = s.draws + 3 := by simp [State.closeEncode]
@[simp] theorem State.closeEncode_inSeed (s : State) : s.closeEncode.inSeed = s.inSeed := by simp [State.closeEncode]

/-! ### `State.closeDecode` -/

@[simp] theorem State.closeDecode_ft (s : State) : s.closeDecode.ft = ftZero := by simp [State.closeDecode]
@[simp] theorem State.closeDecode_total (s : State) : s.closeDecode.total = 0 := by simp [State.closeDecode]
@[simp] theorem State.closeDecode_node (s : State) : s.closeDecode.node = [] := by simp [State.closeDecode]
@[simp] theorem State.closeDecode_ncount (s : State) : s.closeDecode.ncount = Config.freeBits 10 .ncount s.draws := by simp [State.closeDecode]
@[simp] theorem State.closeDecode_root (s : State) : s.closeDecode.root = Config.freeBits 9 .root s.draws := by simp [State.closeDecode]
@[simp] theorem State.closeDecode_treeValid (s : State) : s.closeDecode.treeValid = false := by simp [State.closeDecode]
@[simp] theorem State.closeDecode_ct (s : State) : s.closeDecode.ct = [] := by simp [State.closeDecode]
@[simp] theorem State.closeDecode_ctValid (s : State) : s.closeDecode.ctValid = false := by simp [State.closeDecode]
@[simp] theorem State.closeDecode_origLen (s : State) : s.closeDecode.origLen = s.origLen := by simp [State.closeDecode]
@[simp] theorem State.closeDecode_symCount (s : State) : s.closeDecode.symCount = s.symCount := by simp [State.closeDecode]
@[simp] theorem State.closeDecode_trail (s : State) : s.closeDecode.trail = s.trail := by simp [State.closeDecode]
@[simp] theorem State.closeDecode_inMem (s : State) : s.closeDecode.inMem = s.inMem := by simp [State.closeDecode]
@[simp] theorem State.closeDecode_inLen (s : State) : s.closeDecode.inLen = s.inLen := by simp [State.closeDecode]
@[simp] theorem State.closeDecode_outMem (s : State) : s.closeDecode.outMem = s.outMem := by simp [State.closeDecode]
@[simp] theorem State.closeDecode_outLen (s : State) : s.closeDecode.outLen = s.outLen := by simp [State.closeDecode]
@[simp] theorem State.closeDecode_outValid (s : State) : s.closeDecode.outValid = s.outValid := by simp [State.closeDecode]
@[simp] theorem State.closeDecode_cmd (s : State) : s.closeDecode.cmd = s.cmd := by simp [State.closeDecode]
@[simp] theorem State.closeDecode_busy (s : State) : s.closeDecode.busy = s.busy := by simp [State.closeDecode]
@[simp] theorem State.closeDecode_done (s : State) : s.closeDecode.done = s.done := by simp [State.closeDecode]
@[simp] theorem State.closeDecode_errKind (s : State) : s.closeDecode.errKind = s.errKind := by simp [State.closeDecode]
@[simp] theorem State.closeDecode_errCause (s : State) : s.closeDecode.errCause = s.errCause := by simp [State.closeDecode]
@[simp] theorem State.closeDecode_errInfo (s : State) : s.closeDecode.errInfo = s.errInfo := by simp [State.closeDecode]
@[simp] theorem State.closeDecode_acc (s : State) : s.closeDecode.acc = s.acc := by simp [State.closeDecode]
@[simp] theorem State.closeDecode_fill (s : State) : s.closeDecode.fill = s.fill := by simp [State.closeDecode]
@[simp] theorem State.closeDecode_pay (s : State) : s.closeDecode.pay = [] := by simp [State.closeDecode]
@[simp] theorem State.closeDecode_cur (s : State) : s.closeDecode.cur = Config.freeBits 9 .cur (s.draws + 1) := by simp [State.closeDecode]
@[simp] theorem State.closeDecode_emitted (s : State) : s.closeDecode.emitted = Config.freeBits 64 .emitted (s.draws + 1) := by simp [State.closeDecode]
@[simp] theorem State.closeDecode_bitpos (s : State) : s.closeDecode.bitpos = Config.freeBits 67 .bitpos (s.draws + 1) := by simp [State.closeDecode]
@[simp] theorem State.closeDecode_q (s : State) : s.closeDecode.q = s.q := by simp [State.closeDecode]
@[simp] theorem State.closeDecode_genStack (s : State) : s.closeDecode.genStack = s.genStack := by simp [State.closeDecode]
@[simp] theorem State.closeDecode_phase (s : State) : s.closeDecode.phase = s.phase := by simp [State.closeDecode]
@[simp] theorem State.closeDecode_inOff (s : State) : s.closeDecode.inOff = Config.freeBits 64 .inOff (s.draws + 2) := by simp [State.closeDecode]
@[simp] theorem State.closeDecode_env (s : State) : s.closeDecode.env = s.env := by simp [State.closeDecode]
@[simp] theorem State.closeDecode_hostQ (s : State) : s.closeDecode.hostQ = s.hostQ := by simp [State.closeDecode]
@[simp] theorem State.closeDecode_hostData (s : State) : s.closeDecode.hostData = s.hostData := by simp [State.closeDecode]
@[simp] theorem State.closeDecode_draws (s : State) : s.closeDecode.draws = s.draws + 3 := by simp [State.closeDecode]
@[simp] theorem State.closeDecode_inSeed (s : State) : s.closeDecode.inSeed = s.inSeed := by simp [State.closeDecode]

/-! ### `State.openUnpack` -/

@[simp] theorem State.openUnpack_ft (s : State) : s.openUnpack.ft = s.ft := by simp [State.openUnpack]
@[simp] theorem State.openUnpack_total (s : State) : s.openUnpack.total = s.total := by simp [State.openUnpack]
@[simp] theorem State.openUnpack_node (s : State) : s.openUnpack.node = s.node := by simp [State.openUnpack]
@[simp] theorem State.openUnpack_ncount (s : State) : s.openUnpack.ncount = s.ncount := by simp [State.openUnpack]
@[simp] theorem State.openUnpack_root (s : State) : s.openUnpack.root = s.root := by simp [State.openUnpack]
@[simp] theorem State.openUnpack_treeValid (s : State) : s.openUnpack.treeValid = s.treeValid := by simp [State.openUnpack]
@[simp] theorem State.openUnpack_ct (s : State) : s.openUnpack.ct = s.ct := by simp [State.openUnpack]
@[simp] theorem State.openUnpack_ctValid (s : State) : s.openUnpack.ctValid = s.ctValid := by simp [State.openUnpack]
@[simp] theorem State.openUnpack_origLen (s : State) : s.openUnpack.origLen = s.origLen := by simp [State.openUnpack]
@[simp] theorem State.openUnpack_symCount (s : State) : s.openUnpack.symCount = s.symCount := by simp [State.openUnpack]
@[simp] theorem State.openUnpack_trail (s : State) : s.openUnpack.trail = s.trail := by simp [State.openUnpack]
@[simp] theorem State.openUnpack_inMem (s : State) : s.openUnpack.inMem = s.inMem := by simp [State.openUnpack]
@[simp] theorem State.openUnpack_inLen (s : State) : s.openUnpack.inLen = s.inLen := by simp [State.openUnpack]
@[simp] theorem State.openUnpack_outMem (s : State) : s.openUnpack.outMem = [] := by simp [State.openUnpack]
@[simp] theorem State.openUnpack_outLen (s : State) : s.openUnpack.outLen = 0 := by simp [State.openUnpack]
@[simp] theorem State.openUnpack_outValid (s : State) : s.openUnpack.outValid = false := by simp [State.openUnpack]
@[simp] theorem State.openUnpack_cmd (s : State) : s.openUnpack.cmd = s.cmd := by simp [State.openUnpack]
@[simp] theorem State.openUnpack_busy (s : State) : s.openUnpack.busy = true := by simp [State.openUnpack]
@[simp] theorem State.openUnpack_done (s : State) : s.openUnpack.done = false := by simp [State.openUnpack]
@[simp] theorem State.openUnpack_errKind (s : State) : s.openUnpack.errKind = s.errKind := by simp [State.openUnpack]
@[simp] theorem State.openUnpack_errCause (s : State) : s.openUnpack.errCause = s.errCause := by simp [State.openUnpack]
@[simp] theorem State.openUnpack_errInfo (s : State) : s.openUnpack.errInfo = s.errInfo := by simp [State.openUnpack]
@[simp] theorem State.openUnpack_acc (s : State) : s.openUnpack.acc = s.acc := by simp [State.openUnpack]
@[simp] theorem State.openUnpack_fill (s : State) : s.openUnpack.fill = s.fill := by simp [State.openUnpack]
@[simp] theorem State.openUnpack_pay (s : State) : s.openUnpack.pay = s.pay := by simp [State.openUnpack]
@[simp] theorem State.openUnpack_cur (s : State) : s.openUnpack.cur = s.cur := by simp [State.openUnpack]
@[simp] theorem State.openUnpack_emitted (s : State) : s.openUnpack.emitted = s.emitted := by simp [State.openUnpack]
@[simp] theorem State.openUnpack_bitpos (s : State) : s.openUnpack.bitpos = s.bitpos := by simp [State.openUnpack]
@[simp] theorem State.openUnpack_q (s : State) : s.openUnpack.q = s.q := by simp [State.openUnpack]
@[simp] theorem State.openUnpack_genStack (s : State) : s.openUnpack.genStack = s.genStack := by simp [State.openUnpack]
@[simp] theorem State.openUnpack_phase (s : State) : s.openUnpack.phase = .walk := by simp [State.openUnpack]
@[simp] theorem State.openUnpack_inOff (s : State) : s.openUnpack.inOff = 0 := by simp [State.openUnpack]
@[simp] theorem State.openUnpack_env (s : State) : s.openUnpack.env = s.env := by simp [State.openUnpack]
@[simp] theorem State.openUnpack_hostQ (s : State) : s.openUnpack.hostQ = s.hostQ := by simp [State.openUnpack]
@[simp] theorem State.openUnpack_hostData (s : State) : s.openUnpack.hostData = s.hostData := by simp [State.openUnpack]
@[simp] theorem State.openUnpack_draws (s : State) : s.openUnpack.draws = s.draws := by simp [State.openUnpack]
@[simp] theorem State.openUnpack_inSeed (s : State) : s.openUnpack.inSeed = s.inSeed := by simp [State.openUnpack]

/-! ### `State.openDecode` -/

@[simp] theorem State.openDecode_ft (s : State) : s.openDecode.ft = ftZero := by simp [State.openDecode]
@[simp] theorem State.openDecode_total (s : State) : s.openDecode.total = s.total := by simp [State.openDecode]
@[simp] theorem State.openDecode_node (s : State) : s.openDecode.node = [] := by simp [State.openDecode]
@[simp] theorem State.openDecode_ncount (s : State) : s.openDecode.ncount = Config.freeBits 10 .ncount s.draws := by simp [State.openDecode]
@[simp] theorem State.openDecode_root (s : State) : s.openDecode.root = Config.freeBits 9 .root s.draws := by simp [State.openDecode]
@[simp] theorem State.openDecode_treeValid (s : State) : s.openDecode.treeValid = false := by simp [State.openDecode]
@[simp] theorem State.openDecode_ct (s : State) : s.openDecode.ct = [] := by simp [State.openDecode]
@[simp] theorem State.openDecode_ctValid (s : State) : s.openDecode.ctValid = false := by simp [State.openDecode]
@[simp] theorem State.openDecode_origLen (s : State) : s.openDecode.origLen = 0 := by simp [State.openDecode]
@[simp] theorem State.openDecode_symCount (s : State) : s.openDecode.symCount = 0 := by simp [State.openDecode]
@[simp] theorem State.openDecode_trail (s : State) : s.openDecode.trail = 0 := by simp [State.openDecode]
@[simp] theorem State.openDecode_inMem (s : State) : s.openDecode.inMem = s.inMem := by simp [State.openDecode]
@[simp] theorem State.openDecode_inLen (s : State) : s.openDecode.inLen = s.inLen := by simp [State.openDecode]
@[simp] theorem State.openDecode_outMem (s : State) : s.openDecode.outMem = [] := by simp [State.openDecode]
@[simp] theorem State.openDecode_outLen (s : State) : s.openDecode.outLen = 0 := by simp [State.openDecode]
@[simp] theorem State.openDecode_outValid (s : State) : s.openDecode.outValid = false := by simp [State.openDecode]
@[simp] theorem State.openDecode_cmd (s : State) : s.openDecode.cmd = s.cmd := by simp [State.openDecode]
@[simp] theorem State.openDecode_busy (s : State) : s.openDecode.busy = true := by simp [State.openDecode]
@[simp] theorem State.openDecode_done (s : State) : s.openDecode.done = false := by simp [State.openDecode]
@[simp] theorem State.openDecode_errKind (s : State) : s.openDecode.errKind = s.errKind := by simp [State.openDecode]
@[simp] theorem State.openDecode_errCause (s : State) : s.openDecode.errCause = s.errCause := by simp [State.openDecode]
@[simp] theorem State.openDecode_errInfo (s : State) : s.openDecode.errInfo = s.errInfo := by simp [State.openDecode]
@[simp] theorem State.openDecode_acc (s : State) : s.openDecode.acc = s.acc := by simp [State.openDecode]
@[simp] theorem State.openDecode_fill (s : State) : s.openDecode.fill = s.fill := by simp [State.openDecode]
@[simp] theorem State.openDecode_pay (s : State) : s.openDecode.pay = s.pay := by simp [State.openDecode]
@[simp] theorem State.openDecode_cur (s : State) : s.openDecode.cur = s.cur := by simp [State.openDecode]
@[simp] theorem State.openDecode_emitted (s : State) : s.openDecode.emitted = s.emitted := by simp [State.openDecode]
@[simp] theorem State.openDecode_bitpos (s : State) : s.openDecode.bitpos = s.bitpos := by simp [State.openDecode]
@[simp] theorem State.openDecode_q (s : State) : s.openDecode.q = s.q := by simp [State.openDecode]
@[simp] theorem State.openDecode_genStack (s : State) : s.openDecode.genStack = s.genStack := by simp [State.openDecode]
@[simp] theorem State.openDecode_phase (s : State) : s.openDecode.phase = .hdrR := by simp [State.openDecode]
@[simp] theorem State.openDecode_inOff (s : State) : s.openDecode.inOff = 0 := by simp [State.openDecode]
@[simp] theorem State.openDecode_env (s : State) : s.openDecode.env = s.env := by simp [State.openDecode]
@[simp] theorem State.openDecode_hostQ (s : State) : s.openDecode.hostQ = s.hostQ := by simp [State.openDecode]
@[simp] theorem State.openDecode_hostData (s : State) : s.openDecode.hostData = s.hostData := by simp [State.openDecode]
@[simp] theorem State.openDecode_draws (s : State) : s.openDecode.draws = s.draws + 1 := by simp [State.openDecode]
@[simp] theorem State.openDecode_inSeed (s : State) : s.openDecode.inSeed = s.inSeed := by simp [State.openDecode]

/-! ### `State.clearAll` -/

@[simp] theorem State.clearAll_ft (s : State) : s.clearAll.ft = ftZero := by simp [State.clearAll]
@[simp] theorem State.clearAll_total (s : State) : s.clearAll.total = 0 := by simp [State.clearAll]
@[simp] theorem State.clearAll_node (s : State) : s.clearAll.node = [] := by simp [State.clearAll]
@[simp] theorem State.clearAll_ncount (s : State) : s.clearAll.ncount = Config.freeBits 10 .ncount s.draws := by simp [State.clearAll]
@[simp] theorem State.clearAll_root (s : State) : s.clearAll.root = Config.freeBits 9 .root s.draws := by simp [State.clearAll]
@[simp] theorem State.clearAll_treeValid (s : State) : s.clearAll.treeValid = false := by simp [State.clearAll]
@[simp] theorem State.clearAll_ct (s : State) : s.clearAll.ct = [] := by simp [State.clearAll]
@[simp] theorem State.clearAll_ctValid (s : State) : s.clearAll.ctValid = false := by simp [State.clearAll]
@[simp] theorem State.clearAll_origLen (s : State) : s.clearAll.origLen = 0 := by simp [State.clearAll]
@[simp] theorem State.clearAll_symCount (s : State) : s.clearAll.symCount = 0 := by simp [State.clearAll]
@[simp] theorem State.clearAll_trail (s : State) : s.clearAll.trail = 0 := by simp [State.clearAll]
@[simp] theorem State.clearAll_inMem (s : State) : s.clearAll.inMem = s.inMem := by simp [State.clearAll]
@[simp] theorem State.clearAll_inLen (s : State) : s.clearAll.inLen = s.inLen := by simp [State.clearAll]
@[simp] theorem State.clearAll_outMem (s : State) : s.clearAll.outMem = [] := by simp [State.clearAll]
@[simp] theorem State.clearAll_outLen (s : State) : s.clearAll.outLen = 0 := by simp [State.clearAll]
@[simp] theorem State.clearAll_outValid (s : State) : s.clearAll.outValid = false := by simp [State.clearAll]
@[simp] theorem State.clearAll_cmd (s : State) : s.clearAll.cmd = s.cmd := by simp [State.clearAll]
@[simp] theorem State.clearAll_busy (s : State) : s.clearAll.busy = s.busy := by simp [State.clearAll]
@[simp] theorem State.clearAll_done (s : State) : s.clearAll.done = s.done := by simp [State.clearAll]
@[simp] theorem State.clearAll_errKind (s : State) : s.clearAll.errKind = s.errKind := by simp [State.clearAll]
@[simp] theorem State.clearAll_errCause (s : State) : s.clearAll.errCause = s.errCause := by simp [State.clearAll]
@[simp] theorem State.clearAll_errInfo (s : State) : s.clearAll.errInfo = s.errInfo := by simp [State.clearAll]
@[simp] theorem State.clearAll_acc (s : State) : s.clearAll.acc = Config.freeBits 8 .acc (s.draws + 1) := by simp [State.clearAll]
@[simp] theorem State.clearAll_fill (s : State) : s.clearAll.fill = Config.freeBits 4 .fill (s.draws + 1) := by simp [State.clearAll]
@[simp] theorem State.clearAll_pay (s : State) : s.clearAll.pay = [] := by simp [State.clearAll]
@[simp] theorem State.clearAll_cur (s : State) : s.clearAll.cur = Config.freeBits 9 .cur (s.draws + 2) := by simp [State.clearAll]
@[simp] theorem State.clearAll_emitted (s : State) : s.clearAll.emitted = Config.freeBits 64 .emitted (s.draws + 2) := by simp [State.clearAll]
@[simp] theorem State.clearAll_bitpos (s : State) : s.clearAll.bitpos = Config.freeBits 67 .bitpos (s.draws + 2) := by simp [State.clearAll]
@[simp] theorem State.clearAll_q (s : State) : s.clearAll.q = [] := by simp [State.clearAll]
@[simp] theorem State.clearAll_genStack (s : State) : s.clearAll.genStack = [] := by simp [State.clearAll]
@[simp] theorem State.clearAll_phase (s : State) : s.clearAll.phase = s.phase := by simp [State.clearAll]
@[simp] theorem State.clearAll_inOff (s : State) : s.clearAll.inOff = Config.freeBits 64 .inOff (s.draws + 3) := by simp [State.clearAll]
@[simp] theorem State.clearAll_env (s : State) : s.clearAll.env = s.env := by simp [State.clearAll]
@[simp] theorem State.clearAll_hostQ (s : State) : s.clearAll.hostQ = s.hostQ := by simp [State.clearAll]
@[simp] theorem State.clearAll_hostData (s : State) : s.clearAll.hostData = s.hostData := by simp [State.clearAll]
@[simp] theorem State.clearAll_draws (s : State) : s.clearAll.draws = s.draws + 4 := by simp [State.clearAll]
@[simp] theorem State.clearAll_inSeed (s : State) : s.clearAll.inSeed = s.inSeed := by simp [State.clearAll]

/-! ### `State.deliver` -/

@[simp] theorem State.deliver_ft (s : State) (v : HostValue) : (s.deliver v).ft = s.ft := rfl
@[simp] theorem State.deliver_total (s : State) (v : HostValue) : (s.deliver v).total = s.total := rfl
@[simp] theorem State.deliver_node (s : State) (v : HostValue) : (s.deliver v).node = s.node := rfl
@[simp] theorem State.deliver_ncount (s : State) (v : HostValue) : (s.deliver v).ncount = s.ncount := rfl
@[simp] theorem State.deliver_root (s : State) (v : HostValue) : (s.deliver v).root = s.root := rfl
@[simp] theorem State.deliver_treeValid (s : State) (v : HostValue) : (s.deliver v).treeValid = s.treeValid := rfl
@[simp] theorem State.deliver_ct (s : State) (v : HostValue) : (s.deliver v).ct = s.ct := rfl
@[simp] theorem State.deliver_ctValid (s : State) (v : HostValue) : (s.deliver v).ctValid = s.ctValid := rfl
@[simp] theorem State.deliver_origLen (s : State) (v : HostValue) : (s.deliver v).origLen = s.origLen := rfl
@[simp] theorem State.deliver_symCount (s : State) (v : HostValue) : (s.deliver v).symCount = s.symCount := rfl
@[simp] theorem State.deliver_trail (s : State) (v : HostValue) : (s.deliver v).trail = s.trail := rfl
@[simp] theorem State.deliver_inMem (s : State) (v : HostValue) : (s.deliver v).inMem = s.inMem := rfl
@[simp] theorem State.deliver_inLen (s : State) (v : HostValue) : (s.deliver v).inLen = s.inLen := rfl
@[simp] theorem State.deliver_outMem (s : State) (v : HostValue) : (s.deliver v).outMem = s.outMem := rfl
@[simp] theorem State.deliver_outLen (s : State) (v : HostValue) : (s.deliver v).outLen = s.outLen := rfl
@[simp] theorem State.deliver_outValid (s : State) (v : HostValue) : (s.deliver v).outValid = s.outValid := rfl
@[simp] theorem State.deliver_cmd (s : State) (v : HostValue) : (s.deliver v).cmd = s.cmd := rfl
@[simp] theorem State.deliver_busy (s : State) (v : HostValue) : (s.deliver v).busy = s.busy := rfl
@[simp] theorem State.deliver_done (s : State) (v : HostValue) : (s.deliver v).done = s.done := rfl
@[simp] theorem State.deliver_errKind (s : State) (v : HostValue) : (s.deliver v).errKind = s.errKind := rfl
@[simp] theorem State.deliver_errCause (s : State) (v : HostValue) : (s.deliver v).errCause = s.errCause := rfl
@[simp] theorem State.deliver_errInfo (s : State) (v : HostValue) : (s.deliver v).errInfo = s.errInfo := rfl
@[simp] theorem State.deliver_acc (s : State) (v : HostValue) : (s.deliver v).acc = s.acc := rfl
@[simp] theorem State.deliver_fill (s : State) (v : HostValue) : (s.deliver v).fill = s.fill := rfl
@[simp] theorem State.deliver_pay (s : State) (v : HostValue) : (s.deliver v).pay = s.pay := rfl
@[simp] theorem State.deliver_cur (s : State) (v : HostValue) : (s.deliver v).cur = s.cur := rfl
@[simp] theorem State.deliver_emitted (s : State) (v : HostValue) : (s.deliver v).emitted = s.emitted := rfl
@[simp] theorem State.deliver_bitpos (s : State) (v : HostValue) : (s.deliver v).bitpos = s.bitpos := rfl
@[simp] theorem State.deliver_q (s : State) (v : HostValue) : (s.deliver v).q = s.q := rfl
@[simp] theorem State.deliver_genStack (s : State) (v : HostValue) : (s.deliver v).genStack = s.genStack := rfl
@[simp] theorem State.deliver_phase (s : State) (v : HostValue) : (s.deliver v).phase = s.phase := rfl
@[simp] theorem State.deliver_inOff (s : State) (v : HostValue) : (s.deliver v).inOff = s.inOff := rfl
@[simp] theorem State.deliver_env (s : State) (v : HostValue) : (s.deliver v).env = s.env := rfl
@[simp] theorem State.deliver_hostQ (s : State) (v : HostValue) : (s.deliver v).hostQ = s.hostQ := rfl
@[simp] theorem State.deliver_hostData (s : State) (v : HostValue) : (s.deliver v).hostData = some v := rfl
@[simp] theorem State.deliver_draws (s : State) (v : HostValue) : (s.deliver v).draws = s.draws + 1 := rfl
@[simp] theorem State.deliver_inSeed (s : State) (v : HostValue) : (s.deliver v).inSeed = s.inSeed := rfl

/-! ### `State.loadBytes` -/

@[simp] theorem State.loadBytes_ft (s : State) (bytes : List Byte) : (s.loadBytes bytes).ft = s.ft := by simp [State.loadBytes]
@[simp] theorem State.loadBytes_total (s : State) (bytes : List Byte) : (s.loadBytes bytes).total = s.total := by simp [State.loadBytes]
@[simp] theorem State.loadBytes_node (s : State) (bytes : List Byte) : (s.loadBytes bytes).node = s.node := by simp [State.loadBytes]
@[simp] theorem State.loadBytes_ncount (s : State) (bytes : List Byte) : (s.loadBytes bytes).ncount = s.ncount := by simp [State.loadBytes]
@[simp] theorem State.loadBytes_root (s : State) (bytes : List Byte) : (s.loadBytes bytes).root = s.root := by simp [State.loadBytes]
@[simp] theorem State.loadBytes_treeValid (s : State) (bytes : List Byte) : (s.loadBytes bytes).treeValid = s.treeValid := by simp [State.loadBytes]
@[simp] theorem State.loadBytes_ct (s : State) (bytes : List Byte) : (s.loadBytes bytes).ct = s.ct := by simp [State.loadBytes]
@[simp] theorem State.loadBytes_ctValid (s : State) (bytes : List Byte) : (s.loadBytes bytes).ctValid = s.ctValid := by simp [State.loadBytes]
@[simp] theorem State.loadBytes_origLen (s : State) (bytes : List Byte) : (s.loadBytes bytes).origLen = s.origLen := by simp [State.loadBytes]
@[simp] theorem State.loadBytes_symCount (s : State) (bytes : List Byte) : (s.loadBytes bytes).symCount = s.symCount := by simp [State.loadBytes]
@[simp] theorem State.loadBytes_trail (s : State) (bytes : List Byte) : (s.loadBytes bytes).trail = s.trail := by simp [State.loadBytes]
@[simp] theorem State.loadBytes_inMem (s : State) (bytes : List Byte) : (s.loadBytes bytes).inMem = Memory.setAll s.inMem 0 bytes := by simp [State.loadBytes]
@[simp] theorem State.loadBytes_inLen (s : State) (bytes : List Byte) : (s.loadBytes bytes).inLen = BitVec.ofNat 64 bytes.length := by simp [State.loadBytes]
@[simp] theorem State.loadBytes_outMem (s : State) (bytes : List Byte) : (s.loadBytes bytes).outMem = s.outMem := by simp [State.loadBytes]
@[simp] theorem State.loadBytes_outLen (s : State) (bytes : List Byte) : (s.loadBytes bytes).outLen = s.outLen := by simp [State.loadBytes]
@[simp] theorem State.loadBytes_outValid (s : State) (bytes : List Byte) : (s.loadBytes bytes).outValid = s.outValid := by simp [State.loadBytes]
@[simp] theorem State.loadBytes_cmd (s : State) (bytes : List Byte) : (s.loadBytes bytes).cmd = s.cmd := by simp [State.loadBytes]
@[simp] theorem State.loadBytes_busy (s : State) (bytes : List Byte) : (s.loadBytes bytes).busy = s.busy := by simp [State.loadBytes]
@[simp] theorem State.loadBytes_done (s : State) (bytes : List Byte) : (s.loadBytes bytes).done = s.done := by simp [State.loadBytes]
@[simp] theorem State.loadBytes_errKind (s : State) (bytes : List Byte) : (s.loadBytes bytes).errKind = s.errKind := by simp [State.loadBytes]
@[simp] theorem State.loadBytes_errCause (s : State) (bytes : List Byte) : (s.loadBytes bytes).errCause = s.errCause := by simp [State.loadBytes]
@[simp] theorem State.loadBytes_errInfo (s : State) (bytes : List Byte) : (s.loadBytes bytes).errInfo = s.errInfo := by simp [State.loadBytes]
@[simp] theorem State.loadBytes_acc (s : State) (bytes : List Byte) : (s.loadBytes bytes).acc = s.acc := by simp [State.loadBytes]
@[simp] theorem State.loadBytes_fill (s : State) (bytes : List Byte) : (s.loadBytes bytes).fill = s.fill := by simp [State.loadBytes]
@[simp] theorem State.loadBytes_pay (s : State) (bytes : List Byte) : (s.loadBytes bytes).pay = s.pay := by simp [State.loadBytes]
@[simp] theorem State.loadBytes_cur (s : State) (bytes : List Byte) : (s.loadBytes bytes).cur = s.cur := by simp [State.loadBytes]
@[simp] theorem State.loadBytes_emitted (s : State) (bytes : List Byte) : (s.loadBytes bytes).emitted = s.emitted := by simp [State.loadBytes]
@[simp] theorem State.loadBytes_bitpos (s : State) (bytes : List Byte) : (s.loadBytes bytes).bitpos = s.bitpos := by simp [State.loadBytes]
@[simp] theorem State.loadBytes_q (s : State) (bytes : List Byte) : (s.loadBytes bytes).q = s.q := by simp [State.loadBytes]
@[simp] theorem State.loadBytes_genStack (s : State) (bytes : List Byte) : (s.loadBytes bytes).genStack = s.genStack := by simp [State.loadBytes]
@[simp] theorem State.loadBytes_phase (s : State) (bytes : List Byte) : (s.loadBytes bytes).phase = s.phase := by simp [State.loadBytes]
@[simp] theorem State.loadBytes_inOff (s : State) (bytes : List Byte) : (s.loadBytes bytes).inOff = s.inOff := by simp [State.loadBytes]
@[simp] theorem State.loadBytes_env (s : State) (bytes : List Byte) : (s.loadBytes bytes).env = s.env := by simp [State.loadBytes]
@[simp] theorem State.loadBytes_hostQ (s : State) (bytes : List Byte) : (s.loadBytes bytes).hostQ = s.hostQ := by simp [State.loadBytes]
@[simp] theorem State.loadBytes_hostData (s : State) (bytes : List Byte) : (s.loadBytes bytes).hostData = s.hostData := by simp [State.loadBytes]
@[simp] theorem State.loadBytes_draws (s : State) (bytes : List Byte) : (s.loadBytes bytes).draws = s.draws := by simp [State.loadBytes]
@[simp] theorem State.loadBytes_inSeed (s : State) (bytes : List Byte) : (s.loadBytes bytes).inSeed = s.inSeed := by simp [State.loadBytes]

/-! ### `State.moveOut` -/

@[simp] theorem State.moveOut_ft (s : State) : s.moveOut.ft = s.ft := by simp [State.moveOut]
@[simp] theorem State.moveOut_total (s : State) : s.moveOut.total = s.total := by simp [State.moveOut]
@[simp] theorem State.moveOut_node (s : State) : s.moveOut.node = s.node := by simp [State.moveOut]
@[simp] theorem State.moveOut_ncount (s : State) : s.moveOut.ncount = s.ncount := by simp [State.moveOut]
@[simp] theorem State.moveOut_root (s : State) : s.moveOut.root = s.root := by simp [State.moveOut]
@[simp] theorem State.moveOut_treeValid (s : State) : s.moveOut.treeValid = s.treeValid := by simp [State.moveOut]
@[simp] theorem State.moveOut_ct (s : State) : s.moveOut.ct = s.ct := by simp [State.moveOut]
@[simp] theorem State.moveOut_ctValid (s : State) : s.moveOut.ctValid = s.ctValid := by simp [State.moveOut]
@[simp] theorem State.moveOut_origLen (s : State) : s.moveOut.origLen = s.origLen := by simp [State.moveOut]
@[simp] theorem State.moveOut_symCount (s : State) : s.moveOut.symCount = s.symCount := by simp [State.moveOut]
@[simp] theorem State.moveOut_trail (s : State) : s.moveOut.trail = s.trail := by simp [State.moveOut]
@[simp] theorem State.moveOut_inMem (s : State) : s.moveOut.inMem = Memory.setAll s.inMem 0 (s.outSlice 0 s.outLen.toNat) := by simp [State.moveOut]
@[simp] theorem State.moveOut_inLen (s : State) : s.moveOut.inLen = s.outLen := by simp [State.moveOut]
@[simp] theorem State.moveOut_outMem (s : State) : s.moveOut.outMem = s.outMem := by simp [State.moveOut]
@[simp] theorem State.moveOut_outLen (s : State) : s.moveOut.outLen = s.outLen := by simp [State.moveOut]
@[simp] theorem State.moveOut_outValid (s : State) : s.moveOut.outValid = s.outValid := by simp [State.moveOut]
@[simp] theorem State.moveOut_cmd (s : State) : s.moveOut.cmd = s.cmd := by simp [State.moveOut]
@[simp] theorem State.moveOut_busy (s : State) : s.moveOut.busy = s.busy := by simp [State.moveOut]
@[simp] theorem State.moveOut_done (s : State) : s.moveOut.done = s.done := by simp [State.moveOut]
@[simp] theorem State.moveOut_errKind (s : State) : s.moveOut.errKind = s.errKind := by simp [State.moveOut]
@[simp] theorem State.moveOut_errCause (s : State) : s.moveOut.errCause = s.errCause := by simp [State.moveOut]
@[simp] theorem State.moveOut_errInfo (s : State) : s.moveOut.errInfo = s.errInfo := by simp [State.moveOut]
@[simp] theorem State.moveOut_acc (s : State) : s.moveOut.acc = s.acc := by simp [State.moveOut]
@[simp] theorem State.moveOut_fill (s : State) : s.moveOut.fill = s.fill := by simp [State.moveOut]
@[simp] theorem State.moveOut_pay (s : State) : s.moveOut.pay = s.pay := by simp [State.moveOut]
@[simp] theorem State.moveOut_cur (s : State) : s.moveOut.cur = s.cur := by simp [State.moveOut]
@[simp] theorem State.moveOut_emitted (s : State) : s.moveOut.emitted = s.emitted := by simp [State.moveOut]
@[simp] theorem State.moveOut_bitpos (s : State) : s.moveOut.bitpos = s.bitpos := by simp [State.moveOut]
@[simp] theorem State.moveOut_q (s : State) : s.moveOut.q = s.q := by simp [State.moveOut]
@[simp] theorem State.moveOut_genStack (s : State) : s.moveOut.genStack = s.genStack := by simp [State.moveOut]
@[simp] theorem State.moveOut_phase (s : State) : s.moveOut.phase = s.phase := by simp [State.moveOut]
@[simp] theorem State.moveOut_inOff (s : State) : s.moveOut.inOff = s.inOff := by simp [State.moveOut]
@[simp] theorem State.moveOut_env (s : State) : s.moveOut.env = s.env := by simp [State.moveOut]
@[simp] theorem State.moveOut_hostQ (s : State) : s.moveOut.hostQ = s.hostQ := by simp [State.moveOut]
@[simp] theorem State.moveOut_hostData (s : State) : s.moveOut.hostData = s.hostData := by simp [State.moveOut]
@[simp] theorem State.moveOut_draws (s : State) : s.moveOut.draws = s.draws := by simp [State.moveOut]
@[simp] theorem State.moveOut_inSeed (s : State) : s.moveOut.inSeed = s.inSeed := by simp [State.moveOut]

end Sys2Proof.Machine
end

