-- ==== Sys2Proof/Laws/Views.lean ====
section
/-! SUPPORT. The bytes of IN, the unreadable offsets and OUT's room under the named updates of State. -/

namespace Sys2Proof.Machine

/-- OUT has room for `n` more bytes (R64). -/
def State.Fits (s : State) (n : Nat) : Prop := s.outLen.toNat + n ≤ outLimit s.env

/-- A byte of IN depends on the IN buffer and its power-on contents alone. -/
theorem State.inByte_congr {s t : State} (hm : t.inMem = s.inMem) (hs : t.inSeed = s.inSeed) (o : Nat) :
    t.inByte o = s.inByte o := by
  simp only [State.inByte, hm, hs]

theorem State.inSlice_congr {s t : State} (hm : t.inMem = s.inMem) (hs : t.inSeed = s.inSeed) (o n : Nat) :
    t.inSlice o n = s.inSlice o n := by
  induction n generalizing o with
  | zero => rfl
  | succ n ih => simp only [State.inSlice, ih, State.inByte_congr hm hs]

theorem State.inBytes_congr {s t : State} (hm : t.inMem = s.inMem) (hs : t.inSeed = s.inSeed)
    (hl : t.inLen = s.inLen) : t.inBytes = s.inBytes := by
  simp only [State.inBytes, State.inSlice_congr hm hs, hl]

/-- The payload of a walk that starts at `base` (R172). -/
def State.payload (s : State) (base : Nat) : List Byte := s.inSlice base (s.inLen.toNat - base)

theorem State.payload_congr {s t : State} (hm : t.inMem = s.inMem) (hs : t.inSeed = s.inSeed)
    (hl : t.inLen = s.inLen) (base : Nat) : t.payload base = s.payload base := by
  simp only [State.payload, State.inSlice_congr hm hs, hl]

theorem State.inBadAt_congr {s t : State} (he : t.env = s.env) (o : Nat) : t.inBadAt o = s.inBadAt o := by
  simp only [State.inBadAt, he]

@[simp] theorem State.setCounts_inByte (s : State) (v : Vector Count 256) (t : Count) (o : Nat) : (s.setCounts v t).inByte o = s.inByte o :=
  State.inByte_congr (by simp) (by simp) o
@[simp] theorem State.setCounts_inSlice (s : State) (v : Vector Count 256) (t : Count) (o n : Nat) : (s.setCounts v t).inSlice o n = s.inSlice o n :=
  State.inSlice_congr (by simp) (by simp) o n
@[simp] theorem State.setCounts_inBytes (s : State) (v : Vector Count 256) (t : Count) : (s.setCounts v t).inBytes = s.inBytes :=
  State.inBytes_congr (by simp) (by simp) (by simp)
@[simp] theorem State.setCounts_payload (s : State) (v : Vector Count 256) (t : Count) (o : Nat) : (s.setCounts v t).payload o = s.payload o :=
  State.payload_congr (by simp) (by simp) (by simp) o
@[simp] theorem State.setCounts_inBadAt (s : State) (v : Vector Count 256) (t : Count) (o : Nat) : (s.setCounts v t).inBadAt o = s.inBadAt o :=
  State.inBadAt_congr (by simp) o
@[simp] theorem State.setCounts_readable (s : State) (v : Vector Count 256) (t : Count) : (s.setCounts v t).Readable = s.Readable := by
  simp [State.Readable]
@[simp] theorem State.setCounts_fits (s : State) (v : Vector Count 256) (t : Count) (k : Nat) : (s.setCounts v t).Fits k = s.Fits k := by
  simp [State.Fits]
@[simp] theorem State.setFt_inByte (s : State) (v : Vector Count 256) (o : Nat) : (s.setFt v).inByte o = s.inByte o :=
  State.inByte_congr (by simp) (by simp) o
@[simp] theorem State.setFt_inSlice (s : State) (v : Vector Count 256) (o n : Nat) : (s.setFt v).inSlice o n = s.inSlice o n :=
  State.inSlice_congr (by simp) (by simp) o n
@[simp] theorem State.setFt_inBytes (s : State) (v : Vector Count 256) : (s.setFt v).inBytes = s.inBytes :=
  State.inBytes_congr (by simp) (by simp) (by simp)
@[simp] theorem State.setFt_payload (s : State) (v : Vector Count 256) (o : Nat) : (s.setFt v).payload o = s.payload o :=
  State.payload_congr (by simp) (by simp) (by simp) o
@[simp] theorem State.setFt_inBadAt (s : State) (v : Vector Count 256) (o : Nat) : (s.setFt v).inBadAt o = s.inBadAt o :=
  State.inBadAt_congr (by simp) o
@[simp] theorem State.setFt_readable (s : State) (v : Vector Count 256) : (s.setFt v).Readable = s.Readable := by
  simp [State.Readable]
@[simp] theorem State.setFt_fits (s : State) (v : Vector Count 256) (k : Nat) : (s.setFt v).Fits k = s.Fits k := by
  simp [State.Fits]
@[simp] theorem State.setNodes_inByte (s : State) (nd : List Node) (ql : List NodeIdx) (n : BitVec 10) (o : Nat) : (s.setNodes nd ql n).inByte o = s.inByte o :=
  State.inByte_congr (by simp) (by simp) o
@[simp] theorem State.setNodes_inSlice (s : State) (nd : List Node) (ql : List NodeIdx) (n : BitVec 10) (o n : Nat) : (s.setNodes nd ql n).inSlice o n = s.inSlice o n :=
  State.inSlice_congr (by simp) (by simp) o n
@[simp] theorem State.setNodes_inBytes (s : State) (nd : List Node) (ql : List NodeIdx) (n : BitVec 10) : (s.setNodes nd ql n).inBytes = s.inBytes :=
  State.inBytes_congr (by simp) (by simp) (by simp)
@[simp] theorem State.setNodes_payload (s : State) (nd : List Node) (ql : List NodeIdx) (n : BitVec 10) (o : Nat) : (s.setNodes nd ql n).payload o = s.payload o :=
  State.payload_congr (by simp) (by simp) (by simp) o
@[simp] theorem State.setNodes_inBadAt (s : State) (nd : List Node) (ql : List NodeIdx) (n : BitVec 10) (o : Nat) : (s.setNodes nd ql n).inBadAt o = s.inBadAt o :=
  State.inBadAt_congr (by simp) o
@[simp] theorem State.setNodes_readable (s : State) (nd : List Node) (ql : List NodeIdx) (n : BitVec 10) : (s.setNodes nd ql n).Readable = s.Readable := by
  simp [State.Readable]
@[simp] theorem State.setNodes_fits (s : State) (nd : List Node) (ql : List NodeIdx) (n : BitVec 10) (k : Nat) : (s.setNodes nd ql n).Fits k = s.Fits k := by
  simp [State.Fits]
@[simp] theorem State.setRoot_inByte (s : State) (r : NodeIdx) (ql : List NodeIdx) (o : Nat) : (s.setRoot r ql).inByte o = s.inByte o :=
  State.inByte_congr (by simp) (by simp) o
@[simp] theorem State.setRoot_inSlice (s : State) (r : NodeIdx) (ql : List NodeIdx) (o n : Nat) : (s.setRoot r ql).inSlice o n = s.inSlice o n :=
  State.inSlice_congr (by simp) (by simp) o n
@[simp] theorem State.setRoot_inBytes (s : State) (r : NodeIdx) (ql : List NodeIdx) : (s.setRoot r ql).inBytes = s.inBytes :=
  State.inBytes_congr (by simp) (by simp) (by simp)
@[simp] theorem State.setRoot_payload (s : State) (r : NodeIdx) (ql : List NodeIdx) (o : Nat) : (s.setRoot r ql).payload o = s.payload o :=
  State.payload_congr (by simp) (by simp) (by simp) o
@[simp] theorem State.setRoot_inBadAt (s : State) (r : NodeIdx) (ql : List NodeIdx) (o : Nat) : (s.setRoot r ql).inBadAt o = s.inBadAt o :=
  State.inBadAt_congr (by simp) o
@[simp] theorem State.setRoot_readable (s : State) (r : NodeIdx) (ql : List NodeIdx) : (s.setRoot r ql).Readable = s.Readable := by
  simp [State.Readable]
@[simp] theorem State.setRoot_fits (s : State) (r : NodeIdx) (ql : List NodeIdx) (k : Nat) : (s.setRoot r ql).Fits k = s.Fits k := by
  simp [State.Fits]
@[simp] theorem State.setTreeValid_inByte (s : State) (v : Bool) (o : Nat) : (s.setTreeValid v).inByte o = s.inByte o :=
  State.inByte_congr (by simp) (by simp) o
@[simp] theorem State.setTreeValid_inSlice (s : State) (v : Bool) (o n : Nat) : (s.setTreeValid v).inSlice o n = s.inSlice o n :=
  State.inSlice_congr (by simp) (by simp) o n
@[simp] theorem State.setTreeValid_inBytes (s : State) (v : Bool) : (s.setTreeValid v).inBytes = s.inBytes :=
  State.inBytes_congr (by simp) (by simp) (by simp)
@[simp] theorem State.setTreeValid_payload (s : State) (v : Bool) (o : Nat) : (s.setTreeValid v).payload o = s.payload o :=
  State.payload_congr (by simp) (by simp) (by simp) o
@[simp] theorem State.setTreeValid_inBadAt (s : State) (v : Bool) (o : Nat) : (s.setTreeValid v).inBadAt o = s.inBadAt o :=
  State.inBadAt_congr (by simp) o
@[simp] theorem State.setTreeValid_readable (s : State) (v : Bool) : (s.setTreeValid v).Readable = s.Readable := by
  simp [State.Readable]
@[simp] theorem State.setTreeValid_fits (s : State) (v : Bool) (k : Nat) : (s.setTreeValid v).Fits k = s.Fits k := by
  simp [State.Fits]
@[simp] theorem State.setGen_inByte (s : State) (c : List Code) (st : List (NodeIdx × Code)) (o : Nat) : (s.setGen c st).inByte o = s.inByte o :=
  State.inByte_congr (by simp) (by simp) o
@[simp] theorem State.setGen_inSlice (s : State) (c : List Code) (st : List (NodeIdx × Code)) (o n : Nat) : (s.setGen c st).inSlice o n = s.inSlice o n :=
  State.inSlice_congr (by simp) (by simp) o n
@[simp] theorem State.setGen_inBytes (s : State) (c : List Code) (st : List (NodeIdx × Code)) : (s.setGen c st).inBytes = s.inBytes :=
  State.inBytes_congr (by simp) (by simp) (by simp)
@[simp] theorem State.setGen_payload (s : State) (c : List Code) (st : List (NodeIdx × Code)) (o : Nat) : (s.setGen c st).payload o = s.payload o :=
  State.payload_congr (by simp) (by simp) (by simp) o
@[simp] theorem State.setGen_inBadAt (s : State) (c : List Code) (st : List (NodeIdx × Code)) (o : Nat) : (s.setGen c st).inBadAt o = s.inBadAt o :=
  State.inBadAt_congr (by simp) o
@[simp] theorem State.setGen_readable (s : State) (c : List Code) (st : List (NodeIdx × Code)) : (s.setGen c st).Readable = s.Readable := by
  simp [State.Readable]
@[simp] theorem State.setGen_fits (s : State) (c : List Code) (st : List (NodeIdx × Code)) (k : Nat) : (s.setGen c st).Fits k = s.Fits k := by
  simp [State.Fits]
@[simp] theorem State.setCtValid_inByte (s : State) (v : Bool) (o : Nat) : (s.setCtValid v).inByte o = s.inByte o :=
  State.inByte_congr (by simp) (by simp) o
@[simp] theorem State.setCtValid_inSlice (s : State) (v : Bool) (o n : Nat) : (s.setCtValid v).inSlice o n = s.inSlice o n :=
  State.inSlice_congr (by simp) (by simp) o n
@[simp] theorem State.setCtValid_inBytes (s : State) (v : Bool) : (s.setCtValid v).inBytes = s.inBytes :=
  State.inBytes_congr (by simp) (by simp) (by simp)
@[simp] theorem State.setCtValid_payload (s : State) (v : Bool) (o : Nat) : (s.setCtValid v).payload o = s.payload o :=
  State.payload_congr (by simp) (by simp) (by simp) o
@[simp] theorem State.setCtValid_inBadAt (s : State) (v : Bool) (o : Nat) : (s.setCtValid v).inBadAt o = s.inBadAt o :=
  State.inBadAt_congr (by simp) o
@[simp] theorem State.setCtValid_readable (s : State) (v : Bool) : (s.setCtValid v).Readable = s.Readable := by
  simp [State.Readable]
@[simp] theorem State.setCtValid_fits (s : State) (v : Bool) (k : Nat) : (s.setCtValid v).Fits k = s.Fits k := by
  simp [State.Fits]
@[simp] theorem State.setOrigLen_inByte (s : State) (v : Count) (o : Nat) : (s.setOrigLen v).inByte o = s.inByte o :=
  State.inByte_congr (by simp) (by simp) o
@[simp] theorem State.setOrigLen_inSlice (s : State) (v : Count) (o n : Nat) : (s.setOrigLen v).inSlice o n = s.inSlice o n :=
  State.inSlice_congr (by simp) (by simp) o n
@[simp] theorem State.setOrigLen_inBytes (s : State) (v : Count) : (s.setOrigLen v).inBytes = s.inBytes :=
  State.inBytes_congr (by simp) (by simp) (by simp)
@[simp] theorem State.setOrigLen_payload (s : State) (v : Count) (o : Nat) : (s.setOrigLen v).payload o = s.payload o :=
  State.payload_congr (by simp) (by simp) (by simp) o
@[simp] theorem State.setOrigLen_inBadAt (s : State) (v : Count) (o : Nat) : (s.setOrigLen v).inBadAt o = s.inBadAt o :=
  State.inBadAt_congr (by simp) o
@[simp] theorem State.setOrigLen_readable (s : State) (v : Count) : (s.setOrigLen v).Readable = s.Readable := by
  simp [State.Readable]
@[simp] theorem State.setOrigLen_fits (s : State) (v : Count) (k : Nat) : (s.setOrigLen v).Fits k = s.Fits k := by
  simp [State.Fits]
@[simp] theorem State.setSymCount_inByte (s : State) (v : BitVec 16) (o : Nat) : (s.setSymCount v).inByte o = s.inByte o :=
  State.inByte_congr (by simp) (by simp) o
@[simp] theorem State.setSymCount_inSlice (s : State) (v : BitVec 16) (o n : Nat) : (s.setSymCount v).inSlice o n = s.inSlice o n :=
  State.inSlice_congr (by simp) (by simp) o n
@[simp] theorem State.setSymCount_inBytes (s : State) (v : BitVec 16) : (s.setSymCount v).inBytes = s.inBytes :=
  State.inBytes_congr (by simp) (by simp) (by simp)
@[simp] theorem State.setSymCount_payload (s : State) (v : BitVec 16) (o : Nat) : (s.setSymCount v).payload o = s.payload o :=
  State.payload_congr (by simp) (by simp) (by simp) o
@[simp] theorem State.setSymCount_inBadAt (s : State) (v : BitVec 16) (o : Nat) : (s.setSymCount v).inBadAt o = s.inBadAt o :=
  State.inBadAt_congr (by simp) o
@[simp] theorem State.setSymCount_readable (s : State) (v : BitVec 16) : (s.setSymCount v).Readable = s.Readable := by
  simp [State.Readable]
@[simp] theorem State.setSymCount_fits (s : State) (v : BitVec 16) (k : Nat) : (s.setSymCount v).Fits k = s.Fits k := by
  simp [State.Fits]
@[simp] theorem State.setTrail_inByte (s : State) (v : BitVec 3) (o : Nat) : (s.setTrail v).inByte o = s.inByte o :=
  State.inByte_congr (by simp) (by simp) o
@[simp] theorem State.setTrail_inSlice (s : State) (v : BitVec 3) (o n : Nat) : (s.setTrail v).inSlice o n = s.inSlice o n :=
  State.inSlice_congr (by simp) (by simp) o n
@[simp] theorem State.setTrail_inBytes (s : State) (v : BitVec 3) : (s.setTrail v).inBytes = s.inBytes :=
  State.inBytes_congr (by simp) (by simp) (by simp)
@[simp] theorem State.setTrail_payload (s : State) (v : BitVec 3) (o : Nat) : (s.setTrail v).payload o = s.payload o :=
  State.payload_congr (by simp) (by simp) (by simp) o
@[simp] theorem State.setTrail_inBadAt (s : State) (v : BitVec 3) (o : Nat) : (s.setTrail v).inBadAt o = s.inBadAt o :=
  State.inBadAt_congr (by simp) o
@[simp] theorem State.setTrail_readable (s : State) (v : BitVec 3) : (s.setTrail v).Readable = s.Readable := by
  simp [State.Readable]
@[simp] theorem State.setTrail_fits (s : State) (v : BitVec 3) (k : Nat) : (s.setTrail v).Fits k = s.Fits k := by
  simp [State.Fits]
@[simp] theorem State.setInMem_inBadAt (s : State) (m : Memory) (o : Nat) : (s.setInMem m).inBadAt o = s.inBadAt o :=
  State.inBadAt_congr (by simp) o
@[simp] theorem State.setInMem_readable (s : State) (m : Memory) : (s.setInMem m).Readable = s.Readable := by
  simp [State.Readable]
@[simp] theorem State.setInMem_fits (s : State) (m : Memory) (k : Nat) : (s.setInMem m).Fits k = s.Fits k := by
  simp [State.Fits]
@[simp] theorem State.setInLen_inByte (s : State) (v : Count) (o : Nat) : (s.setInLen v).inByte o = s.inByte o :=
  State.inByte_congr (by simp) (by simp) o
@[simp] theorem State.setInLen_inSlice (s : State) (v : Count) (o n : Nat) : (s.setInLen v).inSlice o n = s.inSlice o n :=
  State.inSlice_congr (by simp) (by simp) o n
@[simp] theorem State.setInLen_inBadAt (s : State) (v : Count) (o : Nat) : (s.setInLen v).inBadAt o = s.inBadAt o :=
  State.inBadAt_congr (by simp) o
@[simp] theorem State.setInLen_fits (s : State) (v : Count) (k : Nat) : (s.setInLen v).Fits k = s.Fits k := by
  simp [State.Fits]
@[simp] theorem State.setOut_inByte (s : State) (m : Memory) (l : Count) (o : Nat) : (s.setOut m l).inByte o = s.inByte o :=
  State.inByte_congr (by simp) (by simp) o
@[simp] theorem State.setOut_inSlice (s : State) (m : Memory) (l : Count) (o n : Nat) : (s.setOut m l).inSlice o n = s.inSlice o n :=
  State.inSlice_congr (by simp) (by simp) o n
@[simp] theorem State.setOut_inBytes (s : State) (m : Memory) (l : Count) : (s.setOut m l).inBytes = s.inBytes :=
  State.inBytes_congr (by simp) (by simp) (by simp)
@[simp] theorem State.setOut_payload (s : State) (m : Memory) (l : Count) (o : Nat) : (s.setOut m l).payload o = s.payload o :=
  State.payload_congr (by simp) (by simp) (by simp) o
@[simp] theorem State.setOut_inBadAt (s : State) (m : Memory) (l : Count) (o : Nat) : (s.setOut m l).inBadAt o = s.inBadAt o :=
  State.inBadAt_congr (by simp) o
@[simp] theorem State.setOut_readable (s : State) (m : Memory) (l : Count) : (s.setOut m l).Readable = s.Readable := by
  simp [State.Readable]
@[simp] theorem State.setOutValid_inByte (s : State) (v : Bool) (o : Nat) : (s.setOutValid v).inByte o = s.inByte o :=
  State.inByte_congr (by simp) (by simp) o
@[simp] theorem State.setOutValid_inSlice (s : State) (v : Bool) (o n : Nat) : (s.setOutValid v).inSlice o n = s.inSlice o n :=
  State.inSlice_congr (by simp) (by simp) o n
@[simp] theorem State.setOutValid_inBytes (s : State) (v : Bool) : (s.setOutValid v).inBytes = s.inBytes :=
  State.inBytes_congr (by simp) (by simp) (by simp)
@[simp] theorem State.setOutValid_payload (s : State) (v : Bool) (o : Nat) : (s.setOutValid v).payload o = s.payload o :=
  State.payload_congr (by simp) (by simp) (by simp) o
@[simp] theorem State.setOutValid_inBadAt (s : State) (v : Bool) (o : Nat) : (s.setOutValid v).inBadAt o = s.inBadAt o :=
  State.inBadAt_congr (by simp) o
@[simp] theorem State.setOutValid_readable (s : State) (v : Bool) : (s.setOutValid v).Readable = s.Readable := by
  simp [State.Readable]
@[simp] theorem State.setOutValid_fits (s : State) (v : Bool) (k : Nat) : (s.setOutValid v).Fits k = s.Fits k := by
  simp [State.Fits]
@[simp] theorem State.setCmd_inByte (s : State) (w : Byte) (o : Nat) : (s.setCmd w).inByte o = s.inByte o :=
  State.inByte_congr (by simp) (by simp) o
@[simp] theorem State.setCmd_inSlice (s : State) (w : Byte) (o n : Nat) : (s.setCmd w).inSlice o n = s.inSlice o n :=
  State.inSlice_congr (by simp) (by simp) o n
@[simp] theorem State.setCmd_inBytes (s : State) (w : Byte) : (s.setCmd w).inBytes = s.inBytes :=
  State.inBytes_congr (by simp) (by simp) (by simp)
@[simp] theorem State.setCmd_payload (s : State) (w : Byte) (o : Nat) : (s.setCmd w).payload o = s.payload o :=
  State.payload_congr (by simp) (by simp) (by simp) o
@[simp] theorem State.setCmd_inBadAt (s : State) (w : Byte) (o : Nat) : (s.setCmd w).inBadAt o = s.inBadAt o :=
  State.inBadAt_congr (by simp) o
@[simp] theorem State.setCmd_readable (s : State) (w : Byte) : (s.setCmd w).Readable = s.Readable := by
  simp [State.Readable]
@[simp] theorem State.setCmd_fits (s : State) (w : Byte) (k : Nat) : (s.setCmd w).Fits k = s.Fits k := by
  simp [State.Fits]
@[simp] theorem State.setPacker_inByte (s : State) (a : BitVec 8) (n : BitVec 4) (o : Nat) : (s.setPacker a n).inByte o = s.inByte o :=
  State.inByte_congr (by simp) (by simp) o
@[simp] theorem State.setPacker_inSlice (s : State) (a : BitVec 8) (n : BitVec 4) (o n : Nat) : (s.setPacker a n).inSlice o n = s.inSlice o n :=
  State.inSlice_congr (by simp) (by simp) o n
@[simp] theorem State.setPacker_inBytes (s : State) (a : BitVec 8) (n : BitVec 4) : (s.setPacker a n).inBytes = s.inBytes :=
  State.inBytes_congr (by simp) (by simp) (by simp)
@[simp] theorem State.setPacker_payload (s : State) (a : BitVec 8) (n : BitVec 4) (o : Nat) : (s.setPacker a n).payload o = s.payload o :=
  State.payload_congr (by simp) (by simp) (by simp) o
@[simp] theorem State.setPacker_inBadAt (s : State) (a : BitVec 8) (n : BitVec 4) (o : Nat) : (s.setPacker a n).inBadAt o = s.inBadAt o :=
  State.inBadAt_congr (by simp) o
@[simp] theorem State.setPacker_readable (s : State) (a : BitVec 8) (n : BitVec 4) : (s.setPacker a n).Readable = s.Readable := by
  simp [State.Readable]
@[simp] theorem State.setPacker_fits (s : State) (a : BitVec 8) (n : BitVec 4) (k : Nat) : (s.setPacker a n).Fits k = s.Fits k := by
  simp [State.Fits]
@[simp] theorem State.setPay_inByte (s : State) (p : List Byte) (o : Nat) : (s.setPay p).inByte o = s.inByte o :=
  State.inByte_congr (by simp) (by simp) o
@[simp] theorem State.setPay_inSlice (s : State) (p : List Byte) (o n : Nat) : (s.setPay p).inSlice o n = s.inSlice o n :=
  State.inSlice_congr (by simp) (by simp) o n
@[simp] theorem State.setPay_inBytes (s : State) (p : List Byte) : (s.setPay p).inBytes = s.inBytes :=
  State.inBytes_congr (by simp) (by simp) (by simp)
@[simp] theorem State.setPay_payload (s : State) (p : List Byte) (o : Nat) : (s.setPay p).payload o = s.payload o :=
  State.payload_congr (by simp) (by simp) (by simp) o
@[simp] theorem State.setPay_inBadAt (s : State) (p : List Byte) (o : Nat) : (s.setPay p).inBadAt o = s.inBadAt o :=
  State.inBadAt_congr (by simp) o
@[simp] theorem State.setPay_readable (s : State) (p : List Byte) : (s.setPay p).Readable = s.Readable := by
  simp [State.Readable]
@[simp] theorem State.setPay_fits (s : State) (p : List Byte) (k : Nat) : (s.setPay p).Fits k = s.Fits k := by
  simp [State.Fits]
@[simp] theorem State.setWalk_inByte (s : State) (c : NodeIdx) (n : BitVec 64) (o : Nat) : (s.setWalk c n).inByte o = s.inByte o :=
  State.inByte_congr (by simp) (by simp) o
@[simp] theorem State.setWalk_inSlice (s : State) (c : NodeIdx) (n : BitVec 64) (o n : Nat) : (s.setWalk c n).inSlice o n = s.inSlice o n :=
  State.inSlice_congr (by simp) (by simp) o n
@[simp] theorem State.setWalk_inBytes (s : State) (c : NodeIdx) (n : BitVec 64) : (s.setWalk c n).inBytes = s.inBytes :=
  State.inBytes_congr (by simp) (by simp) (by simp)
@[simp] theorem State.setWalk_payload (s : State) (c : NodeIdx) (n : BitVec 64) (o : Nat) : (s.setWalk c n).payload o = s.payload o :=
  State.payload_congr (by simp) (by simp) (by simp) o
@[simp] theorem State.setWalk_inBadAt (s : State) (c : NodeIdx) (n : BitVec 64) (o : Nat) : (s.setWalk c n).inBadAt o = s.inBadAt o :=
  State.inBadAt_congr (by simp) o
@[simp] theorem State.setWalk_readable (s : State) (c : NodeIdx) (n : BitVec 64) : (s.setWalk c n).Readable = s.Readable := by
  simp [State.Readable]
@[simp] theorem State.setWalk_fits (s : State) (c : NodeIdx) (n : BitVec 64) (k : Nat) : (s.setWalk c n).Fits k = s.Fits k := by
  simp [State.Fits]
@[simp] theorem State.setBitpos_inByte (s : State) (v : BitVec 67) (o : Nat) : (s.setBitpos v).inByte o = s.inByte o :=
  State.inByte_congr (by simp) (by simp) o
@[simp] theorem State.setBitpos_inSlice (s : State) (v : BitVec 67) (o n : Nat) : (s.setBitpos v).inSlice o n = s.inSlice o n :=
  State.inSlice_congr (by simp) (by simp) o n
@[simp] theorem State.setBitpos_inBytes (s : State) (v : BitVec 67) : (s.setBitpos v).inBytes = s.inBytes :=
  State.inBytes_congr (by simp) (by simp) (by simp)
@[simp] theorem State.setBitpos_payload (s : State) (v : BitVec 67) (o : Nat) : (s.setBitpos v).payload o = s.payload o :=
  State.payload_congr (by simp) (by simp) (by simp) o
@[simp] theorem State.setBitpos_inBadAt (s : State) (v : BitVec 67) (o : Nat) : (s.setBitpos v).inBadAt o = s.inBadAt o :=
  State.inBadAt_congr (by simp) o
@[simp] theorem State.setBitpos_readable (s : State) (v : BitVec 67) : (s.setBitpos v).Readable = s.Readable := by
  simp [State.Readable]
@[simp] theorem State.setBitpos_fits (s : State) (v : BitVec 67) (k : Nat) : (s.setBitpos v).Fits k = s.Fits k := by
  simp [State.Fits]
@[simp] theorem State.setPhase_inByte (s : State) (p : Phase) (o : Nat) : (s.setPhase p).inByte o = s.inByte o :=
  State.inByte_congr (by simp) (by simp) o
@[simp] theorem State.setPhase_inSlice (s : State) (p : Phase) (o n : Nat) : (s.setPhase p).inSlice o n = s.inSlice o n :=
  State.inSlice_congr (by simp) (by simp) o n
@[simp] theorem State.setPhase_inBytes (s : State) (p : Phase) : (s.setPhase p).inBytes = s.inBytes :=
  State.inBytes_congr (by simp) (by simp) (by simp)
@[simp] theorem State.setPhase_payload (s : State) (p : Phase) (o : Nat) : (s.setPhase p).payload o = s.payload o :=
  State.payload_congr (by simp) (by simp) (by simp) o
@[simp] theorem State.setPhase_inBadAt (s : State) (p : Phase) (o : Nat) : (s.setPhase p).inBadAt o = s.inBadAt o :=
  State.inBadAt_congr (by simp) o
@[simp] theorem State.setPhase_readable (s : State) (p : Phase) : (s.setPhase p).Readable = s.Readable := by
  simp [State.Readable]
@[simp] theorem State.setPhase_fits (s : State) (p : Phase) (k : Nat) : (s.setPhase p).Fits k = s.Fits k := by
  simp [State.Fits]
@[simp] theorem State.setInOff_inByte (s : State) (v : BitVec 64) (o : Nat) : (s.setInOff v).inByte o = s.inByte o :=
  State.inByte_congr (by simp) (by simp) o
@[simp] theorem State.setInOff_inSlice (s : State) (v : BitVec 64) (o n : Nat) : (s.setInOff v).inSlice o n = s.inSlice o n :=
  State.inSlice_congr (by simp) (by simp) o n
@[simp] theorem State.setInOff_inBytes (s : State) (v : BitVec 64) : (s.setInOff v).inBytes = s.inBytes :=
  State.inBytes_congr (by simp) (by simp) (by simp)
@[simp] theorem State.setInOff_payload (s : State) (v : BitVec 64) (o : Nat) : (s.setInOff v).payload o = s.payload o :=
  State.payload_congr (by simp) (by simp) (by simp) o
@[simp] theorem State.setInOff_inBadAt (s : State) (v : BitVec 64) (o : Nat) : (s.setInOff v).inBadAt o = s.inBadAt o :=
  State.inBadAt_congr (by simp) o
@[simp] theorem State.setInOff_readable (s : State) (v : BitVec 64) : (s.setInOff v).Readable = s.Readable := by
  simp [State.Readable]
@[simp] theorem State.setInOff_fits (s : State) (v : BitVec 64) (k : Nat) : (s.setInOff v).Fits k = s.Fits k := by
  simp [State.Fits]
@[simp] theorem State.setEnv_inByte (s : State) (e : Env) (o : Nat) : (s.setEnv e).inByte o = s.inByte o :=
  State.inByte_congr (by simp) (by simp) o
@[simp] theorem State.setEnv_inSlice (s : State) (e : Env) (o n : Nat) : (s.setEnv e).inSlice o n = s.inSlice o n :=
  State.inSlice_congr (by simp) (by simp) o n
@[simp] theorem State.setEnv_inBytes (s : State) (e : Env) : (s.setEnv e).inBytes = s.inBytes :=
  State.inBytes_congr (by simp) (by simp) (by simp)
@[simp] theorem State.setEnv_payload (s : State) (e : Env) (o : Nat) : (s.setEnv e).payload o = s.payload o :=
  State.payload_congr (by simp) (by simp) (by simp) o
@[simp] theorem State.setHostQ_inByte (s : State) (l : List HostAction) (o : Nat) : (s.setHostQ l).inByte o = s.inByte o :=
  State.inByte_congr (by simp) (by simp) o
@[simp] theorem State.setHostQ_inSlice (s : State) (l : List HostAction) (o n : Nat) : (s.setHostQ l).inSlice o n = s.inSlice o n :=
  State.inSlice_congr (by simp) (by simp) o n
@[simp] theorem State.setHostQ_inBytes (s : State) (l : List HostAction) : (s.setHostQ l).inBytes = s.inBytes :=
  State.inBytes_congr (by simp) (by simp) (by simp)
@[simp] theorem State.setHostQ_payload (s : State) (l : List HostAction) (o : Nat) : (s.setHostQ l).payload o = s.payload o :=
  State.payload_congr (by simp) (by simp) (by simp) o
@[simp] theorem State.setHostQ_inBadAt (s : State) (l : List HostAction) (o : Nat) : (s.setHostQ l).inBadAt o = s.inBadAt o :=
  State.inBadAt_congr (by simp) o
@[simp] theorem State.setHostQ_readable (s : State) (l : List HostAction) : (s.setHostQ l).Readable = s.Readable := by
  simp [State.Readable]
@[simp] theorem State.setHostQ_fits (s : State) (l : List HostAction) (k : Nat) : (s.setHostQ l).Fits k = s.Fits k := by
  simp [State.Fits]
@[simp] theorem State.clearCounts_inByte (s : State) (o : Nat) : s.clearCounts.inByte o = s.inByte o :=
  State.inByte_congr (by simp) (by simp) o
@[simp] theorem State.clearCounts_inSlice (s : State) (o n : Nat) : s.clearCounts.inSlice o n = s.inSlice o n :=
  State.inSlice_congr (by simp) (by simp) o n
@[simp] theorem State.clearCounts_inBytes (s : State) : s.clearCounts.inBytes = s.inBytes :=
  State.inBytes_congr (by simp) (by simp) (by simp)
@[simp] theorem State.clearCounts_payload (s : State) (o : Nat) : s.clearCounts.payload o = s.payload o :=
  State.payload_congr (by simp) (by simp) (by simp) o
@[simp] theorem State.clearCounts_inBadAt (s : State) (o : Nat) : s.clearCounts.inBadAt o = s.inBadAt o :=
  State.inBadAt_congr (by simp) o
@[simp] theorem State.clearCounts_readable (s : State) : s.clearCounts.Readable = s.Readable := by
  simp [State.Readable]
@[simp] theorem State.clearCounts_fits (s : State) (k : Nat) : s.clearCounts.Fits k = s.Fits k := by
  simp [State.Fits]
@[simp] theorem State.dropTree_inByte (s : State) (o : Nat) : s.dropTree.inByte o = s.inByte o :=
  State.inByte_congr (by simp) (by simp) o
@[simp] theorem State.dropTree_inSlice (s : State) (o n : Nat) : s.dropTree.inSlice o n = s.inSlice o n :=
  State.inSlice_congr (by simp) (by simp) o n
@[simp] theorem State.dropTree_inBytes (s : State) : s.dropTree.inBytes = s.inBytes :=
  State.inBytes_congr (by simp) (by simp) (by simp)
@[simp] theorem State.dropTree_payload (s : State) (o : Nat) : s.dropTree.payload o = s.payload o :=
  State.payload_congr (by simp) (by simp) (by simp) o
@[simp] theorem State.dropTree_inBadAt (s : State) (o : Nat) : s.dropTree.inBadAt o = s.inBadAt o :=
  State.inBadAt_congr (by simp) o
@[simp] theorem State.dropTree_readable (s : State) : s.dropTree.Readable = s.Readable := by
  simp [State.Readable]
@[simp] theorem State.dropTree_fits (s : State) (k : Nat) : s.dropTree.Fits k = s.Fits k := by
  simp [State.Fits]
@[simp] theorem State.dropCodes_inByte (s : State) (o : Nat) : s.dropCodes.inByte o = s.inByte o :=
  State.inByte_congr (by simp) (by simp) o
@[simp] theorem State.dropCodes_inSlice (s : State) (o n : Nat) : s.dropCodes.inSlice o n = s.inSlice o n :=
  State.inSlice_congr (by simp) (by simp) o n
@[simp] theorem State.dropCodes_inBytes (s : State) : s.dropCodes.inBytes = s.inBytes :=
  State.inBytes_congr (by simp) (by simp) (by simp)
@[simp] theorem State.dropCodes_payload (s : State) (o : Nat) : s.dropCodes.payload o = s.payload o :=
  State.payload_congr (by simp) (by simp) (by simp) o
@[simp] theorem State.dropCodes_inBadAt (s : State) (o : Nat) : s.dropCodes.inBadAt o = s.inBadAt o :=
  State.inBadAt_congr (by simp) o
@[simp] theorem State.dropCodes_readable (s : State) : s.dropCodes.Readable = s.Readable := by
  simp [State.Readable]
@[simp] theorem State.dropCodes_fits (s : State) (k : Nat) : s.dropCodes.Fits k = s.Fits k := by
  simp [State.Fits]
@[simp] theorem State.dropOut_inByte (s : State) (o : Nat) : s.dropOut.inByte o = s.inByte o :=
  State.inByte_congr (by simp) (by simp) o
@[simp] theorem State.dropOut_inSlice (s : State) (o n : Nat) : s.dropOut.inSlice o n = s.inSlice o n :=
  State.inSlice_congr (by simp) (by simp) o n
@[simp] theorem State.dropOut_inBytes (s : State) : s.dropOut.inBytes = s.inBytes :=
  State.inBytes_congr (by simp) (by simp) (by simp)
@[simp] theorem State.dropOut_payload (s : State) (o : Nat) : s.dropOut.payload o = s.payload o :=
  State.payload_congr (by simp) (by simp) (by simp) o
@[simp] theorem State.dropOut_inBadAt (s : State) (o : Nat) : s.dropOut.inBadAt o = s.inBadAt o :=
  State.inBadAt_congr (by simp) o
@[simp] theorem State.dropOut_readable (s : State) : s.dropOut.Readable = s.Readable := by
  simp [State.Readable]
@[simp] theorem State.dropOut_fits (s : State) (k : Nat) : s.dropOut.Fits k = s.Fits k := by
  simp [State.Fits]
@[simp] theorem State.dropPacker_inByte (s : State) (o : Nat) : s.dropPacker.inByte o = s.inByte o :=
  State.inByte_congr (by simp) (by simp) o
@[simp] theorem State.dropPacker_inSlice (s : State) (o n : Nat) : s.dropPacker.inSlice o n = s.inSlice o n :=
  State.inSlice_congr (by simp) (by simp) o n
@[simp] theorem State.dropPacker_inBytes (s : State) : s.dropPacker.inBytes = s.inBytes :=
  State.inBytes_congr (by simp) (by simp) (by simp)
@[simp] theorem State.dropPacker_payload (s : State) (o : Nat) : s.dropPacker.payload o = s.payload o :=
  State.payload_congr (by simp) (by simp) (by simp) o
@[simp] theorem State.dropPacker_inBadAt (s : State) (o : Nat) : s.dropPacker.inBadAt o = s.inBadAt o :=
  State.inBadAt_congr (by simp) o
@[simp] theorem State.dropPacker_readable (s : State) : s.dropPacker.Readable = s.Readable := by
  simp [State.Readable]
@[simp] theorem State.dropPacker_fits (s : State) (k : Nat) : s.dropPacker.Fits k = s.Fits k := by
  simp [State.Fits]
@[simp] theorem State.dropWalker_inByte (s : State) (o : Nat) : s.dropWalker.inByte o = s.inByte o :=
  State.inByte_congr (by simp) (by simp) o
@[simp] theorem State.dropWalker_inSlice (s : State) (o n : Nat) : s.dropWalker.inSlice o n = s.inSlice o n :=
  State.inSlice_congr (by simp) (by simp) o n
@[simp] theorem State.dropWalker_inBytes (s : State) : s.dropWalker.inBytes = s.inBytes :=
  State.inBytes_congr (by simp) (by simp) (by simp)
@[simp] theorem State.dropWalker_payload (s : State) (o : Nat) : s.dropWalker.payload o = s.payload o :=
  State.payload_congr (by simp) (by simp) (by simp) o
@[simp] theorem State.dropWalker_inBadAt (s : State) (o : Nat) : s.dropWalker.inBadAt o = s.inBadAt o :=
  State.inBadAt_congr (by simp) o
@[simp] theorem State.dropWalker_readable (s : State) : s.dropWalker.Readable = s.Readable := by
  simp [State.Readable]
@[simp] theorem State.dropWalker_fits (s : State) (k : Nat) : s.dropWalker.Fits k = s.Fits k := by
  simp [State.Fits]
@[simp] theorem State.dropInOff_inByte (s : State) (o : Nat) : s.dropInOff.inByte o = s.inByte o :=
  State.inByte_congr (by simp) (by simp) o
@[simp] theorem State.dropInOff_inSlice (s : State) (o n : Nat) : s.dropInOff.inSlice o n = s.inSlice o n :=
  State.inSlice_congr (by simp) (by simp) o n
@[simp] theorem State.dropInOff_inBytes (s : State) : s.dropInOff.inBytes = s.inBytes :=
  State.inBytes_congr (by simp) (by simp) (by simp)
@[simp] theorem State.dropInOff_payload (s : State) (o : Nat) : s.dropInOff.payload o = s.payload o :=
  State.payload_congr (by simp) (by simp) (by simp) o
@[simp] theorem State.dropInOff_inBadAt (s : State) (o : Nat) : s.dropInOff.inBadAt o = s.inBadAt o :=
  State.inBadAt_congr (by simp) o
@[simp] theorem State.dropInOff_readable (s : State) : s.dropInOff.Readable = s.Readable := by
  simp [State.Readable]
@[simp] theorem State.dropInOff_fits (s : State) (k : Nat) : s.dropInOff.Fits k = s.Fits k := by
  simp [State.Fits]
@[simp] theorem State.begin_inByte (s : State) (p : Phase) (o : Nat) : (s.begin p).inByte o = s.inByte o :=
  State.inByte_congr (by simp) (by simp) o
@[simp] theorem State.begin_inSlice (s : State) (p : Phase) (o n : Nat) : (s.begin p).inSlice o n = s.inSlice o n :=
  State.inSlice_congr (by simp) (by simp) o n
@[simp] theorem State.begin_inBytes (s : State) (p : Phase) : (s.begin p).inBytes = s.inBytes :=
  State.inBytes_congr (by simp) (by simp) (by simp)
@[simp] theorem State.begin_payload (s : State) (p : Phase) (o : Nat) : (s.begin p).payload o = s.payload o :=
  State.payload_congr (by simp) (by simp) (by simp) o
@[simp] theorem State.begin_inBadAt (s : State) (p : Phase) (o : Nat) : (s.begin p).inBadAt o = s.inBadAt o :=
  State.inBadAt_congr (by simp) o
@[simp] theorem State.begin_readable (s : State) (p : Phase) : (s.begin p).Readable = s.Readable := by
  simp [State.Readable]
@[simp] theorem State.begin_fits (s : State) (p : Phase) (k : Nat) : (s.begin p).Fits k = s.Fits k := by
  simp [State.Fits]
@[simp] theorem State.finish_inByte (s : State) (o : Nat) : s.finish.inByte o = s.inByte o :=
  State.inByte_congr (by simp) (by simp) o
@[simp] theorem State.finish_inSlice (s : State) (o n : Nat) : s.finish.inSlice o n = s.inSlice o n :=
  State.inSlice_congr (by simp) (by simp) o n
@[simp] theorem State.finish_inBytes (s : State) : s.finish.inBytes = s.inBytes :=
  State.inBytes_congr (by simp) (by simp) (by simp)
@[simp] theorem State.finish_payload (s : State) (o : Nat) : s.finish.payload o = s.payload o :=
  State.payload_congr (by simp) (by simp) (by simp) o
@[simp] theorem State.finish_inBadAt (s : State) (o : Nat) : s.finish.inBadAt o = s.inBadAt o :=
  State.inBadAt_congr (by simp) o
@[simp] theorem State.finish_readable (s : State) : s.finish.Readable = s.Readable := by
  simp [State.Readable]
@[simp] theorem State.finish_fits (s : State) (k : Nat) : s.finish.Fits k = s.Fits k := by
  simp [State.Fits]
@[simp] theorem State.recordError_inByte (s : State) (e : Raise) (o : Nat) : (s.recordError e).inByte o = s.inByte o :=
  State.inByte_congr (by simp) (by simp) o
@[simp] theorem State.recordError_inSlice (s : State) (e : Raise) (o n : Nat) : (s.recordError e).inSlice o n = s.inSlice o n :=
  State.inSlice_congr (by simp) (by simp) o n
@[simp] theorem State.recordError_inBytes (s : State) (e : Raise) : (s.recordError e).inBytes = s.inBytes :=
  State.inBytes_congr (by simp) (by simp) (by simp)
@[simp] theorem State.recordError_payload (s : State) (e : Raise) (o : Nat) : (s.recordError e).payload o = s.payload o :=
  State.payload_congr (by simp) (by simp) (by simp) o
@[simp] theorem State.recordError_inBadAt (s : State) (e : Raise) (o : Nat) : (s.recordError e).inBadAt o = s.inBadAt o :=
  State.inBadAt_congr (by simp) o
@[simp] theorem State.recordError_readable (s : State) (e : Raise) : (s.recordError e).Readable = s.Readable := by
  simp [State.Readable]
@[simp] theorem State.recordError_fits (s : State) (e : Raise) (k : Nat) : (s.recordError e).Fits k = s.Fits k := by
  simp [State.Fits]
@[simp] theorem State.acknowledge_inByte (s : State) (o : Nat) : s.acknowledge.inByte o = s.inByte o :=
  State.inByte_congr (by simp) (by simp) o
@[simp] theorem State.acknowledge_inSlice (s : State) (o n : Nat) : s.acknowledge.inSlice o n = s.inSlice o n :=
  State.inSlice_congr (by simp) (by simp) o n
@[simp] theorem State.acknowledge_inBytes (s : State) : s.acknowledge.inBytes = s.inBytes :=
  State.inBytes_congr (by simp) (by simp) (by simp)
@[simp] theorem State.acknowledge_payload (s : State) (o : Nat) : s.acknowledge.payload o = s.payload o :=
  State.payload_congr (by simp) (by simp) (by simp) o
@[simp] theorem State.acknowledge_inBadAt (s : State) (o : Nat) : s.acknowledge.inBadAt o = s.inBadAt o :=
  State.inBadAt_congr (by simp) o
@[simp] theorem State.acknowledge_readable (s : State) : s.acknowledge.Readable = s.Readable := by
  simp [State.Readable]
@[simp] theorem State.acknowledge_fits (s : State) (k : Nat) : s.acknowledge.Fits k = s.Fits k := by
  simp [State.Fits]
@[simp] theorem State.openOut_inByte (s : State) (o : Nat) : s.openOut.inByte o = s.inByte o :=
  State.inByte_congr (by simp) (by simp) o
@[simp] theorem State.openOut_inSlice (s : State) (o n : Nat) : s.openOut.inSlice o n = s.inSlice o n :=
  State.inSlice_congr (by simp) (by simp) o n
@[simp] theorem State.openOut_inBytes (s : State) : s.openOut.inBytes = s.inBytes :=
  State.inBytes_congr (by simp) (by simp) (by simp)
@[simp] theorem State.openOut_payload (s : State) (o : Nat) : s.openOut.payload o = s.payload o :=
  State.payload_congr (by simp) (by simp) (by simp) o
@[simp] theorem State.openOut_inBadAt (s : State) (o : Nat) : s.openOut.inBadAt o = s.inBadAt o :=
  State.inBadAt_congr (by simp) o
@[simp] theorem State.openOut_readable (s : State) : s.openOut.Readable = s.Readable := by
  simp [State.Readable]
@[simp] theorem State.countByte_inByte (s : State) (b : Byte) (o : Nat) : (s.countByte b).inByte o = s.inByte o :=
  State.inByte_congr (by simp) (by simp) o
@[simp] theorem State.countByte_inSlice (s : State) (b : Byte) (o n : Nat) : (s.countByte b).inSlice o n = s.inSlice o n :=
  State.inSlice_congr (by simp) (by simp) o n
@[simp] theorem State.countByte_inBytes (s : State) (b : Byte) : (s.countByte b).inBytes = s.inBytes :=
  State.inBytes_congr (by simp) (by simp) (by simp)
@[simp] theorem State.countByte_payload (s : State) (b : Byte) (o : Nat) : (s.countByte b).payload o = s.payload o :=
  State.payload_congr (by simp) (by simp) (by simp) o
@[simp] theorem State.countByte_inBadAt (s : State) (b : Byte) (o : Nat) : (s.countByte b).inBadAt o = s.inBadAt o :=
  State.inBadAt_congr (by simp) o
@[simp] theorem State.countByte_readable (s : State) (b : Byte) : (s.countByte b).Readable = s.Readable := by
  simp [State.Readable]
@[simp] theorem State.countByte_fits (s : State) (b : Byte) (k : Nat) : (s.countByte b).Fits k = s.Fits k := by
  simp [State.Fits]
@[simp] theorem State.setForest_inByte (s : State) (fr : Forest) (o : Nat) : (s.setForest fr).inByte o = s.inByte o :=
  State.inByte_congr (by simp) (by simp) o
@[simp] theorem State.setForest_inSlice (s : State) (fr : Forest) (o n : Nat) : (s.setForest fr).inSlice o n = s.inSlice o n :=
  State.inSlice_congr (by simp) (by simp) o n
@[simp] theorem State.setForest_inBytes (s : State) (fr : Forest) : (s.setForest fr).inBytes = s.inBytes :=
  State.inBytes_congr (by simp) (by simp) (by simp)
@[simp] theorem State.setForest_payload (s : State) (fr : Forest) (o : Nat) : (s.setForest fr).payload o = s.payload o :=
  State.payload_congr (by simp) (by simp) (by simp) o
@[simp] theorem State.setForest_inBadAt (s : State) (fr : Forest) (o : Nat) : (s.setForest fr).inBadAt o = s.inBadAt o :=
  State.inBadAt_congr (by simp) o
@[simp] theorem State.setForest_readable (s : State) (fr : Forest) : (s.setForest fr).Readable = s.Readable := by
  simp [State.Readable]
@[simp] theorem State.setForest_fits (s : State) (fr : Forest) (k : Nat) : (s.setForest fr).Fits k = s.Fits k := by
  simp [State.Fits]
@[simp] theorem State.shiftBit_inByte (s : State) (bit : Bool) (o : Nat) : (s.shiftBit bit).inByte o = s.inByte o :=
  State.inByte_congr (by simp) (by simp) o
@[simp] theorem State.shiftBit_inSlice (s : State) (bit : Bool) (o n : Nat) : (s.shiftBit bit).inSlice o n = s.inSlice o n :=
  State.inSlice_congr (by simp) (by simp) o n
@[simp] theorem State.shiftBit_inBytes (s : State) (bit : Bool) : (s.shiftBit bit).inBytes = s.inBytes :=
  State.inBytes_congr (by simp) (by simp) (by simp)
@[simp] theorem State.shiftBit_payload (s : State) (bit : Bool) (o : Nat) : (s.shiftBit bit).payload o = s.payload o :=
  State.payload_congr (by simp) (by simp) (by simp) o
@[simp] theorem State.shiftBit_inBadAt (s : State) (bit : Bool) (o : Nat) : (s.shiftBit bit).inBadAt o = s.inBadAt o :=
  State.inBadAt_congr (by simp) o
@[simp] theorem State.shiftBit_readable (s : State) (bit : Bool) : (s.shiftBit bit).Readable = s.Readable := by
  simp [State.Readable]
@[simp] theorem State.shiftBit_fits (s : State) (bit : Bool) (k : Nat) : (s.shiftBit bit).Fits k = s.Fits k := by
  simp [State.Fits]
@[simp] theorem State.appendOut_inByte (s : State) (bs : List Byte) (o : Nat) : (s.appendOut bs).inByte o = s.inByte o :=
  State.inByte_congr (by simp) (by simp) o
@[simp] theorem State.appendOut_inSlice (s : State) (bs : List Byte) (o n : Nat) : (s.appendOut bs).inSlice o n = s.inSlice o n :=
  State.inSlice_congr (by simp) (by simp) o n
@[simp] theorem State.appendOut_inBytes (s : State) (bs : List Byte) : (s.appendOut bs).inBytes = s.inBytes :=
  State.inBytes_congr (by simp) (by simp) (by simp)
@[simp] theorem State.appendOut_payload (s : State) (bs : List Byte) (o : Nat) : (s.appendOut bs).payload o = s.payload o :=
  State.payload_congr (by simp) (by simp) (by simp) o
@[simp] theorem State.appendOut_inBadAt (s : State) (bs : List Byte) (o : Nat) : (s.appendOut bs).inBadAt o = s.inBadAt o :=
  State.inBadAt_congr (by simp) o
@[simp] theorem State.appendOut_readable (s : State) (bs : List Byte) : (s.appendOut bs).Readable = s.Readable := by
  simp [State.Readable]
@[simp] theorem State.plant_inByte (s : State) (nd : List Node) (r : NodeIdx) (o : Nat) : (s.plant nd r).inByte o = s.inByte o :=
  State.inByte_congr (by simp) (by simp) o
@[simp] theorem State.plant_inSlice (s : State) (nd : List Node) (r : NodeIdx) (o n : Nat) : (s.plant nd r).inSlice o n = s.inSlice o n :=
  State.inSlice_congr (by simp) (by simp) o n
@[simp] theorem State.plant_inBytes (s : State) (nd : List Node) (r : NodeIdx) : (s.plant nd r).inBytes = s.inBytes :=
  State.inBytes_congr (by simp) (by simp) (by simp)
@[simp] theorem State.plant_payload (s : State) (nd : List Node) (r : NodeIdx) (o : Nat) : (s.plant nd r).payload o = s.payload o :=
  State.payload_congr (by simp) (by simp) (by simp) o
@[simp] theorem State.plant_inBadAt (s : State) (nd : List Node) (r : NodeIdx) (o : Nat) : (s.plant nd r).inBadAt o = s.inBadAt o :=
  State.inBadAt_congr (by simp) o
@[simp] theorem State.plant_readable (s : State) (nd : List Node) (r : NodeIdx) : (s.plant nd r).Readable = s.Readable := by
  simp [State.Readable]
@[simp] theorem State.plant_fits (s : State) (nd : List Node) (r : NodeIdx) (k : Nat) : (s.plant nd r).Fits k = s.Fits k := by
  simp [State.Fits]
@[simp] theorem State.emit_inByte (s : State) (bs : List Byte) (n : Nat) (o : Nat) : (s.emit bs n).inByte o = s.inByte o :=
  State.inByte_congr (by simp) (by simp) o
@[simp] theorem State.emit_inSlice (s : State) (bs : List Byte) (n : Nat) (o n : Nat) : (s.emit bs n).inSlice o n = s.inSlice o n :=
  State.inSlice_congr (by simp) (by simp) o n
@[simp] theorem State.emit_inBytes (s : State) (bs : List Byte) (n : Nat) : (s.emit bs n).inBytes = s.inBytes :=
  State.inBytes_congr (by simp) (by simp) (by simp)
@[simp] theorem State.emit_payload (s : State) (bs : List Byte) (n : Nat) (o : Nat) : (s.emit bs n).payload o = s.payload o :=
  State.payload_congr (by simp) (by simp) (by simp) o
@[simp] theorem State.emit_inBadAt (s : State) (bs : List Byte) (n : Nat) (o : Nat) : (s.emit bs n).inBadAt o = s.inBadAt o :=
  State.inBadAt_congr (by simp) o
@[simp] theorem State.emit_readable (s : State) (bs : List Byte) (n : Nat) : (s.emit bs n).Readable = s.Readable := by
  simp [State.Readable]
@[simp] theorem State.discard_inByte (s : State) (o : Nat) : s.discard.inByte o = s.inByte o :=
  State.inByte_congr (by simp) (by simp) o
@[simp] theorem State.discard_inSlice (s : State) (o n : Nat) : s.discard.inSlice o n = s.inSlice o n :=
  State.inSlice_congr (by simp) (by simp) o n
@[simp] theorem State.discard_inBytes (s : State) : s.discard.inBytes = s.inBytes :=
  State.inBytes_congr (by simp) (by simp) (by simp)
@[simp] theorem State.discard_payload (s : State) (o : Nat) : s.discard.payload o = s.payload o :=
  State.payload_congr (by simp) (by simp) (by simp) o
@[simp] theorem State.discard_inBadAt (s : State) (o : Nat) : s.discard.inBadAt o = s.inBadAt o :=
  State.inBadAt_congr (by simp) o
@[simp] theorem State.discard_readable (s : State) : s.discard.Readable = s.Readable := by
  simp [State.Readable]
@[simp] theorem State.discard_fits (s : State) (k : Nat) : s.discard.Fits k = s.Fits k := by
  simp [State.Fits]
@[simp] theorem State.closeEncode_inByte (s : State) (o : Nat) : s.closeEncode.inByte o = s.inByte o :=
  State.inByte_congr (by simp) (by simp) o
@[simp] theorem State.closeEncode_inSlice (s : State) (o n : Nat) : s.closeEncode.inSlice o n = s.inSlice o n :=
  State.inSlice_congr (by simp) (by simp) o n
@[simp] theorem State.closeEncode_inBytes (s : State) : s.closeEncode.inBytes = s.inBytes :=
  State.inBytes_congr (by simp) (by simp) (by simp)
@[simp] theorem State.closeEncode_payload (s : State) (o : Nat) : s.closeEncode.payload o = s.payload o :=
  State.payload_congr (by simp) (by simp) (by simp) o
@[simp] theorem State.closeEncode_inBadAt (s : State) (o : Nat) : s.closeEncode.inBadAt o = s.inBadAt o :=
  State.inBadAt_congr (by simp) o
@[simp] theorem State.closeEncode_readable (s : State) : s.closeEncode.Readable = s.Readable := by
  simp [State.Readable]
@[simp] theorem State.closeEncode_fits (s : State) (k : Nat) : s.closeEncode.Fits k = s.Fits k := by
  simp [State.Fits]
@[simp] theorem State.closeDecode_inByte (s : State) (o : Nat) : s.closeDecode.inByte o = s.inByte o :=
  State.inByte_congr (by simp) (by simp) o
@[simp] theorem State.closeDecode_inSlice (s : State) (o n : Nat) : s.closeDecode.inSlice o n = s.inSlice o n :=
  State.inSlice_congr (by simp) (by simp) o n
@[simp] theorem State.closeDecode_inBytes (s : State) : s.closeDecode.inBytes = s.inBytes :=
  State.inBytes_congr (by simp) (by simp) (by simp)
@[simp] theorem State.closeDecode_payload (s : State) (o : Nat) : s.closeDecode.payload o = s.payload o :=
  State.payload_congr (by simp) (by simp) (by simp) o
@[simp] theorem State.closeDecode_inBadAt (s : State) (o : Nat) : s.closeDecode.inBadAt o = s.inBadAt o :=
  State.inBadAt_congr (by simp) o
@[simp] theorem State.closeDecode_readable (s : State) : s.closeDecode.Readable = s.Readable := by
  simp [State.Readable]
@[simp] theorem State.closeDecode_fits (s : State) (k : Nat) : s.closeDecode.Fits k = s.Fits k := by
  simp [State.Fits]
@[simp] theorem State.openUnpack_inByte (s : State) (o : Nat) : s.openUnpack.inByte o = s.inByte o :=
  State.inByte_congr (by simp) (by simp) o
@[simp] theorem State.openUnpack_inSlice (s : State) (o n : Nat) : s.openUnpack.inSlice o n = s.inSlice o n :=
  State.inSlice_congr (by simp) (by simp) o n
@[simp] theorem State.openUnpack_inBytes (s : State) : s.openUnpack.inBytes = s.inBytes :=
  State.inBytes_congr (by simp) (by simp) (by simp)
@[simp] theorem State.openUnpack_payload (s : State) (o : Nat) : s.openUnpack.payload o = s.payload o :=
  State.payload_congr (by simp) (by simp) (by simp) o
@[simp] theorem State.openUnpack_inBadAt (s : State) (o : Nat) : s.openUnpack.inBadAt o = s.inBadAt o :=
  State.inBadAt_congr (by simp) o
@[simp] theorem State.openUnpack_readable (s : State) : s.openUnpack.Readable = s.Readable := by
  simp [State.Readable]
@[simp] theorem State.openDecode_inByte (s : State) (o : Nat) : s.openDecode.inByte o = s.inByte o :=
  State.inByte_congr (by simp) (by simp) o
@[simp] theorem State.openDecode_inSlice (s : State) (o n : Nat) : s.openDecode.inSlice o n = s.inSlice o n :=
  State.inSlice_congr (by simp) (by simp) o n
@[simp] theorem State.openDecode_inBytes (s : State) : s.openDecode.inBytes = s.inBytes :=
  State.inBytes_congr (by simp) (by simp) (by simp)
@[simp] theorem State.openDecode_payload (s : State) (o : Nat) : s.openDecode.payload o = s.payload o :=
  State.payload_congr (by simp) (by simp) (by simp) o
@[simp] theorem State.openDecode_inBadAt (s : State) (o : Nat) : s.openDecode.inBadAt o = s.inBadAt o :=
  State.inBadAt_congr (by simp) o
@[simp] theorem State.openDecode_readable (s : State) : s.openDecode.Readable = s.Readable := by
  simp [State.Readable]
@[simp] theorem State.clearAll_inByte (s : State) (o : Nat) : s.clearAll.inByte o = s.inByte o :=
  State.inByte_congr (by simp) (by simp) o
@[simp] theorem State.clearAll_inSlice (s : State) (o n : Nat) : s.clearAll.inSlice o n = s.inSlice o n :=
  State.inSlice_congr (by simp) (by simp) o n
@[simp] theorem State.clearAll_inBytes (s : State) : s.clearAll.inBytes = s.inBytes :=
  State.inBytes_congr (by simp) (by simp) (by simp)
@[simp] theorem State.clearAll_payload (s : State) (o : Nat) : s.clearAll.payload o = s.payload o :=
  State.payload_congr (by simp) (by simp) (by simp) o
@[simp] theorem State.clearAll_inBadAt (s : State) (o : Nat) : s.clearAll.inBadAt o = s.inBadAt o :=
  State.inBadAt_congr (by simp) o
@[simp] theorem State.clearAll_readable (s : State) : s.clearAll.Readable = s.Readable := by
  simp [State.Readable]
@[simp] theorem State.deliver_inByte (s : State) (v : HostValue) (o : Nat) : (s.deliver v).inByte o = s.inByte o :=
  State.inByte_congr (by simp) (by simp) o
@[simp] theorem State.deliver_inSlice (s : State) (v : HostValue) (o n : Nat) : (s.deliver v).inSlice o n = s.inSlice o n :=
  State.inSlice_congr (by simp) (by simp) o n
@[simp] theorem State.deliver_inBytes (s : State) (v : HostValue) : (s.deliver v).inBytes = s.inBytes :=
  State.inBytes_congr (by simp) (by simp) (by simp)
@[simp] theorem State.deliver_payload (s : State) (v : HostValue) (o : Nat) : (s.deliver v).payload o = s.payload o :=
  State.payload_congr (by simp) (by simp) (by simp) o
@[simp] theorem State.deliver_inBadAt (s : State) (v : HostValue) (o : Nat) : (s.deliver v).inBadAt o = s.inBadAt o :=
  State.inBadAt_congr (by simp) o
@[simp] theorem State.deliver_readable (s : State) (v : HostValue) : (s.deliver v).Readable = s.Readable := by
  simp [State.Readable]
@[simp] theorem State.deliver_fits (s : State) (v : HostValue) (k : Nat) : (s.deliver v).Fits k = s.Fits k := by
  simp [State.Fits]
@[simp] theorem State.loadBytes_inBadAt (s : State) (bytes : List Byte) (o : Nat) : (s.loadBytes bytes).inBadAt o = s.inBadAt o :=
  State.inBadAt_congr (by simp) o
@[simp] theorem State.loadBytes_fits (s : State) (bytes : List Byte) (k : Nat) : (s.loadBytes bytes).Fits k = s.Fits k := by
  simp [State.Fits]
@[simp] theorem State.moveOut_inBadAt (s : State) (o : Nat) : s.moveOut.inBadAt o = s.inBadAt o :=
  State.inBadAt_congr (by simp) o
@[simp] theorem State.moveOut_fits (s : State) (k : Nat) : s.moveOut.Fits k = s.Fits k := by
  simp [State.Fits]

end Sys2Proof.Machine
end

