-- ==== Sys2Proof/Laws/Ops.lean ====
section
/-! SUPPORT. What the shared operations can do: one lemma each for reading IN (R63), writing OUT (R64) and ending a
command (R231, R232). -/

namespace Sys2Proof.Machine

/-- The state a piece of a command reaches, whichever way it ends. -/
def Res.state {α : Type} : Res α → State
  | .ok _ s => s
  | .raised _ s => s

@[simp] theorem Res.state_ok {α : Type} (a : α) (s : State) : (Res.ok a s).state = s := rfl
@[simp] theorem Res.state_raised {α : Type} (e : Raise) (s : State) : (Res.raised e s : Res α).state = s := rfl

/-- The state reached, and a raise's contents, meet conditions. -/
def Res.All {α : Type} (P : State → Prop) (E : Raise → Prop) : Res α → Prop
  | .ok _ s => P s
  | .raised e s => E e ∧ P s

@[simp] theorem Res.all_ok {α : Type} (P : State → Prop) (E : Raise → Prop) (a : α) (s : State) :
    (Res.ok a s).All P E = P s := rfl

@[simp] theorem Res.all_raised {α : Type} (P : State → Prop) (E : Raise → Prop) (e : Raise) (s : State) :
    (Res.raised e s : Res α).All P E = (E e ∧ P s) := rfl

/-! ### Bytes of IN -/

@[simp] theorem State.inSlice_zero (s : State) (o : Nat) : s.inSlice o 0 = [] := rfl

theorem State.inSlice_succ (s : State) (o n : Nat) : s.inSlice o (n + 1) = s.inByte o :: s.inSlice (o + 1) n := rfl

@[simp] theorem State.inSlice_length (s : State) (o n : Nat) : (s.inSlice o n).length = n := by
  induction n generalizing o with
  | zero => rfl
  | succ n ih => simp [State.inSlice, ih]

@[simp] theorem State.inBytes_length (s : State) : s.inBytes.length = s.inLen.toNat := by simp [State.inBytes]

theorem State.inSlice_append (s : State) (o m n : Nat) :
    s.inSlice o (m + n) = s.inSlice o m ++ s.inSlice (o + m) n := by
  induction m generalizing o with
  | zero => simp
  | succ m ih =>
    rw [show m + 1 + n = (m + n) + 1 by omega, State.inSlice_succ, ih, State.inSlice_succ,
      show o + 1 + m = o + (m + 1) by omega, List.cons_append]

theorem State.inSlice_getElem? (s : State) (o n k : Nat) :
    (s.inSlice o n)[k]? = if k < n then some (s.inByte (o + k)) else none := by
  induction n generalizing o k with
  | zero => simp
  | succ n ih =>
    cases k with
    | zero => simp [State.inSlice]
    | succ k =>
      rw [State.inSlice_succ, List.getElem?_cons_succ, ih]
      simp only [Nat.add_lt_add_iff_right]
      rw [show o + 1 + k = o + (k + 1) by omega]

theorem State.inBytes_getElem? (s : State) (k : Nat) :
    s.inBytes[k]? = if k < s.inLen.toNat then some (s.inByte k) else none := by
  rw [State.inBytes, State.inSlice_getElem?, Nat.zero_add]

/-- A slice of IN inside the stream, as part of the whole. -/
theorem State.inSlice_eq_take_drop (s : State) {o n : Nat} (h : o + n ≤ s.inLen.toNat) :
    s.inSlice o n = (s.inBytes.drop o).take n := by
  apply List.ext_getElem?
  intro k
  rw [State.inSlice_getElem?, List.getElem?_take]
  split
  · rw [List.getElem?_drop, State.inBytes_getElem?, if_pos (by omega)]
  · rfl

/-! ### Reading (R63) -/

@[simp] theorem State.setInOff_setInOff (s : State) (x y : BitVec 64) : (s.setInOff x).setInOff y = s.setInOff y := rfl

/-- Setting the IN read offset to what it is. -/
theorem State.setInOff_self (s : State) : s.setInOff s.inOff = s := rfl

/-- A read of bytes that are all there and readable. -/
theorem memReadBytes_ok {n addr : Nat} {s : State} (hlen : addr + n ≤ s.inLen.toNat)
    (hok : ∀ k, addr ≤ k → k < addr + n → s.inBadAt k = false) :
    ∃ x, memReadBytes n addr s = .ok (some (s.inSlice addr n)) (s.setInOff x) := by
  induction n generalizing addr s with
  | zero => exact ⟨s.inOff, rfl⟩
  | succ n ih =>
    have h1 : ¬ s.inLen.toNat ≤ addr := by omega
    have h2 : ¬ s.inBadAt addr = true := by simp [hok addr (Nat.le_refl _) (by omega)]
    rw [memReadBytes, if_neg h1, if_neg h2]
    obtain ⟨x, hx⟩ := ih (addr := addr + 1) (s := s.setInOff (BitVec.ofNat 64 (addr + 1))) (by simp; omega)
      (fun k hk1 hk2 => by simpa using hok k (by omega) (by omega))
    exact ⟨x, by simp [hx, State.inSlice_succ]⟩

/-- A read that meets the end of the stream before any unreadable offset. -/
theorem memReadBytes_eos {n addr : Nat} {s : State} (hlen : s.inLen.toNat < addr + n) (hn : n ≠ 0)
    (hok : ∀ k, addr ≤ k → k < s.inLen.toNat → s.inBadAt k = false) :
    ∃ x, memReadBytes n addr s = .ok none (s.setInOff x) := by
  induction n generalizing addr s with
  | zero => exact absurd rfl hn
  | succ n ih =>
    rw [memReadBytes]
    by_cases h1 : s.inLen.toNat ≤ addr
    · rw [if_pos h1]; exact ⟨s.inOff, rfl⟩
    · have h2 : ¬ s.inBadAt addr = true := by simp [hok addr (Nat.le_refl _) (by omega)]
      rw [if_neg h1, if_neg h2]
      obtain ⟨x, hx⟩ := ih (addr := addr + 1) (s := s.setInOff (BitVec.ofNat 64 (addr + 1))) (by simp; omega) (by omega)
        (fun k hk1 hk2 => by simpa using hok k (by omega) (by simpa using hk2))
      exact ⟨x, by simp [hx]⟩

/-- What a read can do: it gives the bytes, or the end of the stream, or raises at the first unreadable offset; only the
IN read offset changes. -/
theorem memReadBytes_cases (n addr : Nat) (s : State) :
    (∃ x, memReadBytes n addr s = .ok (some (s.inSlice addr n)) (s.setInOff x)) ∨
    (∃ x, memReadBytes n addr s = .ok none (s.setInOff x) ∧ s.inLen.toNat < addr + n) ∨
    (∃ x o, memReadBytes n addr s = .raised ⟨.srcUnreadable, BitVec.ofNat 64 o⟩ (s.setInOff x) ∧
      addr ≤ o ∧ o < addr + n ∧ o < s.inLen.toNat ∧ s.inBadAt o = true) := by
  induction n generalizing addr s with
  | zero => exact .inl ⟨s.inOff, rfl⟩
  | succ n ih =>
    rw [memReadBytes]
    by_cases h1 : s.inLen.toNat ≤ addr
    · rw [if_pos h1]
      exact .inr (.inl ⟨s.inOff, rfl, by omega⟩)
    · rw [if_neg h1]
      by_cases h2 : s.inBadAt addr = true
      · rw [if_pos h2]
        exact .inr (.inr ⟨s.inOff, addr, rfl, Nat.le_refl _, by omega, by omega, h2⟩)
      · rw [if_neg h2]
        rcases ih (addr + 1) (s.setInOff (BitVec.ofNat 64 (addr + 1))) with ⟨x, h⟩ | ⟨x, h, hl⟩ | ⟨x, o, h, ho⟩
        · exact .inl ⟨x, by simp [h, State.inSlice_succ]⟩
        · exact .inr (.inl ⟨x, by simp [h], by simp at hl; omega⟩)
        · refine .inr (.inr ⟨x, o, by simp [h], ?_⟩)
          obtain ⟨ho1, ho2, ho3, ho4⟩ := ho
          exact ⟨by omega, by omega, by simpa using ho3, by simpa using ho4⟩

/-- `MemRead` of bytes that are all there and readable. -/
theorem memRead_ok {n addr : Nat} {s : State} (hlen : addr + n ≤ s.inLen.toNat)
    (hok : ∀ k, addr ≤ k → k < addr + n → s.inBadAt k = false) :
    ∃ x, memRead addr n s = .ok (some (leValue (s.inSlice addr n))) (s.setInOff x) := by
  obtain ⟨x, hx⟩ := memReadBytes_ok hlen hok
  exact ⟨x, by rw [memRead, hx]⟩

/-- `MemRead` that meets the end of the stream before any unreadable offset. -/
theorem memRead_eos {n addr : Nat} {s : State} (hlen : s.inLen.toNat < addr + n) (hn : n ≠ 0)
    (hok : ∀ k, addr ≤ k → k < s.inLen.toNat → s.inBadAt k = false) :
    ∃ x, memRead addr n s = .ok none (s.setInOff x) := by
  obtain ⟨x, hx⟩ := memReadBytes_eos hlen hn hok
  exact ⟨x, by rw [memRead, hx]⟩

/-- What `MemRead` can do (R63). -/
theorem memRead_cases (addr n : Nat) (s : State) :
    (∃ x, memRead addr n s = .ok (some (leValue (s.inSlice addr n))) (s.setInOff x)) ∨
    (∃ x, memRead addr n s = .ok none (s.setInOff x) ∧ s.inLen.toNat < addr + n) ∨
    (∃ x o, memRead addr n s = .raised ⟨.srcUnreadable, BitVec.ofNat 64 o⟩ (s.setInOff x) ∧
      addr ≤ o ∧ o < addr + n ∧ o < s.inLen.toNat ∧ s.inBadAt o = true) := by
  rcases memReadBytes_cases n addr s with ⟨x, h⟩ | ⟨x, h, hl⟩ | ⟨x, o, h, ho⟩
  · exact .inl ⟨x, by rw [memRead, h]⟩
  · exact .inr (.inl ⟨x, by rw [memRead, h], hl⟩)
  · exact .inr (.inr ⟨x, o, by rw [memRead, h], ho⟩)

/-- The offset that decides a read (R63): past the end, or unreadable. -/
theorem memReadBytes_decided {n addr : Nat} {s : State} {j : Nat} (hj : j < n) (hok : ∀ k, k < j → addr + k < s.inLen.toNat ∧ s.inBadAt (addr + k) = false) :
    (s.inLen.toNat ≤ addr + j → ∃ x, memReadBytes n addr s = .ok none (s.setInOff x)) ∧
    (addr + j < s.inLen.toNat → s.inBadAt (addr + j) = true → ∃ x, memReadBytes n addr s = .raised ⟨.srcUnreadable, BitVec.ofNat 64 (addr + j)⟩ (s.setInOff x)) := by
  induction n generalizing addr s j with
  | zero => omega
  | succ n ih =>
    rw [memReadBytes]
    cases j with
    | zero =>
      rw [Nat.add_zero]
      constructor
      · intro h; rw [if_pos h]; exact ⟨s.inOff, rfl⟩
      · intro h hb; rw [if_neg (by omega), if_pos hb]; exact ⟨s.inOff, rfl⟩
    | succ j =>
      have h0 := hok 0 (by omega)
      rw [Nat.add_zero] at h0
      rw [if_neg (by omega), if_neg (by simp [h0.2])]
      have := ih (addr := addr + 1) (s := s.setInOff (BitVec.ofNat 64 (addr + 1))) (j := j) (by omega) (fun k hk => by
        have := hok (k + 1) (by omega)
        rw [show addr + 1 + k = addr + (k + 1) by omega]; simpa using this)
      rw [show addr + 1 + j = addr + (j + 1) by omega] at this
      constructor
      · intro h
        obtain ⟨x, hx⟩ := this.1 (by simpa using h)
        rw [hx]; exact ⟨x, rfl⟩
      · intro h hb
        obtain ⟨x, hx⟩ := this.2 (by simpa using h) (by simpa using hb)
        rw [hx]; exact ⟨x, rfl⟩

/-- `InByte(o)` (R63), all three outcomes. -/
theorem memRead_one (o : Nat) (s : State) :
    memRead o 1 s =
      if s.inLen.toNat ≤ o then .ok none s
      else if s.inBadAt o then .raised ⟨.srcUnreadable, BitVec.ofNat 64 o⟩ s
      else .ok (some (s.inByte o).toNat) (s.setInOff (BitVec.ofNat 64 (o + 1))) := by
  rw [memRead, memReadBytes]
  by_cases h1 : s.inLen.toNat ≤ o
  · simp [h1]
  · by_cases h2 : s.inBadAt o = true
    · simp [h1, h2]
    · simp [h1, h2, memReadBytes]

/-! ### Writing (R64) -/

theorem outLimit_lt (env : Env) : outLimit env < 2 ^ 64 := by
  unfold outLimit
  split <;> omega

theorem State.Fits.lt {s : State} {n : Nat} (h : s.Fits n) : s.outLen.toNat + n < 2 ^ 64 :=
  Nat.lt_of_le_of_lt h (outLimit_lt s.env)

@[simp] theorem State.appendOut_nil (s : State) : s.appendOut [] = s := by
  simp [State.appendOut, Memory.setAll, State.setOut]

theorem State.appendOut_outLen_toNat {s : State} {bs : List Byte} (h : s.Fits bs.length) :
    (s.appendOut bs).outLen.toNat = s.outLen.toNat + bs.length := by
  have := h.lt
  simp only [State.appendOut_outLen, BitVec.toNat_add, BitVec.toNat_ofNat]
  omega

theorem Memory.setAll_append (m : Memory) (x : Nat) (bs cs : List Byte) :
    Memory.setAll m x (bs ++ cs) = Memory.setAll (Memory.setAll m x bs) (x + bs.length) cs := by
  induction bs generalizing m x with
  | nil => rfl
  | cons b bs ih =>
    simp only [List.cons_append, Memory.setAll, ih, List.length_cons]
    rw [show x + 1 + bs.length = x + (bs.length + 1) by omega]

@[simp] theorem State.setOut_setOut (s : State) (m m' : Memory) (l l' : Count) :
    (s.setOut m l).setOut m' l' = s.setOut m' l' := rfl

theorem State.setOut_self (s : State) : s.setOut s.outMem s.outLen = s := rfl

theorem State.appendOut_append {s : State} {bs cs : List Byte} (h : s.Fits bs.length) :
    (s.appendOut bs).appendOut cs = s.appendOut (bs ++ cs) := by
  have hl := State.appendOut_outLen_toNat h
  rw [State.appendOut, hl, State.appendOut_outMem, State.appendOut_outLen]
  simp only [State.appendOut, State.setOut_setOut, Memory.setAll_append, List.length_append]
  rw [← BitVec.ofNat_add_ofNat, BitVec.add_assoc]

/-- `OutByte` with room. -/
theorem outByte_ok {v : Byte} {s : State} (h : s.Fits 1) : outByte v s = .ok () (s.appendOut [v]) := by
  have : s.outFull = false := by
    simp only [State.outFull, State.Fits] at *
    simp; omega
  rw [outByte, this]
  rfl

/-- `OutByte` without room (R64). -/
theorem outByte_full {v : Byte} {s : State} (h : ¬ s.Fits 1) :
    outByte v s = .raised ⟨.dstUnwritable, s.outLen⟩ s := by
  have : s.outFull = true := by
    simp only [State.outFull, State.Fits] at *
    simp; omega
  rw [outByte, this]
  rfl

/-- What `OutByte` can do. -/
theorem outByte_cases (v : Byte) (s : State) :
    (s.Fits 1 ∧ outByte v s = .ok () (s.appendOut [v])) ∨
    (¬ s.Fits 1 ∧ outByte v s = .raised ⟨.dstUnwritable, s.outLen⟩ s) := by
  by_cases h : s.Fits 1
  · exact .inl ⟨h, outByte_ok h⟩
  · exact .inr ⟨h, outByte_full h⟩

/-- A list of `OutByte` with room for all of it. -/
theorem outBytes_ok {bs : List Byte} {s : State} (h : s.Fits bs.length) :
    outBytes bs s = .ok () (s.appendOut bs) := by
  induction bs generalizing s with
  | nil => simp [outBytes]
  | cons b bs ih =>
    have h1 : s.Fits 1 := by simp only [State.Fits, List.length_cons] at *; omega
    have h2 : (s.appendOut [b]).Fits bs.length := by
      have := State.appendOut_outLen_toNat (bs := [b]) h1
      simp only [State.Fits, List.length_cons, this, State.appendOut_env, List.length_nil] at *
      omega
    rw [outBytes, outByte_ok h1]
    simp only
    rw [ih h2, State.appendOut_append h1]
    rfl

/-- A list of `OutByte` that OUT has no room for: the write that finds OUT full raises (R229), and its info is the
number of bytes OUT takes (R221). -/
theorem outBytes_full {bs : List Byte} {s : State} (hl : s.outLen.toNat ≤ outLimit s.env) (h : ¬ s.Fits bs.length) :
    ∃ k, k < bs.length ∧ outBytes bs s =
      .raised ⟨.dstUnwritable, BitVec.ofNat 64 (outLimit s.env)⟩ (s.appendOut (bs.take k)) := by
  induction bs generalizing s with
  | nil => exact absurd hl h
  | cons b bs ih =>
    by_cases h1 : s.Fits 1
    · have hlen := State.appendOut_outLen_toNat (bs := [b]) h1
      have henv : (s.appendOut [b]).env = s.env := rfl
      have hl' : (s.appendOut [b]).outLen.toNat ≤ outLimit (s.appendOut [b]).env := by
        rw [hlen, henv]; exact h1
      have h2 : ¬ (s.appendOut [b]).Fits bs.length := by
        simp only [State.Fits, List.length_cons, hlen, henv] at *
        simp only [List.length_nil]
        omega
      obtain ⟨k, hk, heq⟩ := ih hl' h2
      refine ⟨k + 1, by simpa using hk, ?_⟩
      rw [outBytes, outByte_ok h1]
      simp only
      rw [heq, State.appendOut_append h1]
      rfl
    · refine ⟨0, by simp, ?_⟩
      rw [outBytes, outByte_full h1]
      have : s.outLen = BitVec.ofNat 64 (outLimit s.env) := by
        have : s.outLen.toNat = outLimit s.env := by simp only [State.Fits] at h1; omega
        rw [← this]; simp
      simp [← this]

/-- Writing bytes to an OUT too small for them (R64): those that fit are there. -/
theorem outBytes_full_take {bs : List Byte} {s : State} (hl : s.outLen.toNat ≤ outLimit s.env) (h : ¬ s.Fits bs.length) :
    outBytes bs s = .raised ⟨.dstUnwritable, BitVec.ofNat 64 (outLimit s.env)⟩ (s.appendOut (bs.take (outLimit s.env - s.outLen.toNat))) := by
  induction bs generalizing s with
  | nil => exact absurd hl h
  | cons b bs ih =>
    rw [outBytes]
    by_cases h1 : s.Fits 1
    · rw [outByte_ok h1]
      simp only
      have e1 := State.appendOut_outLen_toNat (bs := [b]) h1
      simp only [List.length_singleton] at e1
      have hf : s.outLen.toNat + 1 ≤ outLimit s.env := h1
      have henv : outLimit (s.appendOut [b]).env = outLimit s.env := rfl
      rw [ih (by rw [e1, henv]; exact hf) (by
        intro hc; apply h
        have hc' : (s.appendOut [b]).outLen.toNat + bs.length ≤ outLimit s.env := hc
        show s.outLen.toNat + (bs.length + 1) ≤ outLimit s.env
        omega), henv, e1, State.appendOut_append h1]
      congr 2
      obtain ⟨d, hd⟩ : ∃ d, outLimit s.env - s.outLen.toNat = d + 1 := ⟨outLimit s.env - s.outLen.toNat - 1, by omega⟩
      rw [hd, List.take_succ_cons, show outLimit s.env - (s.outLen.toNat + 1) = d by omega]; rfl
    · rw [outByte_full h1]
      have : ¬ s.outLen.toNat + 1 ≤ outLimit s.env := h1
      rw [show outLimit s.env - s.outLen.toNat = 0 by omega]
      simp only [List.take_zero, State.appendOut_nil]
      congr 2
      apply BitVec.eq_of_toNat_eq
      rw [BitVec.toNat_ofNat, Nat.mod_eq_of_lt (outLimit_lt _)]; omega

/-- ... and their number is all that OUT takes. -/
theorem State.appendOut_full {s : State} {bs : List Byte} (hl : s.outLen.toNat ≤ outLimit s.env) (h : ¬ s.Fits bs.length) :
    (s.appendOut (bs.take (outLimit s.env - s.outLen.toNat))).outLen.toNat = outLimit s.env := by
  simp only [State.Fits] at h
  have ht : (bs.take (outLimit s.env - s.outLen.toNat)).length = outLimit s.env - s.outLen.toNat := by
    rw [List.length_take]; omega
  rw [State.appendOut_outLen_toNat (by rw [ht, State.Fits]; omega), ht]
  omega

/-- What a list of `OutByte` can do: it appends the bytes, or raises with some of them appended. -/
theorem outBytes_cases (bs : List Byte) (s : State) :
    (s.Fits bs.length ∧ outBytes bs s = .ok () (s.appendOut bs)) ∨
    (bs ≠ [] ∧ ∃ info m l, outBytes bs s = .raised ⟨.dstUnwritable, info⟩ (s.setOut m l)) ∨
    (bs = [] ∧ outBytes bs s = .ok () s) := by
  cases bs with
  | nil => exact .inr (.inr ⟨rfl, rfl⟩)
  | cons b bs =>
    by_cases h : s.Fits (b :: bs).length
    · exact .inl ⟨h, outBytes_ok h⟩
    · by_cases hl : s.outLen.toNat ≤ outLimit s.env
      · obtain ⟨k, _, hk⟩ := outBytes_full hl h
        exact .inr (.inl ⟨by simp, _, _, _, hk⟩)
      · refine .inr (.inl ⟨by simp, s.outLen, s.outMem, s.outLen, ?_⟩)
        have h1 : ¬ s.Fits 1 := by simp only [State.Fits]; omega
        simp [outBytes, outByte_full h1, State.setOut_self]

end Sys2Proof.Machine
end

