-- ==== Sys2Proof/Laws/BitPacker.lean ====
section
/-! SUPPORT. What the bit packer does, for the sink of PACK and the sink of ENCODE at once (43_bit_packer.md R161 to R164). -/

namespace Sys2Proof.Machine

/-! ### Sinks -/

/-- A sink that takes bytes while there is room: `put` is what it does with them. -/
structure Sink (sink : Byte → State → Res Unit) (put : List Byte → State → State) (room : State → Nat → Prop) : Prop where
  takes : ∀ {v s n}, room s (n + 1) → sink v s = .ok () (put [v] s) ∧ room (put [v] s) n
  nil : ∀ s, put [] s = s
  append : ∀ {a b s}, room s (a.length + b.length) → put b (put a s) = put (a ++ b) s
  less : ∀ {s m n}, m ≤ n → room s n → room s m
  packer : ∀ s a n k, room (s.setPacker a n) k ↔ room s k
  inOff : ∀ s x k, room (s.setInOff x) k ↔ room s k
  putPacker : ∀ bs s a n, put bs (s.setPacker a n) = (put bs s).setPacker a n
  putInOff : ∀ bs s x, put bs (s.setInOff x) = (put bs s).setInOff x
  acc : ∀ bs s, (put bs s).acc = s.acc
  fill : ∀ bs s, (put bs s).fill = s.fill
  ct : ∀ bs s, (put bs s).ct = s.ct
  inLen : ∀ bs s, (put bs s).inLen = s.inLen
  inByte : ∀ bs s o, (put bs s).inByte o = s.inByte o
  inBadAt : ∀ bs s o, (put bs s).inBadAt o = s.inBadAt o

/-- OUT as a sink. -/
theorem outSink : Sink outByte (fun bs s => s.appendOut bs) State.Fits where
  takes {v s n} h := by
    have h1 : s.Fits 1 := by simp only [State.Fits] at *; omega
    refine ⟨outByte_ok h1, ?_⟩
    have := State.appendOut_outLen_toNat (bs := [v]) h1
    simp only [State.Fits, State.appendOut_env, this, List.length_singleton] at *
    omega
  nil s := State.appendOut_nil s
  append {a b s} h := State.appendOut_append (by simp only [State.Fits] at *; omega)
  less h h1 := by simp only [State.Fits] at *; omega
  packer s a n k := by simp
  inOff s x k := by simp
  putPacker bs s a n := rfl
  putInOff bs s x := rfl
  acc bs s := rfl
  fill bs s := rfl
  ct bs s := rfl
  inLen bs s := rfl
  inByte bs s o := rfl
  inBadAt bs s o := rfl

/-- PAY as a sink, which always has room (R189). -/
theorem paySink : Sink payByte (fun bs s => s.setPay (s.pay ++ bs)) (fun _ _ => True) where
  takes _ := ⟨rfl, trivial⟩
  nil s := by simp [State.setPay]
  append _ := by simp [State.setPay]
  less _ _ := trivial
  packer s a n k := Iff.rfl
  inOff s x k := Iff.rfl
  putPacker bs s a n := rfl
  putInOff bs s x := rfl
  acc bs s := rfl
  fill bs s := rfl
  ct bs s := rfl
  inLen bs s := rfl
  inByte bs s o := rfl
  inBadAt bs s o := rfl

/-! ### The accumulator -/

theorem setPacker_setPacker (s : State) (a a' : BitVec 8) (n n' : BitVec 4) :
    (s.setPacker a n).setPacker a' n' = s.setPacker a' n' := rfl

theorem setPacker_setInOff (s : State) (a : BitVec 8) (n : BitVec 4) (x : BitVec 64) :
    (s.setInOff x).setPacker a n = (s.setPacker a n).setInOff x := rfl

/-- The state with the bits `buf` in the accumulator (R161). -/
def State.buffered (s : State) (buf : List Bool) : State := s.setPacker (accOf buf) (BitVec.ofNat 4 buf.length)

theorem State.buffered_buffered (s : State) (a b : List Bool) : (s.buffered a).buffered b = s.buffered b := rfl

theorem State.buffered_nil (s : State) : s.setPacker 0 0 = s.buffered [] := rfl

theorem State.buffered_shiftBit (s : State) (buf : List Bool) (b : Bool) :
    (s.buffered buf).shiftBit b = s.buffered (buf ++ [b]) := by
  rw [State.buffered, State.shiftBit, State.buffered, accOf_concat]
  have : BitVec.ofNat 4 buf.length + 1 = BitVec.ofNat 4 (buf ++ [b]).length := by
    rw [List.length_append, List.length_singleton, ← BitVec.ofNat_add_ofNat]
    rfl
  rw [← this]
  rfl

/-- A full accumulator. -/
theorem buffered_fill {s : State} {buf : List Bool} (hb : buf.length < 8) (b : Bool) :
    ((s.buffered (buf ++ [b])).fill = 8) ↔ buf.length = 7 := by
  rw [State.buffered, State.setPacker_fill, List.length_append, List.length_singleton]
  constructor
  · intro h
    have := congrArg BitVec.toNat h
    rw [BitVec.toNat_ofNat, Nat.mod_eq_of_lt (by omega)] at this
    have h8 : (8 : BitVec 4).toNat = 8 := rfl
    omega
  · intro h; rw [h]; rfl

section
variable {sink : Byte → State → Res Unit} {put : List Byte → State → State} {room : State → Nat → Prop}

theorem Sink.buffered (hs : Sink sink put room) (s : State) (buf : List Bool) (k : Nat) :
    room (s.buffered buf) k ↔ room s k := hs.packer s _ _ k

theorem Sink.putBuffered (hs : Sink sink put room) (bs : List Byte) (s : State) (buf : List Bool) :
    put bs (s.buffered buf) = (put bs s).buffered buf := hs.putPacker bs s _ _

/-- Room left after some bytes are put. -/
theorem Sink.room_put (hs : Sink sink put room) (a : List Byte) {t : State} {m : Nat} (h : room t (a.length + m)) :
    room (put a t) m := by
  induction a generalizing t m with
  | nil => rw [hs.nil]; simpa using h
  | cons v a iha =>
    simp only [List.length_cons] at h
    have h3 := (hs.takes (v := v) (n := a.length + m) (by
      rw [show a.length + m + 1 = a.length + 1 + m by omega]; exact h)).2
    have h4 := iha h3
    rw [hs.append (by
      simp only [List.length_singleton]
      exact hs.less (show 1 + a.length ≤ a.length + 1 + m by omega) h)] at h4
    exact h4

theorem Sink.putSlice (hs : Sink sink put room) (a : List Byte) (t : State) (o n : Nat) :
    (put a t).inSlice o n = t.inSlice o n := by
  induction n generalizing o with
  | zero => rfl
  | succ n ih => rw [State.inSlice_succ, State.inSlice_succ, hs.inByte, ih]

/-- The bits of a code go into the accumulator; each full byte goes to the sink (R161). -/
theorem packBits_ok (hs : Sink sink put room) {bits buf : List Bool} (hb : buf.length < 8) {s : State}
    (hr : room s (cutBits buf bits).1.length) :
    packBits sink bits (s.buffered buf) = .ok () ((put (cutBits buf bits).1 s).buffered (cutBits buf bits).2) := by
  induction bits generalizing buf s with
  | nil => simp only [packBits, cutBits, hs.nil]
  | cons b bits ih =>
    rw [packBits, packBit]
    simp only [State.buffered_shiftBit]
    by_cases h7 : buf.length = 7
    · rw [if_pos ((buffered_fill hb b).mpr h7)]
      rw [cutBits, if_pos h7] at hr ⊢
      simp only [List.length_cons] at hr
      obtain ⟨h1, h2⟩ := hs.takes (v := accOf (buf ++ [b])) ((hs.buffered s (buf ++ [b]) _).mpr hr)
      have hacc : (s.buffered (buf ++ [b])).acc = accOf (buf ++ [b]) := rfl
      rw [hacc, h1]
      simp only
      rw [hs.putBuffered, State.buffered_nil, State.buffered_buffered]
      rw [hs.putBuffered, hs.buffered] at h2
      rw [ih (by simp) h2, hs.append (by simpa [Nat.add_comm] using hr)]
      rfl
    · rw [if_neg (mt (buffered_fill hb b).mp h7)]
      rw [cutBits, if_neg h7] at hr ⊢
      exact ih (by simp; omega) hr

/-- The loop of R161 over bytes that are readable and have codes: it is done with them after `n` passes. -/
theorem packLoop_ok (hs : Sink sink put room) {n k o : Nat} {buf : List Bool} (hb : buf.length < 8) {s : State}
    (hlen : o + n ≤ s.inLen.toNat) (hok : ∀ k, o ≤ k → k < o + n → s.inBadAt k = false)
    (hcode : ∀ b ∈ s.inSlice o n, codeOf s.ct b ≠ [])
    (hr : room s (cutBits buf (codeBits s.ct (s.inSlice o n))).1.length) :
    ∃ x, packLoop sink (n + k) o (s.buffered buf) =
      packLoop sink k (o + n) (((put (cutBits buf (codeBits s.ct (s.inSlice o n))).1 s).buffered
        (cutBits buf (codeBits s.ct (s.inSlice o n))).2).setInOff x) := by
  induction n generalizing o buf s with
  | zero =>
    refine ⟨s.inOff, ?_⟩
    simp only [State.inSlice_zero, codeBits, List.flatMap_nil, cutBits, hs.nil, Nat.zero_add, Nat.add_zero]
    rfl
  | succ n ih =>
    have h1 : ¬ (s.buffered buf).inLen.toNat ≤ o := by
      show ¬ s.inLen.toNat ≤ o
      omega
    have h2 : ¬ (s.buffered buf).inBadAt o = true := by
      show ¬ s.inBadAt o = true
      simp [hok o (Nat.le_refl _) (by omega)]
    rw [show n + 1 + k = (n + k) + 1 by omega, packLoop, memRead_one, if_neg h1, if_neg h2]
    simp only [BitVec.ofNat_toNat, BitVec.setWidth_eq, State.setInOff_ct]
    have hbyte : (s.buffered buf).inByte o = s.inByte o := rfl
    have hct : (s.buffered buf).ct = s.ct := rfl
    rw [hbyte, hct]
    rw [State.inSlice_succ] at hcode hr ⊢
    have hc0 := hcode _ (List.mem_cons_self ..)
    rw [if_neg hc0]
    have hcb : codeBits s.ct (s.inByte o :: s.inSlice (o + 1) n) =
        codeOf s.ct (s.inByte o) ++ codeBits s.ct (s.inSlice (o + 1) n) := rfl
    rw [hcb, cutBits_append] at hr ⊢
    simp only [List.length_append] at hr
    have hmove : (s.buffered buf).setInOff (BitVec.ofNat 64 (o + 1)) =
        (s.setInOff (BitVec.ofNat 64 (o + 1))).buffered buf := rfl
    have hr1 : room (s.setInOff (BitVec.ofNat 64 (o + 1))) (cutBits buf (codeOf s.ct (s.inByte o))).1.length :=
      (hs.inOff s _ _).mpr (hs.less (Nat.le_add_right _ _) hr)
    rw [hmove, packBits_ok hs hb hr1, hs.putInOff]
    simp only
    have hb2 := (cutBits_length (bits := codeOf s.ct (s.inByte o)) hb).1
    have hr2 := hs.room_put _ hr
    obtain ⟨x, hx⟩ := ih (o := o + 1) (buf := (cutBits buf (codeOf s.ct (s.inByte o))).2) hb2
      (s := (put (cutBits buf (codeOf s.ct (s.inByte o))).1 s).setInOff (BitVec.ofNat 64 (o + 1)))
      (by simp only [State.setInOff_inLen, hs.inLen]; omega)
      (fun j hj1 hj2 => by simp only [State.setInOff_inBadAt, hs.inBadAt]; exact hok j (by omega) (by omega))
      (by
        intro b hb'
        simp only [State.setInOff_inSlice, hs.putSlice] at hb'
        simp only [State.setInOff_ct, hs.ct]
        exact hcode b (List.mem_cons_of_mem _ hb'))
      (by
        simp only [State.setInOff_ct, hs.ct, State.setInOff_inSlice, hs.putSlice]
        exact (hs.inOff _ _ _).mpr hr2)
    refine ⟨x, ?_⟩
    rw [hx]
    simp only [State.setInOff_ct, hs.ct, State.setInOff_inSlice, hs.putSlice, hs.putInOff]
    rw [hs.append (by
      exact hr), show o + 1 + n = o + (n + 1) by omega]
    rfl

/-- `Pack(sink)` on a readable source whose bytes all have codes: the sink gets the bit stream cut into bytes, and the
answer is `T mod 8` (R161, R162, R107). -/
theorem packRun_ok (hs : Sink sink put room) {s : State} (hok : s.Readable)
    (hcode : ∀ b ∈ s.inBytes, codeOf s.ct b ≠ [])
    (hr : room s (packedBytes (codeBits s.ct s.inBytes)).length) :
    ∃ a f x, packRun sink s = .ok (BitVec.ofNat 3 ((codeBits s.ct s.inBytes).length % 8))
      (((put (packedBytes (codeBits s.ct s.inBytes)) s).setPacker a f).setInOff x) := by
  have hcut := packedBytes_cut (buf := []) (bits := codeBits s.ct s.inBytes) (by simp)
  obtain ⟨hl1, hl2⟩ := cutBits_length (buf := []) (bits := codeBits s.ct s.inBytes) (by simp)
  rw [List.nil_append] at hcut
  simp only [List.length_nil, Nat.zero_add] at hl2
  rw [hcut] at hr ⊢
  rw [List.length_append] at hr
  obtain ⟨x, hx⟩ := packLoop_ok hs (n := s.inLen.toNat) (k := 0) (o := 0) (buf := []) (by simp) (s := s) (by omega)
    (fun k _ hk => hok k (by omega)) hcode (hs.less (Nat.le_add_right _ _) hr)
  rw [packRun, State.buffered_nil]
  rw [Nat.add_zero] at hx
  rw [hx, packLoop]
  simp only
  rw [packFlush]
  have hfill : ((((put (cutBits [] (codeBits s.ct (s.inSlice 0 s.inLen.toNat))).1 s).buffered
      (cutBits [] (codeBits s.ct (s.inSlice 0 s.inLen.toNat))).2)).setInOff x).fill =
      BitVec.ofNat 4 (cutBits [] (codeBits s.ct s.inBytes)).2.length := rfl
  rw [hfill]
  have h40 : (BitVec.ofNat 4 (cutBits [] (codeBits s.ct s.inBytes)).2.length = 0) ↔
      (cutBits [] (codeBits s.ct s.inBytes)).2 = [] := by
    rw [← List.length_eq_zero_iff]
    constructor
    · intro h
      have := congrArg BitVec.toNat h
      rw [BitVec.toNat_ofNat, Nat.mod_eq_of_lt (by omega)] at this
      exact this
    · intro h; rw [h]; rfl
  by_cases h0 : (cutBits [] (codeBits s.ct s.inBytes)).2 = []
  · rw [if_pos (h40.mpr h0), h0, lastByte, if_pos rfl, List.append_nil]
    rw [h0, List.length_nil, Nat.add_zero] at hl2
    refine ⟨accOf (cutBits [] (codeBits s.ct s.inBytes)).2,
      BitVec.ofNat 4 (cutBits [] (codeBits s.ct s.inBytes)).2.length, x, ?_⟩
    rw [show (codeBits s.ct s.inBytes).length % 8 = 0 by omega]
    rfl
  · rw [if_neg (mt h40.mp h0), lastByte, if_neg h0]
    rw [lastByte, if_neg h0, List.length_singleton] at hr
    have hacc : ((((put (cutBits [] (codeBits s.ct (s.inSlice 0 s.inLen.toNat))).1 s).buffered
      (cutBits [] (codeBits s.ct (s.inSlice 0 s.inLen.toNat))).2)).setInOff x).acc =
      accOf (cutBits [] (codeBits s.ct s.inBytes)).2 := rfl
    have hf4 : (BitVec.ofNat 4 (cutBits [] (codeBits s.ct s.inBytes)).2.length).toNat =
      (cutBits [] (codeBits s.ct s.inBytes)).2.length := by
      rw [BitVec.toNat_ofNat, Nat.mod_eq_of_lt (by omega)]
    rw [hacc, hf4]
    have hr2 := (hs.inOff _ x _).mpr ((hs.buffered _ (cutBits [] (codeBits s.ct s.inBytes)).2 _).mpr (hs.room_put _ hr))
    obtain ⟨h1, _⟩ := hs.takes (n := 0)
      (v := accOf (cutBits [] (codeBits s.ct s.inBytes)).2 <<< (8 - (cutBits [] (codeBits s.ct s.inBytes)).2.length)) hr2
    have hib : s.inSlice 0 s.inLen.toNat = s.inBytes := rfl
    rw [hib, h1]
    refine ⟨accOf (cutBits [] (codeBits s.ct s.inBytes)).2,
      BitVec.ofNat 4 (cutBits [] (codeBits s.ct s.inBytes)).2.length, x, ?_⟩
    simp only
    rw [hs.putInOff, hs.putBuffered, hs.append (by simpa using hr)]
    congr 1
    apply BitVec.eq_of_toNat_eq
    rw [BitVec.toNat_setWidth, hf4, BitVec.toNat_ofNat]
    omega

/-- `Pack(sink)` at the first byte without a code, offset `o` (R161, R165). -/
theorem packRun_noCode (hs : Sink sink put room) {s : State} {o : Nat} (ho : o < s.inLen.toNat)
    (hok : ∀ k, k ≤ o → s.inBadAt k = false) (hcode : ∀ b ∈ s.inSlice 0 o, codeOf s.ct b ≠ [])
    (hno : codeOf s.ct (s.inByte o) = []) (hr : room s ((codeBits s.ct (s.inSlice 0 o)).length / 8)) :
    ∃ t, packRun sink s = .raised ⟨.noCode, BitVec.ofNat 64 o⟩ t := by
  obtain ⟨hl1, hl2⟩ := cutBits_length (buf := []) (bits := codeBits s.ct (s.inSlice 0 o)) (by simp)
  simp only [List.length_nil, Nat.zero_add] at hl2
  obtain ⟨x, hx⟩ := packLoop_ok hs (n := o) (k := s.inLen.toNat - o) (o := 0) (buf := []) (by simp) (s := s) (by omega)
    (fun k _ hk => hok k (by omega)) hcode (hs.less (by omega) hr)
  rw [packRun, State.buffered_nil]
  rw [show o + (s.inLen.toNat - o) = s.inLen.toNat by omega, show s.inLen.toNat - o = (s.inLen.toNat - o - 1) + 1 by omega] at hx
  rw [hx, Nat.zero_add]
  have hlen : ∀ t : State, ((t.buffered (cutBits [] (codeBits s.ct (s.inSlice 0 o))).2).setInOff x).inLen = t.inLen :=
    fun _ => rfl
  have hbad : ∀ t : State, ((t.buffered (cutBits [] (codeBits s.ct (s.inSlice 0 o))).2).setInOff x).inBadAt o =
    t.inBadAt o := fun _ => rfl
  have hbyte : ∀ t : State, ((t.buffered (cutBits [] (codeBits s.ct (s.inSlice 0 o))).2).setInOff x).inByte o =
    t.inByte o := fun _ => rfl
  have hct : ∀ (t : State) (y : BitVec 64),
    (((t.buffered (cutBits [] (codeBits s.ct (s.inSlice 0 o))).2).setInOff x).setInOff y).ct = t.ct := fun _ _ => rfl
  rw [packLoop, memRead_one, hlen, hs.inLen, if_neg (by omega), hbad, hs.inBadAt, hok o (Nat.le_refl _), hbyte, hs.inByte]
  simp only [BitVec.ofNat_toNat, BitVec.setWidth_eq, Bool.false_eq_true, if_false, hct, hs.ct, if_pos hno]
  exact ⟨_, rfl⟩

/-- `Pack(sink)` at the first unreadable offset `o` (R161). -/
theorem packRun_unreadable (hs : Sink sink put room) {s : State} {o : Nat} (ho : o < s.inLen.toNat)
    (hok : ∀ k, k < o → s.inBadAt k = false) (hcode : ∀ b ∈ s.inSlice 0 o, codeOf s.ct b ≠ [])
    (hno : s.inBadAt o = true) (hr : room s ((codeBits s.ct (s.inSlice 0 o)).length / 8)) :
    ∃ t, packRun sink s = .raised ⟨.srcUnreadable, BitVec.ofNat 64 o⟩ t := by
  obtain ⟨hl1, hl2⟩ := cutBits_length (buf := []) (bits := codeBits s.ct (s.inSlice 0 o)) (by simp)
  simp only [List.length_nil, Nat.zero_add] at hl2
  obtain ⟨x, hx⟩ := packLoop_ok hs (n := o) (k := s.inLen.toNat - o) (o := 0) (buf := []) (by simp) (s := s) (by omega)
    (fun k _ hk => hok k (by omega)) hcode (hs.less (by omega) hr)
  rw [packRun, State.buffered_nil]
  rw [show o + (s.inLen.toNat - o) = s.inLen.toNat by omega, show s.inLen.toNat - o = (s.inLen.toNat - o - 1) + 1 by omega] at hx
  rw [hx, Nat.zero_add]
  have hlen : ∀ t : State, ((t.buffered (cutBits [] (codeBits s.ct (s.inSlice 0 o))).2).setInOff x).inLen = t.inLen :=
    fun _ => rfl
  have hbad : ∀ t : State, ((t.buffered (cutBits [] (codeBits s.ct (s.inSlice 0 o))).2).setInOff x).inBadAt o =
    t.inBadAt o := fun _ => rfl
  rw [packLoop, memRead_one, hlen, hs.inLen, if_neg (by omega), hbad, hs.inBadAt, hno]
  exact ⟨_, rfl⟩

/-- `packRun_ok` for the whole of `Pack(sink)`. -/
theorem packAll_ok (hs : Sink sink put room) {s : State} (hok : s.Readable)
    (hcode : ∀ b ∈ s.inBytes, codeOf s.ct b ≠ [])
    (hr : room s (packedBytes (codeBits s.ct s.inBytes)).length) :
    ∃ a f x, packAll sink s = .ok (BitVec.ofNat 3 ((codeBits s.ct s.inBytes).length % 8))
      (((put (packedBytes (codeBits s.ct s.inBytes)) s).setPacker a f).setInOff x) := by
  obtain ⟨a, f, x, h⟩ := packRun_ok hs (s := s.setInOff 0) (by simpa using hok) (by simpa using hcode)
    ((hs.inOff _ _ _).mpr (by simpa using hr))
  refine ⟨a, f, x, ?_⟩
  rw [State.setInOff_ct, State.setInOff_inBytes, hs.putInOff] at h
  exact h

/-- `packRun_noCode` for the whole of `Pack(sink)`. -/
theorem packAll_noCode (hs : Sink sink put room) {s : State} {o : Nat} (ho : o < s.inLen.toNat)
    (hok : ∀ k, k ≤ o → s.inBadAt k = false) (hcode : ∀ b ∈ s.inSlice 0 o, codeOf s.ct b ≠ [])
    (hno : codeOf s.ct (s.inByte o) = []) (hr : room s ((codeBits s.ct (s.inSlice 0 o)).length / 8)) :
    ∃ t, packAll sink s = .raised ⟨.noCode, BitVec.ofNat 64 o⟩ t :=
  packRun_noCode hs (s := s.setInOff 0) (by simpa using ho) (by simpa using hok) (by simpa using hcode) (by simpa using hno)
    ((hs.inOff _ _ _).mpr (by simpa using hr))

/-- `packRun_unreadable` for the whole of `Pack(sink)`. -/
theorem packAll_unreadable (hs : Sink sink put room) {s : State} {o : Nat} (ho : o < s.inLen.toNat)
    (hok : ∀ k, k < o → s.inBadAt k = false) (hcode : ∀ b ∈ s.inSlice 0 o, codeOf s.ct b ≠ [])
    (hno : s.inBadAt o = true) (hr : room s ((codeBits s.ct (s.inSlice 0 o)).length / 8)) :
    ∃ t, packAll sink s = .raised ⟨.srcUnreadable, BitVec.ofNat 64 o⟩ t :=
  packRun_unreadable hs (s := s.setInOff 0) (by simpa using ho) (by simpa using hok) (by simpa using hcode) (by simpa using hno)
    ((hs.inOff _ _ _).mpr (by simpa using hr))

end

/-! ### An OUT that is too small (R64, R163) -/

/-- `Pack` has raised DST_UNWRITABLE: OUT holds all it can take, and the info is their number (R221). -/
def FullOut (env : Env) {α : Type} (r : Res α) : Prop :=
  ∃ t, r = .raised ⟨.dstUnwritable, BitVec.ofNat 64 (outLimit env)⟩ t ∧ t.outLen.toNat = outLimit env

/-- A byte for which OUT has no room. -/
theorem outByte_fullOut {v : Byte} {s : State} (hl : s.outLen.toNat ≤ outLimit s.env) (h : ¬ s.Fits 1) :
    outByte v s = .raised ⟨.dstUnwritable, BitVec.ofNat 64 (outLimit s.env)⟩ s ∧ s.outLen.toNat = outLimit s.env := by
  have h1 : s.outLen.toNat = outLimit s.env := by simp only [State.Fits] at h; omega
  rw [outByte_full h, ← h1, BitVec.ofNat_toNat, BitVec.setWidth_eq]
  exact ⟨rfl, rfl⟩

theorem packBits_full {bits buf : List Bool} (hb : buf.length < 8) {s : State} (hl : s.outLen.toNat ≤ outLimit s.env)
    (h : ¬ s.Fits (cutBits buf bits).1.length) : FullOut s.env (packBits outByte bits (s.buffered buf)) := by
  induction bits generalizing buf s with
  | nil => exact absurd hl h
  | cons b bits ih =>
    rw [packBits, packBit]
    simp only [State.buffered_shiftBit]
    by_cases h7 : buf.length = 7
    · rw [if_pos ((buffered_fill hb b).mpr h7)]
      rw [cutBits, if_pos h7] at h
      simp only [List.length_cons] at h
      by_cases h1 : s.Fits 1
      · have h1' : (s.buffered (buf ++ [b])).Fits 1 := h1
        rw [outByte_ok h1']
        simp only
        have hol := State.appendOut_outLen_toNat (bs := [accOf (buf ++ [b])]) h1
        simp only [List.length_singleton] at hol
        exact ih (buf := []) (s := s.appendOut [accOf (buf ++ [b])]) (by simp) (by rw [hol]; exact h1)
          (by simp only [State.Fits, hol] at *; rw [State.appendOut_env]; omega)
      · obtain ⟨ho, he⟩ := outByte_fullOut (v := (s.buffered (buf ++ [b])).acc) (s := s.buffered (buf ++ [b])) hl h1
        rw [ho]
        exact ⟨_, rfl, he⟩
    · rw [if_neg (mt (buffered_fill hb b).mp h7)]
      rw [cutBits, if_neg h7] at h
      exact ih (by simp; omega) hl h

theorem packLoop_full {n k o : Nat} {buf : List Bool} (hb : buf.length < 8) {s : State}
    (hlen : o + n ≤ s.inLen.toNat) (hok : ∀ k, o ≤ k → k < o + n → s.inBadAt k = false)
    (hcode : ∀ b ∈ s.inSlice o n, codeOf s.ct b ≠ []) (hl : s.outLen.toNat ≤ outLimit s.env)
    (h : ¬ s.Fits (cutBits buf (codeBits s.ct (s.inSlice o n))).1.length) :
    FullOut s.env (packLoop outByte (n + k) o (s.buffered buf)) := by
  induction n generalizing o buf s with
  | zero => exact absurd hl h
  | succ n ih =>
    have h1 : ¬ (s.buffered buf).inLen.toNat ≤ o := by
      show ¬ s.inLen.toNat ≤ o
      omega
    have h2 : ¬ (s.buffered buf).inBadAt o = true := by
      show ¬ s.inBadAt o = true
      simp [hok o (Nat.le_refl _) (by omega)]
    rw [State.inSlice_succ] at hcode h
    have hmove : (s.buffered buf).setInOff (BitVec.ofNat 64 (o + 1)) =
        (s.setInOff (BitVec.ofNat 64 (o + 1))).buffered buf := rfl
    rw [show n + 1 + k = (n + k) + 1 by omega, packLoop, memRead_one, if_neg h1, if_neg h2]
    simp only [BitVec.ofNat_toNat, BitVec.setWidth_eq, hmove]
    rw [show ((s.setInOff (BitVec.ofNat 64 (o + 1))).buffered buf).ct = s.ct from rfl, show (s.buffered buf).inByte o = s.inByte o from rfl,
      if_neg (hcode _ (List.mem_cons_self ..))]
    rw [show codeBits s.ct (s.inByte o :: s.inSlice (o + 1) n) = codeOf s.ct (s.inByte o) ++ codeBits s.ct (s.inSlice (o + 1) n) from rfl,
      cutBits_append] at h
    simp only [List.length_append] at h
    by_cases hf : s.Fits (cutBits buf (codeOf s.ct (s.inByte o))).1.length
    · have hol := State.appendOut_outLen_toNat hf
      rw [packBits_ok outSink hb (s := s.setInOff (BitVec.ofNat 64 (o + 1))) (by simpa using hf)]
      exact ih (o := o + 1) (s := (s.setInOff (BitVec.ofNat 64 (o + 1))).appendOut (cutBits buf (codeOf s.ct (s.inByte o))).1)
        (cutBits_length hb).1 (by simp only [State.appendOut_inLen, State.setInOff_inLen]; omega)
        (fun j hj1 hj2 => by simpa using hok j (by omega) (by omega))
        (by simpa using fun b hb' => hcode b (List.mem_cons_of_mem _ hb'))
        (by rw [show ((s.setInOff (BitVec.ofNat 64 (o + 1))).appendOut _).outLen = (s.appendOut _).outLen from rfl, hol]; exact hf)
        (by
          rw [State.Fits, show ((s.setInOff (BitVec.ofNat 64 (o + 1))).appendOut _).outLen = (s.appendOut _).outLen from rfl, hol]
          simp only [State.Fits, State.appendOut_env, State.setInOff_env, State.appendOut_ct, State.setInOff_ct, State.appendOut_inSlice,
            State.setInOff_inSlice] at *
          omega)
    · obtain ⟨t, ht, he⟩ := packBits_full (s := s.setInOff (BitVec.ofNat 64 (o + 1))) hb (by simpa using hl) (by simpa using hf)
      rw [ht]
      exact ⟨t, rfl, by simpa using he⟩

/-- `Pack` into an OUT that cannot take the whole bytes of a part of the input whose bytes have codes (R163). -/
theorem packAll_full_front {s : State} {o : Nat} (ho : o ≤ s.inLen.toNat) (hok : ∀ k, k < o → s.inBadAt k = false)
    (hcode : ∀ b ∈ s.inSlice 0 o, codeOf s.ct b ≠ []) (hl : s.outLen.toNat ≤ outLimit s.env)
    (h : ¬ s.Fits ((codeBits s.ct (s.inSlice 0 o)).length / 8)) : FullOut s.env (packAll outByte s) := by
  obtain ⟨hl1, hl2⟩ := cutBits_length (buf := []) (bits := codeBits s.ct (s.inSlice 0 o)) (by simp)
  simp only [List.length_nil, Nat.zero_add] at hl2
  obtain ⟨t, ht, he⟩ := packLoop_full (n := o) (k := s.inLen.toNat - o) (o := 0) (buf := []) (by simp) (s := s.setInOff 0)
    (by rw [State.setInOff_inLen]; omega) (fun k _ hk => by simpa using hok k (by omega)) (by simpa using hcode) (by simpa using hl)
    (by
      rw [State.setInOff_fits, State.setInOff_ct, State.setInOff_inSlice]
      intro hc; apply h; simp only [State.Fits] at *; omega)
  rw [show o + (s.inLen.toNat - o) = s.inLen.toNat by omega] at ht
  rw [packAll, packRun, State.buffered_nil, State.setInOff_inLen, ht]
  exact ⟨t, rfl, he⟩

/-- `Pack` into an OUT that cannot take the whole stream (R162, R163). -/
theorem packAll_full {s : State} (hok : s.Readable) (hcode : ∀ b ∈ s.inBytes, codeOf s.ct b ≠ []) (hl : s.outLen.toNat ≤ outLimit s.env)
    (h : ¬ s.Fits (((codeBits s.ct s.inBytes).length + 7) / 8)) : FullOut s.env (packAll outByte s) := by
  by_cases hf : s.Fits ((codeBits s.ct (s.inSlice 0 s.inLen.toNat)).length / 8)
  · obtain ⟨hl1, hl2⟩ := cutBits_length (buf := []) (bits := codeBits s.ct s.inBytes) (by simp)
    simp only [List.length_nil, Nat.zero_add] at hl2
    have hf1 : s.Fits (cutBits [] (codeBits s.ct s.inBytes)).1.length := by
      have hf' : s.Fits ((codeBits s.ct s.inBytes).length / 8) := hf
      simp only [State.Fits] at *; omega
    obtain ⟨x, hx⟩ := packLoop_ok outSink (n := s.inLen.toNat) (k := 0) (o := 0) (buf := []) (by simp) (s := s.setInOff 0) (by simp)
      (fun k _ hk => by simpa using hok k (by omega)) (by simpa [State.inBytes] using hcode) (by simpa [State.inBytes] using hf1)
    rw [Nat.add_zero, State.setInOff_ct, State.setInOff_inSlice, show s.inSlice 0 s.inLen.toNat = s.inBytes from rfl] at hx
    rw [packAll, packRun, State.buffered_nil, State.setInOff_inLen, hx, packLoop]
    simp only
    have hpos : (cutBits [] (codeBits s.ct s.inBytes)).2.length ≠ 0 := by
      intro hc; apply h; simp only [State.Fits] at *; omega
    generalize hu : (((s.setInOff 0).appendOut (cutBits [] (codeBits s.ct s.inBytes)).1).buffered
      (cutBits [] (codeBits s.ct s.inBytes)).2).setInOff x = u
    have hfill : u.fill = BitVec.ofNat 4 (cutBits [] (codeBits s.ct s.inBytes)).2.length := by rw [← hu]; rfl
    have hol : u.outLen.toNat = s.outLen.toNat + (cutBits [] (codeBits s.ct s.inBytes)).1.length := by
      rw [← State.appendOut_outLen_toNat hf1, ← hu]; rfl
    have henv : u.env = s.env := by rw [← hu]; rfl
    rw [packFlush, if_neg (by
      intro hc
      have := congrArg BitVec.toNat (hfill.symm.trans hc)
      rw [BitVec.toNat_ofNat, Nat.mod_eq_of_lt (by omega)] at this
      exact hpos this)]
    obtain ⟨ho, he⟩ := outByte_fullOut (v := u.acc <<< (8 - u.fill.toNat)) (s := u) (by rw [hol, henv]; exact hf1)
      (by rw [State.Fits, hol, henv]; simp only [State.Fits] at h; omega)
    rw [ho, ← henv]
    exact ⟨u, rfl, he⟩
  · exact packAll_full_front (Nat.le_refl _) hok hcode hl hf

/-! ### All it can do -/

theorem packBits_all {sink : Byte → State → Res Unit} {P : State → Prop} {E : Raise → Prop}
    (hp : ∀ s a f, P s → P (s.setPacker a f)) (hs : ∀ v s, P s → (sink v s).All P E) (bits : List Bool) {s : State}
    (h : P s) : (packBits sink bits s).All P E := by
  induction bits generalizing s with
  | nil => exact h
  | cons b bits ih =>
    have hb : (packBit sink b s).All P E := by
      have h1 : P (s.shiftBit b) := hp s _ _ h
      rw [packBit]
      split
      · have h2 := hs (s.shiftBit b).acc _ h1
        revert h2
        cases sink (s.shiftBit b).acc (s.shiftBit b) with
        | ok a t => exact fun h2 => hp t 0 0 h2
        | raised e t => exact fun h2 => h2
      · exact h1
    rw [packBits]
    revert hb
    cases packBit sink b s with
    | ok a t => exact fun hb => ih hb
    | raised e t => exact fun hb => hb

theorem packLoop_all {sink : Byte → State → Res Unit} {P : State → Prop} {E : Raise → Prop}
    (hp : ∀ s a f, P s → P (s.setPacker a f)) (hx : ∀ s x, P s → P (s.setInOff x))
    (hs : ∀ v s, P s → (sink v s).All P E) (he : ∀ info, E ⟨.srcUnreadable, info⟩) (hc : ∀ info, E ⟨.noCode, info⟩)
    (n o : Nat) {s : State} (h : P s) : (packLoop sink n o s).All P E := by
  induction n generalizing o s with
  | zero => exact h
  | succ n ih =>
    rw [packLoop, memRead_one]
    by_cases h1 : s.inLen.toNat ≤ o
    · rw [if_pos h1]; exact h
    · by_cases h2 : s.inBadAt o = true
      · rw [if_neg h1, if_pos h2]; exact ⟨he _, h⟩
      · rw [if_neg h1, if_neg h2]
        simp only
        have h3 := hx s (BitVec.ofNat 64 (o + 1)) h
        split
        · exact ⟨hc _, h3⟩
        · have h4 := packBits_all hp hs (codeOf (s.setInOff (BitVec.ofNat 64 (o + 1))).ct
            (BitVec.ofNat 8 (s.inByte o).toNat)) h3
          revert h4
          cases packBits sink (codeOf (s.setInOff (BitVec.ofNat 64 (o + 1))).ct (BitVec.ofNat 8 (s.inByte o).toNat))
            (s.setInOff (BitVec.ofNat 64 (o + 1))) with
          | ok a t => exact fun h4 => ih (o + 1) h4
          | raised e t => exact fun h4 => h4

/-- Whatever the packer's own writes and its sink's keep, the whole of `Pack(sink)` keeps; its raises are the source's,
the missing code's and the sink's. -/
theorem packRun_all {sink : Byte → State → Res Unit} {P : State → Prop} {E : Raise → Prop}
    (hp : ∀ s a f, P s → P (s.setPacker a f)) (hx : ∀ s x, P s → P (s.setInOff x))
    (hs : ∀ v s, P s → (sink v s).All P E) (he : ∀ info, E ⟨.srcUnreadable, info⟩) (hc : ∀ info, E ⟨.noCode, info⟩)
    {s : State} (h : P s) : (packRun sink s).All P E := by
  have h1 := packLoop_all hp hx hs he hc s.inLen.toNat 0 (hp s 0 0 h)
  rw [packRun]
  revert h1
  cases packLoop sink s.inLen.toNat 0 (s.setPacker 0 0) with
  | raised e t => exact fun h1 => h1
  | ok a t =>
    intro h1
    simp only [packFlush]
    split
    · exact h1
    · have h2 := hs (t.acc <<< (8 - t.fill.toNat)) t h1
      revert h2
      cases sink (t.acc <<< (8 - t.fill.toNat)) t with
      | ok a u => exact fun h2 => h2
      | raised e u => exact fun h2 => h2

theorem packAll_all {sink : Byte → State → Res Unit} {P : State → Prop} {E : Raise → Prop}
    (hp : ∀ s a f, P s → P (s.setPacker a f)) (hx : ∀ s x, P s → P (s.setInOff x))
    (hs : ∀ v s, P s → (sink v s).All P E) (he : ∀ info, E ⟨.srcUnreadable, info⟩) (hc : ∀ info, E ⟨.noCode, info⟩)
    {s : State} (h : P s) : (packAll sink s).All P E := packRun_all hp hx hs he hc (hx s 0 h)

/-- What `Pack` into OUT can do: it writes OUT, the packer's registers and the IN read offset. -/
theorem packAll_out_all (s : State) :
    (packAll outByte s).All (fun t => ∃ m l a f x, t = ((s.setOut m l).setPacker a f).setInOff x)
      (fun e => e.cause = .srcUnreadable ∨ e.cause = .noCode ∨ e.cause = .dstUnwritable) := by
  refine packAll_all ?_ ?_ ?_ (fun _ => .inl rfl) (fun _ => .inr (.inl rfl)) ⟨s.outMem, s.outLen, s.acc, s.fill, s.inOff, rfl⟩
  · rintro t a f ⟨m, l, a', f', x, rfl⟩
    exact ⟨m, l, a, f, x, rfl⟩
  · rintro t x ⟨m, l, a, f, x', rfl⟩
    exact ⟨m, l, a, f, x, rfl⟩
  · rintro v t ⟨m, l, a, f, x, rfl⟩
    rcases outByte_cases v (((s.setOut m l).setPacker a f).setInOff x) with ⟨_, h⟩ | ⟨_, h⟩
    · rw [h]; exact ⟨_, _, a, f, x, rfl⟩
    · rw [h]; exact ⟨.inr (.inr rfl), m, l, a, f, x, rfl⟩

/-- What `Pack` into PAY can do. -/
theorem packAll_pay_all (s : State) :
    (packAll payByte s).All (fun t => ∃ p a f x, t = ((s.setPay p).setPacker a f).setInOff x)
      (fun e => e.cause = .srcUnreadable ∨ e.cause = .noCode) := by
  refine packAll_all ?_ ?_ ?_ (fun _ => .inl rfl) (fun _ => .inr rfl) ⟨s.pay, s.acc, s.fill, s.inOff, rfl⟩
  · rintro t a f ⟨p, a', f', x, rfl⟩
    exact ⟨p, a, f, x, rfl⟩
  · rintro t x ⟨p, a, f, x', rfl⟩
    exact ⟨p, a, f, x, rfl⟩
  · rintro v t ⟨p, a, f, x, rfl⟩
    exact ⟨p ++ [v], a, f, x, rfl⟩

end Sys2Proof.Machine
end

