-- ==== Sys2Proof/Laws/Table.lean ====
section
/-! SUPPORT. The frequency table: reading after writing, its sum, and its nonzero entries in ascending symbol order. -/

namespace Sys2Proof.Machine

/-! ### Reading and writing FT -/

/-- Counting one more, below the top. -/
theorem toNat_succ {x : Count} (h : x.toNat + 1 < 2 ^ 64) : (x + 1).toNat = x.toNat + 1 := by
  have : (x + 1).toNat = (x.toNat + 1) % 2 ^ 64 := BitVec.toNat_add x 1
  omega

theorem ftAt_ftSet (ft : Vector Count 256) (a b : Byte) (v : Count) :
    ftAt (ftSet ft a v) b = if a = b then v else ftAt ft b := by
  simp only [ftAt, ftSet, Vector.getElem_set]
  by_cases h : a = b
  · simp [h]
  · have : a.toNat ≠ b.toNat := fun hc => h (BitVec.eq_of_toNat_eq hc)
    simp [h, this]

@[simp] theorem ftAt_ftZero (b : Byte) : ftAt ftZero b = 0 := by
  simp [ftAt, ftZero]

theorem ft_ext {ft ft' : Vector Count 256} (h : ∀ b, ftAt ft b = ftAt ft' b) : ft = ft' := by
  ext i hi
  have := h (BitVec.ofNat 8 i)
  simp only [ftAt, BitVec.toNat_ofNat, show i % 2 ^ 8 = i by omega] at this
  rw [this]

theorem ft_toList_getElem? (ft : Vector Count 256) (i : Nat) :
    ft.toList[i]? = if i < 256 then some (ftAt ft (BitVec.ofNat 8 i)) else none := by
  by_cases h : i < 256
  · rw [if_pos h, List.getElem?_eq_getElem (by simpa using h)]
    simp [ftAt, show i % 256 = i by omega]
  · rw [if_neg h, List.getElem?_eq_none (by simpa using h)]

/-! ### The sum -/

theorem countSum_eq_zero {l : List Count} : countSum l = 0 ↔ ∀ f ∈ l, f = 0 := by
  induction l with
  | nil => simp [countSum]
  | cons f l ih =>
    simp only [countSum, List.mem_cons, forall_eq_or_imp, ← ih]
    constructor
    · intro h
      exact ⟨BitVec.eq_of_toNat_eq (by simp; omega), by omega⟩
    · rintro ⟨rfl, h⟩
      simp [h]

theorem countSum_set {l : List Count} {i : Nat} {v : Count} (h : i < l.length) :
    countSum (l.set i v) + (l[i]).toNat = countSum l + v.toNat := by
  induction l generalizing i with
  | nil => simp at h
  | cons f l ih =>
    cases i with
    | zero => simp [countSum]; omega
    | succ i =>
      simp only [List.set_cons_succ, countSum, List.getElem_cons_succ]
      have := ih (i := i) (by simpa using h)
      omega

/-- Writing one entry changes the sum by the difference. -/
theorem ftSum_ftSet (ft : Vector Count 256) (b : Byte) (v : Count) :
    ftSum (ftSet ft b v) + (ftAt ft b).toNat = ftSum ft + v.toNat := by
  have hb : b.toNat < 256 := b.isLt
  have := countSum_set (l := ft.toList) (i := b.toNat) (v := v) (by simpa using hb)
  simpa [ftSum, ftSet, ftAt, Vector.toList_set] using this

@[simp] theorem ftSum_ftZero : ftSum ftZero = 0 := by
  rw [ftSum, countSum_eq_zero, ftZero, Vector.toList_replicate]
  exact fun f hf => List.eq_of_mem_replicate hf

theorem ftSum_eq_zero {ft : Vector Count 256} : ftSum ft = 0 ↔ ∀ b, ftAt ft b = 0 := by
  rw [ftSum, countSum_eq_zero]
  constructor
  · intro h b
    apply h
    simp [ftAt]
  · intro h f hf
    obtain ⟨i, hi, rfl⟩ := List.mem_iff_getElem.mp hf
    have hi' : i < 256 := by simpa using hi
    have := h (BitVec.ofNat 8 i)
    simpa [ftAt, show i % 256 = i by omega] using this

/-! ### The entries -/

/-- The sum of the entries' frequencies. -/
def entrySum (es : List (Byte × Count)) : Nat := countSum (es.map Prod.snd)

theorem entrySum_nonzeroFrom (s : Nat) (l : List Count) : entrySum (nonzeroFrom s l) = countSum l := by
  induction l generalizing s with
  | nil => rfl
  | cons f l ih =>
    rw [nonzeroFrom]
    split
    · rename_i h; subst h; simp [ih, countSum]
    · have := ih (s + 1)
      simp only [entrySum, List.map_cons, countSum] at *
      omega

/-- The frequencies of the entries add up to the table's sum. -/
theorem entrySum_ftEntries (ft : Vector Count 256) : entrySum (ftEntries ft) = ftSum ft :=
  entrySum_nonzeroFrom 0 ft.toList

theorem mem_nonzeroFrom {s : Nat} {l : List Count} {b : Byte} {f : Count} (hs : s + l.length ≤ 256) :
    (b, f) ∈ nonzeroFrom s l ↔ s ≤ b.toNat ∧ l[b.toNat - s]? = some f ∧ f ≠ 0 := by
  induction l generalizing s with
  | nil => simp [nonzeroFrom]
  | cons g l ih =>
    simp only [List.length_cons] at hs
    have ih' := ih (s := s + 1) (by omega)
    have hcons : ∀ k, s + 1 ≤ k → (g :: l)[k - s]? = l[k - (s + 1)]? := by
      intro k hk
      rw [show k - s = (k - (s + 1)) + 1 by omega, List.getElem?_cons_succ]
    rw [nonzeroFrom]
    split
    · rename_i hg
      rw [ih']
      constructor
      · rintro ⟨h1, h2, h3⟩
        exact ⟨by omega, by rw [hcons _ h1]; exact h2, h3⟩
      · rintro ⟨h1, h2, h3⟩
        by_cases hb : b.toNat = s
        · rw [hb] at h2; simp at h2; exact absurd (h2.symm.trans hg) h3
        · exact ⟨by omega, by rw [← hcons _ (by omega)]; exact h2, h3⟩
    · rename_i hg
      rw [List.mem_cons, ih']
      constructor
      · rintro (h | ⟨h1, h2, h3⟩)
        · obtain ⟨h1, h2⟩ := Prod.mk.inj h
          subst h1; subst h2
          have : (BitVec.ofNat 8 s).toNat = s := by simp; omega
          exact ⟨by omega, by rw [this]; simp, hg⟩
        · exact ⟨by omega, by rw [hcons _ h1]; exact h2, h3⟩
      · rintro ⟨h1, h2, h3⟩
        by_cases hb : b.toNat = s
        · left
          rw [hb] at h2; simp at h2
          rw [h2, ← hb]; simp
        · right
          exact ⟨by omega, by rw [← hcons _ (by omega)]; exact h2, h3⟩

/-- The entries are the pairs of a symbol and its nonzero frequency. -/
theorem mem_ftEntries {ft : Vector Count 256} {b : Byte} {f : Count} :
    (b, f) ∈ ftEntries ft ↔ ftAt ft b = f ∧ f ≠ 0 := by
  have hb : b.toNat < 256 := b.isLt
  rw [ftEntries, mem_nonzeroFrom (by simp), ft_toList_getElem?]
  simp [hb]

theorem nonzeroFrom_ge {s : Nat} {l : List Count} (hs : s + l.length ≤ 256) :
    ∀ p ∈ nonzeroFrom s l, s ≤ p.1.toNat := by
  rintro ⟨b, f⟩ hp
  exact ((mem_nonzeroFrom hs).mp hp).1

theorem nonzeroFrom_ascending {s : Nat} {l : List Count} (hs : s + l.length ≤ 256) :
    (nonzeroFrom s l).Pairwise (fun p p' => p.1.toNat < p'.1.toNat) := by
  induction l generalizing s with
  | nil => simp [nonzeroFrom]
  | cons g l ih =>
    simp only [List.length_cons] at hs
    rw [nonzeroFrom]
    split
    · exact ih (by omega)
    · rw [List.pairwise_cons]
      refine ⟨fun p hp => ?_, ih (by omega)⟩
      have := nonzeroFrom_ge (s := s + 1) (by omega) p hp
      simp only [BitVec.toNat_ofNat]
      omega

/-- The entries come "in ascending symbol order" (R132, R190). -/
theorem ftEntries_ascending (ft : Vector Count 256) :
    (ftEntries ft).Pairwise (fun p p' => p.1.toNat < p'.1.toNat) :=
  nonzeroFrom_ascending (by simp)

theorem nonzeroFrom_length_le (s : Nat) (l : List Count) : (nonzeroFrom s l).length ≤ l.length := by
  induction l generalizing s with
  | nil => simp [nonzeroFrom]
  | cons g l ih =>
    rw [nonzeroFrom]
    split
    · have := ih (s + 1); simp only [List.length_cons]; omega
    · have := ih (s + 1); simp only [List.length_cons]; omega

/-- At most 256 entries (R6). -/
theorem ftEntries_length_le (ft : Vector Count 256) : (ftEntries ft).length ≤ 256 := by
  have := nonzeroFrom_length_le 0 ft.toList
  simpa [ftEntries] using this

/-- No entry exactly when every count is 0. -/
theorem ftEntries_eq_nil {ft : Vector Count 256} : ftEntries ft = [] ↔ ftSum ft = 0 := by
  rw [ftSum_eq_zero, List.eq_nil_iff_forall_not_mem]
  constructor
  · intro h b
    by_contra hb
    exact h (b, ftAt ft b) (mem_ftEntries.mpr ⟨rfl, hb⟩)
  · rintro h ⟨b, f⟩ hp
    obtain ⟨h1, h2⟩ := mem_ftEntries.mp hp
    exact h2 (h1 ▸ h b)

/-- The symbols of the entries are distinct. -/
theorem ftEntries_nodup (ft : Vector Count 256) : ((ftEntries ft).map Prod.fst).Nodup := by
  rw [List.Nodup, List.pairwise_map]
  exact (ftEntries_ascending ft).imp (fun h hc => by rw [hc] at h; exact absurd h (Nat.lt_irrefl _))

end Sys2Proof.Machine
end

