-- ==== Sys2Proof/Laws/Queue.lean ====
section
/-! SUPPORT. The queue order and extract_min (41_tree_builder.md R131). -/

namespace Sys2Proof.Machine

/-! ### The order of keys -/

theorem Key.lt_iff (a b : Key) :
    a.lt b = true ↔ a.f < b.f ∨ (a.f = b.f ∧ (a.cls < b.cls ∨ (a.cls = b.cls ∧ a.tie < b.tie))) := by
  simp [Key.lt]

theorem Key.lt_irrefl (a : Key) : a.lt a = false := by
  rw [Bool.eq_false_iff, Ne, Key.lt_iff]
  omega

theorem Key.lt_trans {a b c : Key} (h1 : a.lt b = true) (h2 : b.lt c = true) : a.lt c = true := by
  rw [Key.lt_iff] at *
  omega

theorem Key.lt_of_not {a b : Key} (h : a.lt b = false) (hne : a ≠ b) : b.lt a = true := by
  rw [Bool.eq_false_iff, Ne, Key.lt_iff] at h
  rw [Key.lt_iff]
  obtain ⟨f, c, t⟩ := a
  obtain ⟨f', c', t'⟩ := b
  simp only [ne_eq, Key.mk.injEq] at hne
  simp only at h ⊢
  omega

theorem Key.not_lt_trans {a b c : Key} (h1 : b.lt a = false) (h2 : c.lt b = false) : c.lt a = false := by
  rw [Bool.eq_false_iff, Ne, Key.lt_iff] at *
  omega

/-! ### The smallest member -/

/-- `minIdx` answers a member of the queue with no smaller member. -/
theorem minIdx_spec (node : List Node) (m : NodeIdx) (q : List NodeIdx) :
    minIdx node m q ∈ m :: q ∧ ∀ i ∈ m :: q, (keyAt node i).lt (keyAt node (minIdx node m q)) = false := by
  induction q generalizing m with
  | nil => simp [minIdx, Key.lt_irrefl]
  | cons i q ih =>
    simp only [minIdx]
    split
    · rename_i h
      obtain ⟨h1, h2⟩ := ih i
      refine ⟨List.mem_cons_of_mem _ h1, fun j hj => ?_⟩
      rcases List.mem_cons.mp hj with rfl | hj
      · have h3 := h2 i (List.mem_cons_self ..)
        by_contra hc
        rw [Bool.not_eq_false] at hc
        rw [Key.lt_trans h hc] at h3
        exact absurd h3 (by simp)
      · exact h2 j hj
    · rename_i h
      rw [Bool.not_eq_true] at h
      obtain ⟨h1, h2⟩ := ih m
      refine ⟨?_, fun j hj => ?_⟩
      · rcases List.mem_cons.mp h1 with h1 | h1
        · rw [h1]; exact List.mem_cons_self ..
        · exact List.mem_cons_of_mem _ (List.mem_cons_of_mem _ h1)
      · rcases List.mem_cons.mp hj with rfl | hj
        · exact h2 j (List.mem_cons_self ..)
        · rcases List.mem_cons.mp hj with rfl | hj
          · exact Key.not_lt_trans (h2 m (List.mem_cons_self ..)) h
          · exact h2 j (List.mem_cons_of_mem _ hj)

/-- `extract_min` removes and answers a member with no smaller member (R131). -/
theorem extractMin_spec {node : List Node} {q : List NodeIdx} (h : q ≠ []) :
    ∃ m, extractMin node q = some (m, q.erase m) ∧ m ∈ q ∧ ∀ i ∈ q, (keyAt node i).lt (keyAt node m) = false := by
  cases q with
  | nil => exact absurd rfl h
  | cons i q =>
    obtain ⟨h1, h2⟩ := minIdx_spec node i q
    exact ⟨_, rfl, h1, h2⟩

/-! ### Sums of frequencies -/

theorem countSum_eq_sum (l : List Count) : countSum l = (l.map BitVec.toNat).sum := by
  induction l with
  | nil => rfl
  | cons f l ih => simp [countSum, ih]

theorem countSum_perm {l l' : List Count} (h : l.Perm l') : countSum l = countSum l' := by
  rw [countSum_eq_sum, countSum_eq_sum]
  exact (h.map _).sum_nat

theorem countSum_append (l l' : List Count) : countSum (l ++ l') = countSum l + countSum l' := by
  simp [countSum_eq_sum]

/-- The frequencies of the members of a queue, added as natural numbers. -/
def queueSum (node : List Node) (q : List NodeIdx) : Nat := countSum (q.map (freqAt node))

theorem queueSum_erase {node : List Node} {q : List NodeIdx} {m : NodeIdx} (h : m ∈ q) :
    queueSum node q = (freqAt node m).toNat + queueSum node (q.erase m) := by
  rw [queueSum, countSum_perm ((List.perm_cons_erase h).map _)]
  rfl

/-! ### Entries of a longer store -/

theorem nodeAt_append {node : List Node} {x : Node} {i : NodeIdx} (h : i.toNat < node.length) :
    nodeAt (node ++ [x]) i = nodeAt node i := by
  rw [nodeAt, nodeAt, List.getElem?_append_left h]

theorem nodeAt_isSome {node : List Node} {i : NodeIdx} (h : i.toNat < node.length) : ∃ n, nodeAt node i = some n :=
  ⟨node[i.toNat], List.getElem?_eq_getElem h⟩

theorem keyAt_append {node : List Node} {x : Node} {i : NodeIdx} (h : i.toNat < node.length) :
    keyAt (node ++ [x]) i = keyAt node i := by
  rw [keyAt, keyAt, nodeAt_append h]

theorem freqAt_append {node : List Node} {x : Node} {i : NodeIdx} (h : i.toNat < node.length) :
    freqAt (node ++ [x]) i = freqAt node i := by
  rw [freqAt, freqAt, nodeAt_append h]

theorem queueSum_append {node : List Node} {x : Node} {q : List NodeIdx} (h : ∀ i ∈ q, i.toNat < node.length) :
    queueSum (node ++ [x]) q = queueSum node q := by
  rw [queueSum, queueSum, List.map_congr_left fun i hi => freqAt_append (h i hi)]

theorem childList_append (node : List Node) (x : Node) : childList (node ++ [x]) = childList node ++ childList [x] := by
  simp [childList]

theorem leafSymbols_append (a b : List Node) : leafSymbols (a ++ b) = leafSymbols a ++ leafSymbols b := by
  simp [leafSymbols]

end Sys2Proof.Machine
end

