-- ==== Sys2Proof/Laws/Forest.lean ====
section
/-! SUPPORT. The merges of the tree builder keep a forest well formed, and end in one tree (41_tree_builder.md R132, R134
to R136). -/

namespace Sys2Proof.Machine

/-- The leaves of a list of entries. -/
def leavesOf (es : List (Byte × Count)) : List Node := es.map (fun p => .leaf p.1 p.2)

/-- The entries a tree is built from: at most 256, symbols distinct, frequencies not 0, the sum fits (R132, R133). -/
structure EntriesOk (es : List (Byte × Count)) : Prop where
  small : es.length ≤ 256
  nodup : (es.map Prod.fst).Nodup
  pos : ∀ p ∈ es, p.2 ≠ 0
  sum : entrySum es < 2 ^ 64

/-- What the loop of R135 keeps. -/
structure ForestInv (es : List (Byte × Count)) (fr : Forest) : Prop where
  shape : ∃ ints, fr.node = leavesOf es ++ ints ∧ ∀ x ∈ ints, ∃ f l r, x = .internal f l r
  size : fr.node.length + fr.q.length = 2 * es.length
  busy : 1 ≤ fr.q.length
  sum : queueSum fr.node fr.q = entrySum es
  nodes : ∀ i, nodeOk fr.node i
  pool : ∀ j : NodeIdx, (childList fr.node).count j + fr.q.count j = if j.toNat < fr.node.length then 1 else 0
  greedy : GreedyTree fr.node

theorem ForestInv.atMost {es : List (Byte × Count)} {fr : Forest} (he : EntriesOk es) (h : ForestInv es fr) :
    fr.node.length ≤ 511 := by
  have := h.size; have := h.busy; have := he.small; omega

theorem ForestInv.mem_lt {es : List (Byte × Count)} {fr : Forest} (h : ForestInv es fr) {j : NodeIdx} (hj : j ∈ fr.q) :
    j.toNat < fr.node.length := by
  have h1 := h.pool j
  have h2 := List.count_pos_iff.mpr hj
  by_contra hc
  rw [if_neg hc] at h1
  omega

theorem ForestInv.q_nodup {es : List (Byte × Count)} {fr : Forest} (h : ForestInv es fr) : fr.q.Nodup := by
  rw [List.nodup_iff_count_le_one]
  intro j
  have h1 := h.pool j
  split at h1 <;> omega

/-- A member of the queue is a node that no Internal node has as a child. -/
theorem ForestInv.mem_iff {es : List (Byte × Count)} {fr : Forest} (h : ForestInv es fr) (j : NodeIdx) :
    j ∈ fr.q ↔ j.toNat < fr.node.length ∧ j ∉ childList fr.node := by
  have h1 := h.pool j
  have h2 : j ∈ fr.q ↔ 0 < fr.q.count j := List.count_pos_iff.symm
  have h3 : j ∈ childList fr.node ↔ 0 < (childList fr.node).count j := List.count_pos_iff.symm
  rw [h2, h3]
  split at h1 <;> omega

/-- A leaf of the store is one of the entries, at its own place. -/
theorem ForestInv.leaf_at {es : List (Byte × Count)} {fr : Forest} (h : ForestInv es fr) {i : Nat} {sym : Byte} {f : Count}
    (hi : fr.node[i]? = some (.leaf sym f)) : es[i]? = some (sym, f) := by
  obtain ⟨ints, hs, hint⟩ := h.shape
  rw [hs] at hi
  by_cases hl : i < (leavesOf es).length
  · rw [List.getElem?_append_left hl, leavesOf, List.getElem?_map] at hi
    obtain ⟨⟨a, b⟩, hp, heq⟩ := Option.map_eq_some_iff.mp hi
    simp only [Node.leaf.injEq] at heq
    rw [hp, heq.1, heq.2]
  · rw [List.getElem?_append_right (by omega)] at hi
    obtain ⟨_, _, _, hx⟩ := hint _ (List.mem_of_getElem? hi)
    cases hx

/-- Two nodes of the store have different keys. -/
theorem ForestInv.key_inj {es : List (Byte × Count)} {fr : Forest} (he : EntriesOk es) (h : ForestInv es fr)
    {i j : NodeIdx} (hi : i.toNat < fr.node.length) (hj : j.toNat < fr.node.length)
    (hk : keyAt fr.node i = keyAt fr.node j) : i = j := by
  obtain ⟨n, hn⟩ := nodeAt_isSome hi
  obtain ⟨m, hm⟩ := nodeAt_isSome hj
  rw [keyAt, hn, keyAt, hm] at hk
  apply BitVec.eq_of_toNat_eq
  cases n with
  | internal f l r =>
    cases m with
    | internal f' l' r' => simp only [Node.key, Key.mk.injEq] at hk; exact hk.2.2
    | leaf s' f' => simp [Node.key] at hk
  | leaf s f =>
    cases m with
    | internal f' l' r' => simp [Node.key] at hk
    | leaf s' f' =>
      simp only [Node.key, Key.mk.injEq] at hk
      have h1 := h.leaf_at hn
      have h2 := h.leaf_at hm
      have hss : s = s' := BitVec.eq_of_toNat_eq hk.2.2
      have h1' : (es.map Prod.fst)[i.toNat]? = some s := by rw [List.getElem?_map, h1]; rfl
      have h2' : (es.map Prod.fst)[j.toNat]? = some s := by rw [List.getElem?_map, h2, hss]; rfl
      have hil : i.toNat < (es.map Prod.fst).length := (List.getElem?_eq_some_iff.mp h1').1
      exact (List.getElem?_inj hil he.nodup).mp (h1'.trans h2'.symm)

theorem ForestInv.strict {es : List (Byte × Count)} {fr : Forest} (he : EntriesOk es) (h : ForestInv es fr)
    {i j : NodeIdx} (hi : i ∈ fr.q) (hj : j ∈ fr.q) (hne : i ≠ j)
    (hk : (keyAt fr.node i).lt (keyAt fr.node j) = false) : (keyAt fr.node j).lt (keyAt fr.node i) = true :=
  Key.lt_of_not hk (fun hc => hne (h.key_inj he (h.mem_lt hi) (h.mem_lt hj) hc))

/-! ### One merge -/

/-- With two members or more, one pass takes the two smallest and adds their parent (R135). -/
theorem mergeOnce_eq {fr : Forest} (h : 2 ≤ fr.q.length) :
    ∃ a b, a ∈ fr.q ∧ b ∈ fr.q.erase a ∧
      (∀ i ∈ fr.q, (keyAt fr.node i).lt (keyAt fr.node a) = false) ∧
      (∀ i ∈ fr.q.erase a, (keyAt fr.node i).lt (keyAt fr.node b) = false) ∧
      mergeOnce fr =
        { node := fr.node ++ [.internal (freqAt fr.node a + freqAt fr.node b) a b]
          q := (fr.q.erase a).erase b ++ [BitVec.ofNat 9 fr.node.length] } := by
  have h0 : fr.q ≠ [] := by intro hc; rw [hc] at h; simp at h
  obtain ⟨a, ha, ham, hamin⟩ := extractMin_spec (node := fr.node) h0
  have h1 : fr.q.erase a ≠ [] := by
    intro hc
    have := List.length_erase_of_mem ham
    rw [hc] at this
    simp at this; omega
  obtain ⟨b, hb, hbm, hbmin⟩ := extractMin_spec (node := fr.node) h1
  exact ⟨a, b, ham, hbm, hamin, hbmin, by rw [mergeOnce, ha]; simp only; rw [hb]⟩

theorem nodeOk_append {node : List Node} {x : Node} {i : Nat} (hlen : i < node.length) (h : nodeOk node i) :
    nodeOk (node ++ [x]) i := by
  intro f l r hi
  rw [List.getElem?_append_left hlen] at hi
  obtain ⟨h1, h2, h3⟩ := h f l r hi
  exact ⟨h1, h2, by rw [freqAt_append (by omega), freqAt_append (by omega)]; exact h3⟩

theorem InPool_append {node : List Node} {x : Node} {i : Nat} (hlen : i ≤ node.length) {j : NodeIdx} :
    InPool (node ++ [x]) i j ↔ InPool node i j := by
  rw [InPool, InPool, List.take_append_of_le_length hlen]

theorem GreedyTree_append {node : List Node} {f : Count} {l r : NodeIdx} (h : GreedyTree node)
    (hn : InPool node node.length l ∧ InPool node node.length r ∧ (keyAt node l).lt (keyAt node r) = true ∧
      ∀ j, InPool node node.length j → j ≠ l → j ≠ r → (keyAt node r).lt (keyAt node j) = true) :
    GreedyTree (node ++ [.internal f l r]) := by
  intro i g a b hi
  have hil : i < (node ++ [Node.internal f l r]).length := (List.getElem?_eq_some_iff.mp hi).1
  rw [List.length_append, List.length_singleton] at hil
  by_cases hlt : i < node.length
  · rw [List.getElem?_append_left hlt] at hi
    obtain ⟨h1, h2, h3, h4⟩ := h i g a b hi
    have hk : ∀ {j : NodeIdx}, InPool node i j → keyAt (node ++ [.internal f l r]) j = keyAt node j :=
      fun hj => keyAt_append (Nat.lt_trans hj.1 hlt)
    refine ⟨(InPool_append (by omega)).mpr h1, (InPool_append (by omega)).mpr h2, ?_, fun j hj hja hjb => ?_⟩
    · rw [hk h1, hk h2]; exact h3
    · have hj' := (InPool_append (by omega)).mp hj
      rw [hk h2, hk hj']
      exact h4 j hj' hja hjb
  · have hieq : i = node.length := by omega
    subst hieq
    rw [List.getElem?_append_right (Nat.le_refl _)] at hi
    simp only [Nat.sub_self, List.getElem?_cons_zero, Option.some.injEq, Node.internal.injEq] at hi
    obtain ⟨rfl, rfl, rfl⟩ := hi
    obtain ⟨h1, h2, h3, h4⟩ := hn
    have hk : ∀ {j : NodeIdx}, InPool node node.length j → keyAt (node ++ [.internal f l r]) j = keyAt node j :=
      fun hj => keyAt_append hj.1
    refine ⟨(InPool_append (by omega)).mpr h1, (InPool_append (by omega)).mpr h2, ?_, fun j hj hja hjb => ?_⟩
    · rw [hk h1, hk h2]; exact h3
    · have hj' := (InPool_append (by omega)).mp hj
      rw [hk h2, hk hj']
      exact h4 j hj' hja hjb

/-- One pass of the loop of R135 keeps the forest well formed. -/
theorem ForestInv.merge {es : List (Byte × Count)} {fr : Forest} (he : EntriesOk es) (h : ForestInv es fr)
    (hq : 2 ≤ fr.q.length) : ForestInv es (mergeOnce fr) ∧ (mergeOnce fr).q.length + 1 = fr.q.length := by
  obtain ⟨a, b, ha, hb, hamin, hbmin, heq⟩ := mergeOnce_eq hq
  rw [heq]
  have hnd := h.q_nodup
  have hbq : b ∈ fr.q := List.mem_of_mem_erase hb
  have hab : a ≠ b := fun hc => by subst hc; exact (List.Nodup.not_mem_erase hnd) hb
  have hal := h.mem_lt ha
  have hbl := h.mem_lt hbq
  have hl1 := List.length_erase_of_mem ha
  have hl2 := List.length_erase_of_mem hb
  have hlen : ((fr.q.erase a).erase b).length + 2 = fr.q.length := by omega
  have hsize := h.size
  have hsmall := he.small
  have hnew : (BitVec.ofNat 9 fr.node.length : NodeIdx).toNat = fr.node.length := by
    rw [BitVec.toNat_ofNat]; exact Nat.mod_eq_of_lt (by omega)
  have hs1 := queueSum_erase (node := fr.node) ha
  have hs2 := queueSum_erase (node := fr.node) hb
  have hsum := h.sum
  have hlim := he.sum
  have hadd : (freqAt fr.node a + freqAt fr.node b).toNat = (freqAt fr.node a).toNat + (freqAt fr.node b).toNat := by
    rw [BitVec.toNat_add]; exact Nat.mod_eq_of_lt (by omega)
  have hqlt : ∀ i ∈ (fr.q.erase a).erase b, i.toNat < fr.node.length := fun i hi =>
    h.mem_lt (List.mem_of_mem_erase (List.mem_of_mem_erase hi))
  refine ⟨⟨?_, ?_, ?_, ?_, ?_, ?_, ?_⟩, ?_⟩
  · obtain ⟨ints, hs, hint⟩ := h.shape
    refine ⟨ints ++ [.internal (freqAt fr.node a + freqAt fr.node b) a b], by simp [hs], fun x hx => ?_⟩
    rcases List.mem_append.mp hx with hx | hx
    · exact hint x hx
    · exact ⟨_, _, _, List.mem_singleton.mp hx⟩
  · simp only [List.length_append, List.length_singleton]; omega
  · simp only [List.length_append, List.length_singleton]; omega
  · rw [queueSum, List.map_append, countSum_append]
    have h1 := queueSum_append (node := fr.node) (x := .internal (freqAt fr.node a + freqAt fr.node b) a b) hqlt
    rw [queueSum] at h1
    rw [h1]
    have h2 : freqAt (fr.node ++ [.internal (freqAt fr.node a + freqAt fr.node b) a b]) (BitVec.ofNat 9 fr.node.length)
        = freqAt fr.node a + freqAt fr.node b := by
      rw [freqAt, nodeAt, hnew, List.getElem?_append_right (Nat.le_refl _), Nat.sub_self]
      rfl
    simp only [List.map_cons, List.map_nil, h2, countSum]
    omega
  · intro i
    by_cases hi : i < fr.node.length
    · exact nodeOk_append hi (h.nodes i)
    · intro f l r hir
      have hil := (List.getElem?_eq_some_iff.mp hir).1
      rw [List.length_append, List.length_singleton] at hil
      have hieq : i = fr.node.length := by omega
      subst hieq
      rw [List.getElem?_append_right (Nat.le_refl _)] at hir
      simp only [Nat.sub_self, List.getElem?_cons_zero, Option.some.injEq, Node.internal.injEq] at hir
      obtain ⟨rfl, rfl, rfl⟩ := hir
      exact ⟨hal, hbl, by rw [freqAt_append hal, freqAt_append hbl]; exact hadd⟩
  · intro j
    have hp := h.pool j
    have hc1 : (fr.q.erase a).count j = fr.q.count j - if a = j then 1 else 0 := by
      rw [List.count_erase]; by_cases hj : a = j <;> simp [hj]
    have hc2 : ((fr.q.erase a).erase b).count j = (fr.q.erase a).count j - if b = j then 1 else 0 := by
      rw [List.count_erase]; by_cases hj : b = j <;> simp [hj]
    have hca := List.count_pos_iff.mpr ha
    have hcb := List.count_pos_iff.mpr hbq
    have hnl : (BitVec.ofNat 9 fr.node.length = j) ↔ j.toNat = fr.node.length := by
      constructor
      · rintro rfl; exact hnew
      · intro hj; apply BitVec.eq_of_toNat_eq; rw [hnew, hj]
    have hsing : ([BitVec.ofNat 9 fr.node.length] : List NodeIdx).count j =
        if j.toNat = fr.node.length then 1 else 0 := by
      rw [List.count_singleton]
      by_cases hj : j.toNat = fr.node.length
      · simp [hj, hnl.mpr hj]
      · have := mt hnl.mp hj; simp [hj, this]
    have hpair : (childList [Node.internal (freqAt fr.node a + freqAt fr.node b) a b]).count j =
        (if a = j then 1 else 0) + (if b = j then 1 else 0) := by
      simp only [childList, List.flatMap_cons, List.flatMap_nil, List.append_nil, List.count_cons, List.count_nil]
      simp only [beq_iff_eq]; omega
    rw [childList_append, List.count_append, List.count_append, hsing, hpair, hc2, hc1]
    simp only [List.length_append, List.length_singleton]
    by_cases haj : a = j
    · subst haj
      have : ¬ b = a := fun hc => hab hc.symm
      simp only [if_true, if_neg this]
      rw [if_pos hal] at hp
      rw [if_neg (by omega), if_pos (by omega)]
      omega
    · by_cases hbj : b = j
      · subst hbj
        simp only [if_true, if_neg haj]
        rw [if_pos hbl] at hp
        rw [if_neg (by omega), if_pos (by omega)]
        omega
      · simp only [if_neg haj, if_neg hbj]
        split at hp
        · rw [if_neg (by omega), if_pos (by omega)]; omega
        · by_cases hj : j.toNat = fr.node.length
          · rw [if_pos hj, if_pos (by omega)]; omega
          · rw [if_neg hj, if_neg (by omega)]; omega
  · have hin : ∀ j, InPool fr.node fr.node.length j ↔ j ∈ fr.q := by
      intro j
      rw [h.mem_iff, InPool, List.take_of_length_le (Nat.le_refl _)]
    refine GreedyTree_append h.greedy ⟨(hin a).mpr ha, (hin b).mpr hbq, ?_, fun j hj hja hjb => ?_⟩
    · exact h.strict he hbq ha (fun hc => hab hc.symm) (hamin b hbq)
    · have hjq := (hin j).mp hj
      have hje : j ∈ fr.q.erase a := (List.mem_erase_of_ne hja).mpr hjq
      exact h.strict he hjq hbq hjb (hbmin j hje)
  · simp only [List.length_append, List.length_singleton]; omega

/-! ### All merges -/

theorem ForestInv.mergeLoop {es : List (Byte × Count)} (he : EntriesOk es) {k : Nat} {fr : Forest} (h : ForestInv es fr)
    (hk : k + 1 ≤ fr.q.length) :
    ForestInv es (mergeLoop k fr) ∧ (Sys2Proof.Machine.mergeLoop k fr).q.length + k = fr.q.length := by
  induction k generalizing fr with
  | zero => exact ⟨h, rfl⟩
  | succ k ih =>
    obtain ⟨h1, h2⟩ := h.merge he (by omega)
    obtain ⟨h3, h4⟩ := ih h1 (by omega)
    exact ⟨h3, by rw [Sys2Proof.Machine.mergeLoop]; omega⟩

@[simp] theorem leavesOf_length (es : List (Byte × Count)) : (leavesOf es).length = es.length := by simp [leavesOf]

theorem childList_leavesOf (es : List (Byte × Count)) : childList (leavesOf es) = [] := by
  rw [childList, List.flatMap_eq_nil_iff]
  intro n hn
  obtain ⟨p, _, rfl⟩ := List.mem_map.mp hn
  rfl

theorem leaf_of_leavesOf {es : List (Byte × Count)} {i : Nat} {n : Node} (h : (leavesOf es)[i]? = some n) :
    ∃ p, es[i]? = some p ∧ n = .leaf p.1 p.2 := by
  rw [leavesOf, List.getElem?_map] at h
  obtain ⟨p, hp, rfl⟩ := Option.map_eq_some_iff.mp h
  exact ⟨p, hp, rfl⟩

@[simp] theorem indexList_length (n : Nat) : (indexList n).length = n := by simp [indexList]

theorem indexList_count {n : Nat} (hn : n ≤ 512) (j : NodeIdx) :
    (indexList n).count j = if j.toNat < n then 1 else 0 := by
  have hinj : ∀ a ∈ List.range n, ∀ b ∈ List.range n, BitVec.ofNat 9 a = BitVec.ofNat 9 b → a = b := by
    intro a ha b hb h
    have ha' := List.mem_range.mp ha
    have hb' := List.mem_range.mp hb
    have := congrArg BitVec.toNat h
    simp only [BitVec.toNat_ofNat] at this
    omega
  have hnd : (indexList n).Nodup := List.Nodup.map_on hinj List.nodup_range
  have hmem : j ∈ indexList n ↔ j.toNat < n := by
    rw [indexList, List.mem_map]
    constructor
    · rintro ⟨a, ha, rfl⟩
      have := List.mem_range.mp ha
      rw [BitVec.toNat_ofNat]; omega
    · intro h
      exact ⟨j.toNat, List.mem_range.mpr h, by simp⟩
  by_cases hj : j.toNat < n
  · rw [if_pos hj, List.count_eq_one_of_mem hnd (hmem.mpr hj)]
  · rw [if_neg hj, List.count_eq_zero_of_not_mem (fun hc => hj (hmem.mp hc))]

/-- The forest of R132: the leaves, each in the queue. -/
theorem ForestInv.seed {es : List (Byte × Count)} (he : EntriesOk es) (hne : 1 ≤ es.length) :
    ForestInv es { node := leavesOf es, q := indexList (leavesOf es).length } := by
  have hsmall := he.small
  refine ⟨⟨[], by simp, by simp⟩, ?_, ?_, ?_, ?_, ?_, ?_⟩
  · simp; omega
  · simpa using hne
  · have : (indexList (leavesOf es).length).map (freqAt (leavesOf es)) = es.map Prod.snd := by
      apply List.ext_getElem?
      intro i
      rw [List.getElem?_map, List.getElem?_map, indexList, List.getElem?_map]
      by_cases hi : i < es.length
      · rw [List.getElem?_range (by simpa using hi), List.getElem?_eq_getElem hi]
        have h9 : (BitVec.ofNat 9 i : NodeIdx).toNat = i := by
          rw [BitVec.toNat_ofNat]; exact Nat.mod_eq_of_lt (by omega)
        simp [freqAt, nodeAt, leavesOf, Node.freq, List.getElem?_eq_getElem hi, show i % 512 = i by omega]
      · rw [List.getElem?_eq_none (by simp; omega), List.getElem?_eq_none (by omega)]
        rfl
    rw [queueSum, this]; rfl
  · intro i f l r h
    obtain ⟨p, _, hp⟩ := leaf_of_leavesOf h
    cases hp
  · intro j
    rw [childList_leavesOf, indexList_count (by simp; omega)]
    simp
  · intro i f l r h
    obtain ⟨p, _, hp⟩ := leaf_of_leavesOf h
    cases hp

theorem leafSymbols_leavesOf {es : List (Byte × Count)} (h : ∀ p ∈ es, p.2 ≠ 0) :
    leafSymbols (leavesOf es) = es.map Prod.fst := by
  induction es with
  | nil => rfl
  | cons p es ih =>
    have hp := h p (List.mem_cons_self ..)
    have := ih (fun q hq => h q (List.mem_cons_of_mem _ hq))
    simp only [leafSymbols, leavesOf, List.map_cons] at *
    rw [List.filterMap_cons]
    simp only [if_neg hp, this]

theorem leafSymbols_internals {ints : List Node} (h : ∀ x ∈ ints, ∃ f l r, x = Node.internal f l r) :
    leafSymbols ints = [] := by
  rw [leafSymbols, List.filterMap_eq_nil_iff]
  intro x hx
  obtain ⟨f, l, r, rfl⟩ := h x hx
  rfl

theorem ForestInv.leafSymbols {es : List (Byte × Count)} {fr : Forest} (he : EntriesOk es) (h : ForestInv es fr) :
    leafSymbols fr.node = es.map Prod.fst := by
  obtain ⟨ints, hs, hint⟩ := h.shape
  rw [hs, leafSymbols_append, leafSymbols_leavesOf he.pos, leafSymbols_internals hint, List.append_nil]

/-- What a well-built tree is, with the entries it was built from (R132, R135, R136). -/
structure BuiltFrom (es : List (Byte × Count)) (fr : Forest) : Prop where
  tree : TreeWf fr.node (BitVec.ofNat 10 fr.node.length) (BitVec.ofNat 9 (fr.node.length - 1))
  symbols : leafSymbols fr.node = es.map Prod.fst
  leaves : fr.node.take es.length = leavesOf es
  queue : fr.q = [BitVec.ofNat 9 (fr.node.length - 1)]

/-- With one member left in the queue the forest is one tree (R135). -/
theorem ForestInv.done {es : List (Byte × Count)} {fr : Forest} (he : EntriesOk es) (h : ForestInv es fr)
    (hq : fr.q.length = 1) (h2 : 2 ≤ es.length) : BuiltFrom es fr := by
  have hsize := h.size
  have hsmall := he.small
  have hlast : (BitVec.ofNat 9 (fr.node.length - 1) : NodeIdx).toNat = fr.node.length - 1 := by
    rw [BitVec.toNat_ofNat]; exact Nat.mod_eq_of_lt (by omega)
  have hchild : ∀ j : NodeIdx, j ∈ childList fr.node → j.toNat + 1 < fr.node.length := by
    intro j hj
    rw [childList, List.mem_flatMap] at hj
    obtain ⟨n, hn, hj⟩ := hj
    obtain ⟨i, hi, rfl⟩ := List.mem_iff_getElem.mp hn
    cases hni : fr.node[i] with
    | leaf s f => rw [hni] at hj; simp at hj
    | internal f l r =>
      rw [hni] at hj
      obtain ⟨h1, h2, _⟩ := h.nodes i f l r (by rw [List.getElem?_eq_getElem hi, hni])
      rcases List.mem_cons.mp hj with rfl | hj
      · omega
      · rw [List.mem_singleton] at hj; subst hj; omega
  have hqe : fr.q = [BitVec.ofNat 9 (fr.node.length - 1)] := by
    have hm : BitVec.ofNat 9 (fr.node.length - 1) ∈ fr.q := by
      rw [h.mem_iff, hlast]
      refine ⟨by omega, fun hc => ?_⟩
      have := hchild _ hc
      rw [hlast] at this; omega
    obtain ⟨x, hx⟩ := List.length_eq_one_iff.mp hq
    rw [hx] at hm ⊢
    rw [List.mem_singleton] at hm
    rw [hm]
  obtain ⟨ints, hs, hint⟩ := h.shape
  refine ⟨⟨?_, by omega, h.atMost he, by rw [hlast]; omega, ?_, h.nodes, ?_, ?_, ?_⟩, h.leafSymbols he, ?_, hqe⟩
  · rw [BitVec.toNat_ofNat]; exact Nat.mod_eq_of_lt (by omega)
  · rw [hlast]
    have hl : fr.node.length = es.length + ints.length := by rw [hs]; simp
    have hin : es.length ≤ fr.node.length - 1 := by omega
    have hlt : fr.node.length - 1 - es.length < ints.length := by omega
    obtain ⟨f, l, r, hx⟩ := hint _ (List.getElem_mem hlt)
    refine ⟨f, l, r, ?_⟩
    rw [← hx, ← List.getElem?_eq_getElem hlt, ← leavesOf_length es,
      ← List.getElem?_append_right (by rw [leavesOf_length]; exact hin), ← hs]
  · intro j
    have hp := h.pool j
    rw [hqe, List.count_singleton] at hp
    rw [hlast]
    by_cases hj : BitVec.ofNat 9 (fr.node.length - 1) = j
    · subst hj
      rw [hlast] at hp ⊢
      simp at hp ⊢
      rw [if_pos (by omega)] at hp
      omega
    · have hj' : j.toNat ≠ fr.node.length - 1 := by
        intro hc; apply hj; apply BitVec.eq_of_toNat_eq; rw [hlast, hc]
      simp only [beq_iff_eq, hj, if_false, Nat.add_zero] at hp
      rw [hp]
      by_cases hjl : j.toNat < fr.node.length
      · rw [if_pos hjl, if_pos (by omega)]
      · rw [if_neg hjl, if_neg (by omega)]
  · rw [h.leafSymbols he]; exact he.nodup
  · intro i sym hi
    have := h.leaf_at hi
    exact absurd rfl (he.pos _ (List.mem_of_getElem? this))
  · rw [hs, List.take_append_of_le_length (by simp), List.take_of_length_le (by simp)]

/-- The single-symbol case (R134): the two leaves and the root. -/
theorem singleForest_built {s : Byte} {f : Count} (hf : f ≠ 0) :
    singleForest { node := leavesOf [(s, f)], q := indexList 1 } =
        { node := [.leaf s f, .leaf Config.dummySym 0, .internal f 0 1], q := [2] } ∧
      BuiltFrom [(s, f)] { node := [.leaf s f, .leaf Config.dummySym 0, .internal f 0 1], q := [2] } := by
  have hnode : singleForest { node := leavesOf [(s, f)], q := indexList 1 } =
      { node := [.leaf s f, .leaf Config.dummySym 0, .internal f 0 1], q := [2] } := by
    simp [singleForest, leavesOf, freqAt, nodeAt, Node.freq]
  have hsym : leafSymbols [Node.leaf s f, .leaf Config.dummySym 0, .internal f 0 1] = [s] := by
    have := leafSymbols_leavesOf (es := [(s, f)]) (by simpa using hf)
    rw [show [Node.leaf s f, .leaf Config.dummySym 0, .internal f 0 1] =
      leavesOf [(s, f)] ++ [.leaf Config.dummySym 0, .internal f 0 1] from rfl, leafSymbols_append, this]
    rfl
  refine ⟨hnode, ⟨⟨rfl, by simp, by simp, rfl, ⟨f, 0, 1, rfl⟩, ?_, ?_, ?_, ?_⟩, ?_, rfl, rfl⟩⟩
  · intro i g l r hi
    match i, hi with
    | 2, hi =>
      simp only [List.getElem?_cons_succ, List.getElem?_cons_zero, Option.some.injEq, Node.internal.injEq] at hi
      obtain ⟨rfl, rfl, rfl⟩ := hi
      refine ⟨by decide, by decide, ?_⟩
      simp [freqAt, nodeAt, Node.freq]
    | 0, hi => simp at hi
    | 1, hi => simp at hi
    | n + 3, hi => simp at hi
  · intro j
    have h2 : (BitVec.ofNat 9 (([Node.leaf s f, .leaf Config.dummySym 0, .internal f 0 1] : List Node).length - 1)).toNat
        = 2 := rfl
    rw [h2]
    have hc : childList [Node.leaf s f, .leaf Config.dummySym 0, .internal f 0 1] = [0, 1] := rfl
    rw [hc]
    revert j
    decide
  · rw [hsym]; simp
  · intro i sym hi
    match i, hi with
    | 0, hi =>
      simp only [List.getElem?_cons_zero, Option.some.injEq, Node.leaf.injEq] at hi
      exact absurd hi.2 hf
    | 1, hi =>
      simp only [List.getElem?_cons_succ, List.getElem?_cons_zero, Option.some.injEq, Node.leaf.injEq] at hi
      exact ⟨rfl, rfl, hi.1.symm⟩
    | 2, hi => simp at hi
    | n + 3, hi => simp at hi
  · exact hsym

end Sys2Proof.Machine
end

