-- ==== Sys2Proof/Laws/Paths.lean ====
section
/-! SUPPORT. The leaves of a well-formed tree and the paths to them (10_state.md R25, R26; 42_code_generator.md R151). -/

namespace Sys2Proof.Machine

/-! ### Sums over a tree -/

/-- Adding a quantity up over a store whose nodes each have one parent: if every node's quantity is its own part and its
children's, the root's is the sum of all parts. -/
theorem sum_take {node : List Node} {base : Node → Nat} {v : Nat → Nat}
    (hv : ∀ i n, node[i]? = some n → v i = base n + ((childList [n]).map (fun c => v c.toNat)).sum) (m : Nat)
    (hm : m ≤ node.length) :
    ((List.range m).map v).sum =
      ((node.take m).map base).sum + ((childList (node.take m)).map (fun c => v c.toNat)).sum := by
  induction m with
  | zero => simp [childList]
  | succ m ih =>
    have hlt : m < node.length := by omega
    have hget : node[m]? = some node[m] := List.getElem?_eq_getElem hlt
    rw [List.range_succ, List.map_append, List.sum_append, ih (by omega), List.take_add_one, hget]
    simp only [List.map_cons, List.map_nil, List.sum_cons, List.sum_nil, Option.toList_some, List.map_append,
      List.sum_append, childList_append, hv m _ hget]
    omega

theorem TreeWf.children_perm {node : List Node} {nc : BitVec 10} {root : NodeIdx} (h : TreeWf node nc root) :
    (childList node).Perm (indexList root.toNat) := by
  have := h.rootLast
  have := h.atMost
  rw [List.perm_iff_count]
  intro j
  rw [h.oneParent j, indexList_count (by omega)]

theorem TreeWf.sum_root {node : List Node} {nc : BitVec 10} {root : NodeIdx} (h : TreeWf node nc root)
    {base : Node → Nat} {v : Nat → Nat}
    (hv : ∀ i n, node[i]? = some n → v i = base n + ((childList [n]).map (fun c => v c.toNat)).sum) :
    v root.toNat = (node.map base).sum := by
  have hr := h.rootLast
  have hm := h.atMost
  have h1 := sum_take hv node.length (Nat.le_refl _)
  have h2 : ((childList node).map (fun c => v c.toNat)).sum = ((List.range root.toNat).map v).sum := by
    rw [(h.children_perm.map _).sum_nat, indexList, List.map_map]
    congr 1
    apply List.map_congr_left
    intro a ha
    have := List.mem_range.mp ha
    simp only [Function.comp, BitVec.toNat_ofNat]
    rw [Nat.mod_eq_of_lt (by omega)]
  rw [List.take_length, h2, ← hr, List.range_succ, List.map_append, List.sum_append] at h1
  simp at h1
  omega

/-! ### Leaves and paths -/

/-- The leaves under node `i`, left to right, each with the path to it; `k` bounds the depth. -/
def leafPaths (node : List Node) : Nat → NodeIdx → List (Byte × Count × Code)
  | 0, _ => []
  | k + 1, i =>
    match nodeAt node i with
    | some (.leaf s f) => [(s, f, [])]
    | some (.internal _ l r) =>
      (leafPaths node k l).map (fun p => (p.1, p.2.1, false :: p.2.2)) ++
        (leafPaths node k r).map (fun p => (p.1, p.2.1, true :: p.2.2))
    | none => []

theorem leafPaths_fuel {node : List Node} (hn : ∀ i, nodeOk node i) {k k' : Nat} {i : NodeIdx} (hk : i.toNat < k)
    (hk' : i.toNat < k') : leafPaths node k i = leafPaths node k' i := by
  induction k generalizing k' i with
  | zero => omega
  | succ k ih =>
    cases k' with
    | zero => omega
    | succ k' =>
      simp only [leafPaths]
      split
      · rfl
      · rename_i f l r hi
        obtain ⟨h1, h2, _⟩ := hn i.toNat f l r hi
        rw [ih (k' := k') (by omega) (by omega), ih (i := r) (k' := k') (by omega) (by omega)]
      · rfl

/-- The leaves under node `i` of a store of 511 nodes or fewer. -/
def leavesUnder (node : List Node) (i : NodeIdx) : List (Byte × Count × Code) := leafPaths node 512 i

theorem leavesUnder_leaf {node : List Node} {i : NodeIdx} {s : Byte} {f : Count} (h : nodeAt node i = some (.leaf s f)) :
    leavesUnder node i = [(s, f, [])] := by
  rw [leavesUnder, leafPaths, h]

theorem leavesUnder_internal {node : List Node} (hn : ∀ i, nodeOk node i) {i l r : NodeIdx} {f : Count}
    (h : nodeAt node i = some (.internal f l r)) :
    leavesUnder node i = (leavesUnder node l).map (fun p => (p.1, p.2.1, false :: p.2.2)) ++
        (leavesUnder node r).map (fun p => (p.1, p.2.1, true :: p.2.2)) := by
  obtain ⟨h1, h2, _⟩ := hn i.toNat f l r h
  have hi := i.isLt
  rw [leavesUnder, leafPaths, h]
  simp only
  rw [leafPaths_fuel hn (k := 511) (k' := 512) (i := l) (by omega) (by omega),
    leafPaths_fuel hn (k := 511) (k' := 512) (i := r) (by omega) (by omega)]
  rfl

theorem ofNat_toNat9 {i : Nat} (h : i < 512) : (BitVec.ofNat 9 i : NodeIdx).toNat = i := by
  rw [BitVec.toNat_ofNat]; exact Nat.mod_eq_of_lt h

theorem nodeAt_ofNat {node : List Node} {i : Nat} (h : i < 512) : nodeAt node (BitVec.ofNat 9 i) = node[i]? := by
  rw [nodeAt, ofNat_toNat9 h]

/-- Every node has a leaf under it. -/
theorem leavesUnder_ne_nil {node : List Node} (hn : ∀ i, nodeOk node i) {i : NodeIdx} (hi : i.toNat < node.length) :
    1 ≤ (leavesUnder node i).length := by
  induction h : i.toNat using Nat.strong_induction_on generalizing i with
  | _ n ih =>
    obtain ⟨x, hx⟩ := nodeAt_isSome hi
    cases x with
    | leaf s f => rw [leavesUnder_leaf hx]; simp
    | internal f l r =>
      obtain ⟨h1, h2, _⟩ := hn i.toNat f l r hx
      have := ih l.toNat (by omega) (i := l) (by omega) rfl
      rw [leavesUnder_internal hn hx]
      simp only [List.length_append, List.length_map]
      omega

/-- The path of a leaf leads to it. -/
theorem leavesUnder_follow {node : List Node} (hn : ∀ i, nodeOk node i) {i : NodeIdx} (hi : i.toNat < node.length)
    {s : Byte} {f : Count} {c : Code} (h : (s, f, c) ∈ leavesUnder node i) :
    ∃ j, followPath node i c = some j ∧ nodeAt node j = some (.leaf s f) := by
  induction hm : i.toNat using Nat.strong_induction_on generalizing i c with
  | _ n ih =>
    obtain ⟨x, hx⟩ := nodeAt_isSome hi
    cases x with
    | leaf s' f' =>
      rw [leavesUnder_leaf hx, List.mem_singleton] at h
      simp only [Prod.mk.injEq] at h
      obtain ⟨rfl, rfl, rfl⟩ := h
      exact ⟨i, rfl, hx⟩
    | internal g l r =>
      obtain ⟨h1, h2, _⟩ := hn i.toNat g l r hx
      rw [leavesUnder_internal hn hx, List.mem_append, List.mem_map, List.mem_map] at h
      rcases h with ⟨⟨a, b, d⟩, hp, heq⟩ | ⟨⟨a, b, d⟩, hp, heq⟩ <;>
        (simp only [Prod.mk.injEq] at heq; obtain ⟨rfl, rfl, rfl⟩ := heq)
      · obtain ⟨j, hj1, hj2⟩ := ih l.toNat (by omega) (i := l) (by omega) hp rfl
        exact ⟨j, by simp [followPath, childOf, hx, hj1], hj2⟩
      · obtain ⟨j, hj1, hj2⟩ := ih r.toNat (by omega) (i := r) (by omega) hp rfl
        exact ⟨j, by simp [followPath, childOf, hx, hj1], hj2⟩

/-- The part of a node in the number of leaves with a property. -/
def leafPart (p : Byte → Count → Bool) : Node → Nat
  | .leaf s f => if p s f then 1 else 0
  | .internal _ _ _ => 0

/-- The number of leaves with a property under the root is their number in the store. -/
theorem TreeWf.count_leaves {node : List Node} {nc : BitVec 10} {root : NodeIdx} (h : TreeWf node nc root)
    (p : Byte → Count → Bool) :
    ((leavesUnder node root).filter (fun x => p x.1 x.2.1)).length = (node.map (leafPart p)).sum := by
  have hr := root.isLt
  have hlen := h.atMost
  have hmap : ∀ (b : Bool) (l : List (Byte × Count × Code)),
      ((l.map (fun x => (x.1, x.2.1, b :: x.2.2))).filter (fun x => p x.1 x.2.1)).length =
        (l.filter (fun x => p x.1 x.2.1)).length := by
    intro b l
    rw [List.filter_map, List.length_map]
    rfl
  have := h.sum_root (base := leafPart p)
    (v := fun i => ((leavesUnder node (BitVec.ofNat 9 i)).filter (fun x => p x.1 x.2.1)).length) (by
      intro i n hi
      have hil := (List.getElem?_eq_some_iff.mp hi).1
      have hi' : nodeAt node (BitVec.ofNat 9 i) = some n := by rw [nodeAt_ofNat (by omega), hi]
      cases n with
      | leaf s f =>
        simp only [leavesUnder_leaf hi', leafPart, childList, List.flatMap_cons, List.flatMap_nil, List.append_nil,
          List.map_nil, List.sum_nil, Nat.add_zero]
        by_cases hp : p s f = true <;> simp [hp]
      | internal f l r =>
        simp only [leavesUnder_internal h.nodes hi', leafPart, childList, List.flatMap_cons, List.flatMap_nil,
          List.append_nil, List.filter_append, List.length_append, hmap, List.map_cons, List.map_nil, List.sum_cons,
          List.sum_nil, BitVec.ofNat_toNat, BitVec.setWidth_eq]
        omega)
  simpa using this

theorem filter_const_true {α : Type} (l : List α) : l.filter (fun _ => true) = l := by simp

/-- `N = 2 * leaves - 1`. -/
theorem TreeWf.leaves_length {node : List Node} {nc : BitVec 10} {root : NodeIdx} (h : TreeWf node nc root) :
    2 * (leavesUnder node root).length = node.length + 1 := by
  have h1 := h.count_leaves (fun _ _ => true)
  rw [filter_const_true] at h1
  have h2 : ∀ l : List Node, (l.map (leafPart fun _ _ => true)).sum * 2 + (childList l).length = 2 * l.length := by
    intro l
    induction l with
    | nil => rfl
    | cons n l ih =>
      have hc : childList (n :: l) = childList [n] ++ childList l := by simp [childList]
      rw [hc]
      cases n with
      | leaf s f => simp [leafPart, childList] at *; omega
      | internal f a b => simp [leafPart, childList] at *; omega
  have h3 := h2 node
  have h4 := h.children_perm.length_eq
  rw [indexList_length] at h4
  have := h.rootLast
  omega

/-- The real symbols of the leaves under the root are those of the store's. -/
theorem TreeWf.count_symbol {node : List Node} {nc : BitVec 10} {root : NodeIdx} (h : TreeWf node nc root) (sym : Byte) :
    ((leavesUnder node root).filter (fun x => decide (x.1 = sym ∧ x.2.1 ≠ 0))).length =
      (leafSymbols node).count sym := by
  rw [h.count_leaves (fun s f => decide (s = sym ∧ f ≠ 0))]
  have : ∀ l : List Node, (l.map (leafPart fun s f => decide (s = sym ∧ f ≠ 0))).sum = (leafSymbols l).count sym := by
    intro l
    induction l with
    | nil => rfl
    | cons n l ih =>
      rw [show n :: l = [n] ++ l from rfl, leafSymbols_append, List.map_append, List.sum_append, ih, List.count_append]
      congr 1
      cases n with
      | leaf s f =>
        by_cases hf : f = 0
        · subst hf; simp [leafPart, leafSymbols]
        · have hls : leafSymbols [Node.leaf s f] = [s] := leafSymbols_leavesOf (es := [(s, f)]) (by simpa using hf)
          have hf' : ¬ f = 0#64 := hf
          rw [hls, List.count_singleton]
          by_cases hs : s = sym <;> simp [leafPart, hs, hf']
      | internal f a b => rfl
  exact this node

theorem mem_leafSymbols {node : List Node} {sym : Byte} :
    sym ∈ leafSymbols node ↔ ∃ f, Node.leaf sym f ∈ node ∧ f ≠ 0 := by
  rw [leafSymbols, List.mem_filterMap]
  constructor
  · rintro ⟨n, hn, h⟩
    cases n with
    | leaf s f =>
      simp only [Option.ite_none_left_eq_some, Option.some.injEq] at h
      obtain ⟨h1, rfl⟩ := h
      exact ⟨f, hn, h1⟩
    | internal f l r => simp at h
  · rintro ⟨f, hn, hf⟩
    exact ⟨_, hn, by simp only [if_neg hf]⟩

/-- A real symbol of the tree has a leaf under the root. -/
theorem TreeWf.exists_leaf {node : List Node} {nc : BitVec 10} {root : NodeIdx} (h : TreeWf node nc root) {sym : Byte}
    (hs : sym ∈ leafSymbols node) : ∃ f c, (sym, f, c) ∈ leavesUnder node root ∧ f ≠ 0 := by
  have h1 := h.count_symbol sym
  have h2 := List.count_pos_iff.mpr hs
  obtain ⟨⟨s, f, c⟩, hx⟩ := List.exists_mem_of_length_pos (show 0 < List.length _ by rw [h1]; exact h2)
  rw [List.mem_filter] at hx
  have hd := of_decide_eq_true hx.2
  exact ⟨f, c, by rw [← hd.1]; exact hx.1, hd.2⟩

/-! ### Depth (R155) -/

/-- The number of Internal nodes of a store. -/
def internalCount (node : List Node) : Nat := (node.map (fun n => (childList [n]).length / 2)).sum

theorem internalCount_childList (node : List Node) : 2 * internalCount node = (childList node).length := by
  induction node with
  | nil => rfl
  | cons n l ih =>
    have hc : childList (n :: l) = childList [n] ++ childList l := by simp [childList]
    rw [hc, List.length_append, internalCount, List.map_cons, List.sum_cons]
    rw [internalCount] at ih
    cases n with
    | leaf s f => simp [childList] at *; omega
    | internal f a b => simp [childList] at *; omega

theorem internalCount_take_mono {node : List Node} {a b : Nat} (h : a ≤ b) :
    internalCount (node.take a) ≤ internalCount (node.take b) := by
  have h1 := List.take_append_drop a (node.take b)
  rw [List.take_take, Nat.min_eq_left h] at h1
  rw [← h1]
  simp [internalCount]

theorem followPath_length {node : List Node} (hn : ∀ i, nodeOk node i) {i j : NodeIdx} {c : Code}
    (h : followPath node i c = some j) : c.length ≤ internalCount (node.take (i.toNat + 1)) := by
  induction c generalizing i with
  | nil => simp
  | cons b c ih =>
    rw [followPath] at h
    cases hc : childOf node i b with
    | none => rw [hc] at h; simp at h
    | some d =>
      rw [hc] at h
      simp only at h
      have h1 := ih h
      rw [childOf] at hc
      cases hi : nodeAt node i with
      | none => rw [hi] at hc; simp at hc
      | some x =>
        rw [hi] at hc
        cases x with
        | leaf s f => simp at hc
        | internal f l r =>
          simp only [Option.some.injEq] at hc
          obtain ⟨h2, h3, _⟩ := hn i.toNat f l r hi
          have hd : d.toNat < i.toNat := by subst hc; split <;> assumption
          have h4 := internalCount_take_mono (node := node) (show d.toNat + 1 ≤ i.toNat by omega)
          have h5 : internalCount (node.take (i.toNat + 1)) = internalCount (node.take i.toNat) + 1 := by
            have hi' : node[i.toNat]? = some (.internal f l r) := hi
            rw [List.take_add_one, hi']
            simp [internalCount, childList]
          simp only [List.length_cons]
          omega

/-- No path is longer than 255 (R29, R155). -/
theorem TreeWf.depth {node : List Node} {nc : BitVec 10} {root : NodeIdx} (h : TreeWf node nc root) {j : NodeIdx} {c : Code}
    (hf : followPath node root c = some j) : c.length ≤ 255 := by
  have h1 := followPath_length h.nodes hf
  rw [h.rootLast, List.take_length] at h1
  have h2 := internalCount_childList node
  have h3 := h.children_perm.length_eq
  rw [indexList_length] at h3
  have := h.rootLast
  have := h.atMost
  omega

end Sys2Proof.Machine
end

