-- ==== Sys2Proof/Laws/CodeGenerator.lean ====
section
/-! SUPPORT. What the code generator does (42_code_generator.md R151 to R154). -/

namespace Sys2Proof.Machine

/-- The table after the leaves of a list are visited, each with its path after `path`; a leaf with `f = 0` gets no entry. -/
def putCodes (path : Code) : List Code → List (Byte × Count × Code) → List Code
  | ct, [] => ct
  | ct, x :: xs => putCodes path (if x.2.1 = 0 then ct else ct.set x.1.toNat (path ++ x.2.2)) xs

theorem putCodes_append (path : Code) (ct : List Code) (a b : List (Byte × Count × Code)) :
    putCodes path ct (a ++ b) = putCodes path (putCodes path ct a) b := by
  induction a generalizing ct with
  | nil => rfl
  | cons x a ih => simp only [List.cons_append, putCodes, ih]

theorem putCodes_cons (path : Code) (bit : Bool) (ct : List Code) (a : List (Byte × Count × Code)) :
    putCodes path ct (a.map (fun p => (p.1, p.2.1, bit :: p.2.2))) = putCodes (path ++ [bit]) ct a := by
  induction a generalizing ct with
  | nil => rfl
  | cons x a ih =>
    simp only [List.map_cons, putCodes, ih, List.append_assoc, List.singleton_append]

/-- What the traversal does after a subtree: it takes the next right child from the stack. -/
def genNext (k : Nat) (s : State) : State :=
  match s.genStack with
  | [] => s
  | (j, p) :: rest => genLoop k j p (s.setGen s.ct rest)

/-- The traversal of a subtree (R151): its leaves get their paths, left to right, and the stack is as before. -/
theorem genLoop_subtree {node : List Node} (hn : ∀ i, nodeOk node i) {i : NodeIdx} (hi : i.toNat < node.length)
    (k : Nat) (path : Code) (s : State) (hs : s.node = node) :
    genLoop (2 * (leavesUnder node i).length - 1 + k) i path s =
      genNext k (s.setGen (putCodes path s.ct (leavesUnder node i)) s.genStack) := by
  induction hm : i.toNat using Nat.strong_induction_on generalizing i k path s with
  | _ n ih =>
    obtain ⟨x, hx⟩ := nodeAt_isSome hi
    cases x with
    | leaf sym f =>
      rw [leavesUnder_leaf hx, show 2 * [(sym, f, ([] : Code))].length - 1 + k = k + 1 by simp; omega, genLoop, hs, hx]
      have hv : s.visitLeaf sym f path = s.setGen (putCodes path s.ct [(sym, f, [])]) s.genStack := by
        simp only [State.visitLeaf, putCodes, List.append_nil]
        split <;> rfl
      simp only [hv, genNext, State.setGen_genStack, State.setGen_ct]
      all_goals (cases s.genStack <;> rfl)
    | internal f l r =>
      obtain ⟨h1, h2, _⟩ := hn i.toNat f l r hx
      have hl := leavesUnder_ne_nil hn (i := l) (by omega)
      have hr := leavesUnder_ne_nil hn (i := r) (by omega)
      have hlen : 2 * (leavesUnder node i).length - 1 + k =
          (2 * (leavesUnder node l).length - 1 + (2 * (leavesUnder node r).length - 1 + k)) + 1 := by
        rw [leavesUnder_internal hn hx, List.length_append, List.length_map, List.length_map]; omega
      rw [hlen, genLoop, hs, hx]
      simp only
      rw [ih l.toNat (by omega) (i := l) (by omega) _ _ _ (by rw [State.setGen_node]; exact hs) rfl, genNext]
      simp only [State.setGen_genStack, State.setGen_ct]
      rw [ih r.toNat (by omega) (i := r) (by omega) _ _ _ (by simp only [State.setGen_node]; exact hs) rfl]
      rw [leavesUnder_internal hn hx, putCodes_append, putCodes_cons, putCodes_cons]
      rfl

theorem putCodes_length (path : Code) (ct : List Code) (l : List (Byte × Count × Code)) :
    (putCodes path ct l).length = ct.length := by
  induction l generalizing ct with
  | nil => rfl
  | cons x l ih =>
    rw [putCodes, ih]
    split
    · rfl
    · simp

theorem codeOf_set {ct : List Code} (h : ct.length = 256) (a b : Byte) (c : Code) :
    codeOf (ct.set a.toNat c) b = if a = b then c else codeOf ct b := by
  have ha := a.isLt
  by_cases hab : a = b
  · subst hab
    rw [if_pos rfl, codeOf, List.getElem?_set_self (by omega)]
  · have : a.toNat ≠ b.toNat := fun hc => hab (BitVec.eq_of_toNat_eq hc)
    rw [if_neg hab, codeOf, codeOf, List.getElem?_set_ne this]

/-- A symbol with no real leaf in the list keeps its code. -/
theorem codeOf_putCodes_other {path : Code} {ct : List Code} {l : List (Byte × Count × Code)} {sym : Byte}
    (h : ct.length = 256) (hl : ∀ f c, (sym, f, c) ∈ l → f = 0) : codeOf (putCodes path ct l) sym = codeOf ct sym := by
  induction l generalizing ct with
  | nil => rfl
  | cons x l ih =>
    obtain ⟨s, f, c⟩ := x
    have hl' : ∀ f c, (sym, f, c) ∈ l → f = 0 := fun f c hx => hl f c (List.mem_cons_of_mem _ hx)
    rw [putCodes]
    split
    · exact ih h hl'
    · rename_i hf
      rw [ih (by simpa using h) hl', codeOf_set h, if_neg]
      rintro rfl
      exact hf (hl f c (List.mem_cons_self ..))

/-- A symbol with one real leaf in the list gets that leaf's path. -/
theorem codeOf_putCodes {path : Code} {ct : List Code} {l : List (Byte × Count × Code)} {sym : Byte} {f : Count} {c : Code}
    (h : ct.length = 256) (hm : (sym, f, c) ∈ l) (hf : f ≠ 0)
    (h1 : (l.filter (fun x => decide (x.1 = sym ∧ x.2.1 ≠ 0))).length ≤ 1) :
    codeOf (putCodes path ct l) sym = path ++ c := by
  induction l generalizing ct with
  | nil => simp at hm
  | cons x l ih =>
    obtain ⟨s, g, d⟩ := x
    rw [putCodes]
    rcases List.mem_cons.mp hm with heq | hm'
    · simp only [Prod.mk.injEq] at heq
      obtain ⟨rfl, rfl, rfl⟩ := heq
      simp only [if_neg hf]
      rw [codeOf_putCodes_other (by simpa using h), codeOf_set h, if_pos rfl]
      intro f' c' hx
      by_contra hf'
      rw [List.filter_cons, if_pos (by simp [show ¬ f = 0#64 from hf]), List.length_cons] at h1
      have : 0 < (l.filter (fun x => decide (x.1 = sym ∧ x.2.1 ≠ 0))).length :=
        List.length_pos_of_mem (List.mem_filter.mpr ⟨hx, by simp only [decide_eq_true_eq]; exact ⟨trivial, hf'⟩⟩)
      omega
    · refine ih ?_ hm' ?_
      · split
        · exact h
        · simpa using h
      · rw [List.filter_cons] at h1
        split at h1
        · rw [List.length_cons] at h1; omega
        · exact h1

theorem noCodes_length : noCodes.length = 256 := List.length_replicate

/-- The code table of a tree (R151, R152). -/
def treeCodes (node : List Node) (root : NodeIdx) : List Code := putCodes [] noCodes (leavesUnder node root)

theorem codeOf_noCodes (b : Byte) : codeOf noCodes b = [] := by
  have := b.isLt
  rw [codeOf, noCodes, List.getElem?_replicate, if_pos this]

/-- The table of a well-formed tree is what R28, R29 and R152 say. -/
theorem treeCodes_of {node : List Node} {nc : BitVec 10} {root : NodeIdx} (h : TreeWf node nc root) :
    CodesOf node root (treeCodes node root) := by
  have hr := h.rootLast
  have hleaf : ∀ sym, sym ∈ leafSymbols node → ∃ f c, (sym, f, c) ∈ leavesUnder node root ∧ f ≠ 0 ∧
      codeOf (treeCodes node root) sym = c := by
    intro sym hs
    obtain ⟨f, c, hm, hf⟩ := h.exists_leaf hs
    refine ⟨f, c, hm, hf, ?_⟩
    have h1 := h.count_symbol sym
    have h2 := List.nodup_iff_count_le_one.mp h.symbols sym
    rw [treeCodes, codeOf_putCodes noCodes_length hm hf (by rw [h1]; exact h2), List.nil_append]
  refine ⟨(putCodes_length _ _ _).trans noCodes_length, fun sym hs => ?_, fun sym hs => ?_, fun sym hs => ?_⟩
  · obtain ⟨f, c, hm, hf, hc⟩ := hleaf sym hs
    obtain ⟨j, h1, h2⟩ := leavesUnder_follow h.nodes (by omega) hm
    exact ⟨j, f, by rw [hc]; exact h1, h2, hf⟩
  · obtain ⟨f, c, hm, hf, hc⟩ := hleaf sym hs
    obtain ⟨j, h1, h2⟩ := leavesUnder_follow h.nodes (by omega) hm
    rw [hc]
    refine ⟨?_, h.depth h1⟩
    rw [Nat.one_le_iff_ne_zero, Ne, List.length_eq_zero_iff]
    rintro rfl
    simp only [followPath, Option.some.injEq] at h1
    subst h1
    obtain ⟨g, l, r, hi⟩ := h.rootInternal
    rw [nodeAt, hi] at h2
    simp at h2
  · rw [treeCodes, codeOf_putCodes_other noCodes_length, codeOf_noCodes]
    intro f c hx
    by_contra hf
    have h1 := h.count_symbol sym
    have h2 : 0 < ((leavesUnder node root).filter (fun x => decide (x.1 = sym ∧ x.2.1 ≠ 0))).length :=
      List.length_pos_of_mem (List.mem_filter.mpr ⟨hx, by simp only [decide_eq_true_eq]; exact ⟨trivial, hf⟩⟩)
    rw [h1] at h2
    exact hs (List.count_pos_iff.mp h2)

/-! ### The codes are prefix-free (R154) -/

theorem followPath_append (node : List Node) (i : NodeIdx) (a b : Code) :
    followPath node i (a ++ b) = (followPath node i a).bind (fun j => followPath node j b) := by
  induction a generalizing i with
  | nil => rfl
  | cons x a ih =>
    rw [List.cons_append, followPath, followPath]
    cases childOf node i x with
    | none => rfl
    | some c => exact ih c

theorem childOf_leaf {node : List Node} {i : NodeIdx} {s : Byte} {f : Count} (h : nodeAt node i = some (.leaf s f))
    (b : Bool) : childOf node i b = none := by rw [childOf, h]

/-- A path that goes on from a leaf is the leaf's own. -/
theorem LeadsTo.prefix_eq {node : List Node} {i : NodeIdx} {a b : Code} {s t : Byte} (ha : LeadsTo node i a s)
    (hb : LeadsTo node i (a ++ b) t) : b = [] ∧ s = t := by
  obtain ⟨j, f, h1, h2, _⟩ := ha
  obtain ⟨j', f', h1', h2', _⟩ := hb
  rw [followPath_append, h1, Option.bind_some] at h1'
  cases b with
  | nil =>
    simp only [followPath, Option.some.injEq] at h1'
    subst h1'
    rw [h2] at h2'
    simp only [Option.some.injEq, Node.leaf.injEq] at h2'
    exact ⟨rfl, h2'.1⟩
  | cons x b =>
    rw [followPath, childOf_leaf h2] at h1'
    simp at h1'

/-! ### The body -/

/-- What GEN_CODES' body does with a well-formed tree (R153). -/
theorem genBody_ok {s : State} (hv : s.treeValid = true) (h : TreeWf s.node s.ncount s.root) :
    genBody s = .ok ()
      ((((s.setPhase .gen).dropCodes).setGen (treeCodes s.node s.root) []).setCtValid true) := by
  have hr := h.rootLast
  have hl := h.leaves_length
  have h1 : ¬ ((s.setPhase .gen).dropCodes).treeValid = false := by simp [hv]
  rw [genBody]
  simp only [if_neg h1]
  have h2 : ((s.setPhase .gen).dropCodes).node.length = 2 * (leavesUnder s.node s.root).length - 1 + 0 := by
    simp only [State.dropCodes_node, State.setPhase_node]; omega
  have h3 := genLoop_subtree h.nodes (i := s.root) (by omega) 0 []
    (((s.setPhase .gen).dropCodes).setGen noCodes []) (by simp)
  rw [h2, State.dropCodes_root, State.setPhase_root, h3, genNext]
  simp only [State.setGen_genStack, State.setGen_ct]
  rfl

/-- GEN_CODES' body without a tree (R153). -/
theorem genBody_noTree {s : State} (hv : s.treeValid = false) :
    genBody s = .raised ⟨.noTree, 0⟩ ((s.setPhase .gen).dropCodes) := by
  have h1 : ((s.setPhase .gen).dropCodes).treeValid = false := by simp [hv]
  rw [genBody]
  simp only [if_pos h1]

/-- The traversal changes the code table and the stack alone. -/
theorem genLoop_cases (k : Nat) (i : NodeIdx) (path : Code) (s : State) :
    ∃ ct st, genLoop k i path s = s.setGen ct st := by
  induction k generalizing i path s with
  | zero => exact ⟨s.ct, s.genStack, rfl⟩
  | succ k ih =>
    rw [genLoop]
    split
    · obtain ⟨ct, st, h⟩ := ih _ (path ++ [false]) (s.setGen s.ct ((_, path ++ [true]) :: s.genStack))
      exact ⟨ct, st, by rw [h]; rfl⟩
    · rename_i sym f hi
      have hv : ∃ ct, s.visitLeaf sym f path = s.setGen ct s.genStack := by
        rw [State.visitLeaf]
        split
        · exact ⟨s.ct, rfl⟩
        · exact ⟨_, rfl⟩
      obtain ⟨ct1, hv⟩ := hv
      simp only [hv, State.setGen_genStack, State.setGen_ct]
      cases s.genStack with
      | nil => exact ⟨_, _, rfl⟩
      | cons y ys =>
        obtain ⟨ct, st, h⟩ := ih y.1 y.2 ((s.setGen ct1 (y :: ys)).setGen ct1 ys)
        exact ⟨ct, st, by simp only; rw [h]; rfl⟩
    · exact ⟨s.ct, s.genStack, rfl⟩

/-- What GEN_CODES' body can do. -/
theorem genBody_cases (s : State) :
    (s.treeValid = true ∧
      ∃ ct, genBody s = .ok () ((((s.setPhase .gen).dropCodes).setGen ct []).setCtValid true)) ∨
    (s.treeValid = false ∧ genBody s = .raised ⟨.noTree, 0⟩ ((s.setPhase .gen).dropCodes)) := by
  cases hv : s.treeValid with
  | false => exact .inr ⟨rfl, genBody_noTree hv⟩
  | true =>
    refine .inl ⟨rfl, ?_⟩
    have h1 : ¬ ((s.setPhase .gen).dropCodes).treeValid = false := by simp [hv]
    rw [genBody]
    simp only [if_neg h1]
    obtain ⟨ct, st, h⟩ := genLoop_cases ((s.setPhase .gen).dropCodes).node.length ((s.setPhase .gen).dropCodes).root []
      (((s.setPhase .gen).dropCodes).setGen noCodes [])
    exact ⟨ct, by rw [h]; rfl⟩

end Sys2Proof.Machine
end

