-- ==== Sys2Proof/Laws/BitUnpacker.lean ====
section
/-! SUPPORT. What the bit unpacker does (44_bit_unpacker.md R172 to R179). -/

namespace Sys2Proof.Machine

/-! ### One bit -/

@[simp] theorem State.payload_length (s : State) (base : Nat) : (s.payload base).length = s.inLen.toNat - base := by
  simp [State.payload]

theorem drop_head {α : Type} {l : List α} {n : Nat} {b : α} {tl : List α} (h : l.drop n = b :: tl) :
    l[n]? = some b ∧ l.drop (n + 1) = tl := by
  constructor
  · have := congrArg (fun m => m[0]?) h
    simpa [List.getElem?_drop] using this
  · have := congrArg List.tail h
    simpa [List.tail_drop] using this

/-- The bytes of the first `n` bits of the payload are readable. -/
def State.BitsReadable (s : State) (base n : Nat) : Prop := ∀ k, k < n → s.inBadAt (base + k / 8) = false

theorem State.BitsReadable.congr {s t : State} {base n : Nat} (h : s.BitsReadable base n) (he : t.env = s.env) :
    t.BitsReadable base n := fun k hk => by rw [State.inBadAt_congr he]; exact h k hk

theorem State.BitsReadable.less {s : State} {base m n : Nat} (h : s.BitsReadable base n) (hm : m ≤ n) :
    s.BitsReadable base m := fun k hk => h k (by omega)

theorem State.BitsReadable.of {s t : State} {base m n : Nat} (h : s.BitsReadable base n) (he : t.env = s.env) (hm : m ≤ n) :
    t.BitsReadable base m := (h.less hm).congr he

/-- Reading the next bit of the payload (R173). -/
theorem walkBit_eq {base : Nat} {s : State} {b : Bool} {rest : List Bool} (hok : s.BitsReadable base (s.bitpos.toNat + 1))
    (hbits : (payloadBits (s.payload base)).drop s.bitpos.toNat = b :: rest) :
    ∃ x, walkBit base s = walkTake b ((s.setBitpos (s.bitpos + 1)).setInOff x) := by
  have hget := (drop_head hbits).1
  have hlt := (List.getElem?_eq_some_iff.mp hget).1
  rw [payloadBits_length, State.payload_length] at hlt
  rw [payloadBits_getElem? (by rw [State.payload_length]; omega), State.payload, State.inSlice_getElem?,
    if_pos (by omega), Option.map_some, Option.some.injEq] at hget
  have h1 : ¬ s.inLen.toNat ≤ base + s.bitpos.toNat / 8 := by omega
  have h2 : ¬ s.inBadAt (base + s.bitpos.toNat / 8) = true := by simp [hok _ (Nat.lt_succ_self _)]
  refine ⟨BitVec.ofNat 64 (base + s.bitpos.toNat / 8 + 1), ?_⟩
  rw [walkBit, memRead_one, if_neg h1, if_neg h2]
  simp only [BitVec.ofNat_toNat, BitVec.setWidth_eq, hget]
  rfl

/-- The next bit position, inside the payload. -/
theorem bitpos_succ {base : Nat} {s : State} {b : Bool} {rest : List Bool}
    (hbits : (payloadBits (s.payload base)).drop s.bitpos.toNat = b :: rest) :
    (s.bitpos + 1).toNat = s.bitpos.toNat + 1 := by
  have hlt := (List.getElem?_eq_some_iff.mp (drop_head hbits).1).1
  rw [payloadBits_length, State.payload_length] at hlt
  have := s.inLen.isLt
  have h1 : (s.bitpos + 1).toNat = (s.bitpos.toNat + 1) % 2 ^ 67 := BitVec.toNat_add s.bitpos 1
  omega

/-! ### Along a path -/

/-- A bit that leads to an Internal node (R173). -/
theorem walkBit_inner {base : Nat} {s : State} {b : Bool} {rest : List Bool} {d l r : NodeIdx} {g : Count}
    (hok : s.BitsReadable base (s.bitpos.toNat + 1))
    (hbits : (payloadBits (s.payload base)).drop s.bitpos.toNat = b :: rest) (hd : childOf s.node s.cur b = some d)
    (hn : nodeAt s.node d = some (.internal g l r)) :
    ∃ x, walkBit base s = .ok () (((s.setBitpos (s.bitpos + 1)).setInOff x).setWalk d s.emitted) := by
  obtain ⟨x, hx⟩ := walkBit_eq hok hbits
  refine ⟨x, ?_⟩
  rw [hx, walkTake]
  simp [hd, walkArrive, hn]

/-- A bit that leads to a leaf (R173). -/
theorem walkBit_leaf {base : Nat} {s : State} {b : Bool} {rest : List Bool} {d : NodeIdx} {sym : Byte} {f : Count}
    (hok : s.BitsReadable base (s.bitpos.toNat + 1)) (hfit : s.Fits 1)
    (hbits : (payloadBits (s.payload base)).drop s.bitpos.toNat = b :: rest)
    (hd : childOf s.node s.cur b = some d) (hn : nodeAt s.node d = some (.leaf sym f)) (hf : f ≠ 0) :
    ∃ x, walkBit base s = .ok () ((s.emit [sym] 1).setInOff x) := by
  obtain ⟨x, hx⟩ := walkBit_eq hok hbits
  refine ⟨x, ?_⟩
  have hfit' : ((s.setBitpos (s.bitpos + 1)).setInOff x).Fits 1 := by simpa using hfit
  rw [hx, walkTake]
  simp only [State.setInOff_node, State.setBitpos_node, State.setInOff_cur, State.setBitpos_cur, hd, walkArrive, hn, if_neg hf,
    outByte_ok hfit']
  rfl

/-- A bit that leads to the dummy leaf: its symbol is not emitted (R176). -/
theorem walkBit_dummy {base : Nat} {s : State} {b : Bool} {rest : List Bool} {d : NodeIdx} {sym : Byte}
    (hok : s.BitsReadable base (s.bitpos.toNat + 1))
    (hbits : (payloadBits (s.payload base)).drop s.bitpos.toNat = b :: rest)
    (hd : childOf s.node s.cur b = some d) (hn : nodeAt s.node d = some (.leaf sym 0)) :
    ∃ t, walkBit base s = .raised ⟨.dummyLeaf, s.emitted⟩ t ∧ t.outLen = s.outLen := by
  obtain ⟨x, hx⟩ := walkBit_eq hok hbits
  refine ⟨(s.setBitpos (s.bitpos + 1)).setInOff x, ?_, by simp⟩
  rw [hx, walkTake]
  simp [hd, walkArrive, hn]

/-- A bit that leads to a leaf when OUT is full (R64). -/
theorem walkBit_full {base : Nat} {s : State} {b : Bool} {rest : List Bool} {d : NodeIdx} {sym : Byte} {f : Count}
    (hok : s.BitsReadable base (s.bitpos.toNat + 1)) (hfull : ¬ s.Fits 1)
    (hbits : (payloadBits (s.payload base)).drop s.bitpos.toNat = b :: rest)
    (hd : childOf s.node s.cur b = some d) (hn : nodeAt s.node d = some (.leaf sym f)) (hf : f ≠ 0) :
    ∃ t, walkBit base s = .raised ⟨.dstUnwritable, s.outLen⟩ t ∧ t.outLen = s.outLen := by
  obtain ⟨x, hx⟩ := walkBit_eq hok hbits
  have hfull' : ¬ ((s.setBitpos (s.bitpos + 1)).setInOff x).Fits 1 := by simpa using hfull
  refine ⟨(s.setBitpos (s.bitpos + 1)).setInOff x, ?_, by simp⟩
  rw [hx, walkTake]
  simp only [State.setInOff_node, State.setBitpos_node, State.setInOff_cur, State.setBitpos_cur, hd, walkArrive, hn, if_neg hf,
    outByte_full hfull']
  rfl

/-- A bit whose byte is unreadable (R63, R173). -/
theorem walkBit_unreadable {base : Nat} {s : State} (hlen : base + s.bitpos.toNat / 8 < s.inLen.toNat)
    (hbad : s.inBadAt (base + s.bitpos.toNat / 8) = true) :
    walkBit base s = .raised ⟨.srcUnreadable, BitVec.ofNat 64 (base + s.bitpos.toNat / 8)⟩ s := by
  rw [walkBit, memRead_one, if_neg (by omega), if_pos hbad]

/-- On the way of a path there is an Internal node. -/
theorem followPath_internal {node : List Node} {i j : NodeIdx} {b : Bool} {c : Code} (h : followPath node i (b :: c) = some j) :
    ∃ g l r, nodeAt node i = some (.internal g l r) := by
  rw [followPath, childOf] at h
  cases hn : nodeAt node i with
  | none => rw [hn] at h; simp at h
  | some n =>
    cases n with
    | leaf s f => rw [hn] at h; simp at h
    | internal g l r => exact ⟨g, l, r, rfl⟩

theorem followPath_cons {node : List Node} {i j : NodeIdx} {b : Bool} {c : Code} (h : followPath node i (b :: c) = some j) :
    ∃ d, childOf node i b = some d ∧ followPath node d c = some j := by
  rw [followPath] at h
  cases hd : childOf node i b with
  | none => rw [hd] at h; simp at h
  | some d => rw [hd] at h; exact ⟨d, rfl, h⟩

/-- A node with a child is an Internal node. -/
theorem childOf_internal {node : List Node} {i j : NodeIdx} {b : Bool} (h : childOf node i b = some j) :
    ∃ g l r, nodeAt node i = some (.internal g l r) :=
  followPath_internal (j := j) (b := b) (c := []) (by rw [followPath, h]; rfl)

/-- The last step of a path. -/
theorem followPath_concat {node : List Node} {i j : NodeIdx} {c : Code} {b : Bool} (h : followPath node i (c ++ [b]) = some j) :
    ∃ d, followPath node i c = some d ∧ childOf node d b = some j := by
  induction c generalizing i with
  | nil =>
    obtain ⟨d, hd, he⟩ := followPath_cons h
    rw [followPath, Option.some.injEq] at he
    exact ⟨i, rfl, by rw [hd, he]⟩
  | cons a c ih =>
    obtain ⟨d, hd, he⟩ := followPath_cons h
    obtain ⟨e, he1, he2⟩ := ih he
    exact ⟨e, by rw [followPath, hd]; exact he1, he2⟩

theorem ofNat67_succ (x : BitVec 67) (n : Nat) : x + 1 + BitVec.ofNat 67 n = x + BitVec.ofNat 67 (n + 1) := by
  rw [← BitVec.ofNat_add_ofNat, BitVec.add_comm (BitVec.ofNat 67 n), ← BitVec.add_assoc]
  rfl

/-- The walk along a path to a leaf emits the leaf's symbol and starts again at the root (R173). -/
theorem walkLoop_path {base len k : Nat} {c : Code} {s : State} {rest : List Bool} {j : NodeIdx} {sym : Byte} {f : Count}
    (hok : s.BitsReadable base (s.bitpos.toNat + c.length)) (hfit : s.Fits 1) (hlen : s.emitted.toNat < len) (hc : c ≠ [])
    (hbits : (payloadBits (s.payload base)).drop s.bitpos.toNat = c ++ rest)
    (hpath : followPath s.node s.cur c = some j) (hj : nodeAt s.node j = some (.leaf sym f)) (hf : f ≠ 0) :
    ∃ x, walkLoop base len (c.length + k) s = walkLoop base len k ((s.emit [sym] c.length).setInOff x) := by
  induction c generalizing s with
  | nil => exact absurd rfl hc
  | cons b c ih =>
    rw [List.cons_append] at hbits
    rw [List.length_cons, show c.length + 1 + k = (c.length + k) + 1 by omega, walkLoop, if_neg (by omega)]
    obtain ⟨d, hd, hpath⟩ := followPath_cons hpath
    cases c with
    | nil =>
      rw [followPath, Option.some.injEq] at hpath
      subst hpath
      obtain ⟨x, hx⟩ := walkBit_leaf (hok.less (by simp)) hfit hbits hd hj hf
      exact ⟨x, by simp [hx]⟩
    | cons b' c =>
      obtain ⟨g, l, r, hint⟩ := followPath_internal hpath
      obtain ⟨y, hy⟩ := walkBit_inner (hok.less (by simp)) hbits hd hint
      have hbp := bitpos_succ hbits
      obtain ⟨x, hx⟩ := ih (s := ((s.setBitpos (s.bitpos + 1)).setInOff y).setWalk d s.emitted)
        (hok.of (by simp) (by
          rw [State.setWalk_bitpos, State.setInOff_bitpos, State.setBitpos_bitpos, hbp]
          simp only [List.length_cons]; omega)) (by simpa using hfit) (by simpa using hlen) (by simp)
        (by
          simp only [State.setWalk_payload, State.setInOff_payload, State.setBitpos_payload, State.setWalk_bitpos,
            State.setInOff_bitpos, State.setBitpos_bitpos, hbp]
          exact (drop_head hbits).2)
        (by simpa using hpath) (by simpa using hj)
      refine ⟨x, ?_⟩
      rw [hy]
      simp only
      rw [hx]
      refine congrArg (walkLoop base len k) ?_
      have e := ofNat67_succ s.bitpos (b' :: c).length
      apply State.ext_fields
      all_goals first
        | (simp only [State.setInOff_bitpos, State.emit_bitpos, State.setWalk_bitpos, State.setBitpos_bitpos]; exact e)
        | simp

/-- `n` more bits, inside the payload. -/
theorem bitpos_add {base : Nat} {s : State} {c rest : List Bool}
    (hbits : (payloadBits (s.payload base)).drop s.bitpos.toNat = c ++ rest) (hpos : s.bitpos.toNat ≤ 8 * (s.payload base).length) :
    (s.bitpos + BitVec.ofNat 67 c.length).toNat = s.bitpos.toNat + c.length ∧
      (payloadBits (s.payload base)).drop (s.bitpos.toNat + c.length) = rest := by
  have hl := congrArg List.length hbits
  rw [List.length_drop, payloadBits_length, State.payload_length, List.length_append] at hl
  rw [State.payload_length] at hpos
  have := s.inLen.isLt
  constructor
  · rw [BitVec.toNat_add, BitVec.toNat_ofNat, Nat.mod_eq_of_lt (show c.length < 2 ^ 67 by omega)]
    exact Nat.mod_eq_of_lt (by omega)
  · rw [← List.drop_drop, hbits, List.drop_left]

/-- The walk along the codes of a list of symbols emits them (R173, R174). -/
theorem walkLoop_codes {base len k : Nat} {syms : List Byte} {ct : List Code} {s : State} {rest : List Bool}
    (hok : s.BitsReadable base (s.bitpos.toNat + (codeBits ct syms).length)) (hfit : s.Fits syms.length)
    (hlen : s.emitted.toNat + syms.length ≤ len) (hlt : len < 2 ^ 64)
    (hcur : s.cur = s.root) (hpos : s.bitpos.toNat ≤ 8 * (s.payload base).length)
    (hbits : (payloadBits (s.payload base)).drop s.bitpos.toNat = codeBits ct syms ++ rest)
    (hcodes : ∀ b ∈ syms, codeOf ct b ≠ [] ∧ LeadsTo s.node s.root (codeOf ct b) b) :
    ∃ x, walkLoop base len ((codeBits ct syms).length + k) s =
      walkLoop base len k ((s.emit syms (codeBits ct syms).length).setInOff x) := by
  induction syms generalizing s with
  | nil =>
    refine ⟨s.inOff, ?_⟩
    rw [show (codeBits ct []).length = 0 from rfl, Nat.zero_add]
    refine congrArg (walkLoop base len k) ?_
    apply State.ext_fields <;> simp [hcur, Memory.setAll]
  | cons b syms ih =>
    have hcb : codeBits ct (b :: syms) = codeOf ct b ++ codeBits ct syms := rfl
    simp only [List.length_cons] at hfit hlen
    obtain ⟨hne, j, f, h1, h2, h3⟩ := hcodes b (List.mem_cons_self ..)
    rw [hcb, List.append_assoc] at hbits
    have hfit1 : s.Fits 1 := by simp only [State.Fits] at *; omega
    obtain ⟨x, hx⟩ := walkLoop_path (len := len) (k := (codeBits ct syms).length + k)
      (c := codeOf ct b) (hok.less (by rw [hcb, List.length_append]; omega)) hfit1 (by omega) hne hbits
      (by rw [hcur]; exact h1) h2 h3
    rw [hcb, List.length_append, show (codeOf ct b).length + (codeBits ct syms).length + k =
      (codeOf ct b).length + ((codeBits ct syms).length + k) by omega, hx]
    obtain ⟨hb1, hb2⟩ := bitpos_add hbits hpos
    have hem : (s.emitted + BitVec.ofNat 64 1).toNat = s.emitted.toNat + 1 := by
      have := s.emitted.isLt
      rw [BitVec.toNat_add, BitVec.toNat_ofNat, Nat.mod_eq_of_lt (show 1 < 2 ^ 64 by omega)]
      exact Nat.mod_eq_of_lt (by omega)
    have hol := State.appendOut_outLen_toNat (bs := [b]) hfit1
    have hl := congrArg List.length hb2
    rw [List.length_drop, payloadBits_length] at hl
    have hl2 := congrArg List.length hbits
    rw [List.length_drop, payloadBits_length, List.length_append] at hl2
    obtain ⟨y, hy⟩ := ih (s := (s.emit [b] (codeOf ct b).length).setInOff x)
      (hok.of (by simp) (by rw [State.setInOff_bitpos, State.emit_bitpos, hb1, hcb, List.length_append]; omega))
      (by
        rw [State.Fits, State.setInOff_outLen, State.setInOff_env, State.emit_outLen, State.emit_env,
          ← State.appendOut_outLen, hol]
        simp only [State.Fits, List.length_singleton] at *; omega)
      (by
        rw [State.setInOff_emitted, State.emit_emitted, List.length_singleton, hem]; omega)
      (by simp)
      (by
        rw [State.setInOff_bitpos, State.emit_bitpos, hb1, State.setInOff_payload, State.emit_payload]; omega)
      (by
        rw [State.setInOff_bitpos, State.emit_bitpos, hb1, State.setInOff_payload, State.emit_payload]; exact hb2)
      (by simpa using fun a ha => hcodes a (List.mem_cons_of_mem _ ha))
    refine ⟨y, hy.trans (congrArg (walkLoop base len k) ?_)⟩
    have e1 : s.emitted + BitVec.ofNat 64 (b :: syms).length = s.emitted + BitVec.ofNat 64 1 + BitVec.ofNat 64 syms.length := by
      rw [List.length_cons, ← BitVec.ofNat_add_ofNat, BitVec.add_comm (BitVec.ofNat 64 syms.length), ← BitVec.add_assoc]
    have e2 : s.bitpos + BitVec.ofNat 67 ((codeOf ct b).length + (codeBits ct syms).length) =
        s.bitpos + BitVec.ofNat 67 (codeOf ct b).length + BitVec.ofNat 67 (codeBits ct syms).length := by
      rw [← BitVec.ofNat_add_ofNat, ← BitVec.add_assoc]
    have e3 : (s.appendOut [b]).appendOut syms = s.appendOut (b :: syms) :=
      State.appendOut_append (bs := [b]) (cs := syms) hfit1
    have e4 := congrArg State.outMem e3
    have e5 := congrArg State.outLen e3
    simp only [State.appendOut_outMem, State.appendOut_outLen] at e4 e5
    apply State.ext_fields
    all_goals first
      | (simp only [State.setInOff_outMem, State.emit_outMem, State.setInOff_outLen, State.emit_outLen]; first | exact e4 | exact e5)
      | (simp only [State.setInOff_emitted, State.emit_emitted]; exact e1.symm)
      | (simp only [State.setInOff_bitpos, State.emit_bitpos]; exact e2.symm)
      | simp

/-- The walk along a path that ends at an Internal node has taken the bits and emitted nothing. -/
theorem walkLoop_inner {base len k : Nat} {c : Code} {s : State} {rest : List Bool} {j : NodeIdx} {g : Count} {l r : NodeIdx}
    (hok : s.BitsReadable base (s.bitpos.toNat + c.length)) (hlen : s.emitted.toNat < len)
    (hbits : (payloadBits (s.payload base)).drop s.bitpos.toNat = c ++ rest)
    (hpath : followPath s.node s.cur c = some j) (hj : nodeAt s.node j = some (.internal g l r)) :
    ∃ b x, walkLoop base len (c.length + k) s =
      walkLoop base len k (((s.setWalk j s.emitted).setBitpos b).setInOff x) ∧
        (payloadBits (s.payload base)).drop b.toNat = rest ∧ b.toNat = s.bitpos.toNat + c.length := by
  induction c generalizing s with
  | nil =>
    rw [followPath, Option.some.injEq] at hpath
    subst hpath
    exact ⟨s.bitpos, s.inOff, by simp only [List.length_nil, Nat.zero_add]; rfl, hbits, rfl⟩
  | cons b c ih =>
    rw [List.cons_append] at hbits
    rw [List.length_cons, show c.length + 1 + k = (c.length + k) + 1 by omega, walkLoop, if_neg (by omega)]
    obtain ⟨d, hd, hpath⟩ := followPath_cons hpath
    have hint : ∃ g l r, nodeAt s.node d = some (.internal g l r) := by
      cases c with
      | nil =>
        rw [followPath, Option.some.injEq] at hpath
        subst hpath
        exact ⟨g, l, r, hj⟩
      | cons b' c => exact followPath_internal hpath
    obtain ⟨g', l', r', hint⟩ := hint
    obtain ⟨y, hy⟩ := walkBit_inner (hok.less (by simp)) hbits hd hint
    have hbp := bitpos_succ hbits
    obtain ⟨bp, x, hx, hd2, hbp2⟩ := ih (s := ((s.setBitpos (s.bitpos + 1)).setInOff y).setWalk d s.emitted)
      (hok.of (by simp) (by
          rw [State.setWalk_bitpos, State.setInOff_bitpos, State.setBitpos_bitpos, hbp]
          simp only [List.length_cons]; omega)) (by simpa using hlen)
      (by
        simp only [State.setWalk_payload, State.setInOff_payload, State.setBitpos_payload, State.setWalk_bitpos,
          State.setInOff_bitpos, State.setBitpos_bitpos, bitpos_succ hbits]
        exact (drop_head hbits).2)
      (by simpa using hpath) (by simpa using hj)
    refine ⟨bp, x, ?_, by simpa using hd2, ?_⟩
    swap
    · rw [hbp2, State.setWalk_bitpos, State.setInOff_bitpos, State.setBitpos_bitpos, hbp]; omega
    rw [hy]
    simp only
    rw [hx]
    refine congrArg (walkLoop base len k) ?_
    apply State.ext_fields <;> simp

/-! ### The whole walk -/

/-- The start of the loop (R173). -/
theorem walk_start {base tb len : Nat} {s : State} (h0 : len ≠ 0) (hp : 1 ≤ s.inLen.toNat - base) :
    walk base tb len s =
      walkLoop base len (availBits (s.payload base).length tb) ((s.setWalk s.root 0).setBitpos 0) := by
  rw [walk, if_neg h0, if_neg (by omega), State.payload_length]

theorem usable_split {p : List Byte} {tb : Nat} {l : List Bool} (htb : tb ≤ 7) (hp : 1 ≤ p.length) (h : usableBits p tb = l) :
    ∃ rest, payloadBits p = l ++ rest ∧ l.length = availBits p.length tb := by
  refine ⟨(payloadBits p).drop (availBits p.length tb), ?_, ?_⟩
  · rw [← h, usableBits, List.take_append_drop]
  · rw [← h, usableBits, List.length_take, payloadBits_length, availBits]
    split <;> omega

/-- The state at the start of the loop. -/
def State.atRoot (s : State) : State := (s.setWalk s.root 0).setBitpos 0

theorem State.atRoot_bits {base : Nat} {s : State} {l : List Bool} (h : payloadBits (s.payload base) = l) :
    (payloadBits (s.atRoot.payload base)).drop s.atRoot.bitpos.toNat = l := by
  simp [State.atRoot, h]

/-- The walk along the codes of a list of symbols, from its start. -/
theorem walk_codes {base tb len : Nat} {syms : List Byte} {ct : List Code} {s : State} {rest : List Bool}
    (hok : s.BitsReadable base (codeBits ct syms).length) (hfit : s.Fits syms.length) (hsl : syms.length ≤ len) (h0 : len ≠ 0) (hlt : len < 2 ^ 64)
    (hp : base < s.inLen.toNat) (htb : tb ≤ 7)
    (hbits : usableBits (s.payload base) tb = codeBits ct syms ++ rest)
    (hcodes : ∀ b ∈ syms, codeOf ct b ≠ [] ∧ LeadsTo s.node s.root (codeOf ct b) b) :
    ∃ x rest', walk base tb len s =
      walkLoop base len rest.length ((s.atRoot.emit syms (codeBits ct syms).length).setInOff x) ∧
        (payloadBits (s.payload base)).drop (s.atRoot.emit syms (codeBits ct syms).length).bitpos.toNat = rest ++ rest' ∧
        (s.atRoot.emit syms (codeBits ct syms).length).emitted = BitVec.ofNat 64 syms.length ∧
        (s.atRoot.emit syms (codeBits ct syms).length).bitpos.toNat = (codeBits ct syms).length := by
  obtain ⟨rest', h1, h2⟩ := usable_split htb (by rw [State.payload_length]; omega) hbits
  rw [List.append_assoc] at h1
  have h3 := State.atRoot_bits h1
  obtain ⟨x, hx⟩ := walkLoop_codes (base := base) (len := len) (k := rest.length) (syms := syms) (ct := ct)
    (s := s.atRoot) (rest := rest ++ rest') (hok.of (by simp [State.atRoot]) (by simp [State.atRoot])) (by simpa [State.atRoot] using hfit)
    (by simpa [State.atRoot] using hsl) hlt (by simp [State.atRoot]) (by simp [State.atRoot]) h3
    (by simpa [State.atRoot] using hcodes)
  obtain ⟨hb1, hb2⟩ := bitpos_add h3 (by simp [State.atRoot])
  refine ⟨x, rest', ?_, ?_, ?_, ?_⟩
  · rw [walk_start h0 (by omega), ← h2, List.length_append]
    exact hx
  · rw [State.emit_bitpos, hb1]
    simpa [State.atRoot] using hb2
  · simp [State.atRoot]
  · rw [State.emit_bitpos, hb1]
    simp [State.atRoot]

/-- A walk whose usable bits begin with the codes of `len` symbols emits them and succeeds (R174, R175). -/
theorem walk_ok {base tb len : Nat} {syms : List Byte} {ct : List Code} {s : State} {rest : List Bool}
    (hok : s.BitsReadable base (codeBits ct syms).length) (hfit : s.Fits len) (hsl : syms.length = len) (h0 : len ≠ 0) (hlt : len < 2 ^ 64)
    (hp : base < s.inLen.toNat) (htb : tb ≤ 7)
    (hbits : usableBits (s.payload base) tb = codeBits ct syms ++ rest)
    (hcodes : ∀ b ∈ syms, codeOf ct b ≠ [] ∧ LeadsTo s.node s.root (codeOf ct b) b) :
    ∃ c n b x, walk base tb len s = .ok () ((((s.appendOut syms).setWalk c n).setBitpos b).setInOff x) := by
  obtain ⟨x, rest', hx, _, hem, _⟩ := walk_codes hok (by rw [hsl]; exact hfit) (by omega) h0 hlt hp htb hbits hcodes
  have hdone : len ≤ ((s.atRoot.emit syms (codeBits ct syms).length).setInOff x).emitted.toNat := by
    rw [State.setInOff_emitted, hem, hsl, BitVec.toNat_ofNat, Nat.mod_eq_of_lt hlt]
  refine ⟨s.root, BitVec.ofNat 64 syms.length, (s.atRoot.emit syms (codeBits ct syms).length).bitpos, x, ?_⟩
  have hst : (s.atRoot.emit syms (codeBits ct syms).length).setInOff x =
      (((s.appendOut syms).setWalk s.root (BitVec.ofNat 64 syms.length)).setBitpos
        (s.atRoot.emit syms (codeBits ct syms).length).bitpos).setInOff x := by
    apply State.ext_fields <;> simp [State.atRoot]
  rw [hx]
  cases rest with
  | nil => rw [List.length_nil, walkLoop, if_pos hdone, ← hst]
  | cons b rest => rw [List.length_cons, walkLoop, if_pos hdone, ← hst]

/-- Where a walk that began at `s` is: it has emitted `syms` and taken `n` bits, and is at node `i` with `bits` before it. -/
structure WalkAt (s u : State) (base : Nat) (syms : List Byte) (i : NodeIdx) (n : Nat) (bits : List Bool) : Prop where
  node : u.node = s.node
  env : u.env = s.env
  inLen : u.inLen = s.inLen
  cur : u.cur = i
  emitted : u.emitted = BitVec.ofNat 64 syms.length
  outLen : u.outLen.toNat = s.outLen.toNat + syms.length
  taken : u.bitpos.toNat = n
  bits : (payloadBits (u.payload base)).drop u.bitpos.toNat = bits

/-- A walk whose usable bits begin with the codes of fewer than `len` symbols and a path to an Internal node comes there
(R173, R174). -/
theorem walk_at {base tb len : Nat} {syms : List Byte} {ct : List Code} {c : Code} {s : State} {rest : List Bool}
    {i : NodeIdx} {g : Count} {l r : NodeIdx}
    (hok : s.BitsReadable base ((codeBits ct syms).length + c.length)) (hfit : s.Fits syms.length) (hsl : syms.length < len) (hlt : len < 2 ^ 64)
    (hp : base < s.inLen.toNat) (htb : tb ≤ 7)
    (hbits : usableBits (s.payload base) tb = codeBits ct syms ++ (c ++ rest))
    (hcodes : ∀ b ∈ syms, codeOf ct b ≠ [] ∧ LeadsTo s.node s.root (codeOf ct b) b)
    (hpath : followPath s.node s.root c = some i) (hi : nodeAt s.node i = some (.internal g l r)) :
    ∃ u rest', walk base tb len s = walkLoop base len rest.length u ∧
      WalkAt s u base syms i ((codeBits ct syms).length + c.length) (rest ++ rest') := by
  obtain ⟨x, rest', hx, hb, hem, hbn⟩ := walk_codes (hok.less (by omega)) hfit (by omega) (by omega) hlt hp htb hbits hcodes
  have hlt2 : (BitVec.ofNat 64 syms.length).toNat < len := by rw [BitVec.toNat_ofNat, Nat.mod_eq_of_lt (by omega)]; exact hsl
  obtain ⟨p, y, hy, hd, hpn⟩ := walkLoop_inner (base := base) (len := len) (k := rest.length) (c := c) (rest := rest ++ rest')
    (j := i) (s := (s.atRoot.emit syms (codeBits ct syms).length).setInOff x)
    (hok.of (by simp [State.atRoot]) (by rw [State.setInOff_bitpos, hbn])) (by rw [State.setInOff_emitted, hem]; exact hlt2)
    (by
      rw [State.setInOff_bitpos, State.setInOff_payload, State.emit_payload]
      simpa [State.atRoot] using hb)
    (by simpa [State.atRoot] using hpath) (by simpa [State.atRoot] using hi)
  have hol := State.appendOut_outLen_toNat hfit
  refine ⟨_, rest', by rw [hx, List.length_append, hy], ⟨by simp [State.atRoot], by simp [State.atRoot], by simp [State.atRoot],
    by simp, ?_, ?_, ?_, ?_⟩⟩
  · simpa using hem
  · simpa [State.atRoot] using hol
  · rw [State.setInOff_bitpos, State.setBitpos_bitpos, hpn, State.setInOff_bitpos, hbn]
  · simpa [State.atRoot] using hd

/-- There the walk takes the next bit (R173). -/
theorem WalkAt.next {base len k n : Nat} {s u : State} {syms : List Byte} {i : NodeIdx} {bits : List Bool} {e : Raise} {t : State}
    (h : WalkAt s u base syms i n bits) (hsl : syms.length < len) (hlt : len < 2 ^ 64) (hb : walkBit base u = .raised e t) :
    walkLoop base len (k + 1) u = .raised e t := by
  rw [walkLoop, if_neg (by rw [h.emitted, BitVec.toNat_ofNat, Nat.mod_eq_of_lt (by omega)]; omega), hb]

/-- A walk whose usable bits are the codes of fewer than `len` symbols and a path that stops at an Internal node runs out
of bits (R178). -/
theorem walk_exhausted {base tb len : Nat} {syms : List Byte} {ct : List Code} {c : Code} {s : State} {j : NodeIdx}
    {g : Count} {l r : NodeIdx}
    (hok : s.BitsReadable base ((codeBits ct syms).length + c.length)) (hfit : s.Fits syms.length) (hsl : syms.length < len) (hlt : len < 2 ^ 64)
    (hp : base < s.inLen.toNat) (htb : tb ≤ 7)
    (hbits : usableBits (s.payload base) tb = codeBits ct syms ++ c)
    (hcodes : ∀ b ∈ syms, codeOf ct b ≠ [] ∧ LeadsTo s.node s.root (codeOf ct b) b)
    (hpath : followPath s.node s.root c = some j) (hj : nodeAt s.node j = some (.internal g l r)) :
    ∃ t, walk base tb len s = .raised ⟨.payloadExhausted, BitVec.ofNat 64 syms.length⟩ t ∧
      t.outLen.toNat = s.outLen.toNat + syms.length := by
  obtain ⟨u, rest', hw, hu⟩ := walk_at (rest := []) hok hfit hsl hlt hp htb (by rw [List.append_nil]; exact hbits) hcodes hpath hj
  refine ⟨u, ?_, hu.outLen⟩
  rw [hw, List.length_nil, walkLoop, if_neg (by rw [hu.emitted, BitVec.toNat_ofNat, Nat.mod_eq_of_lt (by omega)]; omega), hu.emitted]

/-- A walk that comes to the dummy leaf (R176). -/
theorem walk_dummy {base tb len : Nat} {syms : List Byte} {ct : List Code} {c : Code} {b : Bool} {s : State} {i j : NodeIdx}
    {sym : Byte} {rest : List Bool}
    (hok : s.BitsReadable base ((codeBits ct syms).length + c.length + 1)) (hfit : s.Fits syms.length) (hsl : syms.length < len) (hlt : len < 2 ^ 64)
    (hp : base < s.inLen.toNat) (htb : tb ≤ 7)
    (hbits : usableBits (s.payload base) tb = codeBits ct syms ++ (c ++ b :: rest))
    (hcodes : ∀ b ∈ syms, codeOf ct b ≠ [] ∧ LeadsTo s.node s.root (codeOf ct b) b)
    (hpath : followPath s.node s.root c = some i) (hi : childOf s.node i b = some j)
    (hj : nodeAt s.node j = some (.leaf sym 0)) :
    ∃ t, walk base tb len s = .raised ⟨.dummyLeaf, BitVec.ofNat 64 syms.length⟩ t ∧
      t.outLen.toNat = s.outLen.toNat + syms.length := by
  obtain ⟨g, l, r, hint⟩ := childOf_internal hi
  obtain ⟨u, rest', hw, hu⟩ := walk_at (hok.less (by omega)) hfit hsl hlt hp htb hbits hcodes hpath hint
  obtain ⟨t, ht, hl⟩ := walkBit_dummy (hok.of hu.env (by rw [hu.taken])) hu.bits (by rw [hu.node, hu.cur]; exact hi)
    (by rw [hu.node]; exact hj)
  exact ⟨t, by rw [hw, List.length_cons, hu.next hsl hlt ht, hu.emitted], by rw [hl, hu.outLen]⟩

/-- A walk that needs a bit of an unreadable byte (R63, R173). -/
theorem walk_unreadable {base tb len q : Nat} {syms : List Byte} {ct : List Code} {c : Code} {b : Bool} {s : State} {i : NodeIdx}
    {g : Count} {l r : NodeIdx} {rest : List Bool}
    (hok : s.BitsReadable base (8 * q)) (hq : (codeBits ct syms).length + c.length = 8 * q) (hbad : s.inBadAt (base + q) = true)
    (hfit : s.Fits syms.length) (hsl : syms.length < len) (hlt : len < 2 ^ 64)
    (hp : base < s.inLen.toNat) (htb : tb ≤ 7)
    (hbits : usableBits (s.payload base) tb = codeBits ct syms ++ (c ++ b :: rest))
    (hcodes : ∀ b ∈ syms, codeOf ct b ≠ [] ∧ LeadsTo s.node s.root (codeOf ct b) b)
    (hpath : followPath s.node s.root c = some i) (hi : nodeAt s.node i = some (.internal g l r)) :
    ∃ t, walk base tb len s = .raised ⟨.srcUnreadable, BitVec.ofNat 64 (base + q)⟩ t ∧
      t.outLen.toNat = s.outLen.toNat + syms.length := by
  obtain ⟨u, rest', hw, hu⟩ := walk_at (by rw [hq]; exact hok) hfit hsl hlt hp htb hbits hcodes hpath hi
  have hpos : u.bitpos.toNat / 8 = q := by rw [hu.taken, hq]; omega
  have hl := congrArg List.length hbits
  rw [usableBits, List.length_take, payloadBits_length, State.payload_length] at hl
  simp only [List.length_append, List.length_cons] at hl
  have hlen : base + q < s.inLen.toNat := by omega
  have ht := walkBit_unreadable (base := base) (s := u) (by rw [hpos, hu.inLen]; exact hlen)
    (by rw [hpos, State.inBadAt_congr hu.env]; exact hbad)
  rw [hpos] at ht
  exact ⟨u, by rw [hw, List.length_cons, hu.next hsl hlt ht], hu.outLen⟩

/-- A walk that comes to a symbol for which OUT has no room (R64). -/
theorem walk_full {base tb len : Nat} {syms : List Byte} {b : Byte} {ct : List Code} {s : State} {rest : List Bool}
    (hok : s.BitsReadable base (codeBits ct (syms ++ [b])).length) (hfit : s.Fits syms.length) (hfull : ¬ s.Fits (syms.length + 1))
    (hsl : syms.length < len) (hlt : len < 2 ^ 64) (hp : base < s.inLen.toNat) (htb : tb ≤ 7)
    (hbits : usableBits (s.payload base) tb = codeBits ct (syms ++ [b]) ++ rest)
    (hcodes : ∀ b' ∈ syms ++ [b], codeOf ct b' ≠ [] ∧ LeadsTo s.node s.root (codeOf ct b') b') :
    ∃ t, walk base tb len s = .raised ⟨.dstUnwritable, BitVec.ofNat 64 (outLimit s.env)⟩ t ∧ t.outLen.toNat = outLimit s.env := by
  have hcb : codeBits ct (syms ++ [b]) = codeBits ct syms ++ codeOf ct b := by simp [codeBits]
  obtain ⟨hne, j, f, hj, hn, hf⟩ := hcodes b (by simp)
  rw [hcb] at hok hbits
  rcases List.eq_nil_or_concat (codeOf ct b) with hnil | ⟨c, bit, hc⟩
  · exact absurd hnil hne
  rw [List.concat_eq_append] at hc
  rw [hc] at hok hbits hj
  obtain ⟨i, hci, hd⟩ := followPath_concat hj
  obtain ⟨g, l, r, hint⟩ := childOf_internal hd
  simp only [List.length_append, List.length_singleton] at hok
  obtain ⟨u, rest', hw, hu⟩ := walk_at (hok.less (by omega)) hfit hsl hlt hp htb
    (show usableBits (s.payload base) tb = codeBits ct syms ++ (c ++ (bit :: rest)) by rw [hbits]; simp)
    (fun b' hb' => hcodes b' (by simp [hb'])) hci hint
  have hlim : s.outLen.toNat + syms.length = outLimit s.env := by simp only [State.Fits] at hfit hfull; omega
  obtain ⟨t, ht, hl⟩ := walkBit_full (hok.of hu.env (by rw [hu.taken]; omega))
    (by rw [State.Fits, hu.outLen, hu.env]; omega) hu.bits (by rw [hu.node, hu.cur]; exact hd) (by rw [hu.node]; exact hn) hf
  have hul : u.outLen = BitVec.ofNat 64 (outLimit s.env) := by
    rw [← hlim, ← hu.outLen, BitVec.ofNat_toNat, BitVec.setWidth_eq]
  exact ⟨t, by rw [hw, List.length_cons, hu.next hsl hlt ht, hul], by rw [hl, hu.outLen, hlim]⟩

/-- A walk of no symbols does nothing (R173). -/
theorem walk_zero (base tb : Nat) (s : State) : walk base tb 0 s = .ok () s := by rw [walk, if_pos rfl]

/-- A walk with no payload (R179). -/
theorem walk_truncated {base tb len : Nat} {s : State} (h0 : len ≠ 0) (hp : s.inLen.toNat ≤ base) :
    walk base tb len s = .raised ⟨.truncatedPayload, BitVec.ofNat 64 base⟩ s := by
  rw [walk, if_neg h0, if_pos (by omega)]

/-! ### All it can do -/

theorem walkLoop_all {base len : Nat} {P : State → Prop} {E : Raise → Prop}
    (hb : ∀ s, P s → s.emitted.toNat < len → (walkBit base s).All P E) (he : ∀ info, E ⟨.payloadExhausted, info⟩)
    (k : Nat) {s : State} (h : P s) :
    (walkLoop base len k s).All P E ∧ ∀ a t, walkLoop base len k s = .ok a t → len ≤ t.emitted.toNat := by
  induction k generalizing s with
  | zero =>
    rw [walkLoop]
    by_cases hl : len ≤ s.emitted.toNat
    · rw [if_pos hl]
      exact ⟨h, fun a t ht => by injection ht with _ ht; rw [← ht]; exact hl⟩
    · rw [if_neg hl]
      exact ⟨⟨he _, h⟩, fun a t ht => by cases ht⟩
  | succ k ih =>
    rw [walkLoop]
    by_cases hl : len ≤ s.emitted.toNat
    · rw [if_pos hl]
      exact ⟨h, fun a t ht => by injection ht with _ ht; rw [← ht]; exact hl⟩
    · rw [if_neg hl]
      have h1 := hb s h (by omega)
      revert h1
      cases walkBit base s with
      | ok a t => exact fun h1 => ih h1
      | raised e t => exact fun h1 => ⟨h1, fun a t ht => by cases ht⟩

/-- The causes a walk can raise (R176 to R179, R63, R64). -/
def WalkCause (c : Cause) : Prop :=
  c = .nullChild ∨ c = .dummyLeaf ∨ c = .dstUnwritable ∨ c = .srcUnreadable ∨ c = .payloadExhausted ∨ c = .truncatedPayload

theorem walkBit_all {base : Nat} {P Q : State → Prop} {E : Raise → Prop} (hq : ∀ s, P s → Q s) (hx : ∀ s x, P s → P (s.setInOff x))
    (hp : ∀ s b, P s → P (s.setBitpos b)) (hin : ∀ s c, P s → P (s.setWalk c s.emitted))
    (ho : ∀ v s, P s → s.Fits 1 → Q ((s.appendOut [v]).setWalk s.root (s.emitted + 1)))
    (hE : ∀ c info, WalkCause c → E ⟨c, info⟩) {s : State} (h : P s) : (walkBit base s).All Q E := by
  rw [walkBit, memRead_one]
  by_cases h1 : s.inLen.toNat ≤ base + s.bitpos.toNat / 8
  · rw [if_pos h1]
    exact ⟨hE _ _ (by simp [WalkCause]), hq _ h⟩
  · rw [if_neg h1]
    by_cases h2 : s.inBadAt (base + s.bitpos.toNat / 8) = true
    · rw [if_pos h2]
      exact ⟨hE _ _ (by simp [WalkCause]), hq _ h⟩
    · rw [if_neg h2]
      simp only
      have h3 := hp _ ((s.setInOff (BitVec.ofNat 64 (base + s.bitpos.toNat / 8 + 1))).bitpos + 1)
        (hx s (BitVec.ofNat 64 (base + s.bitpos.toNat / 8 + 1)) h)
      revert h3
      generalize (s.setInOff _).setBitpos _ = t
      generalize streamBit _ _ = bit
      intro h3
      rw [walkTake]
      split
      · exact ⟨hE _ _ (by simp [WalkCause]), hq _ h3⟩
      · rename_i d _
        rw [walkArrive]
        split
        · exact ⟨hE _ _ (by simp [WalkCause]), hq _ h3⟩
        · exact hq _ (hin t d h3)
        · split
          · exact ⟨hE _ _ (by simp [WalkCause]), hq _ h3⟩
          · rename_i sym f _ _
            rcases outByte_cases sym t with ⟨hf, h⟩ | ⟨_, h⟩
            · rw [h]; exact ho sym t h3 hf
            · rw [h]; exact ⟨hE _ _ (by simp [WalkCause]), hq _ h3⟩

/-- Whatever the walk's own writes and OUT's keep, the whole walk keeps; on success it has emitted `len` symbols. -/
theorem walk_all {base tb len : Nat} {P : State → Prop} {E : Raise → Prop} (hx : ∀ s x, P s → P (s.setInOff x))
    (hp : ∀ s b, P s → P (s.setBitpos b)) (hin : ∀ s c, P s → P (s.setWalk c s.emitted))
    (ho : ∀ v s, P s → s.Fits 1 → P ((s.appendOut [v]).setWalk s.root (s.emitted + 1)))
    (hE : ∀ c info, WalkCause c → E ⟨c, info⟩) {s : State} (h : P s) (h0 : P (s.setWalk s.root 0)) :
    (walk base tb len s).All P E := by
  rw [walk]
  by_cases hl : len = 0
  · rw [if_pos hl]; exact h
  · rw [if_neg hl]
    by_cases hp0 : s.inLen.toNat - base = 0
    · rw [if_pos hp0]; exact ⟨hE _ _ (by simp [WalkCause]), h⟩
    · rw [if_neg hp0]
      exact (walkLoop_all (fun t ht _ => walkBit_all (fun _ h => h) hx hp hin ho hE ht) (fun _ => hE _ _ (by simp [WalkCause])) _
        (hp _ _ h0)).1

/-- What a walk can do: it writes OUT, the walker's registers and the IN read offset. -/
theorem walk_shape (base tb len : Nat) (s : State) :
    (walk base tb len s).All (fun t => ∃ m l c n b x, t = (((s.setOut m l).setWalk c n).setBitpos b).setInOff x)
      (fun e => WalkCause e.cause) := by
  refine walk_all ?_ ?_ ?_ ?_ (fun c info h => h) ⟨s.outMem, s.outLen, s.cur, s.emitted, s.bitpos, s.inOff, ?_⟩
    ⟨s.outMem, s.outLen, s.root, 0, s.bitpos, s.inOff, ?_⟩
  · rintro _ x ⟨m, l, c, n, b, x', rfl⟩; exact ⟨m, l, c, n, b, x, rfl⟩
  · rintro _ b ⟨m, l, c, n, b', x, rfl⟩; exact ⟨m, l, c, n, b, x, rfl⟩
  · rintro _ c ⟨m, l, c', n, b, x, rfl⟩; exact ⟨m, l, c, n, b, x, rfl⟩
  · rintro v _ ⟨m, l, c, n, b, x, rfl⟩ _
    exact ⟨_, _, _, _, b, x, rfl⟩
  · apply State.ext_fields <;> simp
  · apply State.ext_fields <;> simp

/-- A successful walk of `len` symbols has put `len` bytes into OUT (R180, R202). -/
theorem walk_outLen {base tb len : Nat} {s t : State} {a : Unit} (hlt : len < 2 ^ 64) (h : walk base tb len s = .ok a t) :
    t.outLen.toNat = s.outLen.toNat + len := by
  rw [walk] at h
  by_cases hl : len = 0
  · rw [if_pos hl] at h
    injection h with _ h
    rw [← h, hl, Nat.add_zero]
  · rw [if_neg hl] at h
    by_cases hp0 : s.inLen.toNat - base = 0
    · rw [if_pos hp0] at h; cases h
    · rw [if_neg hp0] at h
      have hall := walkLoop_all (base := base) (len := len)
        (P := fun u => u.outLen.toNat = s.outLen.toNat + u.emitted.toNat ∧ u.emitted.toNat ≤ len) (E := fun _ => True)
        (s := (s.setWalk s.root 0).setBitpos 0) (k := availBits (s.inLen.toNat - base) tb)
        (by
          rintro u ⟨hu1, _⟩ hlu
          refine walkBit_all (P := fun w => w.outLen.toNat = s.outLen.toNat + w.emitted.toNat ∧ w.emitted.toNat < len)
            (fun w hw => ⟨hw.1, by omega⟩) (fun w x hw => by simpa using hw) (fun w b hw => by simpa using hw)
            (fun w c hw => by simpa using hw) ?_ (fun _ _ _ => trivial) ⟨hu1, hlu⟩
          rintro v w ⟨hw1, hw2⟩ hf
          have h3 := State.appendOut_outLen_toNat (bs := [v]) hf
          have h4 : (w.emitted + 1).toNat = w.emitted.toNat + 1 := toNat_succ (by omega)
          rw [State.setWalk_outLen, State.setWalk_emitted, h3, h4, List.length_singleton]
          omega)
        (fun _ => trivial) (by simp)
      have h1 := hall.1
      have h2 := hall.2 a t h
      rw [h] at h1
      have h3 : t.outLen.toNat = s.outLen.toNat + t.emitted.toNat ∧ t.emitted.toNat ≤ len := h1
      omega

end Sys2Proof.Machine
end

