-- ==== Sys2Proof/Laws/FreqCounter.lean ====
section
/-! SUPPORT. What the frequency counter does (40_freq_counter.md R121, R122). -/

namespace Sys2Proof.Machine

/-- Counting a list of bytes into a table. -/
def countAll : Vector Count 256 → List Byte → Vector Count 256
  | ft, [] => ft
  | ft, b :: bs => countAll (ftSet ft b (ftAt ft b + 1)) bs

theorem countAll_at {ft : Vector Count 256} {l : List Byte} {b : Byte}
    (h : (ftAt ft b).toNat + l.length < 2 ^ 64) :
    (ftAt (countAll ft l) b).toNat = (ftAt ft b).toNat + l.count b := by
  induction l generalizing ft with
  | nil => simp [countAll]
  | cons a l ih =>
    simp only [List.length_cons] at h
    by_cases hab : a = b
    · subst hab
      have h1 : (ftAt (ftSet ft a (ftAt ft a + 1)) a).toNat = (ftAt ft a).toNat + 1 := by
        rw [ftAt_ftSet, if_pos rfl]
        exact toNat_succ (by omega)
      rw [countAll, ih (by omega), h1, List.count_cons_self]
      omega
    · have h1 : ftAt (ftSet ft a (ftAt ft a + 1)) b = ftAt ft b := by rw [ftAt_ftSet, if_neg hab]
      rw [countAll, ih (by rw [h1]; omega), h1, List.count_cons_of_ne hab]

theorem ftAt_le_ftSum (ft : Vector Count 256) (b : Byte) : (ftAt ft b).toNat ≤ ftSum ft := by
  have := ftSum_ftSet ft b 0
  simp at this
  omega

theorem ftSum_countAll {ft : Vector Count 256} {l : List Byte} (h : ftSum ft + l.length < 2 ^ 64) :
    ftSum (countAll ft l) = ftSum ft + l.length := by
  induction l generalizing ft with
  | nil => rfl
  | cons a l ih =>
    simp only [List.length_cons] at h
    have h1 := ftSum_ftSet ft a (ftAt ft a + 1)
    have h2 := ftAt_le_ftSum ft a
    have h3 : (ftAt ft a + 1).toNat = (ftAt ft a).toNat + 1 := by
      exact toNat_succ (by omega)
    rw [countAll, ih (by omega)]
    simp only [List.length_cons]
    omega

theorem State.setCounts_setInOff (s : State) (v : Vector Count 256) (t : Count) (x : BitVec 64) :
    (s.setInOff x).setCounts v t = (s.setCounts v t).setInOff x := rfl

theorem State.setCounts_setCounts (s : State) (v v' : Vector Count 256) (t t' : Count) :
    (s.setCounts v t).setCounts v' t' = s.setCounts v' t' := rfl

/-- The counting loop over readable bytes. -/
theorem countLoop_ok {n o : Nat} {s : State} (hlen : o + n ≤ s.inLen.toNat)
    (hok : ∀ k, o ≤ k → k < o + n → s.inBadAt k = false) :
    ∃ x, countLoop n o s =
      .ok () ((s.setCounts (countAll s.ft (s.inSlice o n)) (s.total + BitVec.ofNat 64 n)).setInOff x) := by
  induction n generalizing o s with
  | zero => exact ⟨s.inOff, by simp [countLoop, countAll, State.setCounts, State.setInOff]⟩
  | succ n ih =>
    have h1 : ¬ s.inLen.toNat ≤ o := by omega
    have h2 : ¬ s.inBadAt o = true := by simp [hok o (Nat.le_refl _) (by omega)]
    rw [countLoop, memRead_one, if_neg h1, if_neg h2]
    simp only [BitVec.ofNat_toNat, BitVec.setWidth_eq]
    obtain ⟨x, hx⟩ := ih (o := o + 1) (s := (s.setInOff (BitVec.ofNat 64 (o + 1))).countByte (s.inByte o))
      (by simp; omega) (fun k hk1 hk2 => by simpa using hok k (by omega) (by omega))
    refine ⟨x, ?_⟩
    rw [hx]
    simp only [State.countByte_ft, State.countByte_total, State.setInOff_ft, State.setInOff_total,
      State.countByte_inSlice, State.setInOff_inSlice, State.inSlice_succ, countAll]
    rw [show s.total + 1 + BitVec.ofNat 64 n = s.total + BitVec.ofNat 64 (n + 1) by
      rw [← BitVec.ofNat_add_ofNat, BitVec.add_assoc, BitVec.add_comm (BitVec.ofNat 64 n)]; rfl]
    rfl

/-- The counting loop at the first unreadable offset `p`. -/
theorem countLoop_bad {n o p : Nat} {s : State} (hp : o ≤ p) (hpn : p < o + n) (hlen : p < s.inLen.toNat)
    (hbad : s.inBadAt p = true) (hok : ∀ k, o ≤ k → k < p → s.inBadAt k = false) :
    ∃ v t x, countLoop n o s = .raised ⟨.srcUnreadable, BitVec.ofNat 64 p⟩ ((s.setCounts v t).setInOff x) := by
  induction n generalizing o s with
  | zero => omega
  | succ n ih =>
    have h1 : ¬ s.inLen.toNat ≤ o := by omega
    by_cases hop : o = p
    · subst hop
      refine ⟨s.ft, s.total, s.inOff, ?_⟩
      rw [countLoop, memRead_one, if_neg h1, if_pos hbad]
      rfl
    · have h2 : ¬ s.inBadAt o = true := by simp [hok o (Nat.le_refl _) (by omega)]
      rw [countLoop, memRead_one, if_neg h1, if_neg h2]
      simp only [BitVec.ofNat_toNat, BitVec.setWidth_eq]
      obtain ⟨v, t, x, hx⟩ := ih (o := o + 1) (s := (s.setInOff (BitVec.ofNat 64 (o + 1))).countByte (s.inByte o))
        (by omega) (by omega) (by simpa using hlen) (by simpa using hbad)
        (fun k hk1 hk2 => by simpa using hok k (by omega) hk2)
      exact ⟨v, t, x, by rw [hx]; rfl⟩

/-- What the counting loop can do: it changes FT, TOTAL and the IN read offset, and raises SRC_UNREADABLE alone. -/
theorem countLoop_cases (n o : Nat) (s : State) :
    ∃ v t x, countLoop n o s = .ok () ((s.setCounts v t).setInOff x) ∨
      ∃ info, countLoop n o s = .raised ⟨.srcUnreadable, info⟩ ((s.setCounts v t).setInOff x) := by
  induction n generalizing o s with
  | zero => exact ⟨s.ft, s.total, s.inOff, .inl rfl⟩
  | succ n ih =>
    rw [countLoop, memRead_one]
    by_cases h1 : s.inLen.toNat ≤ o
    · rw [if_pos h1]; exact ⟨s.ft, s.total, s.inOff, .inl rfl⟩
    · by_cases h2 : s.inBadAt o = true
      · rw [if_neg h1, if_pos h2]; exact ⟨s.ft, s.total, s.inOff, .inr ⟨_, rfl⟩⟩
      · rw [if_neg h1, if_neg h2]
        simp only
        obtain ⟨v, t, x, h | ⟨info, h⟩⟩ := ih (o + 1)
          ((s.setInOff (BitVec.ofNat 64 (o + 1))).countByte (BitVec.ofNat 8 (s.inByte o).toNat))
        · exact ⟨v, t, x, .inl (by rw [h]; rfl)⟩
        · exact ⟨v, t, x, .inr ⟨info, by rw [h]; rfl⟩⟩

/-- What the body of FCOUNT can do. -/
theorem countBody_cases (s : State) :
    ∃ v t x, countBody s = .ok () (((s.setCounts v t).setPhase .count).setInOff x) ∨
      ∃ info, countBody s = .raised ⟨.srcUnreadable, info⟩ (((s.setCounts v t).setPhase .count).setInOff x) := by
  obtain ⟨v, t, x, h | ⟨info, h⟩⟩ := countLoop_cases s.inLen.toNat 0 ((s.clearCounts.setPhase .count).setInOff 0)
  · exact ⟨v, t, x, .inl (by rw [countBody, h]; rfl)⟩
  · exact ⟨v, t, x, .inr ⟨info, by rw [countBody, h]; rfl⟩⟩

/-- The table of a list of bytes. -/
def tableOf (l : List Byte) : Vector Count 256 := countAll ftZero l

/-- The body of FCOUNT on a readable source (R121). -/
theorem countBody_ok {s : State} (hok : s.Readable) :
    ∃ x, countBody s = .ok () (((s.setCounts (tableOf s.inBytes) s.inLen).setPhase .count).setInOff x) := by
  obtain ⟨x, h⟩ := countLoop_ok (n := s.inLen.toNat) (o := 0) (s := (s.clearCounts.setPhase .count).setInOff 0)
    (by simp) (fun k _ hk => by simpa using hok k (by omega))
  refine ⟨x, ?_⟩
  rw [countBody, h]
  simp only [State.setInOff_ft, State.setInOff_total, State.setInOff_inSlice, State.setPhase_ft, State.clearCounts_ft, State.setPhase_total, State.clearCounts_total,
    State.setPhase_inSlice, State.clearCounts_inSlice, BitVec.ofNat_toNat, BitVec.setWidth_eq]
  rw [show (0 : Count) + s.inLen = s.inLen from BitVec.zero_add _]
  rfl

/-- The body of FCOUNT on an unreadable source. -/
theorem countBody_bad {s : State} {p : Nat} (hlen : p < s.inLen.toNat) (hbad : s.inBadAt p = true)
    (hok : ∀ k, k < p → s.inBadAt k = false) :
    ∃ v t x, countBody s = .raised ⟨.srcUnreadable, BitVec.ofNat 64 p⟩ (((s.setCounts v t).setPhase .count).setInOff x) := by
  obtain ⟨v, t, x, h⟩ := countLoop_bad (n := s.inLen.toNat) (o := 0) (p := p) (s := (s.clearCounts.setPhase .count).setInOff 0)
    (by omega) (by omega) (by simpa using hlen) (by simpa using hbad) (fun k _ hk => by simpa using hok k hk)
  exact ⟨v, t, x, by rw [countBody, h]; rfl⟩

/-- Each entry of a table of bytes is the number of times the byte occurs (R121). -/
theorem tableOf_at {l : List Byte} (h : l.length < 2 ^ 64) (b : Byte) : (ftAt (tableOf l) b).toNat = l.count b := by
  rw [tableOf, countAll_at (by simpa using h)]
  simp

/-- The entries of a table of bytes add up to their number. -/
theorem ftSum_tableOf {l : List Byte} (h : l.length < 2 ^ 64) : ftSum (tableOf l) = l.length := by
  rw [tableOf, ftSum_countAll (by simpa using h)]
  simp

/-- A byte of the list has a nonzero count. -/
theorem tableOf_pos {l : List Byte} (h : l.length < 2 ^ 64) {b : Byte} (hb : b ∈ l) : ftAt (tableOf l) b ≠ 0 := by
  intro hc
  have h1 := tableOf_at h b
  have h2 := List.count_pos_iff.mpr hb
  rw [hc] at h1
  simp at h1
  omega

end Sys2Proof.Machine
end

