-- ==== Sys2Proof/Laws/TreeBuilder.lean ====
section
/-! SUPPORT. What the tree builder does (41_tree_builder.md R133 to R137). -/

namespace Sys2Proof.Machine

/-- The forest the merges end in, a function of the frequency table alone (R138). -/
def builtForest (ft : Vector Count 256) : Forest := growForest (seedForest ft)

/-- The node store BUILD_TREE makes of a table. -/
def builtNodes (ft : Vector Count 256) : List Node := (builtForest ft).node

/-- The root's index: the last node's. -/
def builtRoot (ft : Vector Count 256) : NodeIdx := BitVec.ofNat 9 ((builtNodes ft).length - 1)

theorem ftEntries_ok {ft : Vector Count 256} (h : ftSum ft < 2 ^ 64) : EntriesOk (ftEntries ft) where
  small := ftEntries_length_le ft
  nodup := ftEntries_nodup ft
  pos := by
    rintro ⟨b, f⟩ hp
    exact (mem_ftEntries.mp hp).2
  sum := by rw [entrySum_ftEntries]; exact h

theorem leafNodes_eq (ft : Vector Count 256) : leafNodes ft = leavesOf (ftEntries ft) := rfl

theorem ftEntries_pos {ft : Vector Count 256} (h : ftSum ft ≠ 0) : 1 ≤ (ftEntries ft).length := by
  rw [Nat.one_le_iff_ne_zero, Ne, List.length_eq_zero_iff, ftEntries_eq_nil]
  exact h

/-- Two symbols or more: the loop of R135, which runs `n - 1` times (R136). -/
theorem builtForest_many {ft : Vector Count 256} (h : ftSum ft < 2 ^ 64) (h2 : 2 ≤ (ftEntries ft).length) :
    ForestInv (ftEntries ft) (builtForest ft) ∧ (builtForest ft).q.length = 1 := by
  have hs := ForestInv.seed (ftEntries_ok h) (show 1 ≤ _ by omega)
  have hq : (seedForest ft).q.length = (ftEntries ft).length := by simp [seedForest, leafNodes_eq]
  rw [builtForest, growForest, if_neg (by omega)]
  obtain ⟨h3, h4⟩ := ForestInv.mergeLoop (ftEntries_ok h) (k := (seedForest ft).q.length - 1) hs
    (by simp [seedForest, leafNodes_eq]; omega)
  refine ⟨h3, ?_⟩
  have : (seedForest ft).q.length = (indexList (leavesOf (ftEntries ft)).length).length := rfl
  have h5 : (mergeLoop ((seedForest ft).q.length - 1) (seedForest ft)).q.length + ((seedForest ft).q.length - 1)
      = (seedForest ft).q.length := h4
  omega

/-- One symbol (R134). -/
theorem builtForest_single {ft : Vector Count 256} {s : Byte} {f : Count} (h : ftEntries ft = [(s, f)]) :
    builtForest ft = { node := [.leaf s f, .leaf Config.dummySym 0, .internal f 0 1], q := [2] } := by
  have hf : f ≠ 0 := (mem_ftEntries.mp (h ▸ List.mem_singleton_self _)).2
  have hseed : seedForest ft = { node := leavesOf [(s, f)], q := indexList 1 } := by
    rw [seedForest, leafNodes_eq, h]; rfl
  rw [builtForest, growForest, hseed, if_pos (by simp)]
  exact (singleForest_built hf).1

/-- The tree of a table: it meets R25 and R26, and its real leaves are the table's symbols, in ascending order (R132). -/
theorem builtForest_ok {ft : Vector Count 256} (h0 : ftSum ft ≠ 0) (h : ftSum ft < 2 ^ 64) :
    BuiltFrom (ftEntries ft) (builtForest ft) := by
  by_cases h2 : 2 ≤ (ftEntries ft).length
  · obtain ⟨h3, h4⟩ := builtForest_many h h2
    exact h3.done (ftEntries_ok h) h4 h2
  · have h1 := ftEntries_pos h0
    obtain ⟨⟨s, f⟩, he⟩ := List.length_eq_one_iff.mp (show (ftEntries ft).length = 1 by omega)
    have hf : f ≠ 0 := (mem_ftEntries.mp (he ▸ List.mem_singleton_self _)).2
    rw [builtForest_single he, he]
    exact (singleForest_built hf).2

/-- The sizes of R136. -/
theorem builtNodes_length {ft : Vector Count 256} (h0 : ftSum ft ≠ 0) (h : ftSum ft < 2 ^ 64) :
    (builtNodes ft).length =
      if (ftEntries ft).length = 1 then 3 else 2 * (ftEntries ft).length - 1 := by
  have h1 := ftEntries_pos h0
  split
  · rename_i h2
    obtain ⟨⟨s, f⟩, he⟩ := List.length_eq_one_iff.mp h2
    rw [builtNodes, builtForest_single he]; rfl
  · obtain ⟨h3, h4⟩ := builtForest_many h (by omega)
    have := h3.size
    rw [builtNodes]; omega

/-- The loop takes the two smallest each time (R131, R135). -/
theorem builtNodes_greedy {ft : Vector Count 256} (h : ftSum ft < 2 ^ 64) (h2 : 2 ≤ (ftEntries ft).length) :
    GreedyTree (builtNodes ft) := (builtForest_many h h2).1.greedy

theorem builtNodes_wf {ft : Vector Count 256} (h0 : ftSum ft ≠ 0) (h : ftSum ft < 2 ^ 64) :
    TreeWf (builtNodes ft) (BitVec.ofNat 10 (builtNodes ft).length) (builtRoot ft) := (builtForest_ok h0 h).tree

theorem builtNodes_symbols {ft : Vector Count 256} (h0 : ftSum ft ≠ 0) (h : ftSum ft < 2 ^ 64) :
    leafSymbols (builtNodes ft) = (ftEntries ft).map Prod.fst := (builtForest_ok h0 h).symbols

/-! ### The body -/

/-- BUILD_TREE's body on a table it accepts (R137). -/
theorem buildBody_ok {s : State} (h0 : ftSum s.ft ≠ 0) (h : ftSum s.ft < 2 ^ 64) :
    buildBody s = .ok () (s.plant (builtNodes s.ft) (builtRoot s.ft)) := by
  have hb := (builtForest_ok h0 h).queue
  have h1 : ¬ ftSum ((s.setPhase .build).dropTree.dropCodes).ft = 0 := h0
  have h2 : ¬ 2 ^ 64 ≤ ftSum ((s.setPhase .build).dropTree.dropCodes).ft := by
    have : ((s.setPhase .build).dropTree.dropCodes).ft = s.ft := rfl
    rw [this]; omega
  rw [buildBody]
  simp only [if_neg h1, if_neg h2]
  have h3 : growForest ((((s.setPhase .build).dropTree.dropCodes).setForest
      (seedForest ((s.setPhase .build).dropTree.dropCodes).ft)).forest) = builtForest s.ft := rfl
  rw [h3, State.takeRoot]
  simp only [State.setForest_q, hb]
  rfl

/-- BUILD_TREE's body on an empty table (R133 (1)). -/
theorem buildBody_empty {s : State} (h0 : ftSum s.ft = 0) :
    buildBody s = .raised ⟨.emptyTable, 0⟩ ((s.setPhase .build).dropTree.dropCodes) := by
  have h1 : ftSum ((s.setPhase .build).dropTree.dropCodes).ft = 0 := h0
  rw [buildBody]
  simp only [if_pos h1]

/-- BUILD_TREE's body on a table whose sum is too large (R133 (2)). -/
theorem buildBody_overflow {s : State} (h : 2 ^ 64 ≤ ftSum s.ft) :
    buildBody s = .raised ⟨.freqOverflow, 0⟩ ((s.setPhase .build).dropTree.dropCodes) := by
  have h1 : ¬ ftSum ((s.setPhase .build).dropTree.dropCodes).ft = 0 := by
    have : ((s.setPhase .build).dropTree.dropCodes).ft = s.ft := rfl
    rw [this]; omega
  have h2 : 2 ^ 64 ≤ ftSum ((s.setPhase .build).dropTree.dropCodes).ft := h
  rw [buildBody]
  simp only [if_neg h1, if_pos h2]

/-- What BUILD_TREE's body can do. -/
theorem buildBody_cases (s : State) :
    (ftSum s.ft ≠ 0 ∧ ftSum s.ft < 2 ^ 64 ∧ buildBody s = .ok () (s.plant (builtNodes s.ft) (builtRoot s.ft))) ∨
    (∃ c, (c = .emptyTable ∧ ftSum s.ft = 0 ∨ c = .freqOverflow ∧ 2 ^ 64 ≤ ftSum s.ft) ∧
      buildBody s = .raised ⟨c, 0⟩ ((s.setPhase .build).dropTree.dropCodes)) := by
  by_cases h0 : ftSum s.ft = 0
  · exact .inr ⟨_, .inl ⟨rfl, h0⟩, buildBody_empty h0⟩
  · by_cases h : 2 ^ 64 ≤ ftSum s.ft
    · exact .inr ⟨_, .inr ⟨rfl, h⟩, buildBody_overflow h⟩
    · exact .inl ⟨h0, by omega, buildBody_ok h0 (by omega)⟩

end Sys2Proof.Machine
end

