-- ==== Sys2Proof/Laws/Keeps.lean ====
section
/-! SUPPORT. What every piece of a command leaves as it was, and how OUT grows: one relation that all of them keep. -/

namespace Sys2Proof.Machine

/-- OUT holds some bytes from offset 0 on, and OUT_LEN is their number. -/
def State.OutBuilt (s : State) : Prop :=
  ∃ bs : List Byte, s.outMem = Memory.setAll [] 0 bs ∧ s.outLen.toNat = bs.length

/-- What no piece of a command changes: IN, the environment, the host's own data, CMD, OUT_VALID; the queue and the stack
stay empty, OUT grows by appending. Of the packer's registers (`pk`) and the walker's (`wk`) it says so where asked. -/
structure Keeps (pk wk : Prop) (s t : State) : Prop where
  inMem : t.inMem = s.inMem
  inLen : t.inLen = s.inLen
  inSeed : t.inSeed = s.inSeed
  env : t.env = s.env
  cmd : t.cmd = s.cmd
  hostQ : t.hostQ = s.hostQ
  hostData : t.hostData = s.hostData
  outValid : t.outValid = s.outValid
  queue : s.q = [] → t.q = []
  stack : s.genStack = [] → t.genStack = []
  out : s.OutBuilt → t.OutBuilt
  packer : pk → t.acc = s.acc ∧ t.fill = s.fill
  walker : wk → t.cur = s.cur ∧ t.emitted = s.emitted ∧ t.bitpos = s.bitpos

variable {pk wk : Prop}

theorem Keeps.refl (s : State) : Keeps pk wk s s :=
  ⟨rfl, rfl, rfl, rfl, rfl, rfl, rfl, rfl, id, id, id, fun _ => ⟨rfl, rfl⟩, fun _ => ⟨rfl, rfl, rfl⟩⟩

theorem Keeps.trans {s t u : State} (h : Keeps pk wk s t) (h' : Keeps pk wk t u) : Keeps pk wk s u :=
  ⟨h'.inMem.trans h.inMem, h'.inLen.trans h.inLen, h'.inSeed.trans h.inSeed, h'.env.trans h.env, h'.cmd.trans h.cmd,
    h'.hostQ.trans h.hostQ, h'.hostData.trans h.hostData, h'.outValid.trans h.outValid, fun hq => h'.queue (h.queue hq),
    fun hs => h'.stack (h.stack hs), fun ho => h'.out (h.out ho),
    fun hp => ⟨(h'.packer hp).1.trans (h.packer hp).1, (h'.packer hp).2.trans (h.packer hp).2⟩,
    fun hw => ⟨(h'.walker hw).1.trans (h.walker hw).1, (h'.walker hw).2.1.trans (h.walker hw).2.1,
      (h'.walker hw).2.2.trans (h.walker hw).2.2⟩⟩

theorem Keeps.readable {s t : State} (h : Keeps pk wk s t) (hr : s.Readable) : t.Readable := by
  intro o ho
  rw [State.inBadAt_congr h.env]
  exact hr o (by rw [← h.inLen]; exact ho)

theorem Keeps.inBytes {s t : State} (h : Keeps pk wk s t) : t.inBytes = s.inBytes := State.inBytes_congr h.inMem h.inSeed h.inLen

theorem Keeps.inSlice {s t : State} (h : Keeps pk wk s t) (o n : Nat) : t.inSlice o n = s.inSlice o n :=
  State.inSlice_congr h.inMem h.inSeed o n

theorem Keeps.inByte {s t : State} (h : Keeps pk wk s t) (o : Nat) : t.inByte o = s.inByte o :=
  State.inByte_congr h.inMem h.inSeed o

theorem Keeps.sameIn {s t : State} (h : Keeps pk wk s t) : SameIn s t :=
  ⟨h.inLen, fun o => by rw [h.inMem], h.inByte⟩

/-- Appending to OUT. -/
theorem State.OutBuilt.append {s : State} (h : s.OutBuilt) {bs : List Byte} (hf : s.Fits bs.length) :
    (s.appendOut bs).OutBuilt := by
  obtain ⟨cs, h1, h2⟩ := h
  refine ⟨cs ++ bs, ?_, ?_⟩
  · rw [State.appendOut_outMem, h1, h2, Memory.setAll_append, Nat.zero_add]
  · rw [State.appendOut_outLen_toNat hf, h2, List.length_append]

theorem Keeps.append {s : State} {bs : List Byte} (hf : s.Fits bs.length) : Keeps pk wk s (s.appendOut bs) :=
  ⟨rfl, rfl, rfl, rfl, rfl, rfl, rfl, rfl, id, id, fun h => h.append hf, fun _ => ⟨rfl, rfl⟩, fun _ => ⟨rfl, rfl, rfl⟩⟩

theorem Keeps.setInOff (s : State) (x : BitVec 64) : Keeps pk wk s (s.setInOff x) := ⟨rfl, rfl, rfl, rfl, rfl, rfl, rfl, rfl, id, id, id, fun _ => ⟨rfl, rfl⟩, fun _ => ⟨rfl, rfl, rfl⟩⟩
theorem Keeps.setCounts (s : State) (v : Vector Count 256) (t : Count) : Keeps pk wk s (s.setCounts v t) :=
  ⟨rfl, rfl, rfl, rfl, rfl, rfl, rfl, rfl, id, id, id, fun _ => ⟨rfl, rfl⟩, fun _ => ⟨rfl, rfl, rfl⟩⟩
theorem Keeps.setFt (s : State) (v : Vector Count 256) : Keeps pk wk s (s.setFt v) := ⟨rfl, rfl, rfl, rfl, rfl, rfl, rfl, rfl, id, id, id, fun _ => ⟨rfl, rfl⟩, fun _ => ⟨rfl, rfl, rfl⟩⟩
theorem Keeps.setPhase (s : State) (p : Phase) : Keeps pk wk s (s.setPhase p) := ⟨rfl, rfl, rfl, rfl, rfl, rfl, rfl, rfl, id, id, id, fun _ => ⟨rfl, rfl⟩, fun _ => ⟨rfl, rfl, rfl⟩⟩
theorem Keeps.setOrigLen (s : State) (v : Count) : Keeps pk wk s (s.setOrigLen v) := ⟨rfl, rfl, rfl, rfl, rfl, rfl, rfl, rfl, id, id, id, fun _ => ⟨rfl, rfl⟩, fun _ => ⟨rfl, rfl, rfl⟩⟩
theorem Keeps.setSymCount (s : State) (v : BitVec 16) : Keeps pk wk s (s.setSymCount v) :=
  ⟨rfl, rfl, rfl, rfl, rfl, rfl, rfl, rfl, id, id, id, fun _ => ⟨rfl, rfl⟩, fun _ => ⟨rfl, rfl, rfl⟩⟩
theorem Keeps.setTrail (s : State) (v : BitVec 3) : Keeps pk wk s (s.setTrail v) := ⟨rfl, rfl, rfl, rfl, rfl, rfl, rfl, rfl, id, id, id, fun _ => ⟨rfl, rfl⟩, fun _ => ⟨rfl, rfl, rfl⟩⟩
theorem Keeps.setPacker (s : State) (a : BitVec 8) (n : BitVec 4) : Keeps False wk s (s.setPacker a n) :=
  ⟨rfl, rfl, rfl, rfl, rfl, rfl, rfl, rfl, id, id, id, False.elim, fun _ => ⟨rfl, rfl, rfl⟩⟩
theorem Keeps.setPay (s : State) (p : List Byte) : Keeps pk wk s (s.setPay p) := ⟨rfl, rfl, rfl, rfl, rfl, rfl, rfl, rfl, id, id, id, fun _ => ⟨rfl, rfl⟩, fun _ => ⟨rfl, rfl, rfl⟩⟩
theorem Keeps.setWalk (s : State) (c : NodeIdx) (n : BitVec 64) : Keeps pk False s (s.setWalk c n) :=
  ⟨rfl, rfl, rfl, rfl, rfl, rfl, rfl, rfl, id, id, id, fun _ => ⟨rfl, rfl⟩, False.elim⟩
theorem Keeps.setBitpos (s : State) (v : BitVec 67) : Keeps pk False s (s.setBitpos v) := ⟨rfl, rfl, rfl, rfl, rfl, rfl, rfl, rfl, id, id, id, fun _ => ⟨rfl, rfl⟩, False.elim⟩
theorem Keeps.setCtValid (s : State) (v : Bool) : Keeps pk wk s (s.setCtValid v) := ⟨rfl, rfl, rfl, rfl, rfl, rfl, rfl, rfl, id, id, id, fun _ => ⟨rfl, rfl⟩, fun _ => ⟨rfl, rfl, rfl⟩⟩
theorem Keeps.setGen (s : State) (ct : List Code) : Keeps pk wk s (s.setGen ct []) :=
  ⟨rfl, rfl, rfl, rfl, rfl, rfl, rfl, rfl, id, fun _ => rfl, id, fun _ => ⟨rfl, rfl⟩, fun _ => ⟨rfl, rfl, rfl⟩⟩
theorem Keeps.dropTree (s : State) : Keeps pk wk s s.dropTree := ⟨rfl, rfl, rfl, rfl, rfl, rfl, rfl, rfl, id, id, id, fun _ => ⟨rfl, rfl⟩, fun _ => ⟨rfl, rfl, rfl⟩⟩
theorem Keeps.dropCodes (s : State) : Keeps pk wk s s.dropCodes := ⟨rfl, rfl, rfl, rfl, rfl, rfl, rfl, rfl, id, id, id, fun _ => ⟨rfl, rfl⟩, fun _ => ⟨rfl, rfl, rfl⟩⟩
theorem Keeps.plant (s : State) (nd : List Node) (r : NodeIdx) : Keeps pk wk s (s.plant nd r) :=
  ⟨rfl, rfl, rfl, rfl, rfl, rfl, rfl, rfl, fun _ => rfl, id, id, fun _ => ⟨rfl, rfl⟩, fun _ => ⟨rfl, rfl, rfl⟩⟩

/-! ### Each piece -/

/-- The errors of the source: `IOError(SRC_UNREADABLE, .)`. -/
def SrcOnly (e : Raise) : Prop := e.cause = .srcUnreadable

theorem memRead_keeps (addr n : Nat) (s : State) : (memRead addr n s).All (Keeps pk wk s) SrcOnly := by
  rcases memRead_cases addr n s with ⟨x, h⟩ | ⟨x, h, _⟩ | ⟨x, o, h, _⟩
  · rw [h]; exact Keeps.setInOff s x
  · rw [h]; exact Keeps.setInOff s x
  · rw [h]; exact ⟨rfl, Keeps.setInOff s x⟩

theorem outBytes_keeps (bs : List Byte) (s : State) :
    (outBytes bs s).All (Keeps pk wk s) (fun e => e.cause = .dstUnwritable) := by
  induction bs generalizing s with
  | nil => exact Keeps.refl s
  | cons b bs ih =>
    rw [outBytes]
    rcases outByte_cases b s with ⟨hf, h⟩ | ⟨_, h⟩
    · rw [h]
      simp only
      have h1 := ih (s.appendOut [b])
      have h2 : Keeps pk wk s (s.appendOut [b]) := Keeps.append (s := s) (bs := [b]) hf
      revert h1
      cases outBytes bs (s.appendOut [b]) with
      | ok a t => exact fun h1 => h2.trans h1
      | raised e t => exact fun h1 => ⟨h1.1, h2.trans h1.2⟩
    · rw [h]; exact ⟨rfl, Keeps.refl s⟩

theorem countBody_keeps (s : State) : (countBody s).All (Keeps pk wk s) SrcOnly := by
  obtain ⟨v, t, x, h | ⟨info, h⟩⟩ := countBody_cases s
  · rw [h]; exact ((Keeps.setCounts s v t).trans (Keeps.setPhase _ _)).trans (Keeps.setInOff _ _)
  · rw [h]; exact ⟨rfl, ((Keeps.setCounts s v t).trans (Keeps.setPhase _ _)).trans (Keeps.setInOff _ _)⟩

theorem buildBody_keeps (s : State) :
    (buildBody s).All (Keeps pk wk s) (fun e => e.cause = .emptyTable ∨ e.cause = .freqOverflow) := by
  rcases buildBody_cases s with ⟨_, _, h⟩ | ⟨c, hc, h⟩
  · rw [h]; exact Keeps.plant s _ _
  · rw [h]
    refine ⟨hc.imp And.left And.left, ((Keeps.setPhase s _).trans (Keeps.dropTree _)).trans (Keeps.dropCodes _)⟩

theorem genBody_keeps (s : State) : (genBody s).All (Keeps pk wk s) (fun e => e.cause = .noTree) := by
  rcases genBody_cases s with ⟨_, ct, h⟩ | ⟨_, h⟩
  · rw [h]
    exact (((Keeps.setPhase s _).trans (Keeps.dropCodes _)).trans (Keeps.setGen _ _)).trans (Keeps.setCtValid _ _)
  · rw [h]
    exact ⟨rfl, (Keeps.setPhase s _).trans (Keeps.dropCodes _)⟩

theorem packAll_out_keeps (s : State) :
    (packAll outByte s).All (Keeps False wk s)
      (fun e => e.cause = .srcUnreadable ∨ e.cause = .noCode ∨ e.cause = .dstUnwritable) := by
  refine packAll_all (fun t a f h => h.trans (Keeps.setPacker t a f)) (fun t x h => h.trans (Keeps.setInOff t x)) ?_
    (fun _ => .inl rfl) (fun _ => .inr (.inl rfl)) (Keeps.refl s)
  intro v t h
  rcases outByte_cases v t with ⟨hf, h1⟩ | ⟨_, h1⟩
  · rw [h1]; exact h.trans (Keeps.append (bs := [v]) hf)
  · rw [h1]; exact ⟨.inr (.inr rfl), h⟩

theorem packAll_pay_keeps (s : State) :
    (packAll payByte s).All (Keeps False wk s) (fun e => e.cause = .srcUnreadable ∨ e.cause = .noCode) :=
  packAll_all (fun t a f h => h.trans (Keeps.setPacker t a f)) (fun t x h => h.trans (Keeps.setInOff t x))
    (fun v t h => h.trans (Keeps.setPay t _)) (fun _ => .inl rfl) (fun _ => .inr rfl) (Keeps.refl s)

theorem walk_keeps (base tb len : Nat) (s : State) : (walk base tb len s).All (Keeps pk False s) (fun e => WalkCause e.cause) :=
  walk_all (fun t x h => h.trans (Keeps.setInOff t x)) (fun t b h => h.trans (Keeps.setBitpos t b))
    (fun t c h => h.trans (Keeps.setWalk t c _))
    (fun v t h hf => (h.trans (Keeps.append (bs := [v]) hf)).trans (Keeps.setWalk _ _ _)) (fun _ _ h => h) (Keeps.refl s)
    (Keeps.setWalk s _ _)

end Sys2Proof.Machine
end

