-- ==== Sys2Proof/Laws/Encode.lean ====
section
/-! SUPPORT. What ENCODE does (45_container_codec.md R186 to R193). -/

namespace Sys2Proof.Machine

/-! ### The codes of a list of bytes -/

/-- The tree's nodes for a list of bytes. -/
def nodesFor (bytes : List Byte) : List Node := builtNodes (tableOf bytes)

/-- The tree's root for a list of bytes. -/
def rootFor (bytes : List Byte) : NodeIdx := builtRoot (tableOf bytes)

/-- The code table for a list of bytes. -/
def codesFor (bytes : List Byte) : List Code := treeCodes (nodesFor bytes) (rootFor bytes)

/-- The bit stream of a list of bytes (R101). -/
def streamFor (bytes : List Byte) : List Bool := codeBits (codesFor bytes) bytes

/-- The container of a list of bytes (R96, R188, R190). -/
def containerFor (magic : List Byte) (bytes : List Byte) : List Byte :=
  if bytes = [] then magic ++ leBytes 8 0 ++ leBytes 2 0 ++ [0]
  else headerBytes magic bytes.length (ftEntries (tableOf bytes)).length (tableOf bytes) ((streamFor bytes).length % 8) ++
    packedBytes (streamFor bytes)

theorem ftSum_tableOf_ne {bytes : List Byte} (h0 : bytes ≠ []) (hl : bytes.length < 2 ^ 64) : ftSum (tableOf bytes) ≠ 0 := by
  rw [ftSum_tableOf hl, Ne, List.length_eq_zero_iff]
  exact h0

theorem treeFor_wf {bytes : List Byte} (h0 : bytes ≠ []) (hl : bytes.length < 2 ^ 64) :
    TreeWf (nodesFor bytes) (BitVec.ofNat 10 (nodesFor bytes).length) (rootFor bytes) :=
  builtNodes_wf (ftSum_tableOf_ne h0 hl) (by rw [ftSum_tableOf hl]; exact hl)

/-- Every byte has a code, the path to its leaf. -/
theorem codesFor_spec {bytes : List Byte} (hl : bytes.length < 2 ^ 64) {b : Byte} (hb : b ∈ bytes) :
    codeOf (codesFor bytes) b ≠ [] ∧ LeadsTo (nodesFor bytes) (rootFor bytes) (codeOf (codesFor bytes) b) b := by
  have h0 : bytes ≠ [] := fun h => by rw [h] at hb; simp at hb
  have hs : b ∈ leafSymbols (nodesFor bytes) := by
    rw [nodesFor, builtNodes_symbols (ftSum_tableOf_ne h0 hl) (by rw [ftSum_tableOf hl]; exact hl), List.mem_map]
    exact ⟨(b, ftAt (tableOf bytes) b), mem_ftEntries.mpr ⟨rfl, tableOf_pos hl hb⟩, rfl⟩
  have hc := treeCodes_of (treeFor_wf h0 hl)
  refine ⟨fun h => ?_, hc.path b hs⟩
  have := (hc.len b hs).1
  rw [show codeOf (treeCodes (nodesFor bytes) (rootFor bytes)) b = [] from h] at this
  simp at this

theorem streamFor_ne_nil {bytes : List Byte} (h0 : bytes ≠ []) (hl : bytes.length < 2 ^ 64) : streamFor bytes ≠ [] := by
  cases bytes with
  | nil => exact absurd rfl h0
  | cons b bs =>
    have := (codesFor_spec hl (List.mem_cons_self (a := b) (l := bs))).1
    intro h
    rw [streamFor, codeBits, List.flatMap_cons, List.append_eq_nil_iff] at h
    exact this h.1

theorem inBytes_lt (s : State) : s.inBytes.length < 2 ^ 64 := by rw [State.inBytes_length]; exact s.inLen.isLt

theorem inBytes_ne_nil {s : State} (h : s.inLen ≠ 0) : s.inBytes ≠ [] := by
  intro hc
  have := congrArg List.length hc
  rw [State.inBytes_length, List.length_nil] at this
  exact h (BitVec.eq_of_toNat_eq this)

/-! ### The body -/

/-- What ENCODE has set when it begins to write (R189). -/
structure EncodeReady (s t : State) : Prop where
  keeps : Keeps False True s t
  outMem : t.outMem = s.outMem
  outLen : t.outLen = s.outLen
  origLen : t.origLen = s.inLen
  symCount : t.symCount = BitVec.ofNat 16 (ftEntries (tableOf s.inBytes)).length
  trail : t.trail = BitVec.ofNat 3 ((streamFor s.inBytes).length % 8)

theorem tableOf_nil : tableOf [] = ftZero := rfl

/-- ENCODE of a readable source is the writing of its container (R187 to R190). -/
theorem encodeBody_eq (magic : List Byte) {s : State} (hok : s.Readable) :
    ∃ t, encodeBody magic s = outBytes (containerFor magic s.inBytes) t ∧ EncodeReady s t := by
  obtain ⟨x, hc⟩ := countBody_ok hok
  rw [encodeBody, hc]
  simp only
  have htot : ∀ y : State, (((((s.setCounts (tableOf s.inBytes) s.inLen).setPhase .count).setInOff x).setOrigLen y.inLen)).total =
    s.inLen := fun _ => rfl
  have htot' : (((s.setCounts (tableOf s.inBytes) s.inLen).setPhase .count).setInOff x).total = s.inLen := rfl
  rw [htot', htot s]
  have hk1 : Keeps False True s ((((s.setCounts (tableOf s.inBytes) s.inLen).setPhase .count).setInOff x).setOrigLen s.inLen) :=
    (((Keeps.setCounts s _ _).trans (Keeps.setPhase _ _)).trans (Keeps.setInOff _ _)).trans (Keeps.setOrigLen _ _)
  by_cases h0 : s.inLen = 0
  · rw [if_pos h0]
    have hnil : s.inBytes = [] := by
      rw [← List.length_eq_zero_iff, State.inBytes_length, h0]; rfl
    rw [encodeEmpty, containerFor, if_pos hnil]
    refine ⟨_, rfl, (((hk1.trans (Keeps.setSymCount _ _)).trans (Keeps.setTrail _ _)).trans (Keeps.setPhase _ _)), rfl, rfl, rfl,
      ?_, ?_⟩
    · rw [hnil, tableOf_nil, ftEntries_eq_nil.mpr ftSum_ftZero]; rfl
    · rw [hnil]; rfl
  · rw [if_neg h0, encodeFull]
    have hne := inBytes_ne_nil h0
    have hl := inBytes_lt s
    revert hk1
    generalize hs1 : ((((s.setCounts (tableOf s.inBytes) s.inLen).setPhase .count).setInOff x).setOrigLen s.inLen) = s1
    intro hk1
    have hft : s1.ft = tableOf s.inBytes := by rw [← hs1]; rfl
    have h1out : s1.outMem = s.outMem := by rw [← hs1]; rfl
    have h1len : s1.outLen = s.outLen := by rw [← hs1]; rfl
    have h1orig : s1.origLen = s.inLen := by rw [← hs1]; rfl
    clear hs1
    rw [buildBody_ok (s := s1) (by rw [hft]; exact ftSum_tableOf_ne hne hl) (by rw [hft, ftSum_tableOf hl]; exact hl)]
    simp only
    rw [hft, ← nodesFor, ← rootFor]
    have hwf := treeFor_wf hne hl
    rw [genBody_ok (s := s1.plant (nodesFor s.inBytes) (rootFor s.inBytes)) (by simp) (by simpa using hwf)]
    simp only [State.plant_node, State.plant_root]
    rw [← codesFor]
    have hk2 : Keeps False True s (((((s1.plant (nodesFor s.inBytes) (rootFor s.inBytes)).setPhase .gen).dropCodes).setGen
        (codesFor s.inBytes) []).setCtValid true) :=
      ((((hk1.trans (Keeps.plant _ _ _)).trans (Keeps.setPhase _ _)).trans (Keeps.dropCodes _)).trans (Keeps.setGen _ _)).trans
        (Keeps.setCtValid _ _)
    revert hk2
    generalize hs2 : (((((s1.plant (nodesFor s.inBytes) (rootFor s.inBytes)).setPhase .gen).dropCodes).setGen
        (codesFor s.inBytes) []).setCtValid true) = s2
    intro hk2
    have h2ft : s2.ft = tableOf s.inBytes := by rw [← hs2]; simpa using hft
    have h2ct : s2.ct = codesFor s.inBytes := by rw [← hs2]; simp
    have h2out : s2.outMem = s.outMem := by rw [← hs2]; simpa using h1out
    have h2len : s2.outLen = s.outLen := by rw [← hs2]; simpa using h1len
    have h2orig : s2.origLen = s.inLen := by rw [← hs2]; simpa using h1orig
    clear hs2
    rw [encodePack]
    have hk3 := hk2.trans ((Keeps.setPhase s2 .pack).trans (Keeps.setPay _ []))
    have hbytes : ((s2.setPhase .pack).setPay []).inBytes = s.inBytes := hk3.inBytes
    obtain ⟨a, f, y, hp⟩ := packAll_ok paySink (s := (s2.setPhase .pack).setPay []) (hk3.readable hok)
      (by
        intro b hb
        rw [hbytes] at hb
        rw [State.setPay_ct, State.setPhase_ct, h2ct]
        exact (codesFor_spec hl hb).1) trivial
    rw [State.setPay_ct, State.setPhase_ct, h2ct, hbytes, ← streamFor] at hp
    rw [hp]
    simp only [State.setPay_pay, List.nil_append]
    have hk4 := hk3.trans (((Keeps.setPay _ (packedBytes (streamFor s.inBytes))).trans (Keeps.setPacker _ a f)).trans
      (Keeps.setInOff _ y))
    revert hk4
    generalize hs4 : ((((((s2.setPhase .pack).setPay []).setPay (packedBytes (streamFor s.inBytes))).setPacker a f).setInOff y)) = s4
    intro hk4
    have h4ft : s4.ft = tableOf s.inBytes := by rw [← hs4]; simpa using h2ft
    have h4pay : s4.pay = packedBytes (streamFor s.inBytes) := by rw [← hs4]; simp
    have h4out : s4.outMem = s.outMem := by rw [← hs4]; simpa using h2out
    have h4len : s4.outLen = s.outLen := by rw [← hs4]; simpa using h2len
    have h4orig : s4.origLen = s.inLen := by rw [← hs4]; simpa using h2orig
    clear hs4
    rw [encodeWrite]
    have hn := ftEntries_length_le (tableOf s.inBytes)
    refine ⟨((s4.setSymCount (BitVec.ofNat 16 (ftEntries s4.ft).length)).setTrail
      (BitVec.ofNat 3 ((streamFor s.inBytes).length % 8))).setPhase .hdrW, ?_,
      (((hk4.trans (Keeps.setSymCount _ _)).trans (Keeps.setTrail _ _)).trans (Keeps.setPhase _ _)), ?_, ?_, ?_, ?_, ?_⟩
    · simp only [State.setTrail_origLen, State.setSymCount_origLen, State.setTrail_symCount, State.setSymCount_symCount,
        State.setTrail_ft, State.setSymCount_ft, State.setTrail_trail, State.setTrail_pay, State.setSymCount_pay, h4ft, h4pay,
        h4orig]
      rw [containerFor, if_neg hne]
      congr 3
      · rw [State.inBytes_length]
      · rw [BitVec.toNat_ofNat, Nat.mod_eq_of_lt (by omega)]
      · rw [BitVec.toNat_ofNat, Nat.mod_eq_of_lt (by omega)]
    · simpa using h4out
    · simpa using h4len
    · simpa using h4orig
    · simp [h4ft]
    · simp

/-- ENCODE of an unreadable source ends there (R187, R192). -/
theorem encodeBody_bad (magic : List Byte) {s : State} {p : Nat} (hlen : p < s.inLen.toNat) (hbad : s.inBadAt p = true)
    (hok : ∀ k, k < p → s.inBadAt k = false) :
    ∃ t, encodeBody magic s = .raised ⟨.srcUnreadable, BitVec.ofNat 64 p⟩ t := by
  obtain ⟨v, t, x, h⟩ := countBody_bad hlen hbad hok
  exact ⟨_, by rw [encodeBody, h]⟩

/-- Either every offset below IN_LEN is readable or there is a first one that is not. -/
theorem readable_or (s : State) :
    s.Readable ∨ ∃ p, p < s.inLen.toNat ∧ s.inBadAt p = true ∧ ∀ k, k < p → s.inBadAt k = false := by
  by_cases h : ∃ p, p < s.inLen.toNat ∧ s.inBadAt p = true
  · right
    obtain ⟨h1, h2⟩ := Nat.find_spec h
    refine ⟨Nat.find h, h1, h2, fun k hk => ?_⟩
    have := Nat.find_min h hk
    by_contra hc
    rw [Bool.not_eq_false] at hc
    exact this ⟨by omega, hc⟩
  · left
    intro o ho
    by_contra hc
    rw [Bool.not_eq_false] at hc
    exact h ⟨o, ho, hc⟩

/-- What the body of ENCODE can do: "the only errors ENCODE can raise are IOError" (R192). -/
theorem encodeBody_keeps (magic : List Byte) (s : State) :
    (encodeBody magic s).All (Keeps False True s) (fun e => e.cause = .srcUnreadable ∨ e.cause = .dstUnwritable) := by
  rcases readable_or s with hok | ⟨p, hp, hb, hk⟩
  · obtain ⟨t, ht, hr⟩ := encodeBody_eq magic hok
    rw [ht]
    have h1 := outBytes_keeps (pk := False) (wk := True) (containerFor magic s.inBytes) t
    revert h1
    cases outBytes (containerFor magic s.inBytes) t with
    | ok a u => exact fun h1 => hr.keeps.trans h1
    | raised e u => exact fun h1 => ⟨.inr h1.1, hr.keeps.trans h1.2⟩
  · obtain ⟨v, t, x, h⟩ := countBody_bad hp hb hk
    rw [encodeBody, h]
    exact ⟨.inl rfl, ((Keeps.setCounts s v t).trans (Keeps.setPhase _ _)).trans (Keeps.setInOff _ _)⟩

end Sys2Proof.Machine
end

