-- ==== Sys2Proof/Laws/Decode.lean ====
section
/-! SUPPORT. What DECODE does (45_container_codec.md R194 to R202). -/

namespace Sys2Proof.Machine

theorem State.ReadableTo.congr {s t : State} {n : Nat} (h : s.ReadableTo n) (he : t.env = s.env) : t.ReadableTo n :=
  fun o ho => by rw [State.inBadAt_congr he]; exact h o ho

theorem State.ReadableTo.less {s : State} {m n : Nat} (h : s.ReadableTo n) (hm : m ≤ n) : s.ReadableTo m :=
  fun o ho => h o (by omega)

/-! ### Reading a part of IN -/

/-- A part of IN, by what stands before and after it. -/
theorem inSlice_of_append {s : State} {a b c : List Byte} (h : s.inBytes = a ++ b ++ c) :
    s.inSlice a.length b.length = b := by
  have hl := congrArg List.length h
  rw [State.inBytes_length] at hl
  simp only [List.length_append] at hl
  rw [State.inSlice_eq_take_drop s (by omega), h, List.append_assoc, List.drop_left, List.take_left]

theorem inLen_of_append {s : State} {a b c : List Byte} (h : s.inBytes = a ++ b ++ c) :
    s.inLen.toNat = a.length + b.length + c.length := by
  have hl := congrArg List.length h
  rw [State.inBytes_length] at hl
  simp only [List.length_append] at hl
  omega

/-- A header field that is all there (R194). -/
theorem readField_ok {addr n need : Nat} {s : State} {a b c : List Byte} (hok : s.ReadableTo (addr + n)) (h : s.inBytes = a ++ b ++ c)
    (ha : a.length = addr) (hb : b.length = n) : ∃ x, readField addr n need s = .ok (leValue b) (s.setInOff x) := by
  have hl := inLen_of_append h
  obtain ⟨x, hx⟩ := memRead_ok (n := n) (addr := addr) (s := s) (by omega) (fun k _ hk => hok k hk)
  refine ⟨x, ?_⟩
  rw [readField, hx, ← ha, ← hb, inSlice_of_append h]

/-- A header field that the end of the stream cuts (R194). -/
theorem readField_short {addr n need : Nat} {s : State} (hok : s.Readable) (hn : n ≠ 0) (h : s.inLen.toNat < addr + n) :
    ∃ x, readField addr n need s = .raised ⟨.truncatedHeader, BitVec.ofNat 64 need⟩ (s.setInOff x) := by
  obtain ⟨x, hx⟩ := memRead_eos h hn (fun k _ hk => hok k hk)
  exact ⟨x, by rw [readField, hx]⟩

/-- A header field whose first unreadable byte is at offset `p` (R63, R194). -/
theorem readField_unreadable {addr n need p : Nat} {s : State} (h1 : addr ≤ p) (h2 : p < addr + n) (hl : p < s.inLen.toNat)
    (hb : s.inBadAt p = true) (hok : s.ReadableTo p) :
    ∃ x, readField addr n need s = .raised ⟨.srcUnreadable, BitVec.ofNat 64 p⟩ (s.setInOff x) := by
  have h := (memReadBytes_decided (n := n) (addr := addr) (s := s) (j := p - addr) (by omega)
    (fun k hk => ⟨by omega, hok _ (by omega)⟩)).2
  rw [show addr + (p - addr) = p by omega] at h
  obtain ⟨x, hx⟩ := h hl hb
  exact ⟨x, by rw [readField, memRead, hx]⟩

/-- What reading a header field can do. -/
theorem readField_keeps (addr n need : Nat) (s : State) :
    (readField addr n need s).All (Keeps True False s) (fun e => e.cause = .srcUnreadable ∨ e.cause = .truncatedHeader) := by
  have h := memRead_keeps (pk := True) (wk := False) addr n s
  rw [readField]
  revert h
  cases memRead addr n s with
  | raised e t => exact fun h => ⟨.inl h.1, h.2⟩
  | ok a t =>
    cases a with
    | none => exact fun h => ⟨.inr rfl, h⟩
    | some v => exact fun h => h

/-! ### The magic (R195) -/

theorem checkMagic_ok {ms : List Byte} {k : Nat} {s : State} {a c : List Byte} (hok : s.ReadableTo (k + ms.length))
    (h : s.inBytes = a ++ ms ++ c) (ha : a.length = k) : ∃ x, checkMagic ms k s = .ok () (s.setInOff x) := by
  induction ms generalizing k s a with
  | nil => exact ⟨s.inOff, rfl⟩
  | cons m ms ih =>
    have h' : s.inBytes = (a ++ [m]) ++ ms ++ c := by rw [h]; simp
    have hl := inLen_of_append h
    simp only [List.length_cons] at hl
    have hb : s.inByte k = m := by
      have h1 := s.inBytes_getElem? k
      rw [if_pos (by omega), h, ← ha, List.append_assoc, List.getElem?_append_right (Nat.le_refl _)] at h1
      simp at h1
      rw [← ha]; exact h1.symm
    obtain ⟨x, hx⟩ := ih (s := s.setInOff (BitVec.ofNat 64 (k + 1))) (k := k + 1) (a := a ++ [m])
      (fun o ho => by rw [State.setInOff_inBadAt]; exact hok o (by simp only [List.length_cons]; omega))
      (by rw [State.setInOff_inBytes]; exact h') (by simp [ha])
    refine ⟨x, ?_⟩
    rw [checkMagic, memRead_one, if_neg (by omega), hok k (by simp)]
    simp only [BitVec.ofNat_toNat, BitVec.setWidth_eq, Bool.false_eq_true, if_false, hb, if_true]
    rw [hx, State.setInOff_setInOff]

/-- The first byte that is not the magic's, or the end of the stream before it (R195). -/
theorem checkMagic_bad {ms : List Byte} {k j : Nat} {s : State} (hok : s.ReadableTo (k + j + 1)) (hj : j < ms.length)
    (hgood : ∀ i, i < j → s.inBytes[k + i]? = ms[i]?) (hbad : s.inBytes[k + j]? ≠ ms[j]?) :
    ∃ x, checkMagic ms k s = .raised ⟨.badMagic, BitVec.ofNat 64 (k + j)⟩ (s.setInOff x) := by
  induction ms generalizing k j s with
  | nil => simp at hj
  | cons m ms ih =>
    rw [checkMagic, memRead_one]
    cases j with
    | zero =>
      rw [State.inBytes_getElem?, Nat.add_zero] at hbad
      rw [Nat.add_zero]
      by_cases h1 : s.inLen.toNat ≤ k
      · rw [if_pos h1]; exact ⟨s.inOff, rfl⟩
      · rw [if_neg h1, hok k (by omega)]
        simp only [BitVec.ofNat_toNat, BitVec.setWidth_eq, Bool.false_eq_true, if_false]
        rw [if_pos (by omega)] at hbad
        rw [if_neg (by simpa using hbad)]
        exact ⟨_, rfl⟩
    | succ j =>
      have h0 := hgood 0 (by omega)
      rw [Nat.add_zero, State.inBytes_getElem?, List.getElem?_cons_zero] at h0
      split at h0
      · rename_i hk
        rw [if_neg (by omega), hok k (by omega)]
        simp only [BitVec.ofNat_toNat, BitVec.setWidth_eq, Bool.false_eq_true, if_false]
        rw [if_pos (by simpa using h0)]
        obtain ⟨x, hx⟩ := ih (s := s.setInOff (BitVec.ofNat 64 (k + 1))) (k := k + 1) (j := j)
          (fun o ho => by rw [State.setInOff_inBadAt]; exact hok o (by omega))
          (by simpa using hj)
          (fun i hi => by
            have := hgood (i + 1) (by omega)
            rw [List.getElem?_cons_succ] at this
            rw [State.setInOff_inBytes, show k + 1 + i = k + (i + 1) by omega]; exact this)
          (by
            rw [State.setInOff_inBytes, show k + 1 + j = k + (j + 1) by omega]
            rw [List.getElem?_cons_succ] at hbad; exact hbad)
        refine ⟨x, ?_⟩
        rw [hx, State.setInOff_setInOff, show k + 1 + j = k + (j + 1) by omega]
      · simp at h0

/-- The first unreadable byte of the magic, behind bytes that agree (R63, R195). -/
theorem checkMagic_unreadable {ms : List Byte} {k j : Nat} {s : State} (hok : s.ReadableTo (k + j)) (hj : j < ms.length)
    (hgood : ∀ i, i < j → s.inBytes[k + i]? = ms[i]?) (hl : k + j < s.inLen.toNat) (hb : s.inBadAt (k + j) = true) :
    ∃ x, checkMagic ms k s = .raised ⟨.srcUnreadable, BitVec.ofNat 64 (k + j)⟩ (s.setInOff x) := by
  induction ms generalizing k j s with
  | nil => simp at hj
  | cons m ms ih =>
    rw [checkMagic, memRead_one]
    cases j with
    | zero =>
      rw [Nat.add_zero] at hl hb ⊢
      rw [if_neg (by omega), if_pos hb]
      exact ⟨s.inOff, rfl⟩
    | succ j =>
      have h0 := hgood 0 (by omega)
      rw [Nat.add_zero, State.inBytes_getElem?, List.getElem?_cons_zero, if_pos (by omega)] at h0
      rw [if_neg (by omega), hok k (by omega)]
      simp only [BitVec.ofNat_toNat, BitVec.setWidth_eq, Bool.false_eq_true, if_false]
      rw [if_pos (by simpa using h0)]
      obtain ⟨x, hx⟩ := ih (s := s.setInOff (BitVec.ofNat 64 (k + 1))) (k := k + 1) (j := j)
        (fun o ho => by rw [State.setInOff_inBadAt]; exact hok o (by omega))
        (by simpa using hj)
        (fun i hi => by
          have := hgood (i + 1) (by omega)
          rw [List.getElem?_cons_succ] at this
          rw [State.setInOff_inBytes, show k + 1 + i = k + (i + 1) by omega]; exact this)
        (by rw [State.setInOff_inLen]; omega)
        (by rw [State.setInOff_inBadAt, show k + 1 + j = k + (j + 1) by omega]; exact hb)
      refine ⟨x, ?_⟩
      rw [hx, State.setInOff_setInOff, show k + 1 + j = k + (j + 1) by omega]

theorem checkMagic_keeps (ms : List Byte) (k : Nat) (s : State) :
    (checkMagic ms k s).All (Keeps True False s) (fun e => e.cause = .srcUnreadable ∨ e.cause = .badMagic) := by
  induction ms generalizing k s with
  | nil => exact Keeps.refl s
  | cons m ms ih =>
    rw [checkMagic]
    have h := memRead_keeps (pk := True) (wk := False) k 1 s
    revert h
    cases memRead k 1 s with
    | raised e t => exact fun h => ⟨.inl h.1, h.2⟩
    | ok a t =>
      cases a with
      | none => exact fun h => ⟨.inr rfl, h⟩
      | some b =>
        intro h
        simp only
        split
        · have h1 := ih (k + 1) t
          revert h1
          cases checkMagic ms (k + 1) t with
          | ok a u => exact fun h1 => h.trans h1
          | raised e u => exact fun h1 => ⟨h1.1, h.trans h1.2⟩
        · exact ⟨.inr rfl, h⟩

/-! ### The symbol table (R197) -/

/-- The bytes of a list of entries: each symbol and its 8-byte frequency (R95). -/
def entryBytes (es : List (Byte × Count)) : List Byte := es.flatMap (fun p => p.1 :: leBytes 8 p.2.toNat)

theorem symbolTable_eq (ft : Vector Count 256) : symbolTable ft = entryBytes (ftEntries ft) := rfl

theorem entryBytes_cons (p : Byte × Count) (es : List (Byte × Count)) :
    entryBytes (p :: es) = (p.1 :: leBytes 8 p.2.toNat) ++ entryBytes es := rfl

@[simp] theorem entryBytes_length (es : List (Byte × Count)) : (entryBytes es).length = 9 * es.length := by
  induction es with
  | nil => rfl
  | cons p es ih =>
    rw [entryBytes_cons, List.length_append, ih, List.length_cons, leBytes_length, List.length_cons]; omega

/-- FT with the entries of a list written (R197). -/
def putEntries (ft : Vector Count 256) (es : List (Byte × Count)) : Vector Count 256 :=
  es.foldl (fun v p => ftSet v p.1 p.2) ft

/-- The lowest symbol the next entry may have. -/
def nextLow (lo : Nat) (es : List (Byte × Count)) : Nat := es.foldl (fun _ p => p.1.toNat + 1) lo

/-- A symbol breaks the order exactly when an entry before it is not below it. -/
theorem lt_nextLow {es : List (Byte × Count)} (h : es.Pairwise (fun p p' => p.1.toNat < p'.1.toNat)) (x : Nat) :
    x < nextLow 0 es ↔ ∃ p ∈ es, x ≤ p.1.toNat := by
  rcases List.eq_nil_or_concat es with rfl | ⟨l, q, rfl⟩
  · simp [nextLow]
  · rw [List.concat_eq_append] at h ⊢
    have h1 : nextLow 0 (l ++ [q]) = q.1.toNat + 1 := by simp [nextLow]
    rw [h1]
    constructor
    · intro hx
      exact ⟨q, by simp, by omega⟩
    · rintro ⟨p, hp, hx⟩
      rcases List.mem_append.mp hp with hp | hp
      · have := (List.pairwise_append.mp h).2.2 p hp q (by simp)
        omega
      · rw [List.mem_singleton.mp hp] at hx
        omega

/-- One entry of the table (R197), its two checks in order. -/
theorem tableLoop_entry {r k lo sum : Nat} {s : State} {a c : List Byte} {sym : Byte} {f : Count}
    (hok : s.ReadableTo (23 + 9 * k)) (h : s.inBytes = a ++ (sym :: leBytes 8 f.toNat) ++ c) (ha : a.length = 14 + 9 * k) :
    ∃ x, tableLoop (r + 1) k lo sum s =
      if sym.toNat < lo then .raised ⟨.tableOrder, BitVec.ofNat 64 k⟩ (s.setInOff x)
      else if f = 0 then .raised ⟨.zeroFreq, BitVec.ofNat 64 k⟩ (s.setInOff x)
      else tableLoop r (k + 1) (sym.toNat + 1) (sum + f.toNat) ((s.setInOff x).setFt (ftSet s.ft sym f)) := by
  have h1 : s.inBytes = a ++ [sym] ++ (leBytes 8 f.toNat ++ c) := by rw [h]; simp
  obtain ⟨x1, hx1⟩ := readField_ok (need := 15 + 9 * k) (fun o ho => hok o (by omega)) h1 ha (n := 1) rfl
  have h2 : (s.setInOff x1).inBytes = (a ++ [sym]) ++ leBytes 8 f.toNat ++ c := by
    rw [State.setInOff_inBytes, h]; simp
  obtain ⟨x2, hx2⟩ := readField_ok (s := s.setInOff x1) (need := 23 + 9 * k) (addr := 15 + 9 * k)
    (fun o ho => by rw [State.setInOff_inBadAt]; exact hok o (by omega)) h2
    (by simp [ha]; omega) (n := 8) (by simp)
  refine ⟨x2, ?_⟩
  have hf : leValue (leBytes 8 f.toNat) = f.toNat := by
    rw [leValue_leBytes]; exact Nat.mod_eq_of_lt f.isLt
  rw [tableLoop, hx1]
  simp only
  rw [hx2, hf, State.setInOff_setInOff]
  simp only [leValue_single, BitVec.ofNat_toNat, BitVec.setWidth_eq, State.setInOff_ft]
  have hf0 : (f.toNat = 0) ↔ f = 0 := by
    constructor
    · intro h0; exact BitVec.eq_of_toNat_eq h0
    · intro h0; rw [h0]; rfl
  by_cases hlo : sym.toNat < lo
  · rw [if_pos hlo, if_pos hlo]
  · rw [if_neg hlo, if_neg hlo]
    by_cases h0 : f = 0
    · rw [if_pos h0, if_pos (hf0.mpr h0)]
    · rw [if_neg h0, if_neg (mt hf0.mp h0)]

theorem setInOff_setFt (s : State) (v : Vector Count 256) (x : BitVec 64) : (s.setFt v).setInOff x = (s.setInOff x).setFt v := rfl
theorem setFt_setFt (s : State) (v v' : Vector Count 256) : (s.setFt v).setFt v' = s.setFt v' := rfl

/-- Entries in strictly ascending order, with frequencies that are not 0, from `lo` on. -/
def EntriesFrom (lo : Nat) (es : List (Byte × Count)) : Prop :=
  (∀ p ∈ es, lo ≤ p.1.toNat ∧ p.2 ≠ 0) ∧ es.Pairwise (fun p p' => p.1.toNat < p'.1.toNat)

/-- The loop over good entries (R197). -/
theorem tableLoop_good {es : List (Byte × Count)} {m k lo sum : Nat} {s : State} {a c : List Byte}
    (hok : s.ReadableTo (14 + 9 * (k + es.length))) (h : s.inBytes = a ++ entryBytes es ++ c) (ha : a.length = 14 + 9 * k) (hes : EntriesFrom lo es) :
    ∃ x, tableLoop (es.length + m) k lo sum s =
      tableLoop m (k + es.length) (nextLow lo es) (sum + entrySum es) ((s.setInOff x).setFt (putEntries s.ft es)) := by
  induction es generalizing k lo sum s a with
  | nil => exact ⟨s.inOff, by simp only [List.length_nil, Nat.zero_add, Nat.add_zero]; rfl⟩
  | cons p es ih =>
    obtain ⟨sym, f⟩ := p
    obtain ⟨h1, h2⟩ := hes
    obtain ⟨h3, h4⟩ := h1 (sym, f) (List.mem_cons_self ..)
    rw [List.pairwise_cons] at h2
    rw [entryBytes_cons] at h
    obtain ⟨x, hx⟩ := tableLoop_entry (r := es.length + m) (lo := lo) (sum := sum)
      (fun o ho => hok o (by simp only [List.length_cons]; omega))
      (show s.inBytes = a ++ (sym :: leBytes 8 f.toNat) ++ (entryBytes es ++ c) by rw [h]; simp) ha
    have h4' : ¬ f = 0 := h4
    rw [if_neg (by simpa using h3), if_neg h4'] at hx
    obtain ⟨y, hy⟩ := ih (s := (s.setInOff x).setFt (ftSet s.ft sym f)) (k := k + 1) (lo := sym.toNat + 1)
      (sum := sum + f.toNat) (a := a ++ (sym :: leBytes 8 f.toNat))
      (fun o ho => by
        rw [State.setFt_inBadAt, State.setInOff_inBadAt]; exact hok o (by simp only [List.length_cons]; omega))
      (by rw [State.setFt_inBytes, State.setInOff_inBytes, h]; simp) (by simp [ha]; omega)
      ⟨fun p hp => ⟨h2.1 p hp, (h1 p (List.mem_cons_of_mem _ hp)).2⟩, h2.2⟩
    refine ⟨y, ?_⟩
    rw [List.length_cons, show es.length + 1 + m = (es.length + m) + 1 by omega, hx, hy,
      show k + 1 + es.length = k + (es.length + 1) by omega]
    have hsum : sum + f.toNat + entrySum es = sum + entrySum ((sym, f) :: es) := by
      simp only [entrySum, List.map_cons, countSum]; omega
    rw [hsum]
    rfl

theorem ftAt_putEntries {ft : Vector Count 256} {es : List (Byte × Count)} (hn : (es.map Prod.fst).Nodup) (b : Byte) :
    (∀ f, (b, f) ∈ es → ftAt (putEntries ft es) b = f) ∧ (b ∉ es.map Prod.fst → ftAt (putEntries ft es) b = ftAt ft b) := by
  induction es generalizing ft with
  | nil => exact ⟨fun f hf => by simp at hf, fun _ => rfl⟩
  | cons p es ih =>
    obtain ⟨sym, g⟩ := p
    rw [List.map_cons, List.nodup_cons] at hn
    obtain ⟨h1, h2⟩ := ih (ft := ftSet ft sym g) hn.2
    refine ⟨fun f hf => ?_, fun hb => ?_⟩
    · rcases List.mem_cons.mp hf with heq | hf
      · simp only [Prod.mk.injEq] at heq
        obtain ⟨rfl, rfl⟩ := heq
        exact (h2 hn.1).trans (by rw [ftAt_ftSet, if_pos rfl])
      · exact h1 f hf
    · rw [List.map_cons, List.mem_cons, not_or] at hb
      exact (h2 hb.2).trans (by rw [ftAt_ftSet, if_neg (fun hc => hb.1 hc.symm)])

/-- Writing a table's entries into an empty table gives the table back. -/
theorem putEntries_ftEntries (ft : Vector Count 256) : putEntries ftZero (ftEntries ft) = ft := by
  apply ft_ext
  intro b
  obtain ⟨h1, h2⟩ := ftAt_putEntries (ft := ftZero) (ftEntries_nodup ft) b
  by_cases hb : ftAt ft b = 0
  · rw [h2, ftAt_ftZero, hb]
    intro hm
    obtain ⟨⟨c, f⟩, hp, hc⟩ := List.mem_map.mp hm
    subst hc
    obtain ⟨h3, h4⟩ := mem_ftEntries.mp hp
    exact h4 (h3 ▸ hb)
  · exact h1 _ (mem_ftEntries.mpr ⟨rfl, hb⟩)

theorem ftEntries_from (ft : Vector Count 256) : EntriesFrom 0 (ftEntries ft) :=
  ⟨fun p hp => ⟨Nat.zero_le _, (mem_ftEntries (b := p.1) (f := p.2).mp hp).2⟩, ftEntries_ascending ft⟩

theorem tableLoop_keeps (r k lo sum : Nat) (s : State) :
    (tableLoop r k lo sum s).All (Keeps True False s)
      (fun e => e.cause = .srcUnreadable ∨ e.cause = .truncatedHeader ∨ e.cause = .tableOrder ∨ e.cause = .zeroFreq) := by
  induction r generalizing k lo sum s with
  | zero => exact Keeps.refl s
  | succ r ih =>
    rw [tableLoop]
    have h := readField_keeps (14 + 9 * k) 1 (15 + 9 * k) s
    revert h
    cases readField (14 + 9 * k) 1 (15 + 9 * k) s with
    | raised e t => exact fun h => ⟨h.1.imp id .inl, h.2⟩
    | ok sym t =>
      intro h
      simp only
      have h1 := readField_keeps (15 + 9 * k) 8 (23 + 9 * k) t
      revert h1
      cases readField (15 + 9 * k) 8 (23 + 9 * k) t with
      | raised e u => exact fun h1 => ⟨h1.1.imp id .inl, h.trans h1.2⟩
      | ok f u =>
        intro h1
        have h2 : Keeps True False s u := h.trans h1
        simp only
        split
        · exact ⟨.inr (.inr (.inl rfl)), h2⟩
        · split
          · exact ⟨.inr (.inr (.inr rfl)), h2⟩
          · have h3 := ih (k + 1) (sym + 1) (sum + f) (u.setFt (ftSet u.ft (BitVec.ofNat 8 sym) (BitVec.ofNat 64 f)))
            revert h3
            cases tableLoop r (k + 1) (sym + 1) (sum + f) (u.setFt (ftSet u.ft (BitVec.ofNat 8 sym) (BitVec.ofNat 64 f))) with
            | ok a w => exact fun h3 => (h2.trans (Keeps.setFt _ _)).trans h3
            | raised e w => exact fun h3 => ⟨h3.1, (h2.trans (Keeps.setFt _ _)).trans h3.2⟩

/-! ### The whole header -/

/-- The three fields before the symbol table. -/
def headerFront (magic : List Byte) (len n : Nat) : List Byte := magic ++ leBytes 8 len ++ leBytes 2 n

theorem headerFront_length {magic : List Byte} (hm : magic.length = 4) (len n : Nat) : (headerFront magic len n).length = 14 := by
  simp [headerFront, hm]

/-- The magic and the length are read (R195, R196). -/
theorem decodeBody_front {magic : List Byte} {len : Nat} {s : State} {rest : List Byte} (hok : s.ReadableTo 12)
    (hm : magic.length = 4) (hlen : len < 2 ^ 64) (h : s.inBytes = magic ++ leBytes 8 len ++ rest) :
    ∃ x, decodeBody magic s =
      if len = 0 then .ok () ((s.setInOff x).setOrigLen (BitVec.ofNat 64 len))
      else decodeSymbols len ((s.setInOff x).setOrigLen (BitVec.ofNat 64 len)) := by
  obtain ⟨x1, hx1⟩ := checkMagic_ok (k := 0) (a := []) (ms := magic) (c := leBytes 8 len ++ rest)
    (fun o ho => hok o (by omega)) (by rw [h]; simp) rfl
  obtain ⟨x2, hx2⟩ := readField_ok (s := s.setInOff x1) (need := 12) (a := magic) (b := leBytes 8 len) (c := rest)
    (fun o ho => by rw [State.setInOff_inBadAt]; exact hok o (by omega)) (by rw [State.setInOff_inBytes, h]) hm (n := 8) (by simp)
  refine ⟨x2, ?_⟩
  rw [decodeBody, hx1]
  simp only
  rw [decodeLength, readLength, hx2, leValue_leBytes, Nat.mod_eq_of_lt (show len < 256 ^ 8 by omega), State.setInOff_setInOff]

/-- The symbol count is read (R197 and the checks of R229). -/
theorem readTable_front {magic : List Byte} {len n : Nat} {s : State} {rest : List Byte} (hok : s.ReadableTo 14)
    (hm : magic.length = 4) (hn : n < 2 ^ 16) (h : s.inBytes = headerFront magic len n ++ rest) :
    ∃ x, readTable len s =
      if 256 < n then .raised ⟨.symcountTooLarge, BitVec.ofNat 64 n⟩ ((s.setInOff x).setSymCount (BitVec.ofNat 16 n))
      else if n = 0 then .raised ⟨.symcountZero, 0⟩ ((s.setInOff x).setSymCount (BitVec.ofNat 16 n))
      else if s.inLen.toNat < 14 + 9 * n then
        .raised ⟨.truncatedHeader, BitVec.ofNat 64 (14 + 9 * n)⟩ ((s.setInOff x).setSymCount (BitVec.ofNat 16 n))
      else readEntries n len ((s.setInOff x).setSymCount (BitVec.ofNat 16 n)) := by
  obtain ⟨x, hx⟩ := readField_ok (s := s) (need := 14) (a := magic ++ leBytes 8 len) (b := leBytes 2 n) (c := rest) hok
    (by rw [h, headerFront]) (addr := 12) (by simp [hm]) (n := 2) (by simp)
  refine ⟨x, ?_⟩
  rw [readTable, hx, leValue_leBytes, Nat.mod_eq_of_lt (show n < 256 ^ 2 by omega)]
  simp only [State.setSymCount_inLen, State.setInOff_inLen]
  rfl

/-- The entries are read and their sum is checked (R197). -/
theorem readEntries_ok {magic : List Byte} {len : Nat} {s : State} {es : List (Byte × Count)} {rest : List Byte}
    (hok : s.ReadableTo (14 + 9 * es.length)) (hm : magic.length = 4)
    (h : s.inBytes = headerFront magic len es.length ++ entryBytes es ++ rest)
    (hes : EntriesFrom 0 es) :
    ∃ x, readEntries es.length len s =
      if entrySum es = len then .ok es.length ((s.setInOff x).setFt (putEntries s.ft es))
      else .raised ⟨.lengthMismatch, BitVec.ofNat 64 (entrySum es)⟩ ((s.setInOff x).setFt (putEntries s.ft es)) := by
  obtain ⟨x, hx⟩ := tableLoop_good (m := 0) (k := 0) (lo := 0) (sum := 0) (by rw [Nat.zero_add]; exact hok) h (headerFront_length hm _ _) hes
  refine ⟨x, ?_⟩
  rw [Nat.add_zero, Nat.zero_add] at hx
  rw [readEntries, hx, tableLoop]
  simp only [Nat.zero_add]

/-- A bad entry behind good ones (R197). -/
theorem readEntries_bad {magic : List Byte} {len n r : Nat} {s : State} {es : List (Byte × Count)} {sym : Byte} {f : Count}
    {rest : List Byte} (hok : s.ReadableTo (23 + 9 * es.length)) (hm : magic.length = 4)
    (h : s.inBytes = headerFront magic len n ++ entryBytes es ++ (sym :: leBytes 8 f.toNat) ++ rest)
    (hn : n = es.length + (r + 1)) (hes : EntriesFrom 0 es) (hbad : sym.toNat < nextLow 0 es ∨ f = 0) :
    ∃ t, readEntries n len s =
      .raised ⟨if sym.toNat < nextLow 0 es then .tableOrder else .zeroFreq, BitVec.ofNat 64 es.length⟩ t := by
  obtain ⟨x, hx⟩ := tableLoop_good (m := r + 1) (k := 0) (lo := 0) (sum := 0) (fun o ho => hok o (by omega))
    (show s.inBytes = headerFront magic len n ++ entryBytes es ++ ((sym :: leBytes 8 f.toNat) ++ rest) by rw [h]; simp)
    (headerFront_length hm _ _) hes
  obtain ⟨y, hy⟩ := tableLoop_entry (s := (s.setInOff x).setFt (putEntries s.ft es)) (r := r) (k := 0 + es.length)
    (lo := nextLow 0 es) (sum := 0 + entrySum es) (a := headerFront magic len n ++ entryBytes es) (c := rest)
    (sym := sym) (f := f)
    (by rw [Nat.zero_add]; exact hok.congr (by simp)) (by rw [State.setFt_inBytes, State.setInOff_inBytes, h])
    (by rw [List.length_append, headerFront_length hm, entryBytes_length]; omega)
  rw [readEntries, hn, hx, hy, Nat.zero_add]
  by_cases hlo : sym.toNat < nextLow 0 es
  · simp only [if_pos hlo]; exact ⟨_, rfl⟩
  · have hf : f = 0 := hbad.resolve_left hlo
    simp only [if_neg hlo, if_pos hf]; exact ⟨_, rfl⟩

/-- The first unreadable byte of the entry behind good ones (R63, R197). -/
theorem readEntries_unreadable {magic : List Byte} {len n p : Nat} {s : State} {es : List (Byte × Count)} {rest : List Byte}
    (hm : magic.length = 4) (h : s.inBytes = headerFront magic len n ++ entryBytes es ++ rest) (hn : es.length < n)
    (hes : EntriesFrom 0 es) (h1 : 14 + 9 * es.length ≤ p) (h2 : p < 23 + 9 * es.length) (hl : p < s.inLen.toNat)
    (hb : s.inBadAt p = true) (hok : s.ReadableTo p) :
    ∃ t, readEntries n len s = .raised ⟨.srcUnreadable, BitVec.ofNat 64 p⟩ t ∧ t.outLen = s.outLen := by
  obtain ⟨r, hr⟩ : ∃ r, n = es.length + (r + 1) := ⟨n - es.length - 1, by omega⟩
  obtain ⟨x, hx⟩ := tableLoop_good (m := r + 1) (k := 0) (lo := 0) (sum := 0) (fun o ho => hok o (by omega)) h
    (headerFront_length hm _ _) hes
  generalize hu : (s.setInOff x).setFt (putEntries s.ft es) = u at hx
  have henv : u.env = s.env := by rw [← hu]; rfl
  have hinl : u.inLen = s.inLen := by rw [← hu]; rfl
  have hol : u.outLen = s.outLen := by rw [← hu]; rfl
  have hbu : u.inBadAt p = true := by rw [State.inBadAt_congr henv]; exact hb
  rw [readEntries, hr, hx, Nat.zero_add, tableLoop]
  by_cases hp : p = 14 + 9 * es.length
  · obtain ⟨y, hy⟩ := readField_unreadable (need := 15 + 9 * es.length) (n := 1) (addr := 14 + 9 * es.length) (s := u) (p := p)
      (by omega) (by omega) (by rw [hinl]; exact hl) hbu (hok.congr henv)
    rw [hy]; exact ⟨_, rfl, hol⟩
  · obtain ⟨y, hy⟩ := memRead_ok (n := 1) (addr := 14 + 9 * es.length) (s := u) (by rw [hinl]; omega)
      (fun k _ hk => by rw [State.inBadAt_congr henv]; exact hok k (by omega))
    obtain ⟨z, hz⟩ := readField_unreadable (need := 23 + 9 * es.length) (n := 8) (addr := 15 + 9 * es.length) (s := u.setInOff y) (p := p)
      (by omega) (by omega) (by rw [State.setInOff_inLen, hinl]; exact hl) (by rw [State.setInOff_inBadAt]; exact hbu)
      (hok.congr henv)
    rw [readField, hy]
    simp only
    rw [hz]; exact ⟨_, rfl, hol⟩

/-- An unreadable byte of the magic ends DECODE's body (R63, R195). -/
theorem decodeBody_unreadable_magic {magic : List Byte} {p : Nat} {s : State} (hm : magic.length = 4) (h : p < 4)
    (good : ∀ i, i < p → s.inBytes[i]? = magic[i]?) (hl : p < s.inLen.toNat) (hb : s.inBadAt p = true) (hok : s.ReadableTo p) :
    ∃ t, decodeBody magic s = .raised ⟨.srcUnreadable, BitVec.ofNat 64 p⟩ t ∧ t.outLen = s.outLen := by
  obtain ⟨x, hx⟩ := checkMagic_unreadable (ms := magic) (k := 0) (j := p) (s := s) (by rw [Nat.zero_add]; exact hok) (by omega)
    (fun i hi => by rw [Nat.zero_add]; exact good i hi) (by omega) (by rw [Nat.zero_add]; exact hb)
  rw [Nat.zero_add] at hx
  rw [decodeBody, hx]; exact ⟨_, rfl, rfl⟩

/-- An unreadable byte of the length ends DECODE's body (R63, R196). -/
theorem decodeBody_unreadable_length {magic rest : List Byte} {p : Nat} {s : State} (hm : magic.length = 4) (h1 : 4 ≤ p) (h2 : p < 12)
    (good : s.inBytes = magic ++ rest) (hl : p < s.inLen.toNat) (hb : s.inBadAt p = true) (hok : s.ReadableTo p) :
    ∃ t, decodeBody magic s = .raised ⟨.srcUnreadable, BitVec.ofNat 64 p⟩ t ∧ t.outLen = s.outLen := by
  obtain ⟨x, hx⟩ := checkMagic_ok (ms := magic) (k := 0) (a := []) (s := s) (fun o ho => hok o (by omega)) (by rw [good]; rfl) rfl
  obtain ⟨y, hy⟩ := readField_unreadable (need := 12) (n := 8) (addr := 4) (s := s.setInOff x) (p := p) h1 (by omega)
    (by simpa using hl) (by simpa using hb) (hok.congr rfl)
  rw [decodeBody, hx]
  simp only
  rw [decodeLength, readLength, hy]; exact ⟨_, rfl, rfl⟩

/-- An unreadable byte of the count ends DECODE's body (R63, R197). -/
theorem decodeBody_unreadable_count {magic rest : List Byte} {len p : Nat} {s : State} (hm : magic.length = 4) (h1 : 12 ≤ p) (h2 : p < 14)
    (h0 : len ≠ 0) (hlt : len < 2 ^ 64) (good : s.inBytes = magic ++ leBytes 8 len ++ rest) (hl : p < s.inLen.toNat)
    (hb : s.inBadAt p = true) (hok : s.ReadableTo p) :
    ∃ t, decodeBody magic s = .raised ⟨.srcUnreadable, BitVec.ofNat 64 p⟩ t ∧ t.outLen = s.outLen := by
  obtain ⟨x, hx⟩ := decodeBody_front (fun o ho => hok o (by omega)) hm hlt good
  rw [if_neg h0] at hx
  generalize hu : (s.setInOff x).setOrigLen _ = u at hx
  have henv : u.env = s.env := by rw [← hu]; rfl
  obtain ⟨y, hy⟩ := readField_unreadable (need := 14) (n := 2) (addr := 12) (s := u) (p := p) h1 (by omega)
    (by rw [← hu]; simpa using hl) (by rw [State.inBadAt_congr henv]; exact hb) (hok.congr henv)
  rw [hx, decodeSymbols, readTable, hy]; exact ⟨_, rfl, by rw [← hu]; rfl⟩

/-- An unreadable byte of an entry behind good ones ends DECODE's body (R63, R197). -/
theorem decodeBody_unreadable_entry {magic rest : List Byte} {len n p : Nat} {es : List (Byte × Count)} {s : State}
    (hm : magic.length = 4) (h1 : 14 + 9 * es.length ≤ p) (h2 : p < 23 + 9 * es.length) (h0 : len ≠ 0) (hlt : len < 2 ^ 64)
    (hn : es.length < n) (h256 : n ≤ 256) (there : 14 + 9 * n ≤ s.inLen.toNat) (hes : EntriesFrom 0 es)
    (good : s.inBytes = magic ++ leBytes 8 len ++ leBytes 2 n ++ entryBytes es ++ rest) (hl : p < s.inLen.toNat)
    (hb : s.inBadAt p = true) (hok : s.ReadableTo p) :
    ∃ t, decodeBody magic s = .raised ⟨.srcUnreadable, BitVec.ofNat 64 p⟩ t ∧ t.outLen = s.outLen := by
  obtain ⟨x, hx⟩ := decodeBody_front (rest := leBytes 2 n ++ (entryBytes es ++ rest)) (fun o ho => hok o (by omega)) hm hlt
    (by rw [good]; simp)
  rw [if_neg h0] at hx
  generalize hu : (s.setInOff x).setOrigLen _ = u at hx
  have henv : u.env = s.env := by rw [← hu]; rfl
  have hinl : u.inLen = s.inLen := by rw [← hu]; rfl
  have hib : u.inBytes = s.inBytes := by rw [← hu]; simp
  obtain ⟨y, hy⟩ := readTable_front (s := u) (n := n) (len := len) (rest := entryBytes es ++ rest)
    ((hok.less (by omega)).congr henv) hm (by omega) (by rw [hib, good, headerFront]; simp)
  rw [if_neg (by omega), if_neg (by omega), hinl, if_neg (by omega)] at hy
  obtain ⟨t, ht, hol⟩ := readEntries_unreadable (s := (u.setInOff y).setSymCount (BitVec.ofNat 16 n)) (len := len) hm
    (show _ = headerFront magic len n ++ entryBytes es ++ rest by
      rw [State.setSymCount_inBytes, State.setInOff_inBytes, hib, good]; rfl) hn hes h1 h2
    (by rw [State.setSymCount_inLen, State.setInOff_inLen, hinl]; exact hl)
    (by rw [State.setSymCount_inBadAt, State.setInOff_inBadAt, State.inBadAt_congr henv]; exact hb) (hok.congr henv)
  rw [hx, decodeSymbols, hy, ht]; exact ⟨_, rfl, by rw [hol, ← hu]; rfl⟩

/-! ### After the header -/

/-- What DECODE has set when the symbol table is read. -/
structure TableRead (s t : State) (es : List (Byte × Count)) (len : Nat) : Prop where
  keeps : Keeps True False s t
  ft : t.ft = putEntries s.ft es
  outMem : t.outMem = s.outMem
  outLen : t.outLen = s.outLen
  origLen : t.origLen = BitVec.ofNat 64 len
  symCount : t.symCount = BitVec.ofNat 16 es.length
  trail : t.trail = s.trail

/-- A whole good header (R195 to R198): the single-symbol case, or the tree. -/
theorem decodeBody_table {magic : List Byte} {len : Nat} {s : State} {es : List (Byte × Count)} {rest : List Byte}
    (hok : s.ReadableTo (14 + 9 * es.length)) (hm : magic.length = 4) (h0 : len ≠ 0) (hlen : len < 2 ^ 64)
    (h : s.inBytes = headerFront magic len es.length ++ entryBytes es ++ rest)
    (h1 : 1 ≤ es.length) (h256 : es.length ≤ 256) (hes : EntriesFrom 0 es) (hsum : entrySum es = len) :
    ∃ t, TableRead s t es len ∧ decodeBody magic s =
      if es.length = 1 then fillLoop len (t.inByte 14) (t.setPhase .fill) else decodeTree es.length len t := by
  obtain ⟨x1, hx1⟩ := decodeBody_front (rest := leBytes 2 es.length ++ entryBytes es ++ rest)
    (fun o ho => hok o (by omega)) hm hlen
    (by rw [h, headerFront]; simp)
  rw [if_neg h0] at hx1
  obtain ⟨x2, hx2⟩ := readTable_front (s := (s.setInOff x1).setOrigLen (BitVec.ofNat 64 len)) (n := es.length) (len := len)
    (rest := entryBytes es ++ rest)
    (fun o ho => by rw [State.setOrigLen_inBadAt, State.setInOff_inBadAt]; exact hok o (by omega)) hm (by omega)
    (by rw [State.setOrigLen_inBytes, State.setInOff_inBytes, h]; simp)
  have hl := inLen_of_append h
  rw [headerFront_length hm, entryBytes_length] at hl
  rw [if_neg (by omega), if_neg (by omega), State.setOrigLen_inLen, State.setInOff_inLen, if_neg (by omega)] at hx2
  obtain ⟨x3, hx3⟩ := readEntries_ok
    (s := ((((s.setInOff x1).setOrigLen (BitVec.ofNat 64 len)).setInOff x2).setSymCount (BitVec.ofNat 16 es.length)))
    (len := len) (es := es) (rest := rest) (hok.congr (by simp)) hm
    (by rw [State.setSymCount_inBytes, State.setInOff_inBytes, State.setOrigLen_inBytes, State.setInOff_inBytes, h]) hes
  rw [if_pos hsum] at hx3
  rw [hx3] at hx2
  refine ⟨(((((s.setInOff x1).setOrigLen (BitVec.ofNat 64 len)).setInOff x2).setSymCount (BitVec.ofNat 16 es.length)).setInOff
    x3).setFt (putEntries s.ft es), ?_, ?_⟩
  rotate_left
  · rw [hx1, decodeSymbols, hx2]; rfl
  · refine ⟨?_, by simp, by simp, by simp, by simp, by simp, by simp⟩
    exact (((((Keeps.setInOff _ _).trans (Keeps.setOrigLen _ _)).trans (Keeps.setInOff _ _)).trans (Keeps.setSymCount _ _)).trans
      (Keeps.setInOff _ _)).trans (Keeps.setFt _ _)

/-- Step 5 of DECODE for two symbols or more: the tree and the trailing bits (R200). -/
theorem decodeTree_ok {n len : Nat} {s : State} {a rest : List Byte} {tb : Byte} (hok : s.ReadableTo (15 + 9 * n))
    (h0 : ftSum s.ft ≠ 0) (hlt : ftSum s.ft < 2 ^ 64) (h : s.inBytes = a ++ [tb] ++ rest) (ha : a.length = 14 + 9 * n) :
    ∃ x, decodeTree n len s =
      if 7 < tb.toNat then
        .raised ⟨.badTrailingBits, BitVec.ofNat 64 tb.toNat⟩ ((s.plant (builtNodes s.ft) (builtRoot s.ft)).setInOff x)
      else decodeWalk n tb.toNat len ((s.plant (builtNodes s.ft) (builtRoot s.ft)).setInOff x) := by
  obtain ⟨x, hx⟩ := readField_ok (s := s.plant (builtNodes s.ft) (builtRoot s.ft)) (need := 15 + 9 * n) (a := a) (b := [tb])
    (c := rest) (fun o ho => by rw [State.plant_inBadAt]; exact hok o (by omega)) (by rw [State.plant_inBytes, h]) ha (n := 1) rfl
  refine ⟨x, ?_⟩
  rw [decodeTree, buildBody_ok h0 hlt]
  simp only
  rw [hx, leValue_single]

/-- Step 5 of DECODE when the trailing-bits byte is not there (R200). -/
theorem decodeTree_short {n len : Nat} {s : State} (hok : s.Readable) (h0 : ftSum s.ft ≠ 0) (hlt : ftSum s.ft < 2 ^ 64)
    (h : s.inLen.toNat ≤ 14 + 9 * n) :
    ∃ t, decodeTree n len s = .raised ⟨.truncatedHeader, BitVec.ofNat 64 (15 + 9 * n)⟩ t := by
  obtain ⟨x, hx⟩ := readField_short (s := s.plant (builtNodes s.ft) (builtRoot s.ft)) (addr := 14 + 9 * n) (n := 1)
    (need := 15 + 9 * n) (by simpa using hok) (by omega) (by rw [State.plant_inLen]; omega)
  refine ⟨(s.plant (builtNodes s.ft) (builtRoot s.ft)).setInOff x, ?_⟩
  rw [decodeTree, buildBody_ok h0 hlt]
  simp only
  rw [hx]

/-- Step 5 of DECODE when the trailing-bits byte is unreadable (R63, R200). -/
theorem decodeTree_unreadable {n len : Nat} {s : State} (h0 : ftSum s.ft ≠ 0) (hlt : ftSum s.ft < 2 ^ 64)
    (hl : 14 + 9 * n < s.inLen.toNat) (hb : s.inBadAt (14 + 9 * n) = true) (hok : s.ReadableTo (14 + 9 * n)) :
    ∃ t, decodeTree n len s = .raised ⟨.srcUnreadable, BitVec.ofNat 64 (14 + 9 * n)⟩ t ∧ t.outLen = s.outLen := by
  obtain ⟨x, hx⟩ := readField_unreadable (s := s.plant (builtNodes s.ft) (builtRoot s.ft)) (addr := 14 + 9 * n) (n := 1)
    (need := 15 + 9 * n) (p := 14 + 9 * n) (by omega) (by omega) (by simpa using hl) (by simpa using hb) (hok.congr (by simp))
  refine ⟨(s.plant (builtNodes s.ft) (builtRoot s.ft)).setInOff x, ?_, by simp⟩
  rw [decodeTree, buildBody_ok h0 hlt]
  simp only
  rw [hx]

/-- The fill is a list of `OutByte` (R199). -/
theorem fillLoop_eq (k : Nat) (b : Byte) (s : State) : fillLoop k b s = outBytes (List.replicate k b) s := by
  induction k generalizing s with
  | zero => rfl
  | succ k ih =>
    rw [fillLoop, List.replicate_succ, outBytes]
    cases outByte b s with
    | ok a t => exact ih t
    | raised e t => rfl

/-- The fill of the single-symbol case with room for it (R199). -/
theorem fillLoop_ok {k : Nat} {b : Byte} {s : State} (h : s.Fits k) :
    fillLoop k b s = .ok () (s.appendOut (List.replicate k b)) := by
  rw [fillLoop_eq, outBytes_ok (by rw [List.length_replicate]; exact h)]

/-- The fill without room for it (R64, R199). -/
theorem fillLoop_full {k : Nat} {b : Byte} {s : State} (hl : s.outLen.toNat ≤ outLimit s.env) (h : ¬ s.Fits k) :
    ∃ t, fillLoop k b s = .raised ⟨.dstUnwritable, BitVec.ofNat 64 (outLimit s.env)⟩ t ∧ t.outLen.toNat = outLimit s.env := by
  have h' : ¬ s.Fits (List.replicate k b).length := by rw [List.length_replicate]; exact h
  rw [fillLoop_eq, outBytes_full_take hl h']
  exact ⟨_, rfl, State.appendOut_full hl h'⟩

theorem fillLoop_keeps (k : Nat) (b : Byte) (s : State) :
    (fillLoop k b s).All (Keeps True False s) (fun e => e.cause = .dstUnwritable) := by
  induction k generalizing s with
  | zero => exact Keeps.refl s
  | succ k ih =>
    rw [fillLoop]
    rcases outByte_cases b s with ⟨hf, h⟩ | ⟨_, h⟩
    · rw [h]
      simp only
      have h1 := ih (s.appendOut [b])
      have h2 := Keeps.append (pk := True) (wk := False) (s := s) (bs := [b]) hf
      revert h1
      cases fillLoop k b (s.appendOut [b]) with
      | ok a t => exact fun h1 => h2.trans h1
      | raised e t => exact fun h1 => ⟨h1.1, h2.trans h1.2⟩
    · rw [h]; exact ⟨rfl, Keeps.refl s⟩

theorem fillLoop_outLen {k : Nat} {b : Byte} {s t : State} {a : Unit} (h : fillLoop k b s = .ok a t) :
    t.outLen.toNat = s.outLen.toNat + k := by
  induction k generalizing s with
  | zero => injection h with _ h; rw [← h, Nat.add_zero]
  | succ k ih =>
    rw [fillLoop] at h
    rcases outByte_cases b s with ⟨hf, h1⟩ | ⟨_, h1⟩
    · rw [h1] at h
      have := State.appendOut_outLen_toNat (bs := [b]) hf
      rw [List.length_singleton] at this
      rw [ih h, this]; omega
    · rw [h1] at h; cases h

/-! ### All it can do -/

/-- The causes DECODE can raise (R225). -/
def DecodeCause (c : Cause) : Prop :=
  c.kind = .io ∨ c.kind = .format ∨ c.kind = .corruption ∨ c = .emptyTable ∨ c = .freqOverflow

theorem readTable_keeps (len : Nat) (s : State) : (readTable len s).All (Keeps True False s) (fun e => DecodeCause e.cause) := by
  have himp : ∀ e : Raise, (e.cause = .srcUnreadable ∨ e.cause = .truncatedHeader) → DecodeCause e.cause := by
    rintro ⟨c, i⟩ (h | h) <;> (simp only at h; subst h; simp [DecodeCause, Cause.kind])
  rw [readTable]
  have h := readField_keeps 12 2 14 s
  revert h
  cases readField 12 2 14 s with
  | raised e t => exact fun h => ⟨himp e h.1, h.2⟩
  | ok n t =>
    intro h
    simp only
    have h1 : Keeps True False s (t.setSymCount (BitVec.ofNat 16 n)) := Keeps.trans h (Keeps.setSymCount _ _)
    split
    · exact ⟨by simp [DecodeCause, Cause.kind], h1⟩
    · split
      · exact ⟨by simp [DecodeCause, Cause.kind], h1⟩
      · split
        · exact ⟨by simp [DecodeCause, Cause.kind], h1⟩
        · rw [readEntries]
          have h2 := tableLoop_keeps n 0 0 0 (t.setSymCount (BitVec.ofNat 16 n))
          revert h2
          cases tableLoop n 0 0 0 (t.setSymCount (BitVec.ofNat 16 n)) with
          | raised e u =>
            rintro ⟨h3, h4⟩
            refine ⟨?_, h1.trans h4⟩
            obtain ⟨c, i⟩ := e
            rcases h3 with h3 | h3 | h3 | h3 <;> (simp only at h3; subst h3; simp [DecodeCause, Cause.kind])
          | ok sum u =>
            intro h2
            simp only
            split
            · exact h1.trans h2
            · exact ⟨by simp [DecodeCause, Cause.kind], h1.trans h2⟩

theorem decodeTree_keeps (n len : Nat) (s : State) : (decodeTree n len s).All (Keeps True False s) (fun e => DecodeCause e.cause) := by
  have h := buildBody_keeps (pk := True) (wk := False) s
  rw [decodeTree]
  revert h
  cases buildBody s with
  | raised e t =>
    rintro ⟨h3, h4⟩
    refine ⟨?_, h4⟩
    rcases h3 with h3 | h3 <;> (rw [h3]; simp [DecodeCause])
  | ok a t =>
    intro h
    simp only
    have h1 := readField_keeps (14 + 9 * n) 1 (15 + 9 * n) t
    revert h1
    cases readField (14 + 9 * n) 1 (15 + 9 * n) t with
    | raised e u =>
      rintro ⟨h3, h4⟩
      refine ⟨?_, Keeps.trans h h4⟩
      rcases h3 with h3 | h3 <;> (rw [h3]; simp [DecodeCause, Cause.kind])
    | ok tb u =>
      intro h1
      simp only
      have h2 : Keeps True False s u := Keeps.trans h h1
      split
      · exact ⟨by simp [DecodeCause, Cause.kind], h2⟩
      · rw [decodeWalk]
        have h5 := (h2.trans (Keeps.setTrail _ (BitVec.ofNat 3 tb))).trans (Keeps.setPhase _ .walk)
        have h6 := walk_keeps (pk := True) (15 + 9 * n) tb len ((u.setTrail (BitVec.ofNat 3 tb)).setPhase .walk)
        revert h6
        cases walk (15 + 9 * n) tb len ((u.setTrail (BitVec.ofNat 3 tb)).setPhase .walk) with
        | ok a w => exact fun h6 => h5.trans h6
        | raised e w =>
          rintro ⟨h7, h8⟩
          refine ⟨?_, h5.trans h8⟩
          rcases h7 with h7 | h7 | h7 | h7 | h7 | h7 <;> (rw [h7]; simp [DecodeCause, Cause.kind])

theorem decodeSymbols_keeps (len : Nat) (s : State) : (decodeSymbols len s).All (Keeps True False s) (fun e => DecodeCause e.cause) := by
  have h := readTable_keeps len s
  rw [decodeSymbols]
  revert h
  cases readTable len s with
  | raised e t => exact fun h => h
  | ok n t =>
    intro h
    simp only
    have h1 : Keeps True False s (t.setPhase .fill) := Keeps.trans h (Keeps.setPhase _ _)
    split
    · have h2 := fillLoop_keeps len (t.inByte 14) (t.setPhase .fill)
      revert h2
      cases fillLoop len (t.inByte 14) (t.setPhase .fill) with
      | ok a u => exact fun h2 => h1.trans h2
      | raised e u => exact fun h2 => ⟨by show DecodeCause e.cause; rw [h2.1]; simp [DecodeCause, Cause.kind], h1.trans h2.2⟩
    · have h2 := decodeTree_keeps n len t
      revert h2
      cases decodeTree n len t with
      | ok a u => exact fun h2 => Keeps.trans h h2
      | raised e u => exact fun h2 => ⟨h2.1, Keeps.trans h h2.2⟩

/-- What the body of DECODE can do. -/
theorem decodeBody_keeps (magic : List Byte) (s : State) :
    (decodeBody magic s).All (Keeps True False s) (fun e => DecodeCause e.cause) := by
  have h := checkMagic_keeps magic 0 s
  rw [decodeBody]
  revert h
  cases checkMagic magic 0 s with
  | raised e t =>
    rintro ⟨h3, h4⟩
    refine ⟨?_, h4⟩
    rcases h3 with h3 | h3 <;> (rw [h3]; simp [DecodeCause, Cause.kind])
  | ok a t =>
    intro h
    simp only
    rw [decodeLength, readLength]
    have h1 := readField_keeps 4 8 12 t
    revert h1
    cases readField 4 8 12 t with
    | raised e u =>
      rintro ⟨h3, h4⟩
      refine ⟨?_, Keeps.trans h h4⟩
      rcases h3 with h3 | h3 <;> (rw [h3]; simp [DecodeCause, Cause.kind])
    | ok len u =>
      intro h1
      simp only
      have h2 : Keeps True False s (u.setOrigLen (BitVec.ofNat 64 len)) := (Keeps.trans h h1).trans (Keeps.setOrigLen _ _)
      split
      · exact h2
      · have h3 := decodeSymbols_keeps len (u.setOrigLen (BitVec.ofNat 64 len))
        revert h3
        cases decodeSymbols len (u.setOrigLen (BitVec.ofNat 64 len)) with
        | ok a w => exact fun h3 => h2.trans h3
        | raised e w => exact fun h3 => ⟨h3.1, h2.trans h3.2⟩

end Sys2Proof.Machine
end

