-- ==== Sys2Proof/Laws/Clean.lean ====
section
/-! SUPPORT. The errors that cannot occur: a walk meets no missing child (44_bit_unpacker.md R177), DECODE builds no
degenerate tree and cannot fail in the builder (45_container_codec.md R198, R201); and the length DECODE produces. -/

namespace Sys2Proof.Machine

/-! ### The walk in a well-formed tree -/

/-- The walk stands at an Internal node of the tree. -/
structure AtInner (node : List Node) (root : NodeIdx) (s : State) : Prop where
  sameNode : s.node = node
  sameRoot : s.root = root
  inner : ∃ f l r, nodeAt node s.cur = some (.internal f l r)

/-- Every child of an Internal node exists. -/
theorem TreeWf.child {node : List Node} {nc : BitVec 10} {root : NodeIdx} (h : TreeWf node nc root) {i : NodeIdx} {f : Count}
    {l r : NodeIdx} (hi : nodeAt node i = some (.internal f l r)) (b : Bool) :
    ∃ d n, childOf node i b = some d ∧ nodeAt node d = some n := by
  have hlt : i.toNat < node.length := (List.getElem?_eq_some_iff.mp hi).1
  obtain ⟨h1, h2, _⟩ := h.nodes i.toNat f l r hi
  refine ⟨if b then r else l, ?_⟩
  have hd : (if b then r else l).toNat < node.length := by split <;> omega
  obtain ⟨n, hn⟩ := nodeAt_isSome hd
  exact ⟨n, by rw [childOf, hi], hn⟩

/-- The errors a walk of such a tree can end with. -/
def CleanWalk (node : List Node) (e : Raise) : Prop :=
  WalkCause e.cause ∧ e.cause ≠ .nullChild ∧ ((∀ (i : NodeIdx) sym, nodeAt node i ≠ some (.leaf sym 0)) → e.cause ≠ .dummyLeaf)

theorem walkBit_clean {base : Nat} {node : List Node} {nc : BitVec 10} {root : NodeIdx} (h : TreeWf node nc root) {s : State}
    (hs : AtInner node root s) : (walkBit base s).All (AtInner node root) (CleanWalk node) := by
  have hroot : ∃ f l r, nodeAt node root = some (.internal f l r) := h.rootInternal
  rw [walkBit, memRead_one]
  by_cases h1 : s.inLen.toNat ≤ base + s.bitpos.toNat / 8
  · rw [if_pos h1]
    exact ⟨⟨by simp [WalkCause], by simp, by simp⟩, hs⟩
  · rw [if_neg h1]
    by_cases h2 : s.inBadAt (base + s.bitpos.toNat / 8) = true
    · rw [if_pos h2]
      exact ⟨⟨by simp [WalkCause], by simp, by simp⟩, hs⟩
    · rw [if_neg h2]
      simp only
      have h3 : AtInner node root ((s.setInOff (BitVec.ofNat 64 (base + s.bitpos.toNat / 8 + 1))).setBitpos
          ((s.setInOff (BitVec.ofNat 64 (base + s.bitpos.toNat / 8 + 1))).bitpos + 1)) :=
        ⟨by simpa using hs.sameNode, by simpa using hs.sameRoot, by simpa using hs.inner⟩
      revert h3
      generalize (s.setInOff _).setBitpos _ = t
      generalize streamBit _ _ = bit
      intro h3
      obtain ⟨f, l, r, hin⟩ := h3.inner
      obtain ⟨d, n, hd, hn⟩ := h.child hin bit
      rw [walkTake, h3.sameNode, hd]
      simp only
      rw [walkArrive, h3.sameNode, hn]
      cases n with
      | internal g l' r' => exact ⟨by simpa using h3.sameNode, by simpa using h3.sameRoot, by simpa using ⟨g, l', r', hn⟩⟩
      | leaf sym g =>
        simp only
        by_cases hg : g = 0
        · rw [if_pos hg]
          refine ⟨⟨by simp [WalkCause], by simp, fun hc => ?_⟩, h3⟩
          rw [hg] at hn
          exact absurd hn (hc d sym)
        · rw [if_neg hg]
          rcases outByte_cases sym t with ⟨_, ho⟩ | ⟨_, ho⟩
          · rw [ho]
            exact ⟨by simpa using h3.sameNode, by simpa using h3.sameRoot, by simpa [h3.sameRoot] using hroot⟩
          · rw [ho]
            exact ⟨⟨by simp [WalkCause], by simp, by simp⟩, h3⟩

/-- A walk of a well-formed tree never meets a missing child (R177), nor the dummy leaf where there is none (R201). -/
theorem walk_clean {base tb len : Nat} {nc : BitVec 10} {s : State} (h : TreeWf s.node nc s.root) :
    (walk base tb len s).All (fun _ => True) (CleanWalk s.node) := by
  rw [walk]
  by_cases hl : len = 0
  · rw [if_pos hl]; exact trivial
  · rw [if_neg hl]
    by_cases hp0 : s.inLen.toNat - base = 0
    · rw [if_pos hp0]; exact ⟨⟨by simp [WalkCause], by simp, by simp⟩, trivial⟩
    · rw [if_neg hp0]
      have h1 := (walkLoop_all (base := base) (len := len) (P := AtInner s.node s.root) (E := CleanWalk s.node)
        (fun t ht _ => walkBit_clean h ht) (fun _ => ⟨by simp [WalkCause], by simp, by simp⟩)
        (availBits (s.inLen.toNat - base) tb) (s := (s.setWalk s.root 0).setBitpos 0)
        ⟨by simp, by simp, by simpa [nodeAt] using h.rootInternal⟩).1
      revert h1
      cases walkLoop base len (availBits (s.inLen.toNat - base) tb) ((s.setWalk s.root 0).setBitpos 0) with
      | ok a t => exact fun _ => trivial
      | raised e t => exact fun h1 => ⟨h1.1, trivial⟩

/-- A tree of two symbols or more has no dummy leaf (R26). -/
theorem no_dummy {ft : Vector Count 256} (h0 : ftSum ft ≠ 0) (h : ftSum ft < 2 ^ 64) (h2 : (ftEntries ft).length ≠ 1) (i : NodeIdx)
    (sym : Byte) : nodeAt (builtNodes ft) i ≠ some (.leaf sym 0) := by
  intro hi
  obtain ⟨h3, h4, _⟩ := (builtNodes_wf h0 h).dummy i.toNat sym hi
  have h5 := builtNodes_length h0 h
  have h6 := ftEntries_pos h0
  rw [if_neg h2, h3] at h5
  have hleaf := (builtForest_ok h0 h).leaves
  have h7 : (builtForest ft).node[1]? = (leavesOf (ftEntries ft))[1]? := by
    rw [← hleaf, List.getElem?_take, if_pos (by omega)]
  have h8 : (builtForest ft).node[1]? = some (.leaf sym 0) := by rw [← h4]; exact hi
  rw [h8] at h7
  obtain ⟨p, hp, he⟩ := leaf_of_leavesOf h7.symm
  injection he with _ he
  exact (ftEntries_ok h).pos p (List.mem_of_getElem? hp) he.symm

/-! ### The table that was read -/

theorem ftAt_putEntries_ne {ft : Vector Count 256} {es : List (Byte × Count)} {b : Byte} (h : b ∉ es.map Prod.fst) :
    ftAt (putEntries ft es) b = ftAt ft b := by
  induction es generalizing ft with
  | nil => rfl
  | cons p es ih =>
    obtain ⟨sym, g⟩ := p
    rw [List.map_cons, List.mem_cons, not_or] at h
    exact (ih (ft := ftSet ft sym g) h.2).trans (by rw [ftAt_ftSet, if_neg (fun hc => h.1 hc.symm)])

theorem EntriesFrom.nodup {lo : Nat} {es : List (Byte × Count)} (h : EntriesFrom lo es) : (es.map Prod.fst).Nodup := by
  rw [List.Nodup, List.pairwise_map]
  exact h.2.imp (fun h hc => by rw [hc] at h; exact absurd h (Nat.lt_irrefl _))

/-- The entries of the table that a list of good entries fills are that list. -/
theorem ftEntries_putEntries {es : List (Byte × Count)} (h : EntriesFrom 0 es) : ftEntries (putEntries ftZero es) = es := by
  have hmem : ∀ p : Byte × Count, p ∈ ftEntries (putEntries ftZero es) ↔ p ∈ es := by
    rintro ⟨b, f⟩
    rw [mem_ftEntries]
    obtain ⟨h1, h2⟩ := ftAt_putEntries (ft := ftZero) h.nodup b
    constructor
    · rintro ⟨h3, h4⟩
      by_cases hb : b ∈ es.map Prod.fst
      · obtain ⟨⟨c, g⟩, hp, hc⟩ := List.mem_map.mp hb
        simp only at hc
        subst hc
        rw [h1 g hp] at h3
        rw [← h3]; exact hp
      · rw [h2 hb, ftAt_ftZero] at h3
        exact absurd h3.symm h4
    · intro hp
      exact ⟨h1 f hp, (h.1 _ hp).2⟩
  have hnd : ∀ l : List (Byte × Count), l.Pairwise (fun p p' => p.1.toNat < p'.1.toNat) → l.Nodup := fun l hl =>
    hl.imp (fun h hc => by rw [hc] at h; exact absurd h (Nat.lt_irrefl _))
  have hperm : (ftEntries (putEntries ftZero es)).Perm es :=
    (List.perm_ext_iff_of_nodup (hnd _ (ftEntries_ascending _)) (hnd _ h.2)).mpr hmem
  exact hperm.eq_of_pairwise (fun a b _ _ h1 h2 => absurd (Nat.lt_trans h1 h2) (Nat.lt_irrefl _)) (ftEntries_ascending _) h.2

/-- A header field that was read is what stands there. -/
theorem readField_value {addr n need v : Nat} {s t : State} (h : readField addr n need s = .ok v t) :
    v < 256 ^ n ∧ ∃ x, t = s.setInOff x := by
  rw [readField] at h
  rcases memRead_cases addr n s with ⟨x, h1⟩ | ⟨x, h1, _⟩ | ⟨x, o, h1, _⟩
  · rw [h1] at h
    injection h with h2 h3
    refine ⟨?_, x, h3.symm⟩
    have := leValue_lt (s.inSlice addr n)
    rw [State.inSlice_length] at this
    omega
  · rw [h1] at h; cases h
  · rw [h1] at h; cases h

/-- A table that was read is one of good entries (R197, R198). -/
theorem tableLoop_sound {r k lo sum res : Nat} {s t : State} (h : tableLoop r k lo sum s = .ok res t) :
    ∃ es x, es.length = r ∧ EntriesFrom lo es ∧ t = (s.setInOff x).setFt (putEntries s.ft es) ∧ res = sum + entrySum es := by
  induction r generalizing k lo sum s with
  | zero =>
    injection h with h1 h2
    exact ⟨[], s.inOff, rfl, ⟨by simp, by simp⟩, h2.symm, h1.symm⟩
  | succ r ih =>
    rw [tableLoop] at h
    cases h1 : readField (14 + 9 * k) 1 (15 + 9 * k) s with
    | raised e u => rw [h1] at h; cases h
    | ok sym u =>
      rw [h1] at h
      simp only at h
      cases h2 : readField (15 + 9 * k) 8 (23 + 9 * k) u with
      | raised e w => rw [h2] at h; cases h
      | ok f w =>
        rw [h2] at h
        simp only at h
        split at h
        · cases h
        · rename_i hlo
          split at h
          · cases h
          · rename_i hf
            obtain ⟨hs, x1, rfl⟩ := readField_value h1
            obtain ⟨hfv, x2, rfl⟩ := readField_value h2
            obtain ⟨es, x, hlen, hes, ht, hres⟩ := ih h
            have hsym : (BitVec.ofNat 8 sym).toNat = sym := by rw [BitVec.toNat_ofNat]; omega
            have hfn : (BitVec.ofNat 64 f).toNat = f := by rw [BitVec.toNat_ofNat]; omega
            refine ⟨(BitVec.ofNat 8 sym, BitVec.ofNat 64 f) :: es, x, by rw [List.length_cons, hlen], ⟨?_, ?_⟩, ?_, ?_⟩
            · rintro p hp
              rcases List.mem_cons.mp hp with rfl | hp
              · refine ⟨by rw [hsym]; omega, fun hc => hf ?_⟩
                have := congrArg BitVec.toNat hc
                rw [hfn] at this; exact this
              · obtain ⟨h3, h4⟩ := hes.1 p hp
                exact ⟨by omega, h4⟩
            · rw [List.pairwise_cons]
              exact ⟨fun p hp => by rw [hsym]; have := (hes.1 p hp).1; omega, hes.2⟩
            · rw [ht]; rfl
            · rw [hres]
              simp only [entrySum, List.map_cons, countSum, hfn]
              omega

/-- What a table that was read leaves (R197, R198). -/
theorem readTable_sound {len n : Nat} {s t : State} (h : readTable len s = .ok n t) :
    ∃ es x, es.length = n ∧ n ≠ 0 ∧ EntriesFrom 0 es ∧ entrySum es = len ∧
      t = ((s.setInOff x).setSymCount (BitVec.ofNat 16 n)).setFt (putEntries s.ft es) := by
  rw [readTable] at h
  cases h1 : readField 12 2 14 s with
  | raised e u => rw [h1] at h; cases h
  | ok m u =>
    rw [h1] at h
    simp only at h
    split at h
    · cases h
    · split at h
      · cases h
      · rename_i hm
        split at h
        · cases h
        · rw [readEntries] at h
          cases h2 : tableLoop m 0 0 0 (u.setSymCount (BitVec.ofNat 16 m)) with
          | raised e w => rw [h2] at h; cases h
          | ok sum w =>
            rw [h2] at h
            simp only at h
            split at h
            · rename_i hsum
              injection h with h3 h4
              obtain ⟨_, x1, rfl⟩ := readField_value h1
              obtain ⟨es, x, hl, hes, ht, hres⟩ := tableLoop_sound h2
              refine ⟨es, x, by omega, by omega, hes, by omega, ?_⟩
              rw [← h4, ht, ← h3]
              rfl
            · cases h

/-! ### DECODE -/

/-- The errors DECODE can end with (R225). -/
def DecodeError (c : Cause) : Prop :=
  c.kind = .io ∨ c.kind = .format ∨ c = .payloadExhausted

theorem walk_trail {base tb len : Nat} {s : State} :
    (walk base tb len s).All (fun t => t.trail = s.trail ∧ t.origLen = s.origLen ∧ t.symCount = s.symCount) (fun _ => True) := by
  have h := walk_shape base tb len s
  revert h
  cases walk base tb len s with
  | ok a t => rintro ⟨m, l, c, n, b, x, rfl⟩; exact ⟨by simp, by simp, by simp⟩
  | raised e t => rintro ⟨_, m, l, c, n, b, x, rfl⟩; exact ⟨trivial, by simp, by simp, by simp⟩

/-- What checking the magic changes: the IN read offset. -/
theorem checkMagic_shape (ms : List Byte) (k : Nat) (s : State) :
    (checkMagic ms k s).All (fun t => ∃ x, t = s.setInOff x) (fun _ => True) := by
  induction ms generalizing k s with
  | nil => exact ⟨s.inOff, rfl⟩
  | cons m ms ih =>
    rw [checkMagic]
    rcases memRead_cases k 1 s with ⟨x, h1⟩ | ⟨x, h1, _⟩ | ⟨x, o, h1, _⟩
    · rw [h1]
      simp only
      split
      · have h2 := ih (k + 1) (s.setInOff x)
        revert h2
        cases checkMagic ms (k + 1) (s.setInOff x) with
        | ok a t => rintro ⟨y, rfl⟩; exact ⟨y, rfl⟩
        | raised e t => rintro ⟨_, y, rfl⟩; exact ⟨trivial, y, rfl⟩
      · exact ⟨trivial, x, rfl⟩
    · rw [h1]; exact ⟨trivial, x, rfl⟩
    · rw [h1]; exact ⟨trivial, x, rfl⟩

/-- What the fill changes: OUT. -/
theorem fillLoop_shape (k : Nat) (b : Byte) (s : State) :
    (fillLoop k b s).All (fun t => ∃ m l, t = s.setOut m l) (fun e => e.cause = .dstUnwritable) := by
  induction k generalizing s with
  | zero => exact ⟨s.outMem, s.outLen, rfl⟩
  | succ k ih =>
    rw [fillLoop]
    rcases outByte_cases b s with ⟨_, h⟩ | ⟨_, h⟩
    · rw [h]
      simp only
      have h1 := ih (s.appendOut [b])
      revert h1
      cases fillLoop k b (s.appendOut [b]) with
      | ok a t => rintro ⟨m, l, rfl⟩; exact ⟨m, l, rfl⟩
      | raised e t => rintro ⟨h2, m, l, rfl⟩; exact ⟨h2, m, l, rfl⟩
    · rw [h]; exact ⟨rfl, s.outMem, s.outLen, rfl⟩

/-- The errors of the symbol table are IOError and FormatError. -/
theorem readTable_format (len : Nat) (s : State) :
    (readTable len s).All (fun _ => True) (fun e => DecodeError e.cause) := by
  rw [readTable]
  have h1 := readField_keeps 12 2 14 s
  revert h1
  cases readField 12 2 14 s with
  | raised e t =>
    rintro ⟨h2, _⟩
    refine ⟨?_, trivial⟩
    rcases h2 with h2 | h2 <;> (rw [h2]; simp [DecodeError, Cause.kind])
  | ok n t =>
    intro _
    simp only
    split
    · exact ⟨by simp [DecodeError, Cause.kind], trivial⟩
    · split
      · exact ⟨by simp [DecodeError, Cause.kind], trivial⟩
      · split
        · exact ⟨by simp [DecodeError, Cause.kind], trivial⟩
        · rw [readEntries]
          have h2 := tableLoop_keeps n 0 0 0 (t.setSymCount (BitVec.ofNat 16 n))
          revert h2
          cases tableLoop n 0 0 0 (t.setSymCount (BitVec.ofNat 16 n)) with
          | raised e u =>
            rintro ⟨h3, _⟩
            refine ⟨?_, trivial⟩
            rcases h3 with h3 | h3 | h3 | h3 <;> (rw [h3]; simp [DecodeError, Cause.kind])
          | ok sum u =>
            intro _
            simp only
            split
            · exact trivial
            · exact ⟨by simp [DecodeError, Cause.kind], trivial⟩

/-- Steps 5 and 6 on a table of two symbols or more: the errors, and the length on success. -/
theorem decodeTree_clean {n len : Nat} {s : State} (h0 : ftSum s.ft ≠ 0) (h : ftSum s.ft < 2 ^ 64)
    (h2 : (ftEntries s.ft).length ≠ 1) (hlt : len < 2 ^ 64) :
    (decodeTree n len s).All (fun t => t.origLen = s.origLen) (fun e => DecodeError e.cause) ∧
      ∀ a t, decodeTree n len s = .ok a t → t.outLen.toNat = s.outLen.toNat + len := by
  rw [decodeTree, buildBody_ok h0 h]
  simp only
  cases h3 : readField (14 + 9 * n) 1 (15 + 9 * n) (s.plant (builtNodes s.ft) (builtRoot s.ft)) with
  | raised e t =>
    have h4 := readField_keeps (14 + 9 * n) 1 (15 + 9 * n) (s.plant (builtNodes s.ft) (builtRoot s.ft))
    rw [h3] at h4
    have h5 : t.origLen = s.origLen := by
      rw [readField] at h3
      rcases memRead_cases (14 + 9 * n) 1 (s.plant (builtNodes s.ft) (builtRoot s.ft)) with ⟨x, h1⟩ | ⟨x, h1, _⟩ | ⟨x, o, h1, _⟩
      · rw [h1] at h3; cases h3
      · rw [h1] at h3; injection h3 with _ h3; rw [← h3]; simp
      · rw [h1] at h3; injection h3 with _ h3; rw [← h3]; simp
    refine ⟨⟨?_, h5⟩, fun a t hc => by cases hc⟩
    rcases h4.1 with h4 | h4 <;> (rw [h4]; simp [DecodeError, Cause.kind])
  | ok tb t =>
    obtain ⟨_, x, rfl⟩ := readField_value h3
    simp only
    by_cases h7 : 7 < tb
    · rw [if_pos h7]
      exact ⟨⟨by simp [DecodeError, Cause.kind], by simp⟩, fun a t hc => by cases hc⟩
    · rw [if_neg h7, decodeWalk]
      have hc := walk_clean (base := 15 + 9 * n) (tb := tb) (len := len)
        (s := (((s.plant (builtNodes s.ft) (builtRoot s.ft)).setInOff x).setTrail (BitVec.ofNat 3 tb)).setPhase .walk)
        (nc := BitVec.ofNat 10 (builtNodes s.ft).length) (by simpa using builtNodes_wf h0 h)
      have ht := walk_trail (base := 15 + 9 * n) (tb := tb) (len := len)
        (s := (((s.plant (builtNodes s.ft) (builtRoot s.ft)).setInOff x).setTrail (BitVec.ofNat 3 tb)).setPhase .walk)
      have hl := @walk_outLen (15 + 9 * n) tb len
        ((((s.plant (builtNodes s.ft) (builtRoot s.ft)).setInOff x).setTrail (BitVec.ofNat 3 tb)).setPhase .walk)
      revert hc ht hl
      cases walk (15 + 9 * n) tb len
        ((((s.plant (builtNodes s.ft) (builtRoot s.ft)).setInOff x).setTrail (BitVec.ofNat 3 tb)).setPhase .walk) with
      | ok a t =>
        intro _ ht hl
        refine ⟨by have := ht.2.1; simpa using this, fun a' t' he => ?_⟩
        injection he with he1 he2
        subst he2
        simpa using hl (a := a) hlt rfl
      | raised e t =>
        intro hc ht _
        refine ⟨⟨?_, by have := ht.2.2.1; simpa using this⟩, fun a t hc => by cases hc⟩
        obtain ⟨hw, hn, hd⟩ := hc.1
        have hd' := hd (by simpa using no_dummy h0 h h2)
        rcases hw with hw | hw | hw | hw | hw | hw
        · exact absurd hw hn
        · exact absurd hw hd'
        all_goals (rw [hw]; simp [DecodeError, Cause.kind])

/-- What the body of DECODE ends with (R198, R201, R202, R225), from the start of R194. -/
theorem decodeBody_clean (magic : List Byte) {s : State} (hft : s.ft = ftZero) (h0 : s.outLen = 0) :
    (decodeBody magic s).All (fun _ => True) (fun e => DecodeError e.cause) ∧
      ∀ a t, decodeBody magic s = .ok a t → t.outLen = t.origLen := by
  have hsrc : ∀ e : Raise, (e.cause = .srcUnreadable ∨ e.cause = .truncatedHeader) → DecodeError e.cause := by
    intro e he
    rcases he with he | he <;> (rw [he]; simp [DecodeError, Cause.kind])
  rw [decodeBody]
  have hm := checkMagic_shape magic 0 s
  cases h1 : checkMagic magic 0 s with
  | raised e t =>
    have h2 := checkMagic_keeps magic 0 s
    rw [h1] at h2
    refine ⟨⟨?_, trivial⟩, fun a t hc => by cases hc⟩
    rcases h2.1 with h2 | h2 <;> (rw [h2]; simp [DecodeError, Cause.kind])
  | ok a t =>
    rw [h1] at hm
    obtain ⟨x, rfl⟩ := hm
    simp only
    rw [decodeLength, readLength]
    cases h2 : readField 4 8 12 (s.setInOff x) with
    | raised e u =>
      have h3 := readField_keeps 4 8 12 (s.setInOff x)
      rw [h2] at h3
      exact ⟨⟨hsrc e h3.1, trivial⟩, fun a t hc => by cases hc⟩
    | ok len u =>
      obtain ⟨hlen, y, rfl⟩ := readField_value h2
      simp only [State.setInOff_setInOff]
      have hlen' : len < 2 ^ 64 := by omega
      by_cases hz : len = 0
      · rw [if_pos hz]
        refine ⟨trivial, fun a t he => ?_⟩
        injection he with _ he
        rw [← he, hz]
        simp [h0]
      · rw [if_neg hz, decodeSymbols]
        cases h4 : readTable len ((s.setInOff y).setOrigLen (BitVec.ofNat 64 len)) with
        | raised e w =>
          have h5 := readTable_format len ((s.setInOff y).setOrigLen (BitVec.ofNat 64 len))
          rw [h4] at h5
          exact ⟨⟨h5.1, trivial⟩, fun a t hc => by cases hc⟩
        | ok n w =>
          obtain ⟨es, z, hn, hn0, hes, hsum, rfl⟩ := readTable_sound h4
          have hft' : (((((s.setInOff y).setOrigLen (BitVec.ofNat 64 len)).setInOff z).setSymCount (BitVec.ofNat 16 n)).setFt
              (putEntries ((s.setInOff y).setOrigLen (BitVec.ofNat 64 len)).ft es)).ft = putEntries ftZero es := by
            simp [hft]
          have hent := ftEntries_putEntries hes
          simp only
          by_cases h6 : n = 1
          · rw [if_pos h6]
            have h7 := fillLoop_shape len
              ((((((s.setInOff y).setOrigLen (BitVec.ofNat 64 len)).setInOff z).setSymCount (BitVec.ofNat 16 n)).setFt
                (putEntries ((s.setInOff y).setOrigLen (BitVec.ofNat 64 len)).ft es)).inByte 14)
              ((((((s.setInOff y).setOrigLen (BitVec.ofNat 64 len)).setInOff z).setSymCount (BitVec.ofNat 16 n)).setFt
                (putEntries ((s.setInOff y).setOrigLen (BitVec.ofNat 64 len)).ft es)).setPhase .fill)
            refine ⟨?_, fun a t he => ?_⟩
            · revert h7
              cases fillLoop len _ _ with
              | ok a t => exact fun _ => trivial
              | raised e t => exact fun h7 => ⟨by show DecodeError e.cause; rw [h7.1]; simp [DecodeError, Cause.kind], trivial⟩
            · rw [he] at h7
              have h8 := fillLoop_outLen he
              obtain ⟨m, l, rfl⟩ := h7
              apply BitVec.eq_of_toNat_eq
              rw [h8]
              simp [h0]
              omega
          · rw [if_neg h6]
            have h7 := decodeTree_clean (n := n) (len := len)
              (s := (((((s.setInOff y).setOrigLen (BitVec.ofNat 64 len)).setInOff z).setSymCount (BitVec.ofNat 16 n)).setFt
                (putEntries ((s.setInOff y).setOrigLen (BitVec.ofNat 64 len)).ft es)))
              (by rw [hft', ← entrySum_ftEntries, hent, hsum]; exact hz)
              (by rw [hft', ← entrySum_ftEntries, hent, hsum]; exact hlen')
              (by rw [hft', hent, hn]; exact h6) hlen'
            refine ⟨?_, fun a t he => ?_⟩
            · have h8 := h7.1
              revert h8
              cases decodeTree n len _ with
              | ok a t => exact fun _ => trivial
              | raised e t => exact fun h8 => ⟨h8.1, trivial⟩
            · have h8 := h7.1
              rw [he] at h8
              have h8' : t.origLen = BitVec.ofNat 64 len := by
                have : t.origLen = _ := h8
                rw [this]; simp
              have h9 := h7.2 a t he
              apply BitVec.eq_of_toNat_eq
              rw [h9, h8']
              simp [h0]
              omega

end Sys2Proof.Machine
end

