-- ==== Sys2Proof/Laws/Present.lean ====
section
/-! SUPPORT. The symbols of a table, in the terms of the claims, and numbers as bytes (20_memory.md R63, R64). -/

namespace Sys2Proof.Machine

/-! ### The symbols present -/

theorem mem_present {ft : Vector Count 256} {b : Byte} : b ∈ present ft ↔ ftAt ft b ≠ 0 := by
  rw [present, List.mem_filter]
  constructor
  · rintro ⟨_, h⟩
    simpa using h
  · intro h
    refine ⟨List.mem_map.mpr ⟨b.toNat, List.mem_range.mpr b.isLt, ?_⟩, by simpa using h⟩
    apply BitVec.eq_of_toNat_eq
    rw [BitVec.toNat_ofNat, Nat.mod_eq_of_lt b.isLt]

theorem present_ascending (ft : Vector Count 256) : (present ft).Pairwise (fun a b => a.toNat < b.toNat) := by
  rw [present]
  refine List.Pairwise.filter _ ?_
  rw [List.pairwise_map]
  refine (List.pairwise_lt_range (n := 256)).imp_of_mem ?_
  intro a b ha hb h
  rw [BitVec.toNat_ofNat, BitVec.toNat_ofNat]
  have := List.mem_range.mp ha
  have := List.mem_range.mp hb
  omega

theorem ascending_ext {l l' : List Byte} (h : l.Pairwise (fun a b => a.toNat < b.toNat))
    (h' : l'.Pairwise (fun a b => a.toNat < b.toNat)) (hm : ∀ b, b ∈ l ↔ b ∈ l') : l = l' := by
  have hnd : ∀ k : List Byte, k.Pairwise (fun a b => a.toNat < b.toNat) → k.Nodup := fun k hk =>
    hk.imp (fun h hc => by rw [hc] at h; exact absurd h (Nat.lt_irrefl _))
  exact ((List.perm_ext_iff_of_nodup (hnd _ h) (hnd _ h')).mpr hm).eq_of_pairwise
    (fun a b _ _ h1 h2 => absurd (Nat.lt_trans h1 h2) (Nat.lt_irrefl _)) h h'

/-- The symbols of a table are the symbols of its entries. -/
theorem present_eq (ft : Vector Count 256) : present ft = (ftEntries ft).map Prod.fst := by
  apply ascending_ext (present_ascending ft)
  · rw [List.pairwise_map]
    exact ftEntries_ascending ft
  · intro b
    rw [mem_present, List.mem_map]
    constructor
    · intro h
      exact ⟨(b, ftAt ft b), mem_ftEntries.mpr ⟨rfl, h⟩, rfl⟩
    · rintro ⟨⟨c, f⟩, hp, rfl⟩
      obtain ⟨h1, h2⟩ := mem_ftEntries.mp hp
      rw [h1]; exact h2

theorem present_length (ft : Vector Count 256) : (present ft).length = (ftEntries ft).length := by
  rw [present_eq, List.length_map]

/-- The entries of a table are its symbols with their frequencies. -/
theorem ftEntries_eq (ft : Vector Count 256) : ftEntries ft = (present ft).map (fun b => (b, ftAt ft b)) := by
  rw [present_eq, List.map_map]
  conv_lhs => rw [← List.map_id (ftEntries ft)]
  refine List.map_congr_left ?_
  rintro ⟨b, f⟩ hp
  simp only [id_eq, Function.comp_apply, (mem_ftEntries.mp hp).1]

theorem symbolTable_present (ft : Vector Count 256) :
    symbolTable ft = (present ft).flatMap (fun b => b :: leBytes 8 (ftAt ft b).toNat) := by
  rw [symbolTable, ftEntries_eq, List.flatMap_map]

/-- The number of entries of a table of bytes is the number of different bytes. -/
theorem entries_distinct {l : List Byte} (h : l.length < 2 ^ 64) :
    (ftEntries (tableOf l)).length = ((List.range 256).filter (fun v => decide (BitVec.ofNat 8 v ∈ l))).length := by
  rw [← present_length, present, List.filter_map, List.length_map]
  congr 1
  refine List.filter_congr ?_
  intro v _
  simp only [Function.comp_apply, decide_eq_decide]
  constructor
  · intro h1
    by_contra h2
    have h3 := tableOf_at h (BitVec.ofNat 8 v)
    rw [List.count_eq_zero.mpr h2] at h3
    exact h1 (BitVec.eq_of_toNat_eq h3)
  · exact fun h1 => tableOf_pos h h1

/-! ### Numbers as bytes -/

theorem leBytes_getElem? (n v k : Nat) :
    (leBytes n v)[k]? = if k < n then some (BitVec.ofNat 8 (v / 256 ^ k % 256)) else none := by
  induction n generalizing v k with
  | zero => simp [leBytes]
  | succ n ih =>
    rw [leBytes]
    cases k with
    | zero => simp
    | succ k =>
      rw [List.getElem?_cons_succ, ih, Nat.pow_succ', ← Nat.div_div_eq_div_mul]
      simp

/-- The value of a slice of IN as the sum of R63. -/
theorem leValue_inSlice (s : State) (o n : Nat) :
    leValue (s.inSlice o n) = ((List.range n).map (fun k => (s.inByte (o + k)).toNat * 256 ^ k)).sum := by
  induction n generalizing o with
  | zero => rfl
  | succ n ih =>
    rw [State.inSlice_succ, leValue, ih, List.range_succ_eq_map, List.map_cons, List.sum_cons, List.map_map]
    have : ((List.range n).map ((fun k => (s.inByte (o + k)).toNat * 256 ^ k) ∘ Nat.succ)).sum =
        256 * ((List.range n).map (fun k => (s.inByte (o + 1 + k)).toNat * 256 ^ k)).sum := by
      rw [← List.sum_map_mul_left]
      congr 1
      refine List.map_congr_left ?_
      intro k _
      simp only [Function.comp_apply, Nat.succ_eq_add_one, Nat.pow_succ', show o + (k + 1) = o + 1 + k by omega]
      ring
    rw [this]
    simp

end Sys2Proof.Machine
end

