-- ==== Sys2Proof/Laws/Host.lean ====
section
/-! SUPPORT. What LOADIN and MOVEOUT leave in IN (30_encoding.md R93), and what OUT holds after bytes were appended to an
empty OUT (20_memory.md R64). -/

namespace Sys2Proof.Machine

/-- IN after bytes were written to it from offset 0 on and IN_LEN was set to their number. -/
theorem loaded_inBytes (s : State) (bs : List Byte) (n : Count) (h : n.toNat = bs.length) :
    ((s.setInMem (Memory.setAll s.inMem 0 bs)).setInLen n).inBytes = bs := by
  apply List.ext_getElem?
  intro k
  rw [State.inBytes_getElem?, State.setInLen_inLen, h]
  by_cases hk : k < bs.length
  · rw [if_pos hk, State.inByte, State.setInLen_inMem, State.setInMem_inMem, Memory.get?_setAll, if_pos (by omega), Nat.sub_zero,
      List.getElem?_eq_getElem hk]
  · rw [if_neg hk, List.getElem?_eq_none (by omega)]

theorem loadBytes_inBytes (s : State) {bs : List Byte} (h : bs.length < 2 ^ 64) : (s.loadBytes bs).inBytes = bs :=
  loaded_inBytes s bs _ (by rw [BitVec.toNat_ofNat, Nat.mod_eq_of_lt h])

/-- What the host copies of OUT. -/
theorem outSlice_eq {t : State} {bs : List Byte} (h : OutHolds t bs) {o n : Nat} (hn : o + n ≤ bs.length) :
    t.outSlice o n = (bs.drop o).take n := by
  induction n generalizing o with
  | zero => simp [State.outSlice]
  | succ n ih =>
    rw [State.outSlice, ih (by omega), h.byte, List.getElem?_eq_getElem (by omega), Option.getD_some,
      List.drop_eq_getElem_cons (show o < bs.length by omega), List.take_succ_cons]

theorem moveOut_inBytes {t : State} {bs : List Byte} (h : OutHolds t bs) : t.moveOut.inBytes = bs := by
  have h1 : t.outSlice 0 t.outLen.toNat = bs := by
    rw [outSlice_eq h (by rw [h.len]; omega), List.drop_zero, h.len, List.take_length]
  rw [State.moveOut, h1]
  exact loaded_inBytes t bs t.outLen h.len

/-- What OUT holds after bytes were appended to an empty OUT. -/
theorem outHolds_of {t : State} {bs : List Byte} (hm : t.outMem = Memory.setAll [] 0 bs) (hl : t.outLen.toNat = bs.length) :
    OutHolds t bs := by
  refine ⟨hl, fun o => ?_⟩
  rw [hm, Memory.get?_setAll]
  by_cases h : o < bs.length
  · rw [if_pos (by omega), Nat.sub_zero]
  · rw [if_neg (by omega), List.getElem?_eq_none (by omega)]; rfl

/-- A list of bytes is what OUT holds in one way only. -/
theorem OutHolds.unique {t : State} {bs cs : List Byte} (h : OutHolds t bs) (h' : OutHolds t cs) : bs = cs :=
  List.ext_getElem? fun k => by rw [← h.byte, h'.byte]

/-- Room for `n` bytes in an OUT that is empty. -/
theorem fits_of_canHold {s t : State} {n : Nat} (h : s.CanHold n) (he : t.env = s.env) (h0 : t.outLen = 0) : t.Fits n := by
  rw [State.Fits, h0, he, outLimit]
  have h1 := h.count
  cases hc : s.env.outCap with
  | none => simp; omega
  | some c => have := h.cap c hc; simp; omega

theorem canHold_of_fits {s t : State} {n : Nat} (h : t.Fits n) (he : t.env = s.env) (h0 : t.outLen = 0) : s.CanHold n := by
  rw [State.Fits, h0, he, outLimit] at h
  constructor
  · intro c hc
    rw [hc] at h
    simp at h; omega
  · cases hc : s.env.outCap with
    | none => rw [hc] at h; simp at h; omega
    | some c => rw [hc] at h; simp at h; omega

end Sys2Proof.Machine
end

