-- ==== Sys2Proof/Laws/Commands.lean ====
section
/-! SUPPORT. Each command as a whole: what `exec` answers, in terms of what its body does. -/

namespace Sys2Proof.Machine

theorem State.finish_endsOk (s : State) : s.finish.EndsOk := ⟨⟨rfl, rfl, rfl⟩, rfl, rfl, rfl⟩

theorem State.raise_endsWith (s : State) (i : Instr) (e : Raise) : (s.raise i e).EndsWith e.cause e.info := by
  unfold State.raise
  split <;> exact ⟨⟨rfl, rfl, rfl⟩, rfl, rfl, rfl⟩

theorem State.EndsOk.not_raised {t : State} {c : Cause} {info : BitVec 64} (h : t.EndsOk) (h' : t.EndsWith c info) : c = .none := by
  rw [← h'.cause, h.cause]

/-- BUILD_TREE on a table that it accepts. -/
theorem exec_buildTree_ok {s : State} (h0 : ftSum s.ft ≠ 0) (h : ftSum s.ft < 2 ^ 64) :
    exec .buildTree s = .next ((s.begin .build).plant (builtNodes s.ft) (builtRoot s.ft)).finish := by
  show execBuildTree s = _
  rw [execBuildTree, buildBody_ok (s := s.begin .build) (by simpa using h0) (by simpa using h)]
  simp

/-- GEN_CODES on a well-formed tree. -/
theorem exec_genCodes_ok {s : State} (hv : s.treeValid = true) (h : TreeWf s.node s.ncount s.root) :
    exec .genCodes s = .next
      (((((s.begin .gen).setPhase .gen).dropCodes).setGen (treeCodes s.node s.root) []).setCtValid true).finish := by
  show execGenCodes s = _
  rw [execGenCodes, genBody_ok (s := s.begin .gen) (by simpa using hv) (by simpa using h)]
  simp

/-- FCOUNT on a readable input. -/
theorem exec_fcount_ok {s : State} (hok : s.Readable) :
    ∃ x, exec .fcount s = .next
      ((((s.begin .count).setCounts (tableOf s.inBytes) s.inLen).setPhase .count).setInOff x).dropInOff.finish := by
  obtain ⟨x, h⟩ := countBody_ok (s := s.begin .count) (by simpa using hok)
  refine ⟨x, ?_⟩
  show execFcount s = _
  rw [execFcount, h]
  simp

/-- UNPACK whose walk succeeds. -/
theorem exec_unpack_ok {s t : State} {a : Unit} (hv : s.treeValid = true)
    (h : walk 0 s.trail.toNat s.origLen.toNat s.openUnpack = .ok a t) :
    exec .unpack s = .next (t.setOutValid true).dropWalker.dropInOff.finish := by
  show execUnpack s = _
  rw [execUnpack, unpackBody, if_neg (by simp [hv])]
  simp only [State.openUnpack_trail, State.openUnpack_origLen, h]

/-- UNPACK whose walk fails. -/
theorem exec_unpack_bad {s t : State} {e : Raise} (hv : s.treeValid = true)
    (h : walk 0 s.trail.toNat s.origLen.toNat s.openUnpack = .raised e t) :
    exec .unpack s = .next (t.dropWalker.dropInOff.raise .unpack e) := by
  show execUnpack s = _
  rw [execUnpack, unpackBody, if_neg (by simp [hv])]
  simp only [State.openUnpack_trail, State.openUnpack_origLen, h]

/-- DECODE whose body succeeds. -/
theorem exec_decode_ok {s t : State} {a : Unit} (h : decodeBody Config.magic s.openDecode = .ok a t) :
    exec .decode s = .next (t.setOutValid true).closeDecode.finish := by
  show execDecode s = _
  rw [execDecode, execDecodeWith, h]

/-- DECODE whose body fails. -/
theorem exec_decode_bad {s t : State} {e : Raise} (h : decodeBody Config.magic s.openDecode = .raised e t) :
    exec .decode s = .next (t.closeDecode.raise .decode e) := by
  show execDecode s = _
  rw [execDecode, execDecodeWith, h]

theorem magic_length : Config.magic.length = 4 := rfl

/-- The header registers after ENCODE's step 3. -/
structure EncodeHeader (s t : State) : Prop where
  origLen : t.origLen = s.inLen
  symCount : t.symCount = BitVec.ofNat 16 (ftEntries (tableOf s.inBytes)).length
  trail : t.trail = BitVec.ofNat 3 ((streamFor s.inBytes).length % 8)

/-- ENCODE of a readable input, in terms of the writing of its container. -/
theorem exec_encode_eq {s : State} (hok : s.Readable) :
    ∃ t, EncodeReady (s.begin .count).openOut t ∧ exec .encode s =
      match outBytes (containerFor Config.magic s.inBytes) t with
      | .ok _ s1 => .next (s1.setOutValid true).closeEncode.finish
      | .raised e s1 => .next (s1.closeEncode.raise .encode e) := by
  obtain ⟨t, h, hr⟩ := encodeBody_eq Config.magic (s := (s.begin .count).openOut) (by simpa using hok)
  refine ⟨t, hr, ?_⟩
  show execEncode s = _
  rw [execEncode, execEncodeWith, h, State.openOut_inBytes, State.begin_inBytes]
  all_goals (cases outBytes (containerFor Config.magic s.inBytes) t <;> rfl)

theorem EncodeReady.header {s t : State} (h : EncodeReady (s.begin .count).openOut t) : EncodeHeader s t :=
  ⟨by simpa using h.origLen, by simpa using h.symCount, by simpa using h.trail⟩

/-- ENCODE with room for the container (R190, R191). -/
theorem exec_encode_ok {s : State} (hok : s.Readable) (hc : s.CanHold (containerFor Config.magic s.inBytes).length) :
    ∃ t, exec .encode s = .next t ∧ t.EndsOk ∧ t.outValid = true ∧ OutHolds t (containerFor Config.magic s.inBytes) ∧
      EncodeHeader s t ∧ t.env = s.env ∧ SameIn s t := by
  obtain ⟨t, hr, h⟩ := exec_encode_eq hok
  have henv : t.env = s.env := by have := hr.keeps.env; simpa using this
  have h0 : t.outLen = 0 := by have := hr.outLen; simpa using this
  have hm : t.outMem = [] := by have := hr.outMem; simpa using this
  have hf := fits_of_canHold hc henv h0
  rw [outBytes_ok hf] at h
  refine ⟨_, h, State.finish_endsOk _, by simp [State.closeEncode], outHolds_of (by simp [State.closeEncode, hm, h0]) ?_, ?_, ?_, ?_⟩
  · have := State.appendOut_outLen_toNat hf
    rw [h0] at this
    simpa [State.closeEncode, h0] using this
  · obtain ⟨h1, h2, h3⟩ := hr.header
    exact ⟨by simpa [State.closeEncode] using h1, by simpa [State.closeEncode] using h2, by simpa [State.closeEncode] using h3⟩
  · simpa [State.closeEncode] using henv
  · have := hr.keeps.sameIn
    exact ⟨by simpa [State.closeEncode] using this.inLen, by simpa [State.closeEncode] using this.written,
      by simpa [State.closeEncode] using this.byte⟩

/-- ENCODE without room for the container (R192). -/
theorem exec_encode_full {s : State} (hok : s.Readable) (hc : ¬ s.CanHold (containerFor Config.magic s.inBytes).length) :
    ∃ t, exec .encode s = .next t ∧ t.EndsWith .dstUnwritable (BitVec.ofNat 64 (outLimit s.env)) ∧ t.outValid = false ∧
      t.Discarded ∧ EncodeHeader s t := by
  obtain ⟨t, hr, h⟩ := exec_encode_eq hok
  have henv : t.env = s.env := by have := hr.keeps.env; simpa using this
  have h0 : t.outLen = 0 := by have := hr.outLen; simpa using this
  obtain ⟨k, _, hk⟩ := outBytes_full (bs := containerFor Config.magic s.inBytes) (s := t) (by rw [h0]; simp)
    (fun hf => hc (canHold_of_fits hf henv h0))
  rw [hk] at h
  have h1 := State.raise_endsWith ((t.appendOut ((containerFor Config.magic s.inBytes).take k)).closeEncode) .encode
    ⟨.dstUnwritable, BitVec.ofNat 64 (outLimit t.env)⟩
  refine ⟨_, h, by rw [← henv]; exact h1, by simp [State.raise, writesOut], ?_, ?_⟩
  · constructor <;> simp [State.raise, writesOut, State.closeEncode, State.discard]
  · obtain ⟨h1, h2, h3⟩ := hr.header
    exact ⟨by simpa [State.raise, writesOut, State.closeEncode] using h1, by simpa [State.raise, writesOut, State.closeEncode] using h2,
      by simpa [State.raise, writesOut, State.closeEncode] using h3⟩

/-- ENCODE of an input with an unreadable offset (R192). -/
theorem exec_encode_bad {s : State} {p : Nat} (hp : p < s.inLen.toNat) (hb : s.inBadAt p = true)
    (hk : ∀ k, k < p → s.inBadAt k = false) :
    ∃ t, exec .encode s = .next t ∧ t.EndsWith .srcUnreadable (BitVec.ofNat 64 p) ∧ t.outValid = false ∧ t.Discarded ∧
      SameHeader s t := by
  obtain ⟨v, n, x, h⟩ := countBody_bad (s := (s.begin .count).openOut) (p := p) (by simpa using hp) (by simpa using hb)
    (fun k hk' => by simpa using hk k hk')
  refine ⟨_, by show execEncode s = _; rw [execEncode, execEncodeWith, encodeBody, h], State.raise_endsWith _ _ _,
    by simp [State.raise, writesOut], ?_, ?_⟩
  · constructor <;> simp [State.raise, writesOut, State.closeEncode, State.discard]
  · constructor <;> simp [State.raise, writesOut, State.closeEncode]

/-- The container has the layout of R96. -/
theorem containerFor_eq (magic : List Byte) {bs : List Byte} (h : bs ≠ []) :
    containerFor magic bs =
      magic ++ leBytes 8 bs.length ++ leBytes 2 (present (tableOf bs)).length ++
        (present (tableOf bs)).flatMap (fun b => b :: leBytes 8 (ftAt (tableOf bs) b).toNat) ++
        [BitVec.ofNat 8 ((streamFor bs).length % 8)] ++ packedBytes (streamFor bs) := by
  rw [containerFor, if_neg h, headerBytes, symbolTable_present, present_length]

end Sys2Proof.Machine
end

