-- ==== Sys2Proof/Laws/After.lean ====
section
/-! SUPPORT. What each command leaves whatever happens (60_exceptions.md R231, R232), and the register numbers (10_state.md
R48). -/

namespace Sys2Proof.Machine

/-! ### Register numbers -/

theorem regOf_ft (b : Byte) : regOf (0x100 + b.toNat) = .ft b := by
  have := b.isLt
  have h : ∀ n : Nat, 0x100 ≤ n → n < 0x200 → regOf n = .ft (BitVec.ofNat 8 (n - 0x100)) := by
    intro n h1 h2
    unfold regOf
    rw [if_neg (by omega), if_pos ⟨h1, h2⟩]
  rw [h _ (by omega) (by omega)]
  rw [Nat.add_sub_cancel_left, BitVec.ofNat_toNat, BitVec.setWidth_eq]

theorem regOf_ct (b : Byte) : regOf (0x200 + b.toNat) = .ct b := by
  have := b.isLt
  have h : ∀ n : Nat, 0x200 ≤ n → n < 0x300 → regOf n = .ct (BitVec.ofNat 8 (n - 0x200)) := by
    intro n h1 h2
    unfold regOf
    rw [if_neg (by omega), if_neg (by omega), if_pos ⟨h1, h2⟩]
  rw [h _ (by omega) (by omega)]
  rw [Nat.add_sub_cancel_left, BitVec.ofNat_toNat, BitVec.setWidth_eq]

theorem regOf_node {i : Nat} (h : i ≤ 510) : regOf (0x400 + i) = .node i := by
  have h : ∀ n : Nat, 0x400 ≤ n → n ≤ 0x400 + 510 → regOf n = .node (n - 0x400) := by
    intro n h1 h2
    unfold regOf
    rw [if_neg (by omega), if_neg (by omega), if_neg (by omega), if_pos ⟨h1, h2⟩]
  rw [h _ (by omega) (by omega)]
  rw [Nat.add_sub_cancel_left]

theorem regOf_reserved {n : Nat} (h0 : 0x00C < n) (h1 : ¬ (0x100 ≤ n ∧ n < 0x300)) (h2 : ¬ (0x400 ≤ n ∧ n ≤ 0x5FE)) : regOf n = .reserved := by
  unfold regOf
  rw [if_neg (by omega), if_neg (by omega), if_neg (by omega), if_neg (by omega)]


/-! ### OUT -/

theorem State.outSlice_length (s : State) (o n : Nat) : (s.outSlice o n).length = n := by
  induction n generalizing o with
  | zero => rfl
  | succ n ih => simp [State.outSlice, ih]

/-- OUT built by appending is canonical and holds exactly the bytes below OUT_LEN. -/
theorem State.OutBuilt.holds {t : State} (h : t.OutBuilt) : Memory.wf t.outMem = true ∧ ∀ o, (Memory.get? t.outMem o).isSome = decide (o < t.outLen.toNat) := by
  obtain ⟨bs, h1, h2⟩ := h
  have hlt : bs.length < 2 ^ 64 := by rw [← h2]; exact t.outLen.isLt
  refine ⟨by rw [h1]; exact Memory.wf_setAll (by omega) rfl, fun o => ?_⟩
  rw [h1, Memory.get?_setAll, h2]
  by_cases ho : o < bs.length
  · rw [if_pos (by omega), Nat.sub_zero, List.getElem?_eq_getElem ho]; simp [ho]
  · rw [if_neg (by omega)]; simp [ho, Memory.get?]


/-! ### Commands -/

/-- What a command leaves, as far as the invariants need it. -/
structure AfterCommand (i : Instr) (s t : State) : Prop where
  inMem : t.inMem = s.inMem
  inLen : t.inLen = s.inLen
  busy : t.busy = false
  phase : t.phase = .idle
  done : t.done = true
  queue : s.q = [] → t.q = []
  stack : s.genStack = [] → t.genStack = []
  ends : t.EndsOk ∨ ∃ c info, t.EndsWith c info ∧ c.kind ≠ .none
  outVal : writesOut i = true → (t.EndsOk ∧ t.outValid = true ∧ t.OutBuilt) ∨ (t.errKind ≠ .none ∧ t.outValid = false ∧ t.outMem = [])
  outSame : writesOut i = false → t.outValid = s.outValid ∧ t.outMem = s.outMem ∧ t.outLen = s.outLen

/-- OUT as a command opens it. -/
theorem openOut_built (s : State) : s.openOut.OutBuilt := ⟨[], by simp [Memory.setAll], by simp⟩

/-- The successful end of a command that writes OUT. -/
theorem after_ok {pk wk : Prop} {i : Instr} {s0 s t u : State} (hw : writesOut i = true) (h : Keeps pk wk s0 t) (h1 : s0.inMem = s.inMem) (h2 : s0.inLen = s.inLen)
    (h3 : s0.q = s.q) (h4 : s0.genStack = s.genStack) (h5 : s0.OutBuilt) (e1 : u.inMem = t.inMem) (e2 : u.inLen = t.inLen)
    (e3 : u.q = t.q) (e4 : u.genStack = t.genStack) (e5 : u.outMem = t.outMem) (e6 : u.outLen = t.outLen) (e7 : u.outValid = true) : AfterCommand i s u.finish := by
  refine ⟨by simp [e1, h.inMem, h1], by simp [e2, h.inLen, h2], rfl, rfl, rfl, fun hq => by simpa [e3] using h.queue (h3.trans hq), fun hq => by simpa [e4] using h.stack (h4.trans hq),
    .inl (State.finish_endsOk _), fun _ => .inl ⟨State.finish_endsOk _, by simpa using e7, ?_⟩, fun hc => by rw [hw] at hc; cases hc⟩
  obtain ⟨bs, b1, b2⟩ := h.out h5
  exact ⟨bs, by simpa [e5] using b1, by simpa [e6] using b2⟩

/-- The error end of a command that writes OUT. -/
theorem after_bad {pk wk : Prop} {i : Instr} {s0 s t u : State} {e : Raise} (hw : writesOut i = true) (h : Keeps pk wk s0 t) (h1 : s0.inMem = s.inMem) (h2 : s0.inLen = s.inLen)
    (h3 : s0.q = s.q) (h4 : s0.genStack = s.genStack) (e1 : u.inMem = t.inMem) (e2 : u.inLen = t.inLen)
    (e3 : u.q = t.q) (e4 : u.genStack = t.genStack) (he : e.cause.kind ≠ .none) : AfterCommand i s (u.raise i e) := by
  have hr : u.raise i e = u.dropOut.recordError e := by rw [State.raise, if_pos hw]
  refine ⟨by simp [hr, e1, h.inMem, h1], by simp [hr, e2, h.inLen, h2], by rw [hr]; rfl, by rw [hr]; rfl, by rw [hr]; rfl, fun hq => by simpa [hr, e3] using h.queue (h3.trans hq), fun hq => by simpa [hr, e4] using h.stack (h4.trans hq),
    .inr ⟨_, _, State.raise_endsWith _ _ _, he⟩, fun _ => .inr ⟨by rw [(State.raise_endsWith u i e).kind]; exact he, by rw [hr]; rfl, by rw [hr]; rfl⟩, fun hc => by rw [hw] at hc; cases hc⟩

/-- The error end of a command that does not write OUT. -/
theorem after_plain_bad {i : Instr} {s t : State} {e : Raise} (hw : writesOut i = false) (e1 : t.inMem = s.inMem) (e2 : t.inLen = s.inLen)
    (e3 : s.q = [] → t.q = []) (e4 : s.genStack = [] → t.genStack = []) (e5 : t.outMem = s.outMem) (e6 : t.outLen = s.outLen) (e7 : t.outValid = s.outValid)
    (he : e.cause.kind ≠ .none) : AfterCommand i s (t.raise i e) := by
  have hr : t.raise i e = t.recordError e := by rw [State.raise, if_neg (by simp [hw])]
  exact ⟨by simp [hr, e1], by simp [hr, e2], by rw [hr]; rfl, by rw [hr]; rfl, by rw [hr]; rfl, by simpa [hr] using e3, by simpa [hr] using e4,
    .inr ⟨_, _, State.raise_endsWith _ _ _, he⟩, fun hc => (by rw [hw] at hc; cases hc), fun _ => ⟨by simp [hr, e7], by simp [hr, e5], by simp [hr, e6]⟩⟩

/-- The successful end of a command that does not write OUT. -/
theorem after_plain_ok {i : Instr} {s t : State} (hw : writesOut i = false) (e1 : t.inMem = s.inMem) (e2 : t.inLen = s.inLen)
    (e3 : s.q = [] → t.q = []) (e4 : s.genStack = [] → t.genStack = []) (e5 : t.outMem = s.outMem) (e6 : t.outLen = s.outLen) (e7 : t.outValid = s.outValid) : AfterCommand i s t.finish :=
  ⟨by simp [e1], by simp [e2], rfl, rfl, rfl, by simpa using e3, by simpa using e4,
    .inl (State.finish_endsOk _), fun hc => (by rw [hw] at hc; cases hc), fun _ => ⟨by simp [e7], by simp [e5], by simp [e6]⟩⟩

theorem after_fcount (s : State) : ∃ t, exec .fcount s = .next t ∧ AfterCommand .fcount s t := by
  show ∃ t, execFcount s = _ ∧ _
  obtain ⟨v, n, x, h | ⟨info, h⟩⟩ := countBody_cases (s.begin .count)
  · rw [execFcount, h]
    refine ⟨_, rfl, after_plain_ok rfl ?_ ?_ ?_ ?_ ?_ ?_ ?_⟩ <;> simp
  · rw [execFcount, h]
    refine ⟨_, rfl, after_plain_bad rfl ?_ ?_ ?_ ?_ ?_ ?_ ?_ (by simp [Cause.kind])⟩ <;> simp

theorem after_build (s : State) : ∃ t, exec .buildTree s = .next t ∧ AfterCommand .buildTree s t := by
  show ∃ t, execBuildTree s = _ ∧ _
  rcases buildBody_cases (s.begin .build) with ⟨_, _, h⟩ | ⟨c, hc, h⟩
  · rw [execBuildTree, h]
    refine ⟨_, rfl, after_plain_ok rfl ?_ ?_ ?_ ?_ ?_ ?_ ?_⟩ <;> simp
  · rw [execBuildTree, h]
    refine ⟨_, rfl, after_plain_bad rfl ?_ ?_ ?_ ?_ ?_ ?_ ?_ (by rcases hc with ⟨rfl, _⟩ | ⟨rfl, _⟩ <;> simp [Cause.kind])⟩ <;> simp

theorem after_gen (s : State) : ∃ t, exec .genCodes s = .next t ∧ AfterCommand .genCodes s t := by
  show ∃ t, execGenCodes s = _ ∧ _
  rcases genBody_cases (s.begin .gen) with ⟨_, ct, h⟩ | ⟨_, h⟩
  · rw [execGenCodes, h]
    refine ⟨_, rfl, after_plain_ok rfl ?_ ?_ ?_ ?_ ?_ ?_ ?_⟩ <;> simp
  · rw [execGenCodes, h]
    refine ⟨_, rfl, after_plain_bad rfl ?_ ?_ ?_ ?_ ?_ ?_ ?_ (by simp [Cause.kind])⟩ <;> simp

theorem after_pack (s : State) : ∃ t, exec .pack s = .next t ∧ AfterCommand .pack s t := by
  show ∃ t, execPack s = _ ∧ _
  rw [execPack, packBody]
  by_cases hv : (s.begin .pack).openOut.ctValid = false
  · rw [if_pos hv]
    exact ⟨_, rfl, after_bad (pk := True) (wk := True) rfl (Keeps.refl (s.begin .pack).openOut) (by simp) (by simp) (by simp) (by simp) (by simp) (by simp) (by simp) (by simp) (by simp [Cause.kind])⟩
  · rw [if_neg hv]
    have h := packAll_out_keeps (wk := True) (s.begin .pack).openOut
    cases hp : packAll outByte (s.begin .pack).openOut with
    | ok a t =>
      rw [hp] at h
      exact ⟨_, rfl, after_ok rfl h (by simp) (by simp) (by simp) (by simp) (openOut_built _) (by simp) (by simp) (by simp) (by simp) (by simp) (by simp) (by simp)⟩
    | raised e t =>
      rw [hp] at h
      exact ⟨_, rfl, after_bad rfl h.2 (by simp) (by simp) (by simp) (by simp) (by simp) (by simp) (by simp) (by simp) (by rcases h.1 with h | h | h <;> rw [h] <;> simp [Cause.kind])⟩

/-- Every error of a walk is one. -/
theorem walkCause_kind {c : Cause} (h : WalkCause c) : c.kind ≠ .none := by
  rcases h with h | h | h | h | h | h <;> rw [h] <;> simp [Cause.kind]

theorem after_unpack (s : State) : ∃ t, exec .unpack s = .next t ∧ AfterCommand .unpack s t := by
  show ∃ t, execUnpack s = _ ∧ _
  rw [execUnpack, unpackBody]
  by_cases hv : s.openUnpack.treeValid = false
  · rw [if_pos hv]
    exact ⟨_, rfl, after_bad (pk := True) (wk := True) rfl (Keeps.refl s.openUnpack) (by simp) (by simp) (by simp) (by simp) (by simp) (by simp) (by simp) (by simp) (by simp [Cause.kind])⟩
  · rw [if_neg hv]
    have h := walk_keeps (pk := True) 0 s.openUnpack.trail.toNat s.openUnpack.origLen.toNat s.openUnpack
    cases hp : walk 0 s.openUnpack.trail.toNat s.openUnpack.origLen.toNat s.openUnpack with
    | ok a t =>
      rw [hp] at h
      exact ⟨_, rfl, after_ok rfl h (by simp) (by simp) (by simp) (by simp) ⟨[], by simp [Memory.setAll], by simp⟩ (by simp) (by simp) (by simp) (by simp) (by simp) (by simp) (by simp)⟩
    | raised e t =>
      rw [hp] at h
      exact ⟨_, rfl, after_bad rfl h.2 (by simp) (by simp) (by simp) (by simp) (by simp) (by simp) (by simp) (by simp) (walkCause_kind h.1)⟩

theorem after_encode (s : State) : ∃ t, exec .encode s = .next t ∧ AfterCommand .encode s t := by
  show ∃ t, execEncode s = _ ∧ _
  rw [execEncode, execEncodeWith]
  have h := encodeBody_keeps Config.magic (s.begin .count).openOut
  cases hp : encodeBody Config.magic (s.begin .count).openOut with
  | ok a t =>
    rw [hp] at h
    exact ⟨_, rfl, after_ok rfl h (by simp) (by simp) (by simp) (by simp) (openOut_built _) (by simp [State.closeEncode]) (by simp [State.closeEncode]) (by simp [State.closeEncode]) (by simp [State.closeEncode]) (by simp [State.closeEncode]) (by simp [State.closeEncode]) (by simp [State.closeEncode])⟩
  | raised e t =>
    rw [hp] at h
    exact ⟨_, rfl, after_bad rfl h.2 (by simp) (by simp) (by simp) (by simp) (by simp [State.closeEncode]) (by simp [State.closeEncode]) (by simp [State.closeEncode]) (by simp [State.closeEncode]) (by rcases h.1 with h | h <;> rw [h] <;> simp [Cause.kind])⟩

theorem after_decode (s : State) : ∃ t, exec .decode s = .next t ∧ AfterCommand .decode s t := by
  show ∃ t, execDecode s = _ ∧ _
  rw [execDecode, execDecodeWith]
  have h := decodeBody_keeps Config.magic s.openDecode
  have h2 := (decodeBody_clean Config.magic (s := s.openDecode) (by simp) (by simp)).1
  cases hp : decodeBody Config.magic s.openDecode with
  | ok a t =>
    rw [hp] at h
    exact ⟨_, rfl, after_ok rfl h (by simp) (by simp) (by simp) (by simp) ⟨[], by simp [Memory.setAll], by simp⟩ (by simp [State.closeDecode]) (by simp [State.closeDecode]) (by simp [State.closeDecode]) (by simp [State.closeDecode]) (by simp [State.closeDecode]) (by simp [State.closeDecode]) (by simp [State.closeDecode])⟩
  | raised e t =>
    rw [hp] at h h2
    exact ⟨_, rfl, after_bad rfl h.2 (by simp) (by simp) (by simp) (by simp) (by simp [State.closeDecode]) (by simp [State.closeDecode]) (by simp [State.closeDecode]) (by simp [State.closeDecode]) (by
      have h3 : DecodeError e.cause := h2.1
      revert h3; cases e.cause <;> simp [DecodeError, Cause.kind])⟩

/-- Every command but CLEAR ends so (R231, R232, R274). -/
theorem afterCommand (i : Instr) (hi : i ≠ .clear) (s : State) : ∃ t, exec i s = .next t ∧ AfterCommand i s t := by
  cases i with
  | clear => exact absurd rfl hi
  | fcount => exact after_fcount s
  | buildTree => exact after_build s
  | genCodes => exact after_gen s
  | pack => exact after_pack s
  | unpack => exact after_unpack s
  | encode => exact after_encode s
  | decode => exact after_decode s

end Sys2Proof.Machine
end

