-- ==== Sys2Proof/Laws/PerInstr.lean ====
section
/-! SUPPORT. The family `Encoding`: what holds of every command as syntax (30_encoding.md R90, R91). -/

namespace Sys2Proof.Laws.Encoding

/-- The command word is well formed and decodes back, also from the opcode table's bits. -/
def Statement (i : Instr) : Prop :=
  i.wf = true ∧ Sys2Proof.decode (Sys2Proof.encode i) = .ok i ∧ decodeTableWord 8 (Sys2Proof.encode i).toNat = some i

theorem clear : Statement .clear := ⟨rfl, rfl, rfl⟩
theorem fcount : Statement .fcount := ⟨rfl, rfl, rfl⟩
theorem buildTree : Statement .buildTree := ⟨rfl, rfl, rfl⟩
theorem genCodes : Statement .genCodes := ⟨rfl, rfl, rfl⟩
theorem pack : Statement .pack := ⟨rfl, rfl, rfl⟩
theorem unpack : Statement .unpack := ⟨rfl, rfl, rfl⟩
theorem encode : Statement .encode := ⟨rfl, rfl, rfl⟩
theorem decode : Statement .decode := ⟨rfl, rfl, rfl⟩

end Sys2Proof.Laws.Encoding
end

