-- ==== Sys2Proof/Laws/Whole.lean ====
section
/-! SUPPORT. Whole commands: what more than one statement needs of the tree, the codes, ENCODE and DECODE, and that every
command keeps the invariants. -/

namespace Sys2Proof.Machine

/-- The entries and the sum of a table of one symbol. -/
theorem ftSum_single {ft : Vector Count 256} {b : Byte} (hp : present ft = [b]) : ftEntries ft = [(b, ftAt ft b)] ∧ ftSum ft = (ftAt ft b).toNat ∧ ftSum ft ≠ 0 ∧ ftSum ft < 2^64 := by
  have h1 : ftEntries ft = [(b, ftAt ft b)] := by rw [ftEntries_eq, hp]; rfl
  have h2 : ftSum ft = (ftAt ft b).toNat := by rw [← entrySum_ftEntries, h1]; simp [entrySum, countSum]
  refine ⟨h1, h2, ?_, by rw [h2]; exact (ftAt ft b).isLt⟩
  rw [h2]
  have : ftAt ft b ≠ 0 := mem_present.mp (by rw [hp]; simp)
  intro hc; exact this (BitVec.eq_of_toNat_eq hc)

/-- The root's frequency is the sum of the table (R136). -/
theorem freqAt_builtRoot {ft : Vector Count 256} (h0 : ftSum ft ≠ 0) (h : ftSum ft < 2 ^ 64) : (freqAt (builtNodes ft) (builtRoot ft)).toNat = ftSum ft := by
  by_cases h2 : 2 ≤ (ftEntries ft).length
  · obtain ⟨h3, h4⟩ := builtForest_many h h2
    have h5 := h3.sum
    have h6 := (builtForest_ok h0 h).queue
    rw [h6] at h5
    rw [entrySum_ftEntries] at h5
    simp [queueSum] at h5
    exact h5
  · have h3 := ftEntries_pos h0
    have h4 : (present ft).length = 1 := by rw [present_length]; omega
    obtain ⟨b, hb⟩ := List.length_eq_one_iff.mp h4
    obtain ⟨h5, h6, _, _⟩ := ftSum_single hb
    have h7 := builtForest_single h5
    have h8 : builtNodes ft = [.leaf b (ftAt ft b), .leaf 0 0, .internal (ftAt ft b) 0 1] := by rw [builtNodes, h7]; rfl
    rw [builtRoot, h8, h6]; rfl

/-- Codes of different symbols are no prefixes of one another (R154). -/
theorem CodesOf.not_prefix {node : List Node} {root : NodeIdx} {ct : List Code} (h : CodesOf node root ct) {a b : Byte} (hab : a ≠ b) (ha : codeOf ct a ≠ []) (hb : codeOf ct b ≠ []) : ¬ codeOf ct a <+: codeOf ct b := by
  have h1 : ∀ x, codeOf ct x ≠ [] → LeadsTo node root (codeOf ct x) x := by
    intro x hx
    by_cases hm : x ∈ leafSymbols node
    · exact h.path x hm
    · exact absurd (h.other x hm) hx
  rintro ⟨c, hc⟩
  have := (h1 a ha).prefix_eq (b := c) (t := b) (by rw [hc]; exact h1 b hb)
  exact hab this.2

/-- The code table of the single-symbol tree (R152). -/
theorem treeCodes_single {b : Byte} {f : Count} (hf : f ≠ 0) : codeOf (treeCodes [.leaf b f, .leaf 0 0, .internal f 0 1] 2) b = [false] ∧ ∀ c, c ≠ b → codeOf (treeCodes [.leaf b f, .leaf 0 0, .internal f 0 1] 2) c = [] := by
  have hwf := (singleForest_built (s := b) hf).2.tree
  have hc := treeCodes_of hwf
  have hs : leafSymbols [.leaf b f, .leaf 0 0, .internal f 0 1] = [b] := (singleForest_built (s := b) hf).2.symbols
  constructor
  · have h1 := hc.path b (by show b ∈ leafSymbols [.leaf b f, .leaf 0 0, .internal f 0 1]; rw [hs]; simp)
    have : LeadsTo [.leaf b f, .leaf Config.dummySym 0, .internal f 0 1] 2 [false] b := by
      refine ⟨0, f, rfl, rfl, hf⟩
    have h2 := (hc.len b (by show b ∈ leafSymbols [.leaf b f, .leaf 0 0, .internal f 0 1]; rw [hs]; simp)).1
    -- compute directly
    have h3 : leavesUnder [.leaf b f, .leaf 0 0, .internal f 0 1] 2 = [(b, f, [false]), (0, 0, [true])] := rfl
    rw [treeCodes, h3]
    simp only [putCodes, if_neg hf, List.nil_append, if_true]
    rw [codeOf_set noCodes_length]; simp
  · intro c hcb
    exact hc.other c (by show c ∉ leafSymbols [.leaf b f, .leaf 0 0, .internal f 0 1]; rw [hs]; simpa using hcb)

/-- What the walk needs to know of the symbols' codes. -/
theorem CodesOf.spec {node : List Node} {root : NodeIdx} {ct : List Code} (h : CodesOf node root ct) {syms : List Byte} (hs : ∀ b ∈ syms, b ∈ leafSymbols node) :
    ∀ b ∈ syms, codeOf ct b ≠ [] ∧ LeadsTo node root (codeOf ct b) b := by
  intro b hb
  refine ⟨fun hc => ?_, h.path b (hs b hb)⟩
  have := (h.len b (hs b hb)).1
  rw [hc] at this; simp at this

/-- Readable bytes are readable bits. -/
theorem bitsReadable_of_readableTo {s : State} {base n : Nat} (h : s.ReadableTo (base + (n + 7) / 8)) : s.BitsReadable base n := by
  intro k hk; exact h _ (by omega)

/-- The payload of UNPACK is all of IN. -/
theorem State.payload_zero (s : State) : s.payload 0 = s.inBytes := by simp [State.payload, State.inBytes]

/-- Usable bits need a byte. -/
theorem usableBits_pos {p : List Byte} {tb : Nat} {l : List Bool} (h : usableBits p tb = l) (hl : l ≠ []) : 0 < p.length := by
  cases p with
  | nil => exact absurd (h.symm.trans (by simp [usableBits, payloadBits])) hl
  | cons b p => simp

/-- The usable bits of a readable IN are readable. -/
theorem bitsReadable_of_usable {s : State} {n tb : Nat} {l : List Bool} (hr : s.Readable) (hb : usableBits s.inBytes tb = l) (hn : n = l.length) : s.BitsReadable 0 n := by
  intro k hk
  apply hr
  have h1 : l.length ≤ 8 * s.inBytes.length := by
    rw [← hb, usableBits, List.length_take, payloadBits_length]; omega
  rw [State.inBytes_length] at h1
  omega

/-- ENCODE succeeds only on a readable IN whose container OUT can hold. -/
theorem encode_success {s t : State} (h : exec .encode s = .next t) (he : t.EndsOk) : s.Readable ∧ s.CanHold (containerFor Config.magic s.inBytes).length := by
  rcases readable_or s with hok | ⟨p, hp, hb, hk⟩
  · refine ⟨hok, ?_⟩
    by_contra hc
    obtain ⟨t', h', hw, _⟩ := exec_encode_full hok hc
    rw [h] at h'; injection h' with h'; subst h'
    exact absurd (he.not_raised hw) (by simp)
  · obtain ⟨t', h', hw, _⟩ := exec_encode_bad hp hb hk
    rw [h] at h'; injection h' with h'; subst h'
    exact absurd (he.not_raised hw) (by simp)

/-- DECODE always answers a next state. -/
theorem decode_total (s : State) : ∃ t, exec .decode s = .next t := by
  show ∃ t, execDecode s = _
  rw [execDecode, execDecodeWith]; split <;> exact ⟨_, rfl⟩

/-- The start of DECODE leaves IN. -/
theorem State.ReadableTo.openDecode {s : State} {n : Nat} (h : s.ReadableTo n) : s.openDecode.ReadableTo n := h.congr (by simp)

/-- DECODE after a good magic and a length that is not 0. -/
theorem decodeBody_symbols {s : State} {len : Nat} {rest : List Byte} (h0 : len ≠ 0) (hlt : len < 2 ^ 64) (hin : s.inBytes = Config.magic ++ leBytes 8 len ++ rest) (hr : s.ReadableTo 12) :
    ∃ x, decodeBody Config.magic s.openDecode = decodeSymbols len ((s.openDecode.setInOff x).setOrigLen (BitVec.ofNat 64 len)) := by
  obtain ⟨x, h⟩ := decodeBody_front (magic := Config.magic) (len := len) (rest := rest) (s := s.openDecode) (State.ReadableTo.openDecode hr) rfl hlt (by simpa using hin)
  rw [if_neg h0] at h
  exact ⟨x, h⟩

/-- DECODE after a good table of two symbols or more. -/
theorem decodeBody_table_read {s : State} {ft : Vector Count 256} {rest : List Byte} (h2 : 2 ≤ (present ft).length) (hlt : ftSum ft < 2 ^ 64)
    (hin : s.inBytes = Config.magic ++ leBytes 8 (ftSum ft) ++ leBytes 2 (present ft).length ++
      (present ft).flatMap (fun b => b :: leBytes 8 (ftAt ft b).toNat) ++ rest) (hr : s.ReadableTo (14 + 9 * (present ft).length)) :
    ftSum ft ≠ 0 ∧ ∃ t, TableRead s.openDecode t (ftEntries ft) (ftSum ft) ∧ t.ft = ft ∧ decodeBody Config.magic s.openDecode = decodeTree (present ft).length (ftSum ft) t := by
  have h0 : ftSum ft ≠ 0 := by
    intro hc
    rw [← ftEntries_eq_nil] at hc
    rw [present_length, hc] at h2; simp at h2
  refine ⟨h0, ?_⟩
  have h256 := ftEntries_length_le ft
  obtain ⟨t, ht, hd⟩ := decodeBody_table (magic := Config.magic) (len := ftSum ft) (s := s.openDecode) (es := ftEntries ft) (rest := rest)
    (State.ReadableTo.openDecode (by rw [← present_length]; exact hr)) rfl h0 hlt (by rw [← symbolTable_eq, symbolTable_present]; simpa [headerFront, ← present_length] using hin) (by rw [← present_length]; omega) h256 (ftEntries_from ft)
    (entrySum_ftEntries ft)
  rw [if_neg (by rw [← present_length]; omega), ← present_length] at hd
  refine ⟨t, ht, ?_, hd⟩
  have := ht.ft
  rw [this, State.openDecode_ft, putEntries_ftEntries]

/-- The walk of DECODE writes TRAIL. -/
theorem decodeWalk_trail {n tb len : Nat} {s : State} (h : tb ≤ 7) : (decodeWalk n tb len s).All (fun t => t.trail.toNat = tb ∧ t.symCount = s.symCount) (fun _ => True) := by
  rw [decodeWalk]
  have h1 := walk_trail (base := 15 + 9 * n) (tb := tb) (len := len) (s := (s.setTrail (BitVec.ofNat 3 tb)).setPhase .walk)
  revert h1
  have e3 : (BitVec.ofNat 3 tb).toNat = tb := by rw [BitVec.toNat_ofNat]; exact Nat.mod_eq_of_lt (by omega)
  cases walk (15 + 9 * n) tb len ((s.setTrail (BitVec.ofNat 3 tb)).setPhase .walk) with
  | ok a t => rintro ⟨h1, _, h2⟩; exact ⟨by rw [h1]; simpa using e3, by simpa using h2⟩
  | raised e t => rintro ⟨_, h1, _, h2⟩; exact ⟨trivial, by rw [h1]; simpa using e3, by simpa using h2⟩

/-- The header of a container as the front of IN. -/
theorem inBytes_split {s : State} {ft : Vector Count 256} {rest : List Byte}
    (hin : s.inBytes = Config.magic ++ leBytes 8 (ftSum ft) ++ leBytes 2 (present ft).length ++
      (present ft).flatMap (fun b => b :: leBytes 8 (ftAt ft b).toNat) ++ rest) :
    ∃ a, a.length = 14 + 9 * (present ft).length ∧ s.inBytes = a ++ rest ∧ s.inLen.toNat = 14 + 9 * (present ft).length + rest.length := by
  have hlen : (Config.magic ++ leBytes 8 (ftSum ft) ++ leBytes 2 (present ft).length ++
      (present ft).flatMap (fun b => b :: leBytes 8 (ftAt ft b).toNat)).length = 14 + 9 * (present ft).length := by
    rw [← symbolTable_present, symbolTable_eq, List.length_append, entryBytes_length, present_length]
    simp [magic_length]
  refine ⟨_, hlen, hin, ?_⟩
  rw [← State.inBytes_length, hin, List.length_append, hlen]

/-- The first unreadable byte that DECODE's header needs ends the body (R63, R229). -/
theorem decodeBody_unreadable {s : State} {p : Nat} (h : HeaderReadAt Config.magic s.inBytes p) (hl : p < s.inLen.toNat)
    (hb : s.inBadAt p = true) (hok : s.ReadableTo p) :
    ∃ t, decodeBody Config.magic s.openDecode = .raised ⟨.srcUnreadable, BitVec.ofNat 64 p⟩ t ∧ t.outLen = 0 := by
  have hl' : p < s.openDecode.inLen.toNat := by simpa using hl
  have hb' : s.openDecode.inBadAt p = true := by simpa using hb
  have hok' := hok.openDecode
  rw [← State.openDecode_inBytes] at h
  have hol : s.openDecode.outLen = 0 := by simp
  rw [← hol]
  cases h with
  | magic h good => exact decodeBody_unreadable_magic rfl h good hl' hb' hok'
  | length rest h1 h2 good => exact decodeBody_unreadable_length rfl h1 h2 good hl' hb' hok'
  | count len rest h1 h2 h0 hlt good => exact decodeBody_unreadable_count rfl h1 h2 h0 hlt good hl' hb' hok'
  | entry len n es rest h1 h2 h0 hlt hn h256 there order freqs good =>
    exact decodeBody_unreadable_entry rfl h1 h2 h0 hlt hn h256 (by simpa using there)
      ⟨fun q hq => ⟨Nat.zero_le _, freqs q hq⟩, order⟩ good hl' hb' hok'
  | trailing ft rest h2 hlt hp good =>
    subst hp
    rw [State.openDecode_inBytes] at good
    obtain ⟨h0, t, ht, hft, hd⟩ := decodeBody_table_read h2 hlt good hok
    have henv : t.env = s.env := by simpa using ht.keeps.env
    have hinl : t.inLen = s.inLen := by simpa using ht.keeps.inLen
    rw [hd, ← ht.outLen]
    exact decodeTree_unreadable (by rw [hft]; exact h0) (by rw [hft]; exact hlt) (by rw [hinl]; exact hl)
      (by rw [State.inBadAt_congr henv]; exact hb) (hok.congr henv)

/-- DECODE at its walk. -/
theorem decodeBody_at_walk {s : State} {ft : Vector Count 256} {tb : Byte} {payload : List Byte} (h2 : 2 ≤ (present ft).length) (hlt : ftSum ft < 2 ^ 64)
    (htb : tb.toNat ≤ 7) (hr : s.ReadableTo (15 + 9 * (present ft).length))
    (hin : s.inBytes = Config.magic ++ leBytes 8 (ftSum ft) ++ leBytes 2 (present ft).length ++
      (present ft).flatMap (fun b => b :: leBytes 8 (ftAt ft b).toNat) ++ [tb] ++ payload) :
    ftSum ft ≠ 0 ∧ ∃ u, decodeBody Config.magic s.openDecode = walk (15 + 9 * (present ft).length) tb.toNat (ftSum ft) u ∧ u.node = builtNodes ft ∧ u.root = builtRoot ft ∧
      u.env = s.env ∧ u.inLen = s.inLen ∧ u.outLen = 0 ∧ u.outMem = [] ∧ u.payload (15 + 9 * (present ft).length) = payload ∧ s.inLen.toNat = 15 + 9 * (present ft).length + payload.length := by
  have hin' : s.inBytes = Config.magic ++ leBytes 8 (ftSum ft) ++ leBytes 2 (present ft).length ++
      (present ft).flatMap (fun b => b :: leBytes 8 (ftAt ft b).toNat) ++ (tb :: payload) := by rw [hin]; simp
  obtain ⟨a, ha, hin2, hl⟩ := inBytes_split hin'
  rw [List.length_cons] at hl
  obtain ⟨h0, t, ht, hft, hd⟩ := decodeBody_table_read h2 hlt hin' (fun o ho => hr o (by omega))
  have henv : t.env = s.env := by have := ht.keeps.env; simpa using this
  have hinl : t.inLen = s.inLen := by have := ht.keeps.inLen; simpa using this
  have hib : t.inBytes = s.inBytes := by have := ht.keeps.inBytes; simpa using this
  have hrt : t.ReadableTo (15 + 9 * (present ft).length) := fun o ho => by rw [State.inBadAt_congr henv]; exact hr o (by omega)
  obtain ⟨x, hx⟩ := decodeTree_ok (n := (present ft).length) (len := ftSum ft) (s := t) (a := a) (rest := payload) (tb := tb) hrt (by rw [hft]; exact h0) (by rw [hft]; exact hlt)
      (by rw [hib, hin2]; simp) ha
  rw [hx, if_neg (by omega), decodeWalk] at hd
  refine ⟨h0, _, hd, by simp [hft], by simp [hft], by simpa using henv, by simpa using hinl, ?_, ?_, ?_, by omega⟩
  · have := ht.outLen; simpa using this
  · have := ht.outMem; simpa using this
  · have h3 : s.inBytes = (a ++ [tb]) ++ payload ++ [] := by rw [hin2]; simp
    have h4 := inSlice_of_append (s := t) (a := a ++ [tb]) (b := payload) (c := []) (by rw [hib]; exact h3)
    have h5 : (a ++ [tb]).length = 15 + 9 * (present ft).length := by rw [List.length_append, ha]; simp; omega
    rw [h5] at h4
    simp only [State.setPhase_payload, State.setTrail_payload, State.setInOff_payload, State.plant_payload]
    rw [State.payload, hinl, show s.inLen.toNat - (15 + 9 * (present ft).length) = payload.length by omega]
    exact h4

/-- The codes of a list of bytes are those of its tree. -/
theorem codesFor_of {bytes : List Byte} (h0 : bytes ≠ []) (hl : bytes.length < 2 ^ 64) : CodesOf (nodesFor bytes) (rootFor bytes) (codesFor bytes) :=
  treeCodes_of (treeFor_wf h0 hl)

/-- A code has at most 255 bits (R28). -/
theorem codesFor_length_le {bytes : List Byte} (h0 : bytes ≠ []) (hl : bytes.length < 2 ^ 64) (b : Byte) : (codeOf (codesFor bytes) b).length ≤ 255 := by
  by_cases hb : b ∈ leafSymbols (nodesFor bytes)
  · exact ((codesFor_of h0 hl).len b hb).2
  · rw [(codesFor_of h0 hl).other b hb]; simp

/-- The length of a bit stream. -/
theorem codeBits_length_le {ct : List Code} (h : ∀ b, (codeOf ct b).length ≤ 255) (l : List Byte) : (codeBits ct l).length ≤ 255 * l.length := by
  induction l with
  | nil => simp [codeBits]
  | cons b l ih =>
    have e : codeBits ct (b :: l) = codeOf ct b ++ codeBits ct l := by simp [codeBits]
    rw [e, List.length_append, List.length_cons]
    have := h b; omega

/-- The container of fewer than 2^58 bytes has fewer than 2^64. -/
theorem containerFor_length_lt {bytes : List Byte} (hl : bytes.length < 2 ^ 58) : (containerFor Config.magic bytes).length < 2 ^ 64 := by
  rw [containerFor]
  split
  · simp [magic_length]
  · rename_i h0
    have h := codeBits_length_le (codesFor_length_le h0 (by omega)) bytes
    have h256 := ftEntries_length_le (tableOf bytes)
    rw [List.length_append, packedBytes, List.length_map, List.length_range, headerBytes, symbolTable_eq]
    simp only [List.length_append, magic_length, leBytes_length, entryBytes_length, List.length_singleton, streamFor]
    omega

/-- The invariants after a command, but for the tree's and the codes'. -/
theorem inv_of_afterCommand {i : Instr} {s t : State} (h : s.Inv) (a : AfterCommand i s t) (hp : t.pay = []) (ht : t.TreeInv) (hc : t.CodeInv) : t.Inv := by
  have herr : t.ErrInv := by
    rcases a.ends with he | ⟨c, info, he, hk⟩
    · exact ⟨by rw [he.kind, he.cause]; rfl, fun _ => he.info, fun hne => absurd he.kind hne⟩
    · exact ⟨by rw [he.kind, he.cause], fun hn => absurd (he.kind ▸ hn) hk, fun _ => he.ended.done⟩
  have hidle : t.IdleInv := ⟨a.busy, a.phase, hp, a.queue h.idle.queue, a.stack h.idle.stack⟩
  have hin : Memory.wf t.inMem = true := by rw [a.inMem]; exact h.mem.inWf
  cases hw : writesOut i with
  | true =>
    rcases a.outVal hw with ⟨_, h2, h3⟩ | ⟨_, h2, h3⟩
    · obtain ⟨b1, b2⟩ := State.OutBuilt.holds h3
      exact ⟨⟨hin, b1⟩, ⟨fun _ => b2, fun hx => (by rw [h2] at hx; cases hx)⟩, hidle, herr, ht, hc⟩
    · exact ⟨⟨hin, by rw [h3]; rfl⟩, ⟨fun hx => (by rw [h2] at hx; cases hx), fun _ => h3⟩, hidle, herr, ht, hc⟩
  | false =>
    obtain ⟨h1, h2, h3⟩ := a.outSame hw
    refine ⟨⟨hin, by rw [h2]; exact h.mem.outWf⟩, ⟨fun hx => ?_, fun hx => ?_⟩, hidle, herr, ht, hc⟩
    · rw [h2, h3]; exact h.out.valid (h1 ▸ hx)
    · rw [h2]; exact h.out.invalid (h1 ▸ hx)

/-- Every command keeps the invariants. -/
theorem exec_keeps_inv {i : Instr} {s t : State} (h : s.Inv) (he : exec i s = .next t) : t.Inv := by
  by_cases hi : i = .clear
  · subst hi
    injection he with he
    subst he
    exact ⟨⟨h.mem.inWf, rfl⟩, ⟨fun hx => (by cases hx), fun _ => rfl⟩, ⟨rfl, rfl, rfl, rfl, rfl⟩, ⟨rfl, fun _ => rfl, fun hx => absurd rfl hx⟩, fun hx => (by cases hx), fun hx => (by cases hx)⟩
  · obtain ⟨t', ht', a⟩ := afterCommand i hi s
    rw [he] at ht'; injection ht' with ht'; subst ht'
    have keep : t.pay = s.pay → SameTree s t → SameCodes s t → t.Inv := by
      intro e0 et ec
      refine inv_of_afterCommand h a (by rw [e0]; exact h.idle.pay) ?_ ?_
      · intro hv; rw [et.node, et.ncount, et.root]; exact h.tree (et.treeValid ▸ hv)
      · intro hv; rw [et.node, et.root, et.treeValid, ec.ct]; exact h.codes (ec.ctValid ▸ hv)
    have gone : t.Discarded → t.Inv := fun hd =>
      inv_of_afterCommand h a hd.pay (fun hv => by rw [hd.treeValid] at hv; cases hv) (fun hv => by rw [hd.ctValid] at hv; cases hv)
    cases i with
    | clear => exact absurd rfl hi
    | fcount =>
      change execFcount s = _ at he
      rw [execFcount] at he
      obtain ⟨v, n, x, hb | ⟨info, hb⟩⟩ := countBody_cases (s.begin .count)
      all_goals
        rw [hb] at he
        injection he with he
        subst he
        refine keep ?_ ?_ ?_
        · simp [State.raise, writesOut]
        all_goals (constructor <;> simp [State.raise, writesOut])
    | buildTree =>
      change execBuildTree s = _ at he
      rw [execBuildTree] at he
      rcases buildBody_cases (s.begin .build) with ⟨h0, hlt, hb⟩ | ⟨c, hc, hb⟩
      all_goals
        rw [hb] at he
        injection he with he
        subst he
        refine inv_of_afterCommand h a ?_ ?_ ?_
        · simpa [State.raise, writesOut] using h.idle.pay
      · intro _
        simpa using builtNodes_wf h0 hlt
      · intro hv; simp at hv
      · intro hv; simp [State.raise, writesOut] at hv
      · intro hv; simp [State.raise, writesOut] at hv
    | genCodes =>
      change execGenCodes s = _ at he
      rw [execGenCodes] at he
      rcases hv : s.treeValid with _ | _
      · rw [genBody_noTree (by simpa using hv)] at he
        injection he with he
        subst he
        refine inv_of_afterCommand h a (by simpa [State.raise, writesOut] using h.idle.pay) ?_ ?_
        · intro hv'; simp [State.raise, writesOut, hv] at hv'
        · intro hv'; simp [State.raise, writesOut] at hv'
      · have hwf := h.tree hv
        rw [genBody_ok (s := s.begin .gen) (by simpa using hv) (by simpa using hwf)] at he
        injection he with he
        subst he
        refine inv_of_afterCommand h a (by simpa using h.idle.pay) ?_ ?_
        · intro _; simpa using hwf
        · intro _; exact ⟨by simpa using hv, by simpa using treeCodes_of hwf⟩
    | pack =>
      change execPack s = _ at he
      rw [execPack, packBody] at he
      by_cases hv : (s.begin .pack).openOut.ctValid = false
      · rw [if_pos hv] at he
        injection he with he
        subst he
        refine keep (by simp [State.raise, writesOut]) ?_ ?_
        all_goals (constructor <;> simp [State.raise, writesOut])
      · rw [if_neg hv] at he
        have hk := packAll_out_all (s.begin .pack).openOut
        cases hp : packAll outByte (s.begin .pack).openOut with
        | ok b u =>
          rw [hp] at hk he
          obtain ⟨m, l, b1, b2, b3, rfl⟩ := hk
          injection he with he
          subst he
          refine keep (by simp) ?_ ?_
          all_goals (constructor <;> simp)
        | raised e u =>
          rw [hp] at hk he
          obtain ⟨_, m, l, b1, b2, b3, rfl⟩ := hk
          injection he with he
          subst he
          refine keep (by simp [State.raise, writesOut]) ?_ ?_
          all_goals (constructor <;> simp [State.raise, writesOut])
    | unpack =>
      change execUnpack s = _ at he
      rw [execUnpack, unpackBody] at he
      by_cases hv : s.openUnpack.treeValid = false
      · rw [if_pos hv] at he
        injection he with he
        subst he
        refine keep (by simp [State.raise, writesOut]) ?_ ?_
        all_goals (constructor <;> simp [State.raise, writesOut])
      · rw [if_neg hv] at he
        have hk := walk_shape 0 s.openUnpack.trail.toNat s.openUnpack.origLen.toNat s.openUnpack
        cases hp : walk 0 s.openUnpack.trail.toNat s.openUnpack.origLen.toNat s.openUnpack with
        | ok b u =>
          rw [hp] at hk he
          obtain ⟨m, l, b1, b2, b3, b4, rfl⟩ := hk
          injection he with he
          subst he
          refine keep (by simp) ?_ ?_
          all_goals (constructor <;> simp)
        | raised e u =>
          rw [hp] at hk he
          obtain ⟨_, m, l, b1, b2, b3, b4, rfl⟩ := hk
          injection he with he
          subst he
          refine keep (by simp [State.raise, writesOut]) ?_ ?_
          all_goals (constructor <;> simp [State.raise, writesOut])
    | encode =>
      change execEncode s = _ at he
      rw [execEncode, execEncodeWith] at he
      apply gone
      revert he
      cases encodeBody Config.magic (s.begin .count).openOut with
      | ok b u => intro he; injection he with he; subst he; constructor <;> simp [State.closeEncode, State.discard]
      | raised b u => intro he; injection he with he; subst he; constructor <;> simp [State.raise, writesOut, State.closeEncode, State.discard]
    | decode =>
      change execDecode s = _ at he
      rw [execDecode, execDecodeWith] at he
      apply gone
      revert he
      cases decodeBody Config.magic s.openDecode with
      | ok b u => intro he; injection he with he; subst he; constructor <;> simp [State.closeDecode, State.discard]
      | raised b u => intro he; injection he with he; subst he; constructor <;> simp [State.raise, writesOut, State.closeDecode, State.discard]

/-- An action that writes nothing the invariants speak of keeps them. -/
theorem inv_of_same {s t : State} (h : s.Inv) (h1 : Memory.wf t.inMem = true) (e1 : t.outMem = s.outMem) (e2 : t.outLen = s.outLen) (e3 : t.outValid = s.outValid)
    (e4 : t.busy = s.busy) (e5 : t.phase = s.phase) (e6 : t.pay = s.pay) (e7 : t.q = s.q) (e8 : t.genStack = s.genStack)
    (e9 : t.errKind = s.errKind) (e10 : t.errCause = s.errCause) (e11 : t.errInfo = s.errInfo) (e12 : t.done = s.done)
    (et : SameTree s t) (ec : SameCodes s t) : t.Inv := by
  refine ⟨⟨h1, by rw [e1]; exact h.mem.outWf⟩, ⟨?_, ?_⟩, ⟨?_, ?_, ?_, ?_, ?_⟩, ⟨?_, ?_, ?_⟩, ?_, ?_⟩
  · rw [e3, e1, e2]; exact h.out.valid
  · rw [e3, e1]; exact h.out.invalid
  · rw [e4]; exact h.idle.busy
  · rw [e5]; exact h.idle.phase
  · rw [e6]; exact h.idle.pay
  · rw [e7]; exact h.idle.queue
  · rw [e8]; exact h.idle.stack
  · rw [e9, e10]; exact h.err.kind
  · rw [e9, e11]; exact h.err.info
  · rw [e9, e12]; exact h.err.done
  · intro hv; rw [et.node, et.ncount, et.root]; exact h.tree (et.treeValid ▸ hv)
  · intro hv; rw [et.node, et.root, et.treeValid, ec.ct]; exact h.codes (ec.ctValid ▸ hv)

end Sys2Proof.Machine
end

