-- ==== Sys2Proof/Tests/Slice0.lean ====
section
/-! SUPPORT. The model's own tests: the ill-formed command words, one word a command, one or two steps a command, and for
each statement with hypotheses a state and operands that meet them. -/

namespace Sys2Proof.Tests

open Sys2Proof.Machine

/-! ### WellFormed (30_encoding.md R90, R92) -/

theorem test_wf_refuses_reserved_bit : (CommandWord.mk 1 6).wf = false := by decide
theorem test_wf_refuses_illegal_op : (CommandWord.mk 0 8).wf = false := by decide
theorem test_wf_accepts_every_command : ∀ i ∈ commandRows.map CommandRow.instr, i.wf = true := by decide

/-! ### Decode: each command's word, bit by bit from R90 and R91 (`rsv` 0000, then `op`) -/

theorem test_decode_clear : Sys2Proof.decode 0b00000000 = .ok .clear := by decide
theorem test_decode_fcount : Sys2Proof.decode 0b00000001 = .ok .fcount := by decide
theorem test_decode_buildTree : Sys2Proof.decode 0b00000010 = .ok .buildTree := by decide
theorem test_decode_genCodes : Sys2Proof.decode 0b00000011 = .ok .genCodes := by decide
theorem test_decode_pack : Sys2Proof.decode 0b00000100 = .ok .pack := by decide
theorem test_decode_unpack : Sys2Proof.decode 0b00000101 = .ok .unpack := by decide
theorem test_decode_encode : Sys2Proof.decode 0b00000110 = .ok .encode := by decide
theorem test_decode_decode : Sys2Proof.decode 0b00000111 = .ok .decode := by decide
theorem test_decode_refuses_op_8 : Sys2Proof.decode 0b00001000 = .error .illegalOp := by decide
theorem test_decode_refuses_encode_with_rsv : Sys2Proof.decode 0b00010110 = .error .reservedField := by decide

/-! ### Small states -/

/-- The state an outcome answers; the reset state where it answers none. -/
def stateOf (o : Host.Outcome State Fault Refusal) : State :=
  match o with
  | .next t => t
  | .fault _ => State.reset
  | .refused _ => State.reset

/-- After reset, with these bytes loaded. -/
def withIn (bs : List Byte) : State := State.reset.loadBytes bs

/-- "HUFF", the placeholder magic of the spec's vectors (R8). -/
def huff : List Byte := [0x48, 0x55, 0x46, 0x46]

/-- A table of two symbols, A and B, once each. -/
def tableAB : Vector Count 256 := ftSet (ftSet ftZero 0x41 1) 0x42 1

/-- A table of one symbol, Z, five times (V3). -/
def tableZ : Vector Count 256 := ftSet ftZero 0x5A 5

/-- The spec's tree of V1, for "AAAABBBCCD", as vector V1 lists it. -/
def nodesV1 : List Node :=
  [.leaf 0x41 4, .leaf 0x42 3, .leaf 0x43 2, .leaf 0x44 1, .internal 3 3 2, .internal 6 4 1, .internal 10 0 5]

/-- The codes of V1: A "0", B "11", C "101", D "100". -/
def codesV1 : List Code :=
  (((noCodes.set 0x41 [false]).set 0x42 [true, true]).set 0x43 [true, false, true]).set 0x44 [true, false, false]

/-- A state that holds the tree and the codes of V1. -/
def stateV1 (bs : List Byte) : State :=
  (((((withIn bs).setNodes nodesV1 [] 7).setRoot 6 []).setTreeValid true).setGen codesV1 []).setCtValid true

/-- The bytes of OUT. -/
def outOf (s : State) : List Byte := s.outMem.map Prod.snd

/-- STATUS, ERR_CAUSE and ERR_INFO. -/
def endOf (s : State) : BitVec 8 × Cause × BitVec 64 := (s.status, s.errCause, s.errInfo)

/-! ### One step each, from the vectors of 95_test_vectors.md -/

/-- V89 -/
theorem test_clear : endOf (stateOf (exec .clear (stateV1 [0x41]))) = (0x00, .none, 0) ∧
    (stateOf (exec .clear (stateV1 [0x41]))).inLen = 1 := by decide

/-- V15 -/
theorem test_fcount_counts :
    let t := stateOf (exec .fcount (withIn [0x41, 0x41, 0x41, 0x41, 0x42, 0x42, 0x42, 0x43, 0x43, 0x44]))
    ftEntries t.ft = [(0x41, 4), (0x42, 3), (0x43, 2), (0x44, 1)] ∧ t.total = 10 ∧ t.status = 0x02 := by decide

/-- V16 -/
theorem test_fcount_unreadable :
    let t := stateOf (exec .fcount ((withIn [1, 2, 3]).setEnv { inBad := [1], outCap := none }))
    ftEntries t.ft = [] ∧ endOf t = (0x06, .srcUnreadable, 1) := by decide +kernel

/-- V6: an Internal node of the same frequency comes before a Leaf. -/
theorem test_buildTree_tie :
    let t := stateOf (exec .buildTree (State.reset.setFt (ftSet tableAB 0x43 2)))
    t.node = [.leaf 0x41 1, .leaf 0x42 1, .leaf 0x43 2, .internal 2 0 1, .internal 4 3 2] ∧ t.root = 4 ∧ t.ncount = 5 := by
  decide +kernel

/-- V18 -/
theorem test_buildTree_overflow :
    endOf (stateOf (exec .buildTree (State.reset.setFt (ftSet (ftSet ftZero 0x41 (0 - 1)) 0x42 1)))) =
      (0x06, .freqOverflow, 0) := by decide +kernel

/-- V1 -/
theorem test_genCodes : (stateOf (exec .genCodes ((stateV1 []).setGen [] []))).ct = codesV1 := by decide +kernel

/-- V20 -/
theorem test_genCodes_no_tree : endOf (stateOf (exec .genCodes State.reset)) = (0x06, .noTree, 0) := by decide

/-- V22 -/
theorem test_pack :
    let t := stateOf (exec .pack (stateV1 [0x41, 0x41, 0x41, 0x41, 0x42, 0x42, 0x42, 0x43, 0x43, 0x44]))
    outOf t = [0x0F, 0xED, 0x80] ∧ t.trail = 3 ∧ t.status = 0x3A := by decide

/-- V26 -/
theorem test_pack_no_code : endOf (stateOf (exec .pack (stateV1 [0x41, 0x42, 0x45]))) = (0x36, .noCode, 2) := by
  decide

/-- V29 -/
theorem test_unpack :
    outOf (stateOf (exec .unpack (((stateV1 [0x0F, 0xED, 0x80]).setTrail 3).setOrigLen 10))) =
      [0x41, 0x41, 0x41, 0x41, 0x42, 0x42, 0x42, 0x43, 0x43, 0x44] := by decide

/-- V31 -/
theorem test_unpack_exhausted :
    let t := stateOf (exec .unpack (((stateV1 [0x0F, 0xED, 0x80]).setTrail 2).setOrigLen 10))
    t.errCause = .payloadExhausted ∧ t.errInfo = 9 ∧ t.outLen = 9 := by decide

/-- V6 -/
theorem test_encode :
    outOf (stateOf (execEncodeWith huff (withIn [0x41, 0x42, 0x43, 0x43]))) =
      [0x48, 0x55, 0x46, 0x46, 4, 0, 0, 0, 0, 0, 0, 0, 3, 0, 0x41, 1, 0, 0, 0, 0, 0, 0, 0, 0x42, 1, 0, 0, 0, 0, 0, 0, 0,
        0x43, 2, 0, 0, 0, 0, 0, 0, 0, 6, 0x1C] := by decide +kernel

/-- V13 -/
theorem test_encode_full :
    let t := stateOf (execEncodeWith huff
      ((withIn [0x41, 0x41, 0x41, 0x41, 0x42, 0x42, 0x42, 0x43, 0x43, 0x44]).setEnv { inBad := [], outCap := some 20 }))
    endOf t = (0x06, .dstUnwritable, 20) ∧ t.outLen = 20 ∧ t.origLen = 10 ∧ t.symCount = 4 ∧ t.trail = 3 := by decide +kernel

/-- V12 -/
theorem test_decode_container :
    outOf (stateOf (execDecodeWith huff
      (withIn [0x48, 0x55, 0x46, 0x46, 3, 0, 0, 0, 0, 0, 0, 0, 2, 0, 0x00, 1, 0, 0, 0, 0, 0, 0, 0,
        0xFF, 2, 0, 0, 0, 0, 0, 0, 0, 3, 0xA0]))) = [0xFF, 0x00, 0xFF] := by decide +kernel

/-- V84: the sum is a natural number. -/
theorem test_decode_sum_is_natural :
    endOf (stateOf (execDecodeWith huff
      (withIn [0x48, 0x55, 0x46, 0x46, 1, 0, 0, 0, 0, 0, 0, 0, 2, 0, 0x41, 0, 0, 0, 0, 0, 0, 0, 0x80,
        0x42, 1, 0, 0, 0, 0, 0, 0, 0x80, 0, 0]))) = (0x06, .lengthMismatch, 1) := by decide

/-- V90: an illegal word changes no other state. -/
theorem test_illegal_word : endOf (stateOf (hostStep (.writeReg 0x000 0x16) (stateV1 []))) = (0x36, .illegalCommand, 0x16) := by
  decide

/-- A CMD write placed after reset runs as the next step (R34): BUILD_TREE on the empty table (V17). -/
theorem test_step_runs_fetched_word :
    endOf (stateOf (step (State.reset.withFetchWord 8 0x02))) = (0x06, .emptyTable, 0) := by decide +kernel

/-! ### Witnesses: for each statement with hypotheses, what meets them -/

/-- The tree of a table, as BUILD_TREE leaves it. -/
def treeOf (ft : Vector Count 256) : State := (State.reset.setFt ft).plant (builtNodes ft) (builtRoot ft)

/-- The tree and the codes of A and B once each, with bytes in IN. -/
def codedAB (bs : List Byte) : State :=
  (((treeOf tableAB).setGen (treeCodes (builtNodes tableAB) (builtRoot tableAB)) []).setCtValid true).loadBytes bs

/-- The largest table that is accepted, and the smallest that overflows. -/
def tableMax : Vector Count 256 := ftSet ftZero 0x41 (0 - 1)

theorem tables_ok : (ftSum tableAB ≠ 0 ∧ ftSum tableAB < 2 ^ 64) ∧ (ftSum tableZ ≠ 0 ∧ ftSum tableZ < 2 ^ 64) ∧
    (ftSum tableMax ≠ 0 ∧ ftSum tableMax < 2 ^ 64 ∧ ftSum tableMax + 1 = 2 ^ 64) ∧
    (ftAt (ftSet tableMax 0x42 1) 0x41 ≠ 0 ∧ ftSum (ftSet tableMax 0x42 1) = 2 ^ 64) := by decide +kernel
theorem tableAB_ok : ftSum tableAB ≠ 0 ∧ ftSum tableAB < 2 ^ 64 := tables_ok.1
theorem tableZ_ok : ftSum tableZ ≠ 0 ∧ ftSum tableZ < 2 ^ 64 := tables_ok.2.1
theorem present_AB : present tableAB = [0x41, 0x42] := by decide

theorem treeAB_inv : (treeOf tableAB).TreeInv := fun _ => builtNodes_wf tableAB_ok.1 tableAB_ok.2
theorem treeZ_inv : (treeOf tableZ).TreeInv := fun _ => builtNodes_wf tableZ_ok.1 tableZ_ok.2
theorem codesAB_of : CodesOf (builtNodes tableAB) (builtRoot tableAB) (treeCodes (builtNodes tableAB) (builtRoot tableAB)) :=
  treeCodes_of (builtNodes_wf tableAB_ok.1 tableAB_ok.2)
theorem codesZ_of : CodesOf (builtNodes tableZ) (builtRoot tableZ) (treeCodes (builtNodes tableZ) (builtRoot tableZ)) :=
  treeCodes_of (builtNodes_wf tableZ_ok.1 tableZ_ok.2)

/-- With no offset of IN_BAD every IN is readable. -/
theorem readable_of {s : State} (h : s.env.inBad = []) : s.Readable := fun o _ => by rw [State.inBadAt, h]; rfl

/-- With OUT_CAP infinite there is room for whatever OUT_LEN can count. -/
theorem canHold_of {s : State} {n : Nat} (h : s.env.outCap = none) (hn : n < 2 ^ 64) : s.CanHold n :=
  ⟨fun c hc => (by rw [h] at hc; cases hc), hn⟩

theorem witness_DecodeEncodeAgree : Instr.decode.wf = true ∧ Sys2Proof.decode 0x07 = .ok .decode := by decide

theorem witness_IllegalWordEndsAtOnce : State.reset.busy = false ∧ State.reset.phase = .idle ∧
    8 ≤ ((0x08 : Byte).extractLsb' 0 4).toNat ∧ (0x10 : Byte).extractLsb' 4 4 ≠ 0 := by decide

theorem witness_StepRunsDecodedCommand_queue :
    let s := State.reset.setHostQ [.writeReg 0x000 0x07]
    s.busy = false ∧ s.hostQ = .writeReg 0x000 0x07 :: [] ∧ Sys2Proof.decode ((0x07 : BitVec 64).setWidth 8) = .ok .decode := by
  decide
theorem witness_StepRunsDecodedCommand_word : State.reset.busy = false ∧ decodeTableWord 8 7 = some .decode := by decide
theorem witness_StepRunsDecodedCommand_busy :
    let s := (State.reset.begin .count).setHostQ [.readReg 0x002]
    s.busy = true ∧ s.hostQ = .readReg 0x002 :: [] ∧ HostAction.readReg 0x002 ≠ .readReg 0x001 := by decide

theorem witness_NothingRunsAfterReset : ∃ t, (t = State.reset ∨ hostStep .reset State.reset = .next t) ∧ t.hostQ = [] :=
  ⟨State.reset, .inl rfl, rfl⟩
/-- a read, a host write of FT[0], the host's move of nothing, a reset -/
theorem witness_NothingRunsAfterReset_pending : ∀ a ∈ [HostAction.readReg 0x001, .writeReg 0x100 7, .loadIn [], .reset],
    let s := State.reset.setHostQ [a]
    s.busy = false ∧ s.hostQ = a :: [] ∧ (∀ v, a ≠ .writeReg 0x000 v) ∧ ∃ u, step s = .next u := by
  intro a ha
  simp only [List.mem_cons, List.not_mem_nil, or_false] at ha
  rcases ha with rfl | rfl | rfl | rfl <;> exact ⟨rfl, rfl, by simp, _, rfl⟩
/-- With one offset in IN_BAD, that is the first unreadable one. -/
theorem firstBad_of {s : State} {p : Nat} (h : s.env.inBad = [p]) : s.ReadableTo p ∧ s.inBadAt p = true := by
  constructor
  · intro o ho
    rw [State.inBadAt, h]
    simp; omega
  · rw [State.inBadAt, h]
    simp

theorem witness_ResetMeetsInvariants : ∃ t, hostStep .reset State.reset = .next t := ⟨_, rfl⟩

theorem witness_FcountCountsInput : (withIn [0x41, 0x41]).Readable ∧ (withIn [0x41, 0x41]).inLen = 2 := ⟨readable_of rfl, rfl⟩
theorem witness_FcountCountsInput_empty : State.reset.Readable ∧ State.reset.inLen = 0 := ⟨readable_of rfl, rfl⟩

/-- Three bytes of which the last offset is unreadable. -/
def lastBad : State := (withIn [1, 2, 3]).setEnv { inBad := [2], outCap := none }
theorem witness_FcountErrors : 2 < lastBad.inLen.toNat ∧ lastBad.inBadAt 2 = true ∧ ∀ k, k < 2 → lastBad.inBadAt k = false := by
  decide

theorem witness_BuildTree_table : ftSum (State.reset.setFt tableAB).ft ≠ 0 ∧ ftSum (State.reset.setFt tableAB).ft < 2 ^ 64 ∧
    2 ≤ (present (State.reset.setFt tableAB).ft).length :=
  ⟨tableAB_ok.1, tableAB_ok.2, by rw [State.setFt_ft, present_AB]; decide⟩
/-- the largest sum that is accepted -/
theorem witness_BuildTree_largest : let s := State.reset.setFt tableMax
    ftSum s.ft ≠ 0 ∧ ftSum s.ft < 2 ^ 64 ∧ ftSum s.ft + 1 = 2 ^ 64 := tables_ok.2.2.1
theorem witness_BuildTreeSingleSymbol : present (State.reset.setFt tableZ).ft = [0x5A] := by decide
theorem witness_BuildTreeOutcomes_empty : ∀ b, ftAt State.reset.ft b = 0 := by decide
theorem witness_BuildTreeOutcomes_overflow : let s := State.reset.setFt (ftSet tableMax 0x42 1)
    ftAt s.ft 0x41 ≠ 0 ∧ ftSum s.ft = 2 ^ 64 := tables_ok.2.2.2
theorem witness_BuildTreeFunctionOfTable : ∃ t t', (State.reset.setFt tableAB).ft = ((withIn [7]).setFt tableAB).ft ∧
    exec .buildTree (State.reset.setFt tableAB) = .next t ∧ exec .buildTree ((withIn [7]).setFt tableAB) = .next t' ∧
    t.treeValid = true :=
  ⟨_, _, rfl, exec_buildTree_ok tableAB_ok.1 tableAB_ok.2, exec_buildTree_ok tableAB_ok.1 tableAB_ok.2, rfl⟩
theorem witness_BuildTreeFrame : (State.reset.setFt tableAB).q = [] := rfl

theorem witness_GenCodes_tree : (treeOf tableAB).treeValid = true ∧ (treeOf tableAB).TreeInv := ⟨rfl, treeAB_inv⟩
theorem witness_GenCodesPrefixFree : (0x41 : Byte) ≠ 0x42 ∧
    codeOf (treeCodes (builtNodes tableAB) (builtRoot tableAB)) 0x41 ≠ [] ∧
    codeOf (treeCodes (builtNodes tableAB) (builtRoot tableAB)) 0x42 ≠ [] := by decide
theorem witness_GenCodesOutcomes_none : State.reset.treeValid = false := rfl
theorem witness_GenCodesOutcomes_single : (treeOf tableZ).treeValid = true ∧ (5 : Count) ≠ 0 ∧ (treeOf tableZ).ncount = 3 ∧
    (treeOf tableZ).root = 2 ∧ (treeOf tableZ).node = [.leaf 0x5A 5, .leaf 0 0, .internal 5 0 1] := by decide
theorem witness_MinimumCodeLength : let s := withIn [0x5A, 0x5A]
    s.Readable ∧ s.inLen ≠ 0 ∧ ∀ c ∈ s.inBytes, c = 0x5A :=
  ⟨readable_of rfl, by decide, by decide⟩
theorem witness_GenCodesFrame : (treeOf tableAB).genStack = [] := rfl

/-- What the PACK witnesses need of the codes. -/
theorem codedAB_ok :
    ((∀ b ∈ (codedAB [0x41, 0x42]).inBytes, codeOf (codedAB [0x41, 0x42]).ct b ≠ []) ∧
      ((codeBits (codedAB [0x41, 0x42]).ct (codedAB [0x41, 0x42]).inBytes).length + 7) / 8 < 2 ^ 64) ∧
    ∀ c ∈ [(0x42 : Byte), 0x43],
      (∀ b ∈ (codedAB [0x41, c]).inBytes.take 1, codeOf (codedAB [0x41, c]).ct b ≠ []) ∧
      (codeBits (codedAB [0x41, c]).ct ((codedAB [0x41, c]).inBytes.take 1)).length / 8 < 2 ^ 64 ∧
      (c = 0x43 → codeOf (codedAB [0x41, c]).ct ((codedAB [0x41, c]).inByte 1) = []) := by decide +kernel
theorem witness_PackWritesBitStream : let s := codedAB [0x41, 0x42]
    s.ctValid = true ∧ s.Readable ∧ (∀ b ∈ s.inBytes, codeOf s.ct b ≠ []) ∧
      s.CanHold (((codeBits s.ct s.inBytes).length + 7) / 8) :=
  ⟨rfl, readable_of rfl, codedAB_ok.1.1, canHold_of rfl codedAB_ok.1.2⟩
theorem witness_PackErrors_unreadable : let s := (codedAB [0x41, 0x42]).setEnv { inBad := [1], outCap := none }
    s.ctValid = true ∧ 1 < s.inLen.toNat ∧ (∀ k, k < 1 → s.inBadAt k = false) ∧
      (∀ b ∈ s.inBytes.take 1, codeOf s.ct b ≠ []) ∧ s.CanHold ((codeBits s.ct (s.inBytes.take 1)).length / 8) ∧
      s.inBadAt 1 = true :=
  ⟨rfl, by decide, by decide, (codedAB_ok.2 0x42 (by decide)).1, canHold_of rfl (codedAB_ok.2 0x42 (by decide)).2.1, rfl⟩
theorem witness_PackErrors_noCode : let s := codedAB [0x41, 0x43]
    s.ctValid = true ∧ 1 < s.inLen.toNat ∧ (∀ k, k < 1 → s.inBadAt k = false) ∧
      (∀ b ∈ s.inBytes.take 1, codeOf s.ct b ≠ []) ∧ s.CanHold ((codeBits s.ct (s.inBytes.take 1)).length / 8) ∧
      s.inBadAt 1 = false ∧ codeOf s.ct (s.inByte 1) = [] :=
  ⟨rfl, by decide, by decide, (codedAB_ok.2 0x43 (by decide)).1, canHold_of rfl (codedAB_ok.2 0x43 (by decide)).2.1, rfl,
    (codedAB_ok.2 0x43 (by decide)).2.2 rfl⟩
/-- nine bytes of which the last has no code, and "AB" -/
def packedFull : List (List Byte × Nat) := [(List.replicate 8 0x41 ++ [0x43], 8), ([0x41, 0x42], 2)]
theorem packedFull_ok : ∀ p ∈ packedFull,
    let s := codedAB p.1
    p.2 ≤ s.inLen.toNat ∧ (∀ b ∈ s.inBytes.take p.2, codeOf s.ct b ≠ []) ∧
      (0 < (codeBits s.ct (s.inBytes.take p.2)).length / 8 ∨
        (p.2 = s.inLen.toNat ∧ 0 < ((codeBits s.ct s.inBytes).length + 7) / 8)) := by decide +kernel
/-- a whole byte at the front of the stream, and the padded byte at its end, for an OUT that takes none -/
theorem witness_PackErrors_full : ∀ p ∈ packedFull,
    let s := (codedAB p.1).setEnv { inBad := [], outCap := some 0 }
    s.ctValid = true ∧ p.2 ≤ s.inLen.toNat ∧ (∀ k, k < p.2 → s.inBadAt k = false) ∧
      (∀ b ∈ s.inBytes.take p.2, codeOf s.ct b ≠ []) ∧ s.env.outCap = some 0 ∧ 0 < 2 ^ 64 ∧
      (0 < (codeBits s.ct (s.inBytes.take p.2)).length / 8 ∨
        (p.2 = s.inLen.toNat ∧ 0 < ((codeBits s.ct s.inBytes).length + 7) / 8)) := by
  intro p hp
  obtain ⟨h1, h2, h3⟩ := packedFull_ok p hp
  refine ⟨rfl, h1, fun _ _ => rfl, ?_, rfl, by decide, ?_⟩
  · rw [State.setEnv_inBytes]; exact h2
  · rw [State.setEnv_inBytes]; exact h3

/-- The payload of "AB" and its tree (V12). -/
def unpackAB : State := ((codedAB [0x40]).setTrail 2).setOrigLen 2
theorem unpackAB_inv : unpackAB.TreeInv := fun _ => builtNodes_wf tableAB_ok.1 tableAB_ok.2
theorem witness_UnpackEmitsSymbols : let ct := treeCodes (builtNodes tableAB) (builtRoot tableAB)
    unpackAB.treeValid = true ∧ unpackAB.TreeInv ∧ CodesOf unpackAB.node unpackAB.root ct ∧
      (∀ b ∈ ([0x41, 0x42] : List Byte), b ∈ leafSymbols unpackAB.node) ∧ [0x41, 0x42].length = unpackAB.origLen.toNat ∧
      usableBits unpackAB.inBytes unpackAB.trail.toNat = codeBits ct [0x41, 0x42] ++ [] ∧
      unpackAB.ReadableTo (((codeBits ct [0x41, 0x42]).length + 7) / 8) ∧ unpackAB.CanHold 2 :=
  ⟨rfl, unpackAB_inv, codesAB_of, by decide, rfl, by decide, fun _ _ => rfl, canHold_of rfl (by decide)⟩
theorem witness_UnpackNothing : (treeOf tableAB).treeValid = true ∧ (treeOf tableAB).origLen = 0 := ⟨rfl, rfl⟩
theorem witness_UnpackExhausted : let ct := treeCodes (builtNodes tableAB) (builtRoot tableAB)
    let s := unpackAB.setOrigLen 3
    s.treeValid = true ∧ s.TreeInv ∧ CodesOf s.node s.root ct ∧ (∀ b ∈ ([0x41, 0x42] : List Byte), b ∈ leafSymbols s.node) ∧
      [0x41, 0x42].length < s.origLen.toNat ∧ s.inLen ≠ 0 ∧
      usableBits s.inBytes s.trail.toNat = codeBits ct [0x41, 0x42] ++ [] ∧
      followPath s.node s.root [] = some 2 ∧ nodeAt s.node 2 = some (.internal 2 0 1) ∧ s.Readable ∧ s.CanHold 2 :=
  ⟨rfl, unpackAB_inv, codesAB_of, by decide, by decide, by decide, by decide, by decide,
    by decide, readable_of rfl, canHold_of rfl (by decide)⟩
/-- V36 with one symbol before the dummy leaf. -/
theorem witness_UnpackDummyLeaf : let ct := treeCodes (builtNodes tableZ) (builtRoot tableZ)
    let s := (((treeOf tableZ).loadBytes [0x40]).setTrail 2).setOrigLen 2
    s.treeValid = true ∧ s.TreeInv ∧ CodesOf s.node s.root ct ∧ (∀ b ∈ ([0x5A] : List Byte), b ∈ leafSymbols s.node) ∧
      [0x5A].length < s.origLen.toNat ∧ usableBits s.inBytes s.trail.toNat = codeBits ct [0x5A] ++ ([] ++ true :: []) ∧
      followPath s.node s.root [] = some 2 ∧ childOf s.node 2 true = some 1 ∧ nodeAt s.node 1 = some (.leaf 0 0) ∧
      s.Readable ∧ s.CanHold 1 :=
  ⟨rfl, treeZ_inv, codesZ_of, by decide, by decide, by decide, by decide, by decide,
    by decide, readable_of rfl, canHold_of rfl (by decide)⟩
theorem witness_UnpackOutcomes : State.reset.TreeInv ∧ State.reset.treeValid = false := ⟨fun h => (by cases h), rfl⟩
/-- the second byte of a payload of two, behind eight symbols -/
theorem witness_UnpackOutcomes_unreadable : let ct := treeCodes (builtNodes tableAB) (builtRoot tableAB)
    let syms : List Byte := [0x41, 0x42, 0x41, 0x42, 0x41, 0x42, 0x41, 0x42]
    let s := (((codedAB [0x55, 0x40]).setTrail 2).setOrigLen 10).setEnv { inBad := [1], outCap := none }
    s.treeValid = true ∧ CodesOf s.node s.root ct ∧ (∀ b ∈ syms, b ∈ leafSymbols s.node) ∧ syms.length < s.origLen.toNat ∧
      usableBits s.inBytes s.trail.toNat = codeBits ct syms ++ ([] ++ false :: [true]) ∧
      followPath s.node s.root [] = some 2 ∧ nodeAt s.node 2 = some (.internal 2 0 1) ∧
      (codeBits ct syms).length + ([] : Code).length = 8 * 1 ∧ s.ReadableTo 1 ∧ s.inBadAt 1 = true ∧ s.CanHold syms.length :=
  ⟨rfl, codesAB_of, by decide, by decide, by decide, by decide, by decide, by decide, (firstBad_of rfl).1, (firstBad_of rfl).2,
    canHold_of rfl (by decide)⟩
/-- room for one symbol of two -/
theorem witness_UnpackOutcomes_full : let ct := treeCodes (builtNodes tableAB) (builtRoot tableAB)
    let s := unpackAB.setEnv { inBad := [], outCap := some 1 }
    s.treeValid = true ∧ CodesOf s.node s.root ct ∧ (∀ b ∈ ([0x41, 0x42] : List Byte), b ∈ leafSymbols s.node) ∧
      s.env.outCap = some 1 ∧ [0x41, 0x42].length = 1 + 1 ∧ [0x41, 0x42].length ≤ s.origLen.toNat ∧
      usableBits s.inBytes s.trail.toNat = codeBits ct [0x41, 0x42] ++ [] ∧
      s.ReadableTo (((codeBits ct [0x41, 0x42]).length + 7) / 8) :=
  ⟨rfl, codesAB_of, by decide, rfl, rfl, by decide, by decide, fun _ _ => rfl⟩
theorem witness_PackUnpackInverse : let s := codedAB [0x41, 0x42]
    s.treeValid = true ∧ s.TreeInv ∧ s.ctValid = true ∧ s.CodeInv ∧ s.env.inBad = [] ∧
      (∀ b ∈ s.inBytes, b ∈ leafSymbols s.node) ∧ s.CanHold s.inLen.toNat ∧
      s.CanHold (((codeBits s.ct s.inBytes).length + 7) / 8) :=
  ⟨rfl, fun _ => builtNodes_wf tableAB_ok.1 tableAB_ok.2, rfl, fun _ => ⟨rfl, codesAB_of⟩, rfl, by decide,
    canHold_of rfl (by decide), canHold_of rfl (by decide)⟩

/-! Containers, for whatever magic. -/

/-- The container of "AB" for the machine's magic (V12), without its payload. -/
def headerAB : List Byte :=
  Config.magic ++ leBytes 8 (ftSum tableAB) ++ leBytes 2 (present tableAB).length ++
    (present tableAB).flatMap (fun b => b :: leBytes 8 (ftAt tableAB b).toNat)

theorem headerAB_length : headerAB.length = 32 := by simp [headerAB, magic_length, present_AB]

theorem inBytes_withIn {bs : List Byte} (h : bs.length < 2 ^ 64) : (withIn bs).inBytes = bs := loadBytes_inBytes _ h

/-- The conclusion's hypothesis on room, for the input "AB". -/
theorem witness_EncodeWritesContainer : let s := withIn [0x41, 0x42]
    s.Readable ∧ s.inLen ≠ 0 ∧ s.CanHold (headerAB ++ [0x02] ++ [0x40]).length :=
  ⟨readable_of rfl, by decide, canHold_of rfl (by rw [List.length_append, List.length_append, headerAB_length]; decide)⟩
theorem witness_EncodeEmptyInput : let s := State.reset.setEnv { inBad := [], outCap := some 15 }
    s.inLen = 0 ∧ s.CanHold 15 := ⟨rfl, fun c hc => (by injection hc with hc; omega), by decide⟩
theorem witness_EncodeErrors_unreadable :
    2 < lastBad.inLen.toNat ∧ lastBad.inBadAt 2 = true ∧ ∀ k, k < 2 → lastBad.inBadAt k = false := by decide
theorem witness_EncodeErrors_full : ∃ (s u : State) (bytes : List Byte), s.Readable ∧
    exec .encode (s.setEnv { s.env with outCap := none }) = .next u ∧ u.EndsOk ∧ OutHolds u bytes ∧ s.env.outCap = some 0 ∧
      0 < bytes.length := by
  have hin : ((withIn []).setEnv { inBad := [], outCap := none }).inBytes = [] := inBytes_withIn (by decide)
  obtain ⟨u, h1, h2, _, h3, _⟩ := exec_encode_ok (s := (withIn []).setEnv { inBad := [], outCap := none }) (readable_of rfl)
    (canHold_of rfl (by rw [hin]; decide))
  refine ⟨(withIn []).setEnv { inBad := [], outCap := some 0 }, u, _, readable_of rfl, h1, h2, h3, rfl, ?_⟩
  rw [hin]; decide
theorem witness_HeaderConsistency : ∃ t, exec .encode State.reset = .next t ∧ t.EndsOk := by
  have hin : State.reset.inBytes = [] := rfl
  obtain ⟨t, h1, h2, _⟩ := exec_encode_ok (s := State.reset) (readable_of rfl) (canHold_of rfl (by rw [hin]; decide))
  exact ⟨t, h1, h2⟩
theorem witness_EncodeDeterministic : ∃ s s' t t', s.inBytes = s'.inBytes ∧ exec .encode s = .next t ∧
    exec .encode s' = .next t' ∧ t.EndsOk ∧ t'.EndsOk := by
  obtain ⟨t, h1, h2⟩ := witness_HeaderConsistency
  exact ⟨State.reset, State.reset, t, t, rfl, h1, h1, h2, h2⟩
theorem witness_EncodeFrame : State.reset.q = [] ∧ State.reset.genStack = [] := ⟨rfl, rfl⟩
theorem witness_DecodeFrame : State.reset.q = [] ∧ State.reset.genStack = [] := ⟨rfl, rfl⟩

/-- a wrong byte at once, and an end of the stream at the last byte of the magic -/
theorem witness_DecodeChecksMagic_first : let s := withIn [Config.magicByte 0 ^^^ 0xFF]
    (∀ i, i < 0 → s.inBytes[i]? = Config.magic[i]?) ∧ s.inBytes[0]? ≠ Config.magic[0]? ∧ s.ReadableTo 1 := by
  refine ⟨fun i hi => by omega, ?_, fun _ _ => rfl⟩
  rw [inBytes_withIn (by simp)]
  intro h
  simp [Config.magic] at h
theorem witness_DecodeChecksMagic_last : let s := withIn (Config.magic.take 3)
    (∀ i, i < 3 → s.inBytes[i]? = Config.magic[i]?) ∧ s.inBytes[3]? ≠ Config.magic[3]? ∧ s.ReadableTo 4 := by
  have hin := inBytes_withIn (bs := Config.magic.take 3) (by decide)
  refine ⟨fun i hi => ?_, ?_, fun _ _ => rfl⟩
  · rw [hin, List.getElem?_take, if_pos hi]
  · rw [hin]; simp [Config.magic]
theorem witness_DecodeReadsLength_zero : let s := withIn (Config.magic ++ leBytes 8 0)
    s.inBytes = Config.magic ++ leBytes 8 0 ++ [] ∧ s.ReadableTo 12 :=
  ⟨by rw [inBytes_withIn (by simp [magic_length])]; simp, fun _ _ => rfl⟩
theorem witness_DecodeReadsLength_cut : let s := withIn (Config.magic ++ [1, 0, 0, 0, 0, 0, 0])
    s.inBytes = Config.magic ++ [1, 0, 0, 0, 0, 0, 0] ∧ ([1, 0, 0, 0, 0, 0, 0] : List Byte).length < 8 ∧ s.Readable :=
  ⟨inBytes_withIn (by simp [magic_length]), by decide, readable_of rfl⟩
theorem witness_DecodeSingleSymbol : let s := withIn (Config.magic ++ leBytes 8 5 ++ leBytes 2 1 ++ (0x5A :: leBytes 8 5))
    s.inBytes = Config.magic ++ leBytes 8 5 ++ leBytes 2 1 ++ (0x5A :: leBytes 8 5) ++ [] ∧ s.ReadableTo 23 ∧ s.CanHold 5 :=
  ⟨by rw [inBytes_withIn (by simp [magic_length])]; simp, fun _ _ => rfl, canHold_of rfl (by decide)⟩
theorem witness_DecodeChecksTable_cut : let s := withIn (Config.magic ++ leBytes 8 5 ++ [1])
    s.inBytes = Config.magic ++ leBytes 8 5 ++ [1] ∧ ([1] : List Byte).length < 2 ∧ s.Readable :=
  ⟨inBytes_withIn (by simp [magic_length]), by decide, readable_of rfl⟩
/-- one above the largest symbol count, none, and a table that is cut -/
theorem witness_DecodeChecksTable_count : ∀ n ∈ [257, 0, 256],
    let s := withIn (Config.magic ++ leBytes 8 5 ++ leBytes 2 n)
    n < 2 ^ 16 ∧ s.inBytes = Config.magic ++ leBytes 8 5 ++ leBytes 2 n ++ [] ∧ s.ReadableTo 14 := by
  intro n hn
  refine ⟨?_, by rw [inBytes_withIn (by simp [magic_length])]; simp, fun _ _ => rfl⟩
  simp at hn; omega
/-- a table of one entry -/
def oneEntry : List (Byte × Count) := [(0x41, 1)]
theorem entries_one_nonzero : ∀ p ∈ oneEntry, p.2 ≠ 0 := by simp [oneEntry]
theorem entries_one_sum : countSum (oneEntry.map Prod.snd) ≠ 5 := by decide
/-- the entry after (0x41, 1): a symbol not above it, and a frequency 0 -/
theorem witness_DecodeChecksTable_entry : ∀ p ∈ [((0x41 : Byte), (1 : Count)), (0x42, 0)],
    let s := withIn (Config.magic ++ leBytes 8 5 ++ leBytes 2 2 ++ oneEntry.flatMap (fun p => p.1 :: leBytes 8 p.2.toNat) ++
      (p.1 :: leBytes 8 p.2.toNat))
    oneEntry.length < 2 ∧
      s.inBytes = Config.magic ++ leBytes 8 5 ++ leBytes 2 2 ++ oneEntry.flatMap (fun p => p.1 :: leBytes 8 p.2.toNat) ++
        (p.1 :: leBytes 8 p.2.toNat) ++ [] ∧
      14 + 9 * 2 ≤ s.inLen.toNat ∧ s.ReadableTo (23 + 9 * oneEntry.length) ∧
      oneEntry.Pairwise (fun p p' => p.1.toNat < p'.1.toNat) ∧ (∀ p ∈ oneEntry, p.2 ≠ 0) ∧
      ((∃ q ∈ oneEntry, p.1.toNat ≤ q.1.toNat) ∨ ((∀ q ∈ oneEntry, q.1.toNat < p.1.toNat) ∧ p.2 = 0)) := by
  intro p hp
  refine ⟨by decide, by rw [inBytes_withIn (by simp [magic_length, oneEntry])]; simp [oneEntry], ?_, fun _ _ => rfl, by decide, entries_one_nonzero, ?_⟩
  · show 32 ≤ (BitVec.ofNat 64 _).toNat
    simp [magic_length, oneEntry]
  · simp at hp
    rcases hp with rfl | rfl <;> simp [oneEntry]
theorem witness_DecodeChecksTable_sum :
    let s := withIn (Config.magic ++ leBytes 8 5 ++ leBytes 2 1 ++ oneEntry.flatMap (fun p => p.1 :: leBytes 8 p.2.toNat))
    1 ≤ oneEntry.length ∧ oneEntry.length ≤ 256 ∧
      s.inBytes = Config.magic ++ leBytes 8 5 ++ leBytes 2 oneEntry.length ++ oneEntry.flatMap (fun p => p.1 :: leBytes 8 p.2.toNat) ++ [] ∧
      s.ReadableTo (14 + 9 * oneEntry.length) ∧ oneEntry.Pairwise (fun p p' => p.1.toNat < p'.1.toNat) ∧ (∀ p ∈ oneEntry, p.2 ≠ 0) ∧
      countSum (oneEntry.map Prod.snd) ≠ 5 :=
  ⟨by decide, by decide, by rw [inBytes_withIn (by simp [magic_length, oneEntry])]; simp [oneEntry], fun _ _ => rfl, by decide, entries_one_nonzero, entries_one_sum⟩

/-- no trailing-bits byte, the largest that is accepted, and one above it -/
theorem witness_DecodeChecksTrailing : ∀ rest ∈ [([] : List Byte), [7], [8]],
    2 ≤ (present tableAB).length ∧ ftSum tableAB < 2 ^ 64 ∧ (withIn (headerAB ++ rest)).inBytes = headerAB ++ rest ∧
      (withIn (headerAB ++ rest)).ReadableTo (15 + 9 * (present tableAB).length) := by
  intro rest hr
  refine ⟨by decide, tableAB_ok.2, inBytes_withIn ?_, fun _ _ => rfl⟩
  rw [List.length_append, headerAB_length]
  simp at hr
  rcases hr with rfl | rfl | rfl <;> decide
theorem witness_EmptyPayload_unpack : let s := (treeOf tableAB).setOrigLen 1
    s.treeValid = true ∧ s.origLen ≠ 0 ∧ s.inLen = 0 := ⟨rfl, by decide, rfl⟩
theorem witness_EmptyPayload_decode : 2 ≤ (present tableAB).length ∧ ftSum tableAB < 2 ^ 64 ∧ (7 : Byte).toNat ≤ 7 ∧
    (withIn (headerAB ++ [7])).Readable ∧ (withIn (headerAB ++ [7])).inBytes = headerAB ++ [7] :=
  ⟨by decide, tableAB_ok.2, by decide, readable_of rfl,
    inBytes_withIn (by rw [List.length_append, headerAB_length]; decide)⟩
/-- "AB" whole, and "A" with nothing behind it -/
theorem witness_DecodeWalksPayload : ∃ w, exec .buildTree (State.reset.setFt tableAB) = .next w ∧
    2 ≤ (present (State.reset.setFt tableAB).ft).length ∧ ftSum (State.reset.setFt tableAB).ft < 2 ^ 64 ∧
    CodesOf w.node w.root (treeCodes (builtNodes tableAB) (builtRoot tableAB)) ∧
    ∀ p ∈ [(([0x41, 0x42] : List Byte), (2 : Byte), ([0x40] : List Byte)), ([0x41], 1, [0x00])],
      (∀ b ∈ p.1, b ∈ present (State.reset.setFt tableAB).ft) ∧ p.2.1.toNat ≤ 7 ∧ p.2.2 ≠ [] ∧
      (withIn (headerAB ++ [p.2.1] ++ p.2.2)).Readable ∧ (withIn (headerAB ++ [p.2.1] ++ p.2.2)).CanHold p.1.length ∧
      (withIn (headerAB ++ [p.2.1] ++ p.2.2)).inBytes = headerAB ++ [p.2.1] ++ p.2.2 ∧
      usableBits p.2.2 p.2.1.toNat = codeBits (treeCodes (builtNodes tableAB) (builtRoot tableAB)) p.1 ++ [] ∧
      (p.1.length = ftSum tableAB ∨
        (p.1.length < ftSum tableAB ∧ followPath w.node w.root [] = some 2 ∧ nodeAt w.node 2 = some (.internal 2 0 1))) := by
  refine ⟨_, exec_buildTree_ok tableAB_ok.1 tableAB_ok.2, by decide, tableAB_ok.2, codesAB_of, fun p hp => ?_⟩
  have hlen : p.1.length ≤ 2 ∧ p.2.2.length = 1 := by
    simp at hp
    rcases hp with rfl | rfl <;> decide
  refine ⟨?_, ?_, ?_, readable_of rfl, canHold_of rfl (by omega), inBytes_withIn ?_, ?_, ?_⟩
  · revert p; decide
  · revert p; decide
  · revert p; decide
  · rw [List.length_append, List.length_append, headerAB_length, hlen.2, List.length_singleton]; decide
  · clear hlen; revert p; decide
  · clear hlen; revert p; decide +kernel

/-- These bytes in IN with one unreadable offset: what the statements of SRC_UNREADABLE need of the state. -/
theorem withIn_bad {bs : List Byte} {p : Nat} (h : bs.length < 2 ^ 64) (hp : p < bs.length) :
    let s := (withIn bs).setEnv { inBad := [p], outCap := none }
    s.inBytes = bs ∧ p < s.inLen.toNat ∧ s.inBadAt p = true ∧ s.ReadableTo p := by
  refine ⟨by rw [State.setEnv_inBytes, inBytes_withIn h], ?_, (firstBad_of rfl).2, (firstBad_of rfl).1⟩
  show p < (BitVec.ofNat 64 bs.length).toNat
  rw [BitVec.toNat_ofNat, Nat.mod_eq_of_lt h]; exact hp
/-- the first byte of the magic, the last of the length and of the count, the first and the last of a second entry, and the
trailing-bits byte -/
theorem witness_DecodeLengthHolds_magic : HeaderReadAt Config.magic [0x00] 0 := .magic (by omega) (fun i hi => by omega)
theorem witness_DecodeLengthHolds_length : HeaderReadAt Config.magic (Config.magic ++ leBytes 8 5) 11 :=
  .length _ (by omega) (by omega) rfl
theorem witness_DecodeLengthHolds_count : HeaderReadAt Config.magic (Config.magic ++ leBytes 8 5 ++ leBytes 2 1) 13 :=
  .count 5 _ (by omega) (by omega) (by omega) (by omega) rfl
theorem witness_DecodeLengthHolds_entry : ∀ p ∈ [23, 31],
    HeaderReadAt Config.magic (Config.magic ++ leBytes 8 5 ++ leBytes 2 2 ++ oneEntry.flatMap (fun e => e.1 :: leBytes 8 e.2.toNat) ++
      (0x42 :: leBytes 8 4)) p := by
  intro p hp
  simp only [List.mem_cons, List.not_mem_nil, or_false] at hp
  exact .entry 5 2 oneEntry _ (by simp [oneEntry]; omega) (by simp [oneEntry]; omega) (by omega) (by omega) (by decide) (by omega)
    (by simp [magic_length, oneEntry]) (by decide) entries_one_nonzero rfl
theorem witness_DecodeLengthHolds_trailing : HeaderReadAt Config.magic (headerAB ++ [7]) 32 :=
  .trailing tableAB [7] (by decide) tableAB_ok.2 (by rw [present_AB]; rfl) rfl
theorem witness_DecodeLengthHolds_bad : let s := (withIn (headerAB ++ [7])).setEnv { inBad := [32], outCap := none }
    HeaderReadAt Config.magic s.inBytes 32 ∧ 32 < s.inLen.toNat ∧ s.inBadAt 32 = true ∧ s.ReadableTo 32 := by
  have hl : (headerAB ++ [7]).length = 33 := by rw [List.length_append, headerAB_length]; rfl
  obtain ⟨h1, h2⟩ := withIn_bad (bs := headerAB ++ [7]) (p := 32) (by omega) (by omega)
  exact ⟨by rw [h1]; exact witness_DecodeLengthHolds_trailing, h2⟩
/-- V85 with small numbers: room for four of five symbols -/
theorem witness_DecodeLengthHolds_fill :
    let s := (withIn (Config.magic ++ leBytes 8 5 ++ leBytes 2 1 ++ (0x5A :: leBytes 8 5))).setEnv { inBad := [], outCap := some 4 }
    s.inBytes = Config.magic ++ leBytes 8 5 ++ leBytes 2 1 ++ (0x5A :: leBytes 8 5) ++ [] ∧ s.ReadableTo 23 ∧
      s.env.outCap = some 4 ∧ 4 < 5 :=
  ⟨by rw [State.setEnv_inBytes, inBytes_withIn (by simp [magic_length])]; simp, fun _ _ => rfl, rfl, by decide⟩
/-- the container of "AB": its payload unreadable, and room for one of its symbols -/
theorem witness_DecodeLengthHolds_walk : ∃ w, exec .buildTree (State.reset.setFt tableAB) = .next w ∧
    2 = (present (State.reset.setFt tableAB).ft).length ∧ ftSum (State.reset.setFt tableAB).ft < 2 ^ 64 ∧
    CodesOf w.node w.root (treeCodes (builtNodes tableAB) (builtRoot tableAB)) ∧
    (∀ b ∈ ([0x41, 0x42] : List Byte), b ∈ present (State.reset.setFt tableAB).ft) ∧
    usableBits [0x40] 2 = codeBits (treeCodes (builtNodes tableAB) (builtRoot tableAB)) [] ++ [false, true] ∧
    usableBits [0x40] 2 = codeBits (treeCodes (builtNodes tableAB) (builtRoot tableAB)) [0x41, 0x42] ++ [] ∧
    followPath w.node w.root [] = some 2 ∧ nodeAt w.node 2 = some (.internal 2 0 1) :=
  ⟨_, exec_buildTree_ok tableAB_ok.1 tableAB_ok.2, by decide, tableAB_ok.2, codesAB_of, by decide, by decide, by decide,
    by decide, by decide⟩
theorem containerAB_length : (headerAB ++ [2] ++ [0x40]).length = 34 := by
  rw [List.length_append, List.length_append, headerAB_length]; rfl
theorem witness_DecodeLengthHolds_walkBad :
    let s := (withIn (headerAB ++ [2] ++ [0x40])).setEnv { inBad := [33], outCap := none }
    s.inBytes = headerAB ++ [2] ++ [0x40] ∧ s.ReadableTo (15 + 9 * 2 + 0) ∧ s.inBadAt (15 + 9 * 2 + 0) = true ∧ s.CanHold 0 := by
  obtain ⟨h1, _, h3, h4⟩ := withIn_bad (bs := headerAB ++ [2] ++ [0x40]) (p := 33) (by rw [containerAB_length]; omega)
    (by rw [containerAB_length]; omega)
  exact ⟨h1, h4, h3, canHold_of rfl (by decide)⟩
theorem witness_DecodeLengthHolds_walkFull :
    let s := (withIn (headerAB ++ [2] ++ [0x40])).setEnv { inBad := [], outCap := some 1 }
    s.inBytes = headerAB ++ [2] ++ [0x40] ∧ s.env.outCap = some 1 ∧ s.ReadableTo 34 :=
  ⟨by rw [State.setEnv_inBytes, inBytes_withIn (by rw [containerAB_length]; omega)], rfl, fun _ _ => rfl⟩
theorem witness_RoundTrip : ∃ s1 t, State.reset.env.inBad = [] ∧ State.reset.env.outCap = none ∧
    ([] : List Byte).length < 2 ^ 58 ∧ hostStep (.loadIn []) State.reset = .next s1 ∧ exec .encode s1 = .next t ∧ t.EndsOk ∧
    State.reset.CanHold ([] : List Byte).length := by
  have hin : (State.reset.loadBytes []).inBytes = [] := loadBytes_inBytes _ (by decide)
  obtain ⟨t, h1, h2, _⟩ := exec_encode_ok (s := State.reset.loadBytes []) (readable_of rfl)
    (canHold_of rfl (by rw [hin]; decide))
  exact ⟨_, t, rfl, rfl, by decide, rfl, h1, h2, canHold_of rfl (by decide)⟩

/-! All commands, and the host's side. -/

theorem witness_ErrorKindsByCommand : (treeOf tableAB).TreeInv := treeAB_inv
theorem witness_OutValidExactly : writesOut .decode = true ∧ Instr.fcount = .fcount := ⟨rfl, rfl⟩
theorem witness_FinishAndRaise : Instr.encode ∈ [Instr.pack, .unpack, .encode, .decode] ∧
    Instr.fcount ∈ [Instr.clear, .fcount, .buildTree, .genCodes] := by decide
theorem witness_StepKeepsInvariants : ∃ t, State.reset.Inv ∧ step (State.reset.setHostQ [.loadIn [1]]) = .next t ∧
    (State.reset.setHostQ [.loadIn [1]]).Inv := by
  have h : ∀ q, (State.reset.setHostQ q).Inv := fun q =>
    ⟨⟨rfl, rfl⟩, ⟨fun h => (by cases h), fun _ => rfl⟩, ⟨rfl, rfl, rfl, rfl, rfl⟩, ⟨rfl, fun _ => rfl, fun h => absurd rfl h⟩,
      fun h => (by cases h), fun h => (by cases h)⟩
  exact ⟨_, h [], rfl, h _⟩
theorem witness_HostRegisterWrites : ∀ n ∈ [0x001, 0x00D, 0x0FF, 0x200],
    n ≠ 0 ∧ n ≠ 0x005 ∧ n ≠ 0x007 ∧ n ≠ 0x009 ∧ ¬ (0x100 ≤ n ∧ n < 0x200) := by decide
theorem witness_HostRegisterReads : (stateV1 []).treeValid = true ∧ (stateV1 []).ctValid = true ∧
    (6 : Nat) ≤ 510 ∧ 6 < (stateV1 []).ncount.toNat ∧ (stateV1 []).node[0]? = some (.leaf 0x41 4) ∧
    (stateV1 []).node[6]? = some (.internal 10 0 5) := by decide
theorem witness_HostRegisterReads_reserved : ∀ n ∈ [0x00D, 0x0FF, 0x300, 0x3FF, 0x5FF],
    0x00C < n ∧ ¬ (0x100 ≤ n ∧ n < 0x300) ∧ ¬ (0x400 ≤ n ∧ n ≤ 0x5FE) := by decide

/-- A state with one valid byte in OUT. -/
def outOne : State := (State.reset.setOut [(0, 0x5A)] 1).setOutValid true
theorem witness_LoadInMoveOut : outOne.outValid = true ∧ OutHolds outOne [0x5A] ∧ State.reset.outValid = false ∧
    (0 : Count).toNat < outOne.outLen.toNat ∧ Memory.get? outOne.outMem 0 = some 0x5A ∧
    (0 : Count).toNat < (withIn [1]).inLen.toNat := by
  refine ⟨rfl, ⟨rfl, fun o => ?_⟩, rfl, by decide, rfl, by decide⟩
  cases o <;> rfl
theorem list_of_length (n : Nat) : ∃ bytes : List Byte, n ≤ bytes.length :=
  ⟨List.replicate n 0, by rw [List.length_replicate]⟩
theorem witness_LoadInMoveOut_tooLong : ∃ bytes : List Byte, 2 ^ 64 ≤ bytes.length := list_of_length (2 ^ 64)
theorem witness_MemReadValue : let s := withIn [1, 2]
    2 ∈ [1, 2, 8] ∧ (∀ k, k < 2 → 0 + k < s.inLen.toNat ∧ s.inBadAt (0 + k) = false) ∧ s.inLen.toNat ≤ 0 + 2 := by decide
theorem witness_MemReadValue_unreadable :
    1 ∈ [1, 2, 8] ∧ 0 < 1 ∧ 2 + 0 < lastBad.inLen.toNat ∧ lastBad.inBadAt (2 + 0) = true := by decide
/-- room for two bytes: two fit, eight do not -/
theorem witness_MemWriteAppends : let s := State.reset.setEnv { inBad := [], outCap := some 2 }
    2 ∈ [1, 2, 8] ∧ s.CanHold (s.outLen.toNat + 2) ∧ 8 ∈ [1, 2, 8] ∧ s.env.outCap = some 2 ∧ 2 < 2 ^ 64 ∧ s.outLen.toNat ≤ 2 ∧
      2 < s.outLen.toNat + 8 :=
  ⟨by decide, ⟨fun c hc => (by injection hc with hc; rw [← hc]; decide), by decide⟩, by decide, rfl, by decide, by decide, by decide⟩

end Sys2Proof.Tests
end

section
/-! The host's actions on the buffers and the environment, one lemma per action (30_encoding.md R93; 10_state.md R12, R47). -/

namespace Sys2Proof.Machine

/-! ### LOADIN and MOVEOUT (R93) -/

theorem hostStep_loadIn_of_lt (s : State) {bytes : List Byte} (h : bytes.length < 2 ^ 64) :
    hostStep (.loadIn bytes) s = .next (s.loadBytes bytes) := if_pos h

theorem hostStep_loadIn_of_le (s : State) {bytes : List Byte} (h : 2 ^ 64 ≤ bytes.length) :
    hostStep (.loadIn bytes) s = .fault .loadPastInSpace := if_neg (Nat.not_lt.mpr h)

theorem hostStep_moveOut_of_valid {s : State} (h : s.outValid = true) : hostStep .moveOut s = .next s.moveOut := if_pos h

theorem hostStep_moveOut_of_invalid {s : State} (h : s.outValid = false) :
    hostStep .moveOut s = .refused .moveOutWhileInvalid := if_neg (by rw [h]; decide)

/-- LOADIN writes IN and IN_LEN only. -/
theorem State.loadBytes_frame (s : State) (bytes : List Byte) :
    s.loadBytes bytes = { s with inMem := (s.loadBytes bytes).inMem, inLen := BitVec.ofNat 64 bytes.length } := rfl

/-- MOVEOUT writes IN and IN_LEN only. -/
theorem State.moveOut_frame (s : State) : s.moveOut = { s with inMem := s.moveOut.inMem, inLen := s.outLen } := rfl

/-! ### Single bytes of the buffers (R47) -/

theorem State.readIn_of_lt {s : State} {o : Nat} (h : o < s.inLen.toNat) :
    s.readIn o = .word ((s.inByte o).setWidth 64) := if_pos h

theorem State.readOut_of_get? {s : State} {o : Nat} {b : Byte} (hv : s.outValid = true) (hlt : o < s.outLen.toNat)
    (hb : Memory.get? s.outMem o = some b) : s.readOut o = .word (b.setWidth 64) := by
  rw [State.readOut, hb]
  exact if_pos ⟨hv, hlt⟩

theorem hostStep_readIn_hostData {s : State} {o : Count} (h : o.toNat < s.inLen.toNat) :
    ∃ t, hostStep (.readIn o) s = .next t ∧ t.hostData = some (.word ((s.inByte o.toNat).setWidth 64)) :=
  ⟨s.deliver (s.readIn o.toNat), rfl, congrArg some (State.readIn_of_lt h)⟩

theorem hostStep_readOut_hostData {s : State} {o : Count} {b : Byte} (hv : s.outValid = true)
    (hlt : o.toNat < s.outLen.toNat) (hb : Memory.get? s.outMem o.toNat = some b) :
    ∃ t, hostStep (.readOut o) s = .next t ∧ t.hostData = some (.word (b.setWidth 64)) :=
  ⟨s.deliver (s.readOut o.toNat), rfl, congrArg some (State.readOut_of_get? hv hlt hb)⟩

theorem Memory.get?_set_self (m : Memory) (x : Nat) (b : Byte) : Memory.get? (Memory.set m x b) x = some b := by
  rw [Memory.get?_set, if_pos rfl]

theorem Memory.get?_set_of_ne (m : Memory) {x a : Nat} (b : Byte) (h : a ≠ x) :
    Memory.get? (Memory.set m x b) a = Memory.get? m a := by
  rw [Memory.get?_set, if_neg h.symm]

/-- A host write of IN stores at its offset, below IN_LEN or not (log entry 11). -/
theorem hostStep_writeIn_effect (s : State) (o : Count) (b : Byte) :
    ∃ t, hostStep (.writeIn o b) s = .next t ∧ t = { s with inMem := t.inMem } ∧ Memory.get? t.inMem o.toNat = some b ∧
      ∀ a, a ≠ o.toNat → Memory.get? t.inMem a = Memory.get? s.inMem a :=
  ⟨s.setInMem (Memory.set s.inMem o.toNat b), rfl, rfl, Memory.get?_set_self _ _ b, fun _ => Memory.get?_set_of_ne _ b⟩

/-- Settles O58, action by action: the memory laws give what IN holds after LOADIN and MOVEOUT; the rest is each action's
own lemma. -/
theorem loadInMoveOut : Obligations.LoadInMoveOut := by
  unfold Obligations.LoadInMoveOut
  refine ⟨?loadIn, ?loadInPast, ?moveOut, ?moveOutInvalid, ?reads, hostStep_writeIn_effect, ?env⟩
  case loadIn =>
    intro s bytes h
    exact ⟨_, hostStep_loadIn_of_lt s h, loadBytes_inBytes s h, s.loadBytes_frame bytes⟩
  case loadInPast =>
    intro s bytes h
    exact hostStep_loadIn_of_le s h
  case moveOut =>
    intro s bytes hv hout
    exact ⟨_, hostStep_moveOut_of_valid hv, moveOut_inBytes hout, s.moveOut_frame⟩
  case moveOutInvalid =>
    intro s h
    exact hostStep_moveOut_of_invalid h
  case reads =>
    intro s o
    exact ⟨hostStep_readIn_hostData, fun _ => hostStep_readOut_hostData⟩
  case env =>
    intro s env
    rfl

end Sys2Proof.Machine
end

section
/-! Steps (10_state.md R34, R45; 70_reset_and_hazards.md R268): what a step with a host action pending does. -/

namespace Sys2Proof.Machine

/-- An idle machine does its oldest pending host action. -/
theorem step_of_idle {s : State} {a : HostAction} {rest : List HostAction} (hb : s.busy = false) (hq : s.hostQ = a :: rest) :
    step s = hostStep a (s.setHostQ rest) := by
  simp [step, hq, hb]

theorem step_of_busy {s : State} {a : HostAction} {rest : List HostAction} (hb : s.busy = true) (hq : s.hostQ = a :: rest)
    (ha : a.whileBusy = false) : step s = .refused .hostActionWhileBusy := by
  simp [step, hq, hb, ha]

theorem runCommand_of_decode {w : Byte} {i : Instr} (s : State) (h : Sys2Proof.decode w = .ok i) :
    runCommand w s = exec i (s.setCmd w) := by
  simp only [runCommand, h]

/-- A write to number 0x000 is a write to CMD. -/
theorem hostStep_writeReg_cmd {v : BitVec 64} {i : Instr} (s : State) (h : Sys2Proof.decode (v.setWidth 8) = .ok i) :
    hostStep (.writeReg 0x000 v) s = exec i (s.setCmd (v.setWidth 8)) :=
  runCommand_of_decode s h

/-- The table word of a command decodes to it: its bits above the eighth are 0. -/
theorem decode_of_decodeTableWord {w : Nat} {i : Instr} (hw : w < 256) (h : decodeTableWord 8 w = some i) :
    Sys2Proof.decode (BitVec.ofNat 8 w) = .ok i := by
  rw [decodeTableWord, tableBytes, decodeBytes, Nat.mod_eq_of_lt (show w < 2 ^ 8 from hw)] at h
  cases hd : Sys2Proof.decode (BitVec.ofNat 8 w) with
  | ok j => simpa [hd] using h
  | error e => simp [hd] at h

/-- CMD takes from the word that withFetchWord puts in front just the command word. -/
theorem setWidth_fetchWord (w : Nat) :
    (BitVec.ofNat 64 (w % 2 ^ 8 % 256)).setWidth 8 = BitVec.ofNat 8 w := by
  apply BitVec.eq_of_toNat_eq
  simp only [BitVec.toNat_setWidth, BitVec.toNat_ofNat]
  omega

/-- STATUS has one number (R48). -/
theorem eq_one_of_regOf_status {n : Nat} (h : regOf n = .status) : n = 0x001 := by
  have plain : ∀ n ≤ 0x00C, plainReg n = .status → n = 0x001 := by decide
  unfold regOf at h
  split at h
  case isTrue hn => exact plain n hn h
  case isFalse => split_ifs at h

/-- While BUSY = 1 the host may read STATUS and do nothing else (R45). -/
theorem whileBusy_eq_false {a : HostAction} (h : a ≠ .readReg 0x001) : a.whileBusy = false := by
  cases a with
  | readReg n => exact decide_eq_false fun hn => h (congrArg _ (eq_one_of_regOf_status hn))
  | _ => rfl

/-- Settles O4: an idle step is its host action, and a CMD write is the decoded command's `exec`. -/
theorem stepRunsDecodedCommand : Obligations.StepRunsDecodedCommand := by
  unfold Obligations.StepRunsDecodedCommand
  refine ⟨?write, ?fetch, ?busy⟩
  case write =>
    intro s v rest i hb hq hd
    rw [step_of_idle hb hq, hostStep_writeReg_cmd _ hd]
  case fetch =>
    intro s w i hb hw hd
    have hword := setWidth_fetchWord w
    rw [step_of_idle (s := s.withFetchWord 8 w) (rest := s.hostQ) hb rfl,
      hostStep_writeReg_cmd _ (hword ▸ decode_of_decodeTableWord hw hd), hword]
    rfl
  case busy =>
    intro s a rest hb hq ha
    exact step_of_busy hb hq (whileBusy_eq_false ha)

end Sys2Proof.Machine
end

section
/-! Reset and CLEAR (10_state.md R49; 45_container_codec.md R185; 70_reset_and_hazards.md R260). -/

namespace Sys2Proof.Machine

/-! ### Reset -/

theorem State.resetWith_cleared (draw : Nat) (env : Env) (hostQ : List HostAction) (hostData : Option HostValue) :
    (State.resetWith draw env hostQ hostData).Cleared :=
  ⟨⟨ftAt_ftZero, rfl, rfl, rfl, rfl, rfl, rfl⟩, rfl, rfl, rfl, rfl, Memory.get?_nil, rfl, rfl, rfl, rfl, rfl, rfl, rfl,
    rfl, rfl, rfl⟩

/-- Reset makes the invariants true: both memories are empty, nothing is valid, the engine is idle without an error. -/
theorem State.resetWith_inv (draw : Nat) (env : Env) (hostQ : List HostAction) (hostData : Option HostValue) :
    (State.resetWith draw env hostQ hostData).Inv where
  mem := ⟨rfl, rfl⟩
  out := ⟨fun hv => absurd hv Bool.false_ne_true, fun _ => rfl⟩
  idle := ⟨rfl, rfl, rfl, rfl, rfl⟩
  err := ⟨rfl, fun _ => rfl, fun hk => absurd rfl hk⟩
  tree := fun hv => absurd hv Bool.false_ne_true
  codes := fun hv => absurd hv Bool.false_ne_true

theorem State.resetNow_inv (s : State) : s.resetNow.Inv := State.resetWith_inv _ _ _ _

/-- Settles O7: every reset is one `State.resetWith`. -/
theorem resetMeetsInvariants : Obligations.ResetMeetsInvariants := by
  unfold Obligations.ResetMeetsInvariants
  refine ⟨State.resetWith_inv _ _ _ _, fun s t h => ?_⟩
  injection h with h
  exact h ▸ s.resetNow_inv

/-! ### CLEAR -/

/-- The state CLEAR answers. -/
def State.afterClear (s : State) : State := (s.begin .clr).clearAll.acknowledge

theorem exec_clear (s : State) : exec .clear s = .next s.afterClear := rfl

theorem State.afterClear_cleared (s : State) : s.afterClear.Cleared :=
  ⟨⟨ftAt_ftZero, rfl, rfl, rfl, rfl, rfl, rfl⟩, rfl, rfl, rfl, rfl, Memory.get?_nil, rfl, rfl, rfl, rfl, rfl, rfl, rfl,
    rfl, rfl, rfl⟩

/-- In a cleared state no flag of STATUS is set. -/
theorem State.Cleared.status {t : State} (h : t.Cleared) : t.status = 0x00 := by
  simp [State.status, h.discarded.ctValid, h.discarded.treeValid, h.outValid, h.err, h.done, h.busy]

theorem State.afterClear_sameIn (s : State) : SameIn s s.afterClear := ⟨rfl, fun _ => rfl, fun _ => rfl⟩

theorem State.afterClear_sameHost (s : State) : SameHost s s.afterClear := ⟨rfl, rfl, rfl, rfl, rfl⟩

/-- Settles O5: the two columns of R49 have `State.Cleared` in common; reset also empties IN, which CLEAR leaves. -/
theorem resetAndClearValues : Obligations.ResetAndClearValues := by
  unfold Obligations.ResetAndClearValues
  refine ⟨?reset, ?resetAction, ?clear⟩
  case reset => exact ⟨State.resetWith_cleared _ _ _ _, rfl, Memory.get?_nil⟩
  case resetAction =>
    intro s
    exact ⟨s.resetNow, rfl, State.resetWith_cleared _ _ _ _, rfl, Memory.get?_nil⟩
  case clear =>
    intro s
    exact ⟨s.afterClear, exec_clear s, s.afterClear_cleared, s.afterClear_cleared.status, s.afterClear_sameIn,
      s.afterClear_sameHost⟩

end Sys2Proof.Machine
end

section
/-! How the commands end, and the invariants over a step (10_state.md R24 to R45; 60_exceptions.md R231, R232, R274). -/

namespace Sys2Proof.Machine

/-- Settles O51: `afterCommand` for every command but CLEAR, which alone ends with DONE = 0. -/
theorem everyCommandEnds : Obligations.EveryCommandEnds := by
  unfold Obligations.EveryCommandEnds
  intro i s
  by_cases hi : i = .clear
  · subst hi
    have hc := s.afterClear_cleared
    exact ⟨s.afterClear, exec_clear s, hc.busy, hc.phase, by simp [hc.done]⟩
  · obtain ⟨t, ht, ha⟩ := afterCommand i hi s
    exact ⟨t, ht, ha.busy, ha.phase, iff_of_true ha.done hi⟩

/-- A command that writes OUT leaves it valid exactly when it succeeded (R33, R232 (3)). -/
theorem AfterCommand.outValid_iff {i : Instr} {s t : State} (h : AfterCommand i s t) (hw : writesOut i = true) :
    t.outValid = true ↔ t.errKind = .none := by
  rcases h.outVal hw with ⟨hok, hv, -⟩ | ⟨hk, hv, -⟩
  · exact iff_of_true hv hok.kind
  · exact iff_of_false (by simp [hv]) hk

theorem writesOut_eq_false {i : Instr} (h : i = .fcount ∨ i = .buildTree ∨ i = .genCodes) : writesOut i = false := by
  rcases h with rfl | rfl | rfl <;> rfl

/-- Settles O53: for CLEAR only IN_LEN is asked; the other commands meet `AfterCommand`. -/
theorem outValidExactly : Obligations.OutValidExactly := by
  unfold Obligations.OutValidExactly
  intro i s
  by_cases hi : i = .clear
  · subst hi
    exact ⟨s.afterClear, exec_clear s, s.afterClear_sameIn.inLen, by simp [writesOut], by simp⟩
  · obtain ⟨t, ht, ha⟩ := afterCommand i hi s
    exact ⟨t, ht, ha.inLen, ha.outValid_iff, fun h => (ha.outSame (writesOut_eq_false h)).1⟩

/-- Settles O11: BUILD_TREE plants the nodes built of the table, which are a tree. -/
theorem buildTreeMakesTree : Obligations.BuildTreeMakesTree := by
  unfold Obligations.BuildTreeMakesTree
  intro s h0 hlt
  exact ⟨_, exec_buildTree_ok h0 hlt, State.finish_endsOk _, rfl, rfl, rfl, builtNodes_wf h0 hlt⟩

/-! ### The invariants over a step -/

/-- The invariants speak of nothing that a host action other than CMD and reset writes, but for IN's canonical form. -/
theorem State.Inv.withHostFields {s : State} (h : s.Inv) {ft : Vector Count 256} {origLen inLen : Count} {trail : BitVec 3}
    {inMem : Memory} {cmd : Byte} {env : Env} {hostQ : List HostAction} {hostData : Option HostValue} {draws : Nat}
    (hin : Memory.wf inMem = true) :
    State.Inv { s with
      ft := ft, origLen := origLen, trail := trail, inMem := inMem, inLen := inLen, cmd := cmd, env := env, hostQ := hostQ,
      hostData := hostData, draws := draws } :=
  inv_of_same h hin rfl rfl rfl rfl rfl rfl rfl rfl rfl rfl rfl rfl ⟨rfl, rfl, rfl, rfl⟩ ⟨rfl, rfl⟩

theorem State.Inv.setCmd {s : State} (h : s.Inv) (w : Byte) : (s.setCmd w).Inv := h.withHostFields h.mem.inWf

theorem State.Inv.setHostQ {s : State} (h : s.Inv) (q : List HostAction) : (s.setHostQ q).Inv :=
  h.withHostFields h.mem.inWf

theorem State.Inv.deliver {s : State} (h : s.Inv) (v : HostValue) : (s.deliver v).Inv := h.withHostFields h.mem.inWf

theorem State.Inv.setEnv {s : State} (h : s.Inv) (e : Env) : (s.setEnv e).Inv := h.withHostFields h.mem.inWf

theorem State.Inv.writeRegister {s : State} (h : s.Inv) (r : Reg) (v : BitVec 64) : (s.writeRegister r v).Inv := by
  cases r with
  | inLen | origLen | trail | ft => exact h.withHostFields h.mem.inWf
  | _ => exact h

theorem State.Inv.setInMem {s : State} (h : s.Inv) {m : Memory} (hm : Memory.wf m = true) : (s.setInMem m).Inv :=
  h.withHostFields hm

/-- LOADIN writes IN from offset 0 on, so below 2^64. -/
theorem State.Inv.loadBytes {s : State} (h : s.Inv) {bytes : List Byte} (hlt : bytes.length < 2 ^ 64) :
    (s.loadBytes bytes).Inv :=
  h.withHostFields (Memory.wf_setAll (by omega) h.mem.inWf)

/-- MOVEOUT writes OUT_LEN bytes to IN from offset 0 on. -/
theorem State.Inv.moveOut {s : State} (h : s.Inv) : s.moveOut.Inv := by
  have hlen : 0 + (s.outSlice 0 s.outLen.toNat).length ≤ 2 ^ 64 := by
    rw [State.outSlice_length]
    omega
  exact h.withHostFields (Memory.wf_setAll hlen h.mem.inWf)

/-- An illegal word records an error of its own kind and touches nothing else (R92). -/
theorem State.Inv.illegalCommand {s : State} (h : s.Inv) (w : Byte) : (s.illegalCommand w).Inv where
  mem := ⟨h.mem.inWf, h.mem.outWf⟩
  out := ⟨h.out.valid, h.out.invalid⟩
  idle := ⟨rfl, rfl, h.idle.pay, h.idle.queue, h.idle.stack⟩
  err := ⟨rfl, nofun, fun _ => rfl⟩
  tree := h.tree
  codes := h.codes

theorem runCommand_keeps_inv {w : Byte} {s t : State} (h : s.Inv) (he : runCommand w s = .next t) : t.Inv := by
  rw [runCommand] at he
  cases hd : Sys2Proof.decode w with
  | ok i =>
    rw [hd] at he
    exact exec_keeps_inv (h.setCmd w) he
  | error e =>
    rw [hd] at he
    injection he with he
    exact he ▸ (h.setCmd w).illegalCommand w

/-- Every host action keeps the invariants. -/
theorem hostStep_keeps_inv {a : HostAction} {s t : State} (h : s.Inv) (he : hostStep a s = .next t) : t.Inv := by
  cases a with
  | writeReg n v =>
    rw [hostStep] at he
    split at he
    case isTrue => exact runCommand_keeps_inv h he
    case isFalse =>
      injection he with he
      exact he ▸ h.writeRegister _ v
  | readReg n =>
    injection he with he
    exact he ▸ h.deliver _
  | writeIn o b =>
    injection he with he
    exact he ▸ h.setInMem (Memory.wf_set o.isLt h.mem.inWf)
  | readIn o =>
    injection he with he
    exact he ▸ h.deliver _
  | readOut o =>
    injection he with he
    exact he ▸ h.deliver _
  | loadIn bytes =>
    rw [hostStep] at he
    split at he
    case isTrue hlt =>
      injection he with he
      exact he ▸ h.loadBytes hlt
    case isFalse => cases he
  | moveOut =>
    rw [hostStep] at he
    split at he
    case isTrue =>
      injection he with he
      exact he ▸ h.moveOut
    case isFalse => cases he
  | setEnv env =>
    injection he with he
    exact he ▸ h.setEnv env
  | reset =>
    injection he with he
    exact he ▸ s.resetNow_inv

/-- Settles O55: a step is nothing, or one host action, and each action keeps the invariants. -/
theorem stepKeepsInvariants : Obligations.StepKeepsInvariants := by
  unfold Obligations.StepKeepsInvariants
  intro s t h he
  cases hq : s.hostQ with
  | nil =>
    rw [step, hq] at he
    injection he with he
    exact he ▸ h
  | cons a rest =>
    rw [step_of_idle h.idle.busy hq] at he
    exact hostStep_keeps_inv (h.setHostQ rest) he

end Sys2Proof.Machine
end

section
/-! Host access to the registers (10_state.md R35, R36, R47, R48; 60_exceptions.md R221). -/

namespace Sys2Proof.Machine

/-! ### Writes -/

/-- The registers that a host write changes (R47). -/
def Reg.hostWritable : Reg → Bool
  | .cmd | .inLen | .origLen | .trail | .ft _ => true
  | _ => false

/-- A host write to a read-only register or a reserved number has no effect (R47, R48). -/
theorem hostStep_writeReg_readOnly {n : Nat} (s : State) (v : BitVec 64) (h : (regOf n).hostWritable = false) :
    hostStep (.writeReg n v) s = .next s := by
  rw [hostStep]
  cases hr : regOf n with
  | cmd | inLen | origLen | trail | ft => simp [hr, Reg.hostWritable] at h
  | _ => rfl

/-- The numbers of the registers that a host write changes (R47, R48). -/
theorem regOf_readOnly {n : Nat} (h0 : n ≠ 0x000) (h5 : n ≠ 0x005) (h7 : n ≠ 0x007) (h9 : n ≠ 0x009)
    (hft : ¬ (0x100 ≤ n ∧ n < 0x200)) : (regOf n).hostWritable = false := by
  have plain : ∀ n ≤ 0x00C, n ≠ 0x000 → n ≠ 0x005 → n ≠ 0x007 → n ≠ 0x009 → (plainReg n).hostWritable = false := by decide
  unfold regOf
  split
  case isTrue hn => exact plain n hn h0 h5 h7 h9
  case isFalse => split_ifs <;> rfl

theorem hostStep_writeReg_ft (s : State) (b : Byte) (v : BitVec 64) :
    hostStep (.writeReg (0x100 + b.toNat) v) s = .next { s with ft := ftSet s.ft b v } := by
  rw [hostStep, regOf_ft]
  rfl

/-- Settles O56: the three single registers by evaluation, FT[s] and the other numbers by what `regOf` makes of them. -/
theorem hostRegisterWrites : Obligations.HostRegisterWrites := by
  unfold Obligations.HostRegisterWrites
  intro s v
  refine ⟨rfl, rfl, rfl, fun b => ⟨hostStep_writeReg_ft s b v, fun c => ?_⟩, fun n h0 h5 h7 h9 hft => ?_⟩
  · rw [ftAt_ftSet]
    exact if_congr eq_comm rfl rfl
  · exact hostStep_writeReg_readOnly s v (regOf_readOnly h0 h5 h7 h9 hft)

/-! ### Reads -/

/-- STATUS as the host reads it: the six flags of R35, widened with zeros. -/
theorem State.status_setWidth (s : State) :
    s.status.setWidth 64 = (0 : BitVec 58) ++ BitVec.ofBool s.ctValid ++ BitVec.ofBool s.treeValid ++
      BitVec.ofBool s.outValid ++ BitVec.ofBool (decide (s.errKind ≠ .none)) ++ BitVec.ofBool s.done ++
      BitVec.ofBool s.busy := by
  have flags : ∀ c t o e d b : Bool,
      ((0 : BitVec 2) ++ BitVec.ofBool c ++ BitVec.ofBool t ++ BitVec.ofBool o ++ BitVec.ofBool e ++ BitVec.ofBool d ++
        BitVec.ofBool b).setWidth 64 =
      (0 : BitVec 58) ++ BitVec.ofBool c ++ BitVec.ofBool t ++ BitVec.ofBool o ++ BitVec.ofBool e ++ BitVec.ofBool d ++
        BitVec.ofBool b := by decide
  have herr : s.err = decide (s.errKind ≠ .none) := by simp [State.err, bne, beq_eq_decide]
  rw [← herr]
  exact flags _ _ _ _ _ _

theorem State.wordIf_of_valid (s : State) {valid : Bool} {w : Nat} (v : BitVec w) (h : valid = true) :
    s.wordIf valid w v = .word (v.setWidth 64) := if_pos h

theorem State.readCode_of_valid {s : State} (b : Byte) (h : s.ctValid = true) :
    s.readCode b = .code (BitVec.ofNat 8 (codeOf s.ct b).length) (codeOf s.ct b) := if_pos h

theorem State.readNode_of_valid {s : State} {i : Nat} {n : Node} (hv : s.treeValid = true) (hi : i < s.ncount.toNat)
    (hn : s.node[i]? = some n) : s.readNode i = .node (s.viewNode n) := by
  simp [State.readNode, hn, hv, hi]

/-- Settles O57: the table of causes row by row; each register by what `regOf` makes of its number. -/
theorem hostRegisterReads : Obligations.HostRegisterReads := by
  unfold Obligations.HostRegisterReads
  refine ⟨fun c => by cases c <;> decide, fun s => ⟨fun _ => rfl, congrArg HostValue.word s.status_setWidth, rfl, rfl, rfl, rfl,
    rfl, rfl, rfl, rfl, rfl, ?tree, ?ft, ?ct, ?node, ?reserved⟩⟩
  case tree =>
    intro hv
    exact ⟨s.wordIf_of_valid s.root hv, s.wordIf_of_valid s.ncount hv⟩
  case ft =>
    intro b
    rw [regOf_ft]
    rfl
  case ct =>
    intro b hv
    rw [regOf_ct]
    exact State.readCode_of_valid b hv
  case node =>
    intro i h510 hv hi
    rw [regOf_node h510]
    exact ⟨fun _ _ hn => ⟨_, _, State.readNode_of_valid hv hi hn⟩, fun _ _ _ hn => ⟨_, State.readNode_of_valid hv hi hn⟩⟩
  case reserved =>
    intro n h0 h1 h2
    rw [regOf_reserved h0 h1 h2]
    rfl

end Sys2Proof.Machine
end

section
/-! Memory accesses of any size (20_memory.md R63, R64): what MemRead returns, and what MemWrite leaves in OUT. -/

namespace Sys2Proof.Machine

/-! ### Reading (R63) -/

/-- The lowest offset that is past the end or unreadable decides `MemRead`. -/
theorem memRead_decided {n addr : Nat} {s : State} {j : Nat} (hj : j < n)
    (hok : ∀ k, k < j → addr + k < s.inLen.toNat ∧ s.inBadAt (addr + k) = false) :
    (s.inLen.toNat ≤ addr + j → ∃ x, memRead addr n s = .ok none (s.setInOff x)) ∧
    (addr + j < s.inLen.toNat → s.inBadAt (addr + j) = true →
      ∃ x, memRead addr n s = .raised ⟨.srcUnreadable, BitVec.ofNat 64 (addr + j)⟩ (s.setInOff x)) := by
  obtain ⟨heos, hbad⟩ := memReadBytes_decided hj hok
  constructor
  · intro hend
    obtain ⟨x, hx⟩ := heos hend
    exact ⟨x, by rw [memRead, hx]⟩
  · intro hlt hb
    obtain ⟨x, hx⟩ := hbad hlt hb
    exact ⟨x, by rw [memRead, hx]⟩

/-- `MemRead` of `n ≥ 1` readable bytes below IN_LEN returns the sum of R63. -/
theorem memRead_eq_sum {n addr : Nat} {s : State} (hn : 0 < n)
    (hok : ∀ k, k < n → addr + k < s.inLen.toNat ∧ s.inBadAt (addr + k) = false) :
    ∃ x, memRead addr n s =
      .ok (some (((List.range n).map (fun k => (s.inByte (addr + k)).toNat * 256 ^ k)).sum)) (s.setInOff x) := by
  have hlen : addr + n ≤ s.inLen.toNat := by
    have hlast := (hok (n - 1) (by omega)).1
    omega
  have hread : ∀ o, addr ≤ o → o < addr + n → s.inBadAt o = false := by
    intro o h1 h2
    obtain ⟨k, rfl⟩ := Nat.exists_eq_add_of_le h1
    exact (hok k (by omega)).2
  rw [← leValue_inSlice]
  exact memRead_ok hlen hread

/-- Settles O59: `memRead_eq_sum` when no offset stops the read, `memRead_decided` when one does; of n in {1, 2, 8} only
that it is positive is needed. -/
theorem memReadValue : Obligations.MemReadValue := by
  unfold Obligations.MemReadValue
  intro s addr n hn
  have hpos : 0 < n := (show ∀ m ∈ [1, 2, 8], 0 < m by decide) n hn
  exact ⟨memRead_eq_sum hpos, fun _ => memRead_decided⟩

/-! ### Writing (R64) -/

/-- Appended bytes stand from OUT_LEN on. -/
theorem State.appendOut_get?_new (s : State) {bs : List Byte} {k : Nat} (hk : k < bs.length) :
    Memory.get? (s.appendOut bs).outMem (s.outLen.toNat + k) = bs[k]? := by
  rw [State.appendOut_outMem, Memory.get?_setAll, if_pos (by omega), Nat.add_sub_cancel_left]

/-- Appending leaves every byte below OUT_LEN and every byte behind the appended ones. -/
theorem State.appendOut_get?_old (s : State) {bs : List Byte} {o : Nat}
    (ho : o < s.outLen.toNat ∨ s.outLen.toNat + bs.length ≤ o) :
    Memory.get? (s.appendOut bs).outMem o = Memory.get? s.outMem o := by
  rw [State.appendOut_outMem, Memory.get?_setAll, if_neg (by omega)]

theorem leBytes_getElem?_of_lt {n v k : Nat} (hk : k < n) :
    (leBytes n v)[k]? = some (BitVec.ofNat 8 (v / 256 ^ k % 256)) := by
  rw [leBytes_getElem?, if_pos hk]

theorem outLimit_of_cap {env : Env} {c : Nat} (hcap : env.outCap = some c) (hc : c < 2 ^ 64) : outLimit env = c := by
  rw [outLimit, hcap]
  exact Nat.min_eq_left (by omega)

/-- An OUT that can hold its OUT_LEN bytes and `n` more has room for the `n`. -/
theorem State.CanHold.fits {s : State} {n : Nat} (h : s.CanHold (s.outLen.toNat + n)) : s.Fits n := by
  have hcount := h.count
  rw [State.Fits, outLimit]
  cases hcap : s.env.outCap with
  | none => exact Nat.le_sub_one_of_lt hcount
  | some c => exact Nat.le_min.mpr ⟨h.cap c hcap, Nat.le_sub_one_of_lt hcount⟩

/-- `MemWrite` with room. -/
theorem memWrite_ok {n : Nat} (v : Nat) {s : State} (h : s.Fits n) :
    memWrite n v s = .ok () (s.appendOut (leBytes n v)) :=
  outBytes_ok (by rwa [leBytes_length])

/-- `MemWrite` without room: the bytes that fit are written. -/
theorem memWrite_full {n : Nat} (v : Nat) {s : State} (hl : s.outLen.toNat ≤ outLimit s.env) (h : ¬ s.Fits n) :
    memWrite n v s = .raised ⟨.dstUnwritable, BitVec.ofNat 64 (outLimit s.env)⟩
      (s.appendOut ((leBytes n v).take (outLimit s.env - s.outLen.toNat))) :=
  outBytes_full_take hl (by rwa [leBytes_length])

/-- Settles O60: with room all `n` bytes of the value are appended, and without room the first `OUT_CAP - OUT_LEN` of
them; what OUT then holds is what any appended list leaves. -/
theorem memWriteAppends : Obligations.MemWriteAppends := by
  unfold Obligations.MemWriteAppends
  constructor
  case left =>
    intro s n v _ hold
    have hlen : (leBytes n v).length = n := leBytes_length n v
    refine ⟨_, memWrite_ok v hold.fits, ?len, ?new, ?old⟩
    case len => rw [State.appendOut_outLen_toNat (hlen.symm ▸ hold.fits), hlen]
    case new =>
      intro k hk
      rw [s.appendOut_get?_new (by omega), leBytes_getElem?_of_lt hk]
    case old =>
      intro o ho
      exact s.appendOut_get?_old (by omega)
  case right =>
    intro s n v c _ hcap hc hle hlt
    obtain rfl : outLimit s.env = c := outLimit_of_cap hcap hc
    have hfull : ¬ s.Fits n := Nat.not_le.mpr hlt
    have hlen : ((leBytes n v).take (outLimit s.env - s.outLen.toNat)).length = outLimit s.env - s.outLen.toNat := by
      rw [List.length_take, leBytes_length]
      omega
    refine ⟨_, memWrite_full v hle hfull, ?len, ?new, ?old⟩
    case len => exact State.appendOut_full hle (by rwa [leBytes_length])
    case new =>
      intro k hk
      rw [s.appendOut_get?_new (by omega), List.getElem?_take_of_lt (by omega), leBytes_getElem?_of_lt (by omega)]
    case old =>
      intro o ho
      exact s.appendOut_get?_old (by omega)

end Sys2Proof.Machine
end

section
/-! Command words (30_encoding.md R90 to R92, R109): the decoder is the inverse of the encoder, and what a CMD write of any
other word does. -/

namespace Sys2Proof.Machine

/-! ### The decoder and the encoder -/

/-- The rows of R91 compare the whole word, each with the word of its own command. -/
theorem commandRows_word : ∀ r ∈ commandRows, r.mask = 0xFF ∧ r.pattern = Sys2Proof.encode r.instr := by decide

theorem and_fullMask (w : Byte) : w &&& 0xFF = w := BitVec.and_allOnes

theorem selects_iff {r : CommandRow} (hr : r ∈ commandRows) (w : Byte) :
    r.selects w = true ↔ w = Sys2Proof.encode r.instr := by
  obtain ⟨hmask, hpattern⟩ := commandRows_word r hr
  rw [CommandRow.selects, hmask, hpattern, and_fullMask, beq_iff_eq]

/-- The family `Encoding` for every command. -/
theorem encodingStatement : ∀ i : Instr, Laws.Encoding.Statement i
  | .clear => Laws.Encoding.clear
  | .fcount => Laws.Encoding.fcount
  | .buildTree => Laws.Encoding.buildTree
  | .genCodes => Laws.Encoding.genCodes
  | .pack => Laws.Encoding.pack
  | .unpack => Laws.Encoding.unpack
  | .encode => Laws.Encoding.encode
  | .decode => Laws.Encoding.decode

theorem instr_wf (i : Instr) : i.wf = true := (encodingStatement i).1

theorem decode_encode (i : Instr) : Sys2Proof.decode (Sys2Proof.encode i) = .ok i := (encodingStatement i).2.1

theorem decodeTableWord_encode (i : Instr) : decodeTableWord 8 (Sys2Proof.encode i).toNat = some i :=
  (encodingStatement i).2.2

/-- R91, R109: a word is a command exactly when it is that command's word. -/
theorem decode_eq_ok_iff {w : Byte} {i : Instr} : Sys2Proof.decode w = .ok i ↔ w = Sys2Proof.encode i := by
  constructor
  case mp =>
    intro h
    rw [Sys2Proof.decode] at h
    cases hfind : commandRows.find? (fun r => r.selects w) with
    | none =>
      rw [hfind] at h
      dsimp only at h
      split at h <;> cases h
    | some r =>
      rw [hfind] at h
      injection h with h
      have hsel : r.selects w = true := List.find?_some (p := fun r : CommandRow => r.selects w) hfind
      exact h ▸ (selects_iff (List.mem_of_find?_eq_some hfind) w).mp hsel
  case mpr =>
    rintro rfl
    exact decode_encode i

theorem decodeBytes_encodeBytes (i : Instr) (rest : List Byte) :
    decodeBytes (encodeBytes i ++ rest) = .ok (i, rest) := by
  rw [encodeBytes, List.singleton_append, decodeBytes, decode_encode]

/-- Settles O1: by `decode_eq_ok_iff` both sides say that `w` is the word of `i`, command by command. -/
theorem eightCommandWords : Obligations.EightCommandWords := by
  unfold Obligations.EightCommandWords
  intro w i
  rw [decode_eq_ok_iff, and_fullMask]
  cases i <;> simp [Sys2Proof.encode, Instr.commandWord, Instr.op]

/-- Settles O2: the decoder is the inverse of the encoder, on a word, on bytes and on the opcode table's bits. -/
theorem decodeEncodeAgree : Obligations.DecodeEncodeAgree := by
  unfold Obligations.DecodeEncodeAgree
  refine ⟨fun i rest _ => decodeBytes_encodeBytes i rest, fun w i h => ?_, decodeTableWord_encode⟩
  exact ⟨(decode_eq_ok_iff.mp h).symm, instr_wf i⟩

/-! ### Illegal words (R92) -/

theorem wordFields_encode (i : Instr) : wordFields (Sys2Proof.encode i) = i.commandWord := by cases i <;> rfl

/-- The two fields of a command's word are legal (R90). -/
theorem decode_ok_fields {w : Byte} {i : Instr} (h : Sys2Proof.decode w = .ok i) :
    w.extractLsb' 4 4 = 0 ∧ (w.extractLsb' 0 4).toNat < 8 := by
  have hfields : wordFields w = i.commandWord := decode_eq_ok_iff.mp h ▸ wordFields_encode i
  have hrsv : w.extractLsb' 4 4 = i.commandWord.rsv := congrArg CommandWord.rsv hfields
  have hop : w.extractLsb' 0 4 = i.commandWord.op := congrArg CommandWord.op hfields
  rw [hrsv, hop]
  cases i <;> decide

/-- A word with an illegal field is no command. -/
theorem decode_error_of_fields {w : Byte} (h : w.extractLsb' 4 4 ≠ 0 ∨ 8 ≤ (w.extractLsb' 0 4).toNat) :
    ∃ e, Sys2Proof.decode w = .error e := by
  cases hd : Sys2Proof.decode w with
  | error e => exact ⟨e, rfl⟩
  | ok i =>
    obtain ⟨hrsv, hop⟩ := decode_ok_fields hd
    rcases h with h | h
    · exact absurd hrsv h
    · exact absurd hop (Nat.not_lt.mpr h)

theorem runCommand_of_error {w : Byte} {e : IllegalWord} (s : State) (h : Sys2Proof.decode w = .error e) :
    runCommand w s = .next ((s.setCmd w).illegalCommand w) := by
  rw [runCommand, h]

/-- In an idle state the end with ILLEGAL_COMMAND leaves BUSY and PHASE as they are. -/
theorem State.illegalCommand_of_idle {s : State} (hb : s.busy = false) (hp : s.phase = .idle) (w : Byte) :
    (s.setCmd w).illegalCommand w =
      { s with cmd := w, done := true, errKind := .contract, errCause := .illegalCommand, errInfo := w.setWidth 64 } := by
  apply State.ext_fields <;> simp [State.illegalCommand, State.recordError, State.setCmd, Cause.kind, hb, hp]

theorem encode_lt_eight (i : Instr) : (Sys2Proof.encode i).toNat < 8 := by cases i <;> decide

/-- Of the numbers of the 256 words the first eight are commands. -/
theorem decodeTableWord_isNone {n : Nat} (hn : n < 256) : (decodeTableWord 8 n).isNone = decide (8 ≤ n) := by
  by_cases h8 : 8 ≤ n
  · rw [decide_eq_true h8]
    cases hd : decodeTableWord 8 n with
    | none => rfl
    | some i =>
      have hlt := encode_lt_eight i
      rw [← decode_eq_ok_iff.mp (decode_of_decodeTableWord hn hd), BitVec.toNat_ofNat] at hlt
      omega
  · have legal : ∀ m < 8, (decodeTableWord 8 m).isNone = false := by decide
    rw [decide_eq_false h8, legal n (by omega)]

/-- Below `m + n` there are `n` numbers from `m` on. -/
theorem length_filter_le_range (m n : Nat) : ((List.range (m + n)).filter (fun k => decide (m ≤ k))).length = n := by
  have front : (List.range m).filter (fun k => decide (m ≤ k)) = [] := by simp
  have back : ((List.range n).map (m + ·)).filter (fun k => decide (m ≤ k)) = (List.range n).map (m + ·) := by simp
  rw [List.range_add, List.filter_append, front, back, List.nil_append, List.length_map, List.length_range]

theorem illegalWords_length : ((List.range 256).filter (fun n => (decodeTableWord 8 n).isNone)).length = 248 := by
  rw [List.filter_congr (q := fun n => decide (8 ≤ n)) fun n hn => decodeTableWord_isNone (List.mem_range.mp hn)]
  exact length_filter_le_range 8 248

/-- Settles O3: a word with an illegal field does not decode, so the CMD write records the error; the words that do not
decode are those from the ninth on. -/
theorem illegalWordEndsAtOnce : Obligations.IllegalWordEndsAtOnce := by
  unfold Obligations.IllegalWordEndsAtOnce
  constructor
  case left =>
    intro s w hb hp hw
    obtain ⟨e, he⟩ := decode_error_of_fields hw
    have hword : (w.setWidth 64).setWidth 8 = w := by simp
    have hstep : hostStep (.writeReg 0x000 (w.setWidth 64)) s = runCommand ((w.setWidth 64).setWidth 8) s := rfl
    rw [hstep, hword, runCommand_of_error s he, State.illegalCommand_of_idle hb hp]
  case right => exact illegalWords_length

end Sys2Proof.Machine
end

section
/-! PACK and UNPACK as whole commands, and as inverses (30_encoding.md R101; 43_bit_packer.md R162, R163; 44_bit_unpacker.md
R172, R174). -/

namespace Sys2Proof.Machine

/-- What OUT holds after bytes were appended to an OUT that was empty. -/
theorem outHolds_appendOut {s t : State} {bs : List Byte} (hfit : s.Fits bs.length) (hm0 : s.outMem = [])
    (hl0 : s.outLen = 0) (hm : t.outMem = (s.appendOut bs).outMem) (hl : t.outLen = (s.appendOut bs).outLen) :
    OutHolds t bs := by
  have hl0' : s.outLen.toNat = 0 := congrArg BitVec.toNat hl0
  refine outHolds_of ?mem ?len
  case mem => rw [hm, State.appendOut_outMem, hm0, hl0']
  case len => rw [hl, State.appendOut_outLen_toNat hfit, hl0', Nat.zero_add]

/-! ### PACK -/

/-- The bits PACK makes of IN with the code table (R101). -/
def State.packStream (s : State) : List Bool := codeBits s.ct s.inBytes

/-- The state a successful PACK answers (R163). -/
def State.afterPack (s : State) : State :=
  ((((s.begin .pack).openOut.appendOut (packedBytes s.packStream)).setTrail
    (BitVec.ofNat 3 (s.packStream.length % 8))).setOutValid true).dropPacker.dropInOff.finish

/-- OUT as PACK opens it has room for the packed bytes. -/
theorem openOut_fits_packedBytes {s : State} (h : s.CanHold ((s.packStream.length + 7) / 8)) :
    (s.begin .pack).openOut.Fits (packedBytes s.packStream).length := by
  rw [packedBytes_length]
  exact fits_of_canHold h (by simp) (by simp)

/-- The end of PACK drops what the packer's registers and the IN read offset held (R37). -/
theorem State.dropPacker_dropInOff_setPacker_setInOff (s : State) (a : BitVec 8) (f : BitVec 4) (x : BitVec 64)
    (tb : BitVec 3) (v : Bool) :
    ((((s.setPacker a f).setInOff x).setTrail tb).setOutValid v).dropPacker.dropInOff =
      ((s.setTrail tb).setOutValid v).dropPacker.dropInOff := rfl

/-- PACK of a readable IN whose bytes have codes, with room for the packed bytes. -/
theorem exec_pack_ok {s : State} (hv : s.ctValid = true) (hok : s.Readable) (hcode : ∀ b ∈ s.inBytes, codeOf s.ct b ≠ [])
    (hroom : s.CanHold ((s.packStream.length + 7) / 8)) : exec .pack s = .next s.afterPack := by
  have hct : (s.begin .pack).openOut.ct = s.ct := by simp
  have hin : (s.begin .pack).openOut.inBytes = s.inBytes := by simp
  obtain ⟨a, f, x, hpack⟩ := packAll_ok outSink (s := (s.begin .pack).openOut) (by simpa using hok)
    (by rw [hct, hin]; exact hcode) (by rw [hct, hin]; exact openOut_fits_packedBytes hroom)
  rw [hct, hin] at hpack
  show execPack s = _
  rw [execPack, packBody, if_neg (by simp [hv]), hpack]
  dsimp only
  rw [State.dropPacker_dropInOff_setPacker_setInOff, State.afterPack, State.packStream]

theorem State.afterPack_outHolds {s : State} (hroom : s.CanHold ((s.packStream.length + 7) / 8)) :
    OutHolds s.afterPack (packedBytes s.packStream) :=
  outHolds_appendOut (openOut_fits_packedBytes hroom) rfl rfl rfl rfl

theorem State.afterPack_outValid (s : State) : s.afterPack.outValid = true := by simp [State.afterPack]

/-- R107: TRAIL is `T mod 8`. -/
theorem State.afterPack_trail (s : State) : s.afterPack.trail.toNat = s.packStream.length % 8 := by
  have htrail : s.afterPack.trail = BitVec.ofNat 3 (s.packStream.length % 8) := rfl
  rw [htrail, BitVec.toNat_ofNat]
  exact Nat.mod_mod _ _

/-- Settles O24: what `Pack` hands to OUT is the packed stream, and its answer goes to TRAIL. -/
theorem packWritesBitStream : Obligations.PackWritesBitStream := by
  unfold Obligations.PackWritesBitStream
  intro s hv hok hcode hroom
  exact ⟨s.afterPack, exec_pack_ok hv hok hcode hroom, State.finish_endsOk _, s.afterPack_outValid,
    State.afterPack_outHolds hroom, s.afterPack_trail⟩

/-! ### UNPACK -/

/-- The state a successful UNPACK that emits `syms` answers (R180). -/
def State.afterUnpack (s : State) (syms : List Byte) : State :=
  ((s.openUnpack.appendOut syms).setOutValid true).dropWalker.dropInOff.finish

theorem openUnpack_fits {s : State} {n : Nat} (h : s.CanHold n) : s.openUnpack.Fits n :=
  fits_of_canHold h (by simp) (by simp)

theorem State.afterUnpack_outHolds {s : State} {syms : List Byte} (hroom : s.CanHold syms.length) :
    OutHolds (s.afterUnpack syms) syms :=
  outHolds_appendOut (openUnpack_fits hroom) rfl rfl rfl rfl

theorem State.afterUnpack_outValid (s : State) (syms : List Byte) : (s.afterUnpack syms).outValid = true := by
  simp [State.afterUnpack]

theorem codeBits_ne_nil {ct : List Code} {syms : List Byte} (h0 : syms ≠ []) (hne : ∀ b ∈ syms, codeOf ct b ≠ []) :
    codeBits ct syms ≠ [] := by
  obtain ⟨b, hb⟩ := List.exists_mem_of_ne_nil syms h0
  intro h
  exact hne b hb (List.flatMap_eq_nil_iff.mp h b hb)

/-- The end of UNPACK drops what the walker's registers and the IN read offset held (R38). -/
theorem State.dropWalker_dropInOff_setWalk_setInOff (s : State) (c : NodeIdx) (n : BitVec 64) (p : BitVec 67)
    (x : BitVec 64) (v : Bool) :
    ((((s.setWalk c n).setBitpos p).setInOff x).setOutValid v).dropWalker.dropInOff =
      (s.setOutValid v).dropWalker.dropInOff := rfl

/-- UNPACK of usable bits that begin with the codes of ORIG_LEN symbols (R174, R175). -/
theorem exec_unpack_codes {s : State} {ct : List Code} {syms : List Byte} {rest : List Bool} (hv : s.treeValid = true)
    (hcodes : ∀ b ∈ syms, codeOf ct b ≠ [] ∧ LeadsTo s.node s.root (codeOf ct b) b)
    (hlen : syms.length = s.origLen.toNat) (hbits : usableBits s.inBytes s.trail.toNat = codeBits ct syms ++ rest)
    (hread : s.BitsReadable 0 (codeBits ct syms).length) (hroom : s.CanHold syms.length) :
    exec .unpack s = .next (s.afterUnpack syms) := by
  by_cases h0 : s.origLen.toNat = 0
  · obtain rfl : syms = [] := List.length_eq_zero_iff.mp (hlen.trans h0)
    rw [exec_unpack_ok (a := ()) (t := s.openUnpack) hv (by rw [h0, walk_zero]), State.afterUnpack, State.appendOut_nil]
  · have hsyms : syms ≠ [] := fun h => h0 (hlen ▸ List.length_eq_zero_iff.mpr h)
    have hne : codeBits ct syms ++ rest ≠ [] :=
      List.append_ne_nil_of_left_ne_nil (codeBits_ne_nil hsyms fun b hb => (hcodes b hb).1) rest
    have hpos : 0 < s.inLen.toNat := s.inBytes_length ▸ usableBits_pos hbits hne
    obtain ⟨c, n, p, x, hwalk⟩ := walk_ok (s := s.openUnpack) (base := 0) (hread.congr (by simp))
      (openUnpack_fits (hlen ▸ hroom)) hlen h0 s.origLen.isLt (by simpa using hpos) (Nat.le_of_lt_succ s.trail.isLt)
      (by rw [State.openUnpack_payload, State.payload_zero]; exact hbits) (by simpa using hcodes)
    rw [exec_unpack_ok hv hwalk, State.dropWalker_dropInOff_setWalk_setInOff, State.afterUnpack]

/-! ### PACK, MOVEOUT, UNPACK -/

/-- With `T mod 8` as the trailing-bits count the usable bits of a packed stream are the stream, the empty one too
(R101, R107, R172). -/
theorem usableBits_packedBytes_self (bits : List Bool) : usableBits (packedBytes bits) (bits.length % 8) = bits := by
  by_cases h : bits = []
  · subst h
    rfl
  · exact usableBits_packedBytes h

theorem State.inBadAt_of_inBad_nil {s : State} (h : s.env.inBad = []) (o : Nat) : s.inBadAt o = false := by
  simp [State.inBadAt, h]

theorem State.CanHold.congr {s t : State} {n : Nat} (h : s.CanHold n) (he : t.env = s.env) : t.CanHold n :=
  ⟨fun c hc => h.cap c (he ▸ hc), h.count⟩

/-- The state in which UNPACK finds the packed IN of `s`: the payload moved to IN, and ORIG_LEN its number of bytes. -/
def State.repacked (s : State) : State := s.afterPack.moveOut.setOrigLen s.inLen

theorem State.repacked_sameTree (s : State) : SameTree s s.repacked := by
  constructor <;> simp [State.repacked, State.afterPack]

theorem State.repacked_env (s : State) : s.repacked.env = s.env := by simp [State.repacked, State.afterPack]

theorem State.repacked_origLen (s : State) : s.repacked.origLen = s.inLen := State.setOrigLen_origLen _ _

theorem State.repacked_trail (s : State) : s.repacked.trail = s.afterPack.trail := by simp [State.repacked]

theorem State.repacked_inBytes {s : State} (hroom : s.CanHold ((s.packStream.length + 7) / 8)) :
    s.repacked.inBytes = packedBytes s.packStream := by
  rw [State.repacked, State.setOrigLen_inBytes]
  exact moveOut_inBytes (State.afterPack_outHolds hroom)

/-- The usable bits of the packed IN are the codes of its bytes. -/
theorem State.repacked_usableBits {s : State} (hroom : s.CanHold ((s.packStream.length + 7) / 8)) :
    usableBits s.repacked.inBytes s.repacked.trail.toNat = codeBits s.ct s.inBytes := by
  rw [State.repacked_inBytes hroom, State.repacked_trail, State.afterPack_trail,
    usableBits_packedBytes_self, State.packStream]

/-- Settles O34: PACK leaves the codes of IN's bytes as the usable bits of its payload, and UNPACK of usable bits that are
the codes of ORIG_LEN symbols emits those symbols; tree and codes are unchanged in between. -/
theorem packUnpackInverse : Obligations.PackUnpackInverse := by
  unfold Obligations.PackUnpackInverse
  intro s htv _ hcv hci hbad hsyms hbytes hroom
  have hspec := (hci hcv).2.spec hsyms
  have htree := s.repacked_sameTree
  have hpack : exec .pack s = .next s.afterPack :=
    exec_pack_ok hcv (fun o _ => State.inBadAt_of_inBad_nil hbad o) (fun b hb => (hspec b hb).1) hroom
  have henv := s.repacked_env
  have hbad' : s.repacked.env.inBad = [] := by rw [henv, hbad]
  have hroom' : s.repacked.CanHold s.inBytes.length := by
    rw [State.inBytes_length]
    exact hbytes.congr henv
  have hunpack : exec .unpack s.repacked = .next (s.repacked.afterUnpack s.inBytes) :=
    exec_unpack_codes (ct := s.ct) (rest := []) (htree.treeValid.trans htv) (by rwa [htree.node, htree.root])
      (by rw [State.repacked_origLen, State.inBytes_length])
      (by rw [State.repacked_usableBits hroom, List.append_nil])
      (fun _ _ => State.inBadAt_of_inBad_nil hbad' _) hroom'
  exact ⟨s.afterPack, s.afterPack.moveOut, s.repacked.afterUnpack s.inBytes, hpack,
    hostStep_moveOut_of_valid s.afterPack_outValid, hunpack, State.finish_endsOk _, State.afterUnpack_outValid _ _,
    State.afterUnpack_outHolds hroom'⟩

end Sys2Proof.Machine
end

section
/-! ENCODE of the empty input (30_encoding.md R102; 45_container_codec.md R188). -/

namespace Sys2Proof.Machine

theorem inBytes_eq_nil {s : State} (h : s.inLen = 0) : s.inBytes = [] := by rw [State.inBytes, h]; rfl

theorem containerFor_nil (magic : List Byte) : containerFor magic [] = magic ++ leBytes 8 0 ++ leBytes 2 0 ++ [0x00] :=
  if_pos rfl

theorem containerFor_nil_length : (containerFor Config.magic []).length = 15 := by
  rw [containerFor_nil]
  rfl

/-- The header registers after ENCODE of the empty input are 0. -/
theorem EncodeHeader.of_nil {s t : State} (h : EncodeHeader s t) (h0 : s.inLen = 0) :
    t.origLen = 0 ∧ t.symCount = 0 ∧ t.trail = 0 := by
  have hnil := inBytes_eq_nil h0
  refine ⟨h.origLen.trans h0, ?_, ?_⟩
  · rw [h.symCount, hnil, tableOf_nil, ftEntries_eq_nil.mpr ftSum_ftZero]
    rfl
  · rw [h.trail, hnil]
    rfl

/-- Settles O36: ENCODE writes the container of IN's bytes, here of none, and 15 bytes have room. -/
theorem encodeEmptyInput : Obligations.EncodeEmptyInput := by
  unfold Obligations.EncodeEmptyInput
  intro s h0 hroom
  have hnil := inBytes_eq_nil h0
  have hread : s.Readable := fun o ho => absurd ho (by simp [h0])
  obtain ⟨t, ht, hok, hvalid, hout, hheader, -, -⟩ := exec_encode_ok hread (by rwa [hnil, containerFor_nil_length])
  rw [hnil] at hout
  have hlen : t.outLen = 15 := BitVec.eq_of_toNat_eq (hout.len.trans containerFor_nil_length)
  exact ⟨t, ht, hok, hvalid, hlen, containerFor_nil Config.magic ▸ hout, hheader.of_nil h0⟩

end Sys2Proof.Machine
end

section
/-! FCOUNT as a whole command (40_freq_counter.md R120 to R122): what it answers, and what it leaves unchanged. -/

namespace Sys2Proof.Machine

/-- The state in which FCOUNT comes to its end, with the counts it leaves: the IN read offset is given up. -/
def State.counted (s : State) (ft : Vector Count 256) (total : Count) : State :=
  ((s.begin .count).setCounts ft total).dropInOff

/-- R121: FCOUNT of a readable IN leaves the table of IN's bytes, and IN_LEN as TOTAL. -/
theorem exec_fcount_of_readable {s : State} (hread : s.Readable) :
    exec .fcount s = .next (s.counted (tableOf s.inBytes) s.inLen).finish := by
  obtain ⟨_, h⟩ := exec_fcount_ok hread
  exact h

/-- R122: an error of FCOUNT clears FT and TOTAL, whatever had been counted. -/
theorem exec_fcount_of_raised {s : State} {e : Raise} {ft : Vector Count 256} {total : Count} {off : BitVec 64}
    (h : countBody (s.begin .count) = .raised e ((((s.begin .count).setCounts ft total).setPhase .count).setInOff off)) :
    exec .fcount s = .next ((s.counted ftZero 0).raise .fcount e) := by
  show execFcount s = _
  rw [execFcount, h]
  rfl

/-- FCOUNT at the first unreadable offset `p`. -/
theorem exec_fcount_of_unreadable {s : State} {p : Nat} (hlen : p < s.inLen.toNat) (hbad : s.inBadAt p = true)
    (hok : ∀ k, k < p → s.inBadAt k = false) :
    exec .fcount s = .next ((s.counted ftZero 0).raise .fcount ⟨.srcUnreadable, BitVec.ofNat 64 p⟩) := by
  obtain ⟨_, _, _, h⟩ := countBody_bad (s := s.begin .count) hlen hbad hok
  exact exec_fcount_of_raised h

/-- The two ends of FCOUNT, from any state. -/
theorem exec_fcount_cases (s : State) :
    (∃ ft total, exec .fcount s = .next (s.counted ft total).finish) ∨
      ∃ info, exec .fcount s = .next ((s.counted ftZero 0).raise .fcount ⟨.srcUnreadable, info⟩) := by
  obtain ⟨ft, total, _, h | ⟨info, h⟩⟩ := countBody_cases (s.begin .count)
  · refine .inl ⟨ft, total, ?_⟩
    show execFcount s = _
    rw [execFcount, h]
    rfl
  · exact .inr ⟨info, exec_fcount_of_raised h⟩

/-- Either end of FCOUNT writes the counts and a row of R221, that of no error when it succeeds (R231, R232). -/
theorem exec_fcount_eq_recordError (s : State) :
    ∃ ft total e, exec .fcount s = .next ((s.counted ft total).recordError e) := by
  rcases exec_fcount_cases s with ⟨ft, total, h⟩ | ⟨info, h⟩
  · exact ⟨ft, total, ⟨.none, 0⟩, h⟩
  · exact ⟨ftZero, 0, ⟨.srcUnreadable, info⟩, h⟩

/-- Settles O8: the table of IN's bytes counts each of them, and they are fewer than 2^64. -/
theorem fcountCountsInput : Obligations.FcountCountsInput := by
  unfold Obligations.FcountCountsInput
  intro s hread
  have hlen : s.inBytes.length = s.inLen.toNat := s.inBytes_length
  have hlt : s.inBytes.length < 2 ^ 64 := hlen ▸ s.inLen.isLt
  exact ⟨_, exec_fcount_of_readable hread, State.finish_endsOk _, tableOf_at hlt, rfl, (ftSum_tableOf hlt).trans hlen⟩

/-- Settles O9: both ends keep the three flags; the error one has cleared the counts. -/
theorem fcountErrors : Obligations.FcountErrors := by
  unfold Obligations.FcountErrors
  constructor
  case left =>
    intro s p hlen hbad hok
    exact ⟨_, exec_fcount_of_unreadable hlen hbad hok, State.raise_endsWith _ _ _, ftAt_ftZero, rfl⟩
  case right =>
    intro s
    rcases exec_fcount_cases s with ⟨_, _, h⟩ | ⟨info, h⟩
    · exact ⟨_, h, rfl, rfl, rfl, rfl, .inl (State.finish_endsOk _)⟩
    · exact ⟨_, h, rfl, rfl, rfl, rfl, .inr ⟨info, State.raise_endsWith _ _ _⟩⟩

/-- Settles O10: both ends are one `recordError`, and nothing that it or `State.counted` writes is in the frame. -/
theorem fcountFrame : Obligations.FcountFrame := by
  unfold Obligations.FcountFrame
  intro s
  obtain ⟨ft, total, e, h⟩ := exec_fcount_eq_recordError s
  exact ⟨_, h, ⟨rfl, rfl, rfl, rfl⟩, ⟨rfl, rfl⟩, ⟨rfl, rfl, rfl⟩, ⟨rfl, fun _ => rfl, fun _ => rfl⟩,
    ⟨rfl, rfl, fun _ => rfl⟩, ⟨rfl, rfl⟩, ⟨rfl, rfl, rfl⟩, ⟨rfl, rfl, rfl⟩, ⟨rfl, rfl, rfl, rfl, rfl⟩⟩

end Sys2Proof.Machine
end

section
/-! BUILD_TREE as a whole command (41_tree_builder.md R130 to R138): what it answers from every state, the tree it makes of
an accepted table, and what it leaves unchanged. -/

namespace Sys2Proof.Machine

/-! ### What BUILD_TREE answers (R133, R137) -/

/-- The state in which BUILD_TREE makes its two checks: the tree and the code table are gone (R137). -/
def State.openBuild (s : State) : State := ((s.begin .build).setPhase .build).dropTree.dropCodes

/-- The state a BUILD_TREE of an accepted table answers. -/
def State.treeBuilt (s : State) : State := ((s.begin .build).plant (builtNodes s.ft) (builtRoot s.ft)).finish

/-- The state BUILD_TREE answers, its checks in the order of R133. -/
def State.afterBuildTree (s : State) : State :=
  if ftSum s.ft = 0 then s.openBuild.raise .buildTree ⟨.emptyTable, 0⟩
  else if 2 ^ 64 ≤ ftSum s.ft then s.openBuild.raise .buildTree ⟨.freqOverflow, 0⟩
  else s.treeBuilt

theorem exec_buildTree_empty {s : State} (h : ftSum s.ft = 0) :
    exec .buildTree s = .next (s.openBuild.raise .buildTree ⟨.emptyTable, 0⟩) := by
  show execBuildTree s = _
  rw [execBuildTree, buildBody_empty (s := s.begin .build) (by simpa using h)]
  rfl

theorem exec_buildTree_overflow {s : State} (h : 2 ^ 64 ≤ ftSum s.ft) :
    exec .buildTree s = .next (s.openBuild.raise .buildTree ⟨.freqOverflow, 0⟩) := by
  show execBuildTree s = _
  rw [execBuildTree, buildBody_overflow (s := s.begin .build) (by simpa using h)]
  rfl

theorem exec_buildTree (s : State) : exec .buildTree s = .next s.afterBuildTree := by
  unfold State.afterBuildTree
  split_ifs with h0 h
  · exact exec_buildTree_empty h0
  · exact exec_buildTree_overflow h
  · exact exec_buildTree_ok h0 (Nat.lt_of_not_le h)

/-! ### The nodes (R132, R135, R136) -/

theorem leavesOf_ftEntries (ft : Vector Count 256) :
    leavesOf (ftEntries ft) = (present ft).map (fun b => Node.leaf b (ftAt ft b)) := by
  rw [ftEntries_eq, leavesOf, List.map_map]
  rfl

/-- R132: the leaves come first, in ascending symbol order. -/
theorem builtNodes_take_leaves {ft : Vector Count 256} (h0 : ftSum ft ≠ 0) (hlt : ftSum ft < 2 ^ 64) :
    (builtNodes ft).take (present ft).length = (present ft).map (fun b => Node.leaf b (ftAt ft b)) := by
  rw [present_length, ← leavesOf_ftEntries]
  exact (builtForest_ok h0 hlt).leaves

theorem leafSymbols_builtNodes {ft : Vector Count 256} (h0 : ftSum ft ≠ 0) (hlt : ftSum ft < 2 ^ 64) :
    leafSymbols (builtNodes ft) = present ft :=
  (builtNodes_symbols h0 hlt).trans (present_eq ft).symm

/-- No addition of BUILD_TREE wraps around (R133), so an Internal node's frequency is the 64-bit sum too. -/
theorem nodeOk.freq_eq {node : List Node} {i : Nat} {f : Count} {l r : NodeIdx} (h : nodeOk node i)
    (hi : node[i]? = some (.internal f l r)) : f = freqAt node l + freqAt node r := by
  obtain ⟨-, -, hsum⟩ := h f l r hi
  have hf := f.isLt
  apply BitVec.eq_of_toNat_eq
  rw [BitVec.toNat_add, ← hsum, Nat.mod_eq_of_lt hf]

/-- Behind its leaves a forest holds Internal nodes only. -/
theorem ForestInv.internal_of_le {es : List (Byte × Count)} {fr : Forest} (h : ForestInv es fr) {i : Nat}
    (hle : es.length ≤ i) (hlt : i < fr.node.length) : ∃ f l r, fr.node[i]? = some (.internal f l r) := by
  have hi : fr.node[i]? = some fr.node[i] := List.getElem?_eq_getElem hlt
  cases hn : fr.node[i] with
  | internal f l r => exact ⟨f, l, r, hn ▸ hi⟩
  | leaf sym f =>
    have hes := h.leaf_at (hn ▸ hi)
    rw [List.getElem?_eq_none hle] at hes
    cases hes

/-- The pool of the claims, at the end of the store, is the queue. -/
theorem ForestInv.inPool_iff {es : List (Byte × Count)} {fr : Forest} (h : ForestInv es fr) (j : NodeIdx) :
    InPool fr.node fr.node.length j ↔ j ∈ fr.q := by
  rw [h.mem_iff, InPool, List.take_length]

/-- R135: when the merges are over, the root alone is left. -/
theorem inPool_builtNodes_iff {ft : Vector Count 256} (hlt : ftSum ft < 2 ^ 64) (h2 : 2 ≤ (ftEntries ft).length)
    (j : NodeIdx) : InPool (builtNodes ft) (builtNodes ft).length j ↔ j = builtRoot ft := by
  obtain ⟨hinv, hq⟩ := builtForest_many hlt h2
  have hqueue : (builtForest ft).q = [builtRoot ft] := (hinv.done (ftEntries_ok hlt) hq h2).queue
  rw [builtNodes, hinv.inPool_iff, hqueue, List.mem_singleton]

theorem ftSum_ne_zero_of_present {ft : Vector Count 256} {b : Byte} (h : b ∈ present ft) : ftSum ft ≠ 0 :=
  fun h0 => mem_present.mp h (ftSum_eq_zero.mp h0 b)

/-- Settles O12: BUILD_TREE plants `builtNodes`, whose leaves come first. -/
theorem buildTreeSeedsLeaves : Obligations.BuildTreeSeedsLeaves := by
  unfold Obligations.BuildTreeSeedsLeaves
  intro s h0 hlt
  exact ⟨s.treeBuilt, exec_buildTree_ok h0 hlt, builtNodes_take_leaves h0 hlt, leafSymbols_builtNodes h0 hlt⟩

/-- Settles O13: the forest of a table of one symbol is the one of R134. -/
theorem buildTreeSingleSymbol : Obligations.BuildTreeSingleSymbol := by
  unfold Obligations.BuildTreeSingleSymbol
  intro s b hb
  obtain ⟨hentries, -, h0, hlt⟩ := ftSum_single hb
  have hnodes : builtNodes s.ft = [.leaf b (ftAt s.ft b), .leaf 0 0, .internal (ftAt s.ft b) 0 1] :=
    congrArg Forest.node (builtForest_single hentries)
  have hroot : builtRoot s.ft = 2 := by rw [builtRoot, hnodes]; rfl
  have hcount : BitVec.ofNat 10 (builtNodes s.ft).length = 3 := by rw [hnodes]; rfl
  exact ⟨s.treeBuilt, exec_buildTree_ok h0 hlt, State.finish_endsOk _, hnodes, hcount, hroot, rfl⟩

/-- Settles O14: the tree invariants tie NCOUNT, ROOT and the number of nodes together. -/
theorem buildTreeSizes : Obligations.BuildTreeSizes := by
  unfold Obligations.BuildTreeSizes
  intro s h0 hlt
  have hwf := builtNodes_wf h0 hlt
  have hlen := builtNodes_length h0 hlt
  rw [← present_length] at hlen
  exact ⟨s.treeBuilt, exec_buildTree_ok h0 hlt, hwf.count.trans hlen, hwf.rootLast.trans hwf.count.symm, hwf.count.symm,
    hwf.count.trans_le hwf.atMost, freqAt_builtRoot h0 hlt⟩

/-- Settles O15: behind the leaves all nodes are Internal, and each was made of the two smallest keys of its pool. -/
theorem buildTreeMergesSmallest : Obligations.BuildTreeMergesSmallest := by
  unfold Obligations.BuildTreeMergesSmallest
  intro s h2 hlt
  have h0 := ftSum_ne_zero_of_present (List.getElem_mem (show 0 < (present s.ft).length by omega))
  rw [present_length] at h2 ⊢
  have hwf := builtNodes_wf h0 hlt
  refine ⟨s.treeBuilt, exec_buildTree_ok h0 hlt, State.finish_endsOk _, fun i hle hi => ?_, inPool_builtNodes_iff hlt h2,
    hwf.rootLast, rfl⟩
  obtain ⟨f, l, r, hnode⟩ := (builtForest_many hlt h2).1.internal_of_le hle hi
  have hfreq := (hwf.nodes i).freq_eq hnode
  exact ⟨l, r, hfreq ▸ hnode, builtNodes_greedy hlt h2 i f l r hnode⟩

/-! ### Every state (R137, R138) -/

/-- Settles O16, along the two checks of R133. -/
theorem buildTreeOutcomes : Obligations.BuildTreeOutcomes := by
  unfold Obligations.BuildTreeOutcomes
  intro s
  simp only [← ftSum_eq_zero]
  split_ifs with h0 h
  · exact ⟨_, exec_buildTree_empty h0, rfl, State.raise_endsWith _ _ _, rfl, rfl, rfl⟩
  · exact ⟨_, exec_buildTree_overflow h, rfl, State.raise_endsWith _ _ _, rfl, rfl, rfl⟩
  · have hlt := Nat.lt_of_not_le h
    exact ⟨s.treeBuilt, exec_buildTree_ok h0 hlt, rfl, State.finish_endsOk _, rfl, builtNodes_wf h0 hlt,
      leafSymbols_builtNodes h0 hlt⟩

/-- Settles O17: the branch of `State.afterBuildTree`, and what it writes to the tree, are those of the table. -/
theorem buildTreeFunctionOfTable : Obligations.BuildTreeFunctionOfTable := by
  unfold Obligations.BuildTreeFunctionOfTable
  intro s s' t t' hft ht ht'
  obtain rfl : s.afterBuildTree = t := by simpa [exec_buildTree] using ht
  obtain rfl : s'.afterBuildTree = t' := by simpa [exec_buildTree] using ht'
  unfold State.afterBuildTree
  rw [← hft]
  split_ifs with h0 h
  · exact ⟨rfl, rfl, rfl, fun hv => absurd hv Bool.false_ne_true⟩
  · exact ⟨rfl, rfl, rfl, fun hv => absurd hv Bool.false_ne_true⟩
  · have hnodes : builtNodes s.ft = builtNodes s'.ft := by rw [hft]
    have hroot : builtRoot s.ft = builtRoot s'.ft := by rw [hft]
    have hcount : BitVec.ofNat 10 (builtNodes s.ft).length = BitVec.ofNat 10 (builtNodes s'.ft).length := by rw [hft]
    exact ⟨rfl, hnodes, rfl, fun _ => ⟨hcount, hroot⟩⟩

/-- A successful BUILD_TREE's writes before `finish`, as one update. -/
theorem State.plant_eq (s : State) (node : List Node) (root : NodeIdx) :
    s.plant node root = { s with
      node := node, ncount := BitVec.ofNat 10 node.length, root := root, treeValid := true, ct := [], ctValid := false,
      q := [], phase := .build, draws := s.draws + 1 } := rfl

/-- Every end of BUILD_TREE writes the tree, drops the codes, leaves the queue or empties it, and writes a row of R221, that
of no error when it succeeds (R231, R232). -/
theorem exec_buildTree_eq_recordError (s : State) :
    ∃ node ncount root valid q draws e, (q = s.q ∨ q = []) ∧ exec .buildTree s = .next
      (State.recordError
        { s.begin .build with
          node := node, ncount := ncount, root := root, treeValid := valid, ct := [], ctValid := false, q := q,
          draws := draws }
        e) := by
  rw [exec_buildTree, State.afterBuildTree]
  split_ifs
  · exact ⟨_, _, _, _, _, _, ⟨.emptyTable, 0⟩, .inl rfl, rfl⟩
  · exact ⟨_, _, _, _, _, _, ⟨.freqOverflow, 0⟩, .inl rfl, rfl⟩
  · rw [State.treeBuilt, State.plant_eq]
    exact ⟨_, _, _, _, _, _, ⟨.none, 0⟩, .inr rfl, rfl⟩

/-- Settles O18: each end is one `recordError` over a state whose tree, codes and queue alone are written. -/
theorem buildTreeFrame : Obligations.BuildTreeFrame := by
  unfold Obligations.BuildTreeFrame
  intro s
  obtain ⟨_, _, _, _, q, _, _, hq, h⟩ := exec_buildTree_eq_recordError s
  have hqueue : s.q = [] → q = [] := fun hs => hq.elim (·.trans hs) id
  exact ⟨_, h, ⟨rfl, rfl⟩, ⟨rfl, rfl, rfl⟩, ⟨rfl, fun _ => rfl, fun _ => rfl⟩, ⟨rfl, rfl, fun _ => rfl⟩, ⟨rfl, rfl⟩,
    ⟨rfl, rfl, rfl⟩, rfl, rfl, hqueue, ⟨rfl, rfl, rfl, rfl, rfl⟩⟩

end Sys2Proof.Machine
end

section
/-! GEN_CODES as a whole command (42_code_generator.md R150 to R155): what it answers from every state, the codes it makes
of a tree, and what it leaves unchanged. -/

namespace Sys2Proof.Machine

/-! ### What GEN_CODES answers (R153) -/

/-- The state in which GEN_CODES checks for a tree: the code table is gone. -/
def State.openGen (s : State) : State := (s.begin .gen).dropCodes

/-- The state a GEN_CODES that has made the table `ct` answers; its stack is empty again (R155). -/
def State.codesMade (s : State) (ct : List Code) : State :=
  State.finish { s.begin .gen with ct := ct, ctValid := true, genStack := [] }

theorem exec_genCodes_noTree {s : State} (hv : s.treeValid = false) :
    exec .genCodes s = .next (s.openGen.raise .genCodes ⟨.noTree, 0⟩) := by
  show execGenCodes s = _
  rw [execGenCodes, genBody_noTree (s := s.begin .gen) hv]
  rfl

/-- With TREE_VALID = 1 GEN_CODES succeeds, whatever NODE holds. -/
theorem exec_genCodes_of_valid {s : State} (hv : s.treeValid = true) :
    ∃ ct, exec .genCodes s = .next (s.codesMade ct) := by
  rcases genBody_cases (s.begin .gen) with ⟨-, ct, h⟩ | ⟨hn, -⟩
  · refine ⟨ct, ?_⟩
    show execGenCodes s = _
    rw [execGenCodes, h]
    rfl
  · exact absurd (hv.symm.trans hn) Bool.noConfusion

/-- With a tree that meets its invariants the table is that of the tree. -/
theorem exec_genCodes_of_treeInv {s : State} (hv : s.treeValid = true) (h : s.TreeInv) :
    exec .genCodes s = .next (s.codesMade (treeCodes s.node s.root)) :=
  exec_genCodes_ok hv (h hv)

@[simp] theorem State.codesMade_ct (s : State) (ct : List Code) : (s.codesMade ct).ct = ct := rfl

theorem State.codesMade_sameTree (s : State) (ct : List Code) : SameTree s (s.codesMade ct) := ⟨rfl, rfl, rfl, rfl⟩

theorem State.codesMade_endsOk (s : State) (ct : List Code) : (s.codesMade ct).EndsOk := State.finish_endsOk _

/-- Either end of GEN_CODES writes the code table, leaves the stack or empties it, and writes a row of R221, that of no
error when it succeeds (R231, R232). -/
theorem exec_genCodes_eq_recordError (s : State) :
    ∃ ct valid stack e, (stack = s.genStack ∨ stack = []) ∧ exec .genCodes s = .next
      (State.recordError { s.begin .gen with ct := ct, ctValid := valid, genStack := stack } e) := by
  cases hv : s.treeValid with
  | false => exact ⟨_, _, _, ⟨.noTree, 0⟩, .inl rfl, exec_genCodes_noTree hv⟩
  | true =>
    obtain ⟨ct, h⟩ := exec_genCodes_of_valid hv
    exact ⟨ct, true, [], ⟨.none, 0⟩, .inr rfl, h⟩

/-! ### The codes of a tree (R151, R152, R154) -/

/-- The tree of one symbol meets the tree invariants (R26, R134). -/
theorem singleTree_wf (b : Byte) {f : Count} (hf : f ≠ 0) : TreeWf [.leaf b f, .leaf 0 0, .internal f 0 1] 3 2 :=
  (singleForest_built hf).2.tree

/-- Settles O19: the table GEN_CODES makes is `treeCodes`, which is a code table of the tree. -/
theorem genCodesMakesPaths : Obligations.GenCodesMakesPaths := by
  unfold Obligations.GenCodesMakesPaths
  intro s hv h
  have hcodes := treeCodes_of (h hv)
  exact ⟨_, exec_genCodes_of_treeInv hv h, s.codesMade_endsOk _, rfl, by rwa [State.codesMade_ct], s.codesMade_sameTree _⟩

/-- Settles O20: in a code table of a tree each code is a path to a Leaf, and no path goes on below a Leaf. -/
theorem genCodesPrefixFree : Obligations.GenCodesPrefixFree := by
  unfold Obligations.GenCodesPrefixFree
  intro s hv h
  have hcodes := treeCodes_of (h hv)
  refine ⟨_, exec_genCodes_of_treeInv hv h, fun a b => ?_⟩
  rw [State.codesMade_ct]
  exact hcodes.not_prefix

/-- Settles O21: the two ends of R153; the single-symbol tree meets the tree invariants, so its table is `treeCodes`. -/
theorem genCodesOutcomes : Obligations.GenCodesOutcomes := by
  unfold Obligations.GenCodesOutcomes
  constructor
  case left =>
    intro s
    split_ifs with hv
    · exact ⟨_, exec_genCodes_noTree hv, rfl, State.raise_endsWith _ _ _, rfl, rfl⟩
    · obtain ⟨ct, h⟩ := exec_genCodes_of_valid (Bool.eq_true_of_not_eq_false hv)
      exact ⟨_, h, rfl, s.codesMade_endsOk ct, rfl⟩
  case right =>
    intro s b f hv hf hcount hroot hnode
    have hinv : s.TreeInv := fun _ => hnode ▸ hcount ▸ hroot ▸ singleTree_wf b hf
    have hexec := exec_genCodes_of_treeInv hv hinv
    rw [hnode, hroot] at hexec
    refine ⟨_, hexec, s.codesMade_endsOk _, ?_⟩
    rw [State.codesMade_ct]
    exact treeCodes_single hf

/-! ### What GEN_CODES leaves unchanged (R150, R153) -/

/-- Settles O23: each end is one `recordError` over a state whose code table and stack alone are written. -/
theorem genCodesFrame : Obligations.GenCodesFrame := by
  unfold Obligations.GenCodesFrame
  intro s
  obtain ⟨_, _, stack, _, hstack, h⟩ := exec_genCodes_eq_recordError s
  have hempty : s.genStack = [] → stack = [] := fun hs => hstack.elim (·.trans hs) id
  exact ⟨_, h, ⟨rfl, rfl⟩, ⟨rfl, rfl, rfl, rfl⟩, ⟨rfl, rfl, rfl⟩, ⟨rfl, fun _ => rfl, fun _ => rfl⟩,
    ⟨rfl, rfl, fun _ => rfl⟩, ⟨rfl, rfl⟩, ⟨rfl, rfl, rfl⟩, rfl, rfl, hempty, ⟨rfl, rfl, rfl, rfl, rfl⟩⟩

end Sys2Proof.Machine
end

section
/-! The ends of PACK (20_memory.md R64; 43_bit_packer.md R160, R161, R163): what it answers from every state, when each of
its errors occurs, and what it leaves unchanged. -/

namespace Sys2Proof.Machine

/-! ### What PACK answers (R163) -/

/-- The state in which PACK checks for a code table: OUT is open. -/
def State.openPack (s : State) : State := (s.begin .pack).openOut

@[simp] theorem State.openPack_outLen (s : State) : s.openPack.outLen = 0 := by simp [State.openPack]

@[simp] theorem State.openPack_env (s : State) : s.openPack.env = s.env := by simp [State.openPack]

@[simp] theorem State.openPack_trail (s : State) : s.openPack.trail = s.trail := by simp [State.openPack]

/-- The state in which PACK comes to its end, with the OUT, the TRAIL and the OUT_VALID it leaves: the packer's registers
and the IN read offset are given up (R37). -/
def State.packEnd (s : State) (m : Memory) (len : Count) (tb : BitVec 3) (v : Bool) : State :=
  (((s.openPack.setOut m len).setTrail tb).setOutValid v).dropPacker.dropInOff

/-- The state a successful PACK answers, with `tb` for TRAIL. -/
def State.packDone (s : State) (m : Memory) (len : Count) (tb : BitVec 3) : State := (s.packEnd m len tb true).finish

/-- The state a PACK answers that ends with the error `e`: OUT has no definite content and OUT_VALID = 0 (R232, R269). -/
def State.packFailed (s : State) (len : Count) (e : Raise) : State := (s.packEnd [] len s.trail false).recordError e

@[simp] theorem State.packDone_outValid (s : State) (m : Memory) (len : Count) (tb : BitVec 3) :
    (s.packDone m len tb).outValid = true := by
  simp [State.packDone, State.packEnd]

theorem State.packDone_endsOk (s : State) (m : Memory) (len : Count) (tb : BitVec 3) : (s.packDone m len tb).EndsOk :=
  State.finish_endsOk _

@[simp] theorem State.packFailed_outLen (s : State) (len : Count) (e : Raise) : (s.packFailed len e).outLen = len := rfl

@[simp] theorem State.packFailed_outValid (s : State) (len : Count) (e : Raise) : (s.packFailed len e).outValid = false := rfl

@[simp] theorem State.packFailed_trail (s : State) (len : Count) (e : Raise) : (s.packFailed len e).trail = s.trail := by
  simp [State.packFailed, State.packEnd]

theorem State.packFailed_endsWith (s : State) (len : Count) (e : Raise) : (s.packFailed len e).EndsWith e.cause e.info :=
  ⟨⟨rfl, rfl, rfl⟩, rfl, rfl, rfl⟩

/-- An error of PACK drops OUT, the packer's registers and the IN read offset (R37, R232). -/
theorem State.dropPacker_dropInOff_raise_pack (s : State) (e : Raise) :
    s.dropPacker.dropInOff.raise .pack e =
      (((s.setOut [] s.outLen).setTrail s.trail).setOutValid false).dropPacker.dropInOff.recordError e := rfl

/-- What is written last to OUT is what stays of it. -/
theorem State.setOut_setPacker_setInOff_setOut (s : State) (m m' : Memory) (len len' : Count) (a : BitVec 8) (f : BitVec 4)
    (x : BitVec 64) :
    (((s.setOut m len).setPacker a f).setInOff x).setOut m' len' = ((s.setOut m' len').setPacker a f).setInOff x := rfl

theorem exec_pack_noCodeTable {s : State} (hv : s.ctValid = false) :
    exec .pack s = .next (s.packFailed 0 ⟨.noCodeTable, 0⟩) := by
  show execPack s = _
  rw [execPack, ← State.openPack, packBody, if_pos (by simpa [State.openPack] using hv)]
  dsimp only
  rw [State.dropPacker_dropInOff_raise_pack, State.openPack_outLen, State.openPack_trail, State.packFailed, State.packEnd]

/-- A raise of `Pack` into OUT is PACK's error. -/
theorem exec_pack_of_raised {s u : State} {e : Raise} (hv : s.ctValid = true)
    (h : packAll outByte s.openPack = .raised e u) : exec .pack s = .next (s.packFailed u.outLen e) := by
  have hall := packAll_out_all s.openPack
  rw [h] at hall
  obtain ⟨-, m, len, a, f, x, rfl⟩ := hall
  show execPack s = _
  rw [execPack, ← State.openPack, packBody, if_neg (by simp [State.openPack, hv]), h]
  dsimp only
  rw [State.dropPacker_dropInOff_raise_pack, State.setOut_setPacker_setInOff_setOut,
    State.dropPacker_dropInOff_setPacker_setInOff, State.packFailed, State.packEnd]
  simp only [State.setInOff_outLen, State.setPacker_outLen, State.setOut_outLen, State.setInOff_trail,
    State.setPacker_trail, State.setOut_trail, State.openPack_trail]

/-- The answer of `Pack` into OUT goes to TRAIL. -/
theorem exec_pack_of_ok {s u : State} {tb : BitVec 3} (hv : s.ctValid = true)
    (h : packAll outByte s.openPack = .ok tb u) : exec .pack s = .next (s.packDone u.outMem u.outLen tb) := by
  have hall := packAll_out_all s.openPack
  rw [h] at hall
  obtain ⟨m, len, a, f, x, rfl⟩ := hall
  show execPack s = _
  rw [execPack, ← State.openPack, packBody, if_neg (by simp [State.openPack, hv]), h]
  dsimp only
  rw [State.dropPacker_dropInOff_setPacker_setInOff, State.packDone, State.packEnd]
  simp only [State.setInOff_outLen, State.setPacker_outLen, State.setOut_outLen, State.setInOff_outMem,
    State.setPacker_outMem, State.setOut_outMem]

theorem mem_mayRaise_pack {c : Cause} (h : c = .srcUnreadable ∨ c = .noCode ∨ c = .dstUnwritable) : c ∈ mayRaise .pack := by
  rcases h with rfl | rfl | rfl <;> decide

/-- The two ends of PACK, from any state. -/
theorem exec_pack_cases (s : State) :
    (∃ m len tb, exec .pack s = .next (s.packDone m len tb)) ∨
      ∃ len e, e.cause ∈ mayRaise .pack ∧ exec .pack s = .next (s.packFailed len e) := by
  cases hv : s.ctValid with
  | false => exact .inr ⟨0, ⟨.noCodeTable, 0⟩, by decide, exec_pack_noCodeTable hv⟩
  | true =>
    have hall := packAll_out_all s.openPack
    cases h : packAll outByte s.openPack with
    | ok tb u => exact .inl ⟨_, _, tb, exec_pack_of_ok hv h⟩
    | raised e u =>
      rw [h] at hall
      exact .inr ⟨_, e, mem_mayRaise_pack hall.1, exec_pack_of_raised hv h⟩

/-- Either end of PACK writes OUT, TRAIL, OUT_VALID and a row of R221, that of no error when it succeeds (R231, R232). -/
theorem exec_pack_eq_recordError (s : State) :
    ∃ m len tb v e, exec .pack s = .next ((s.packEnd m len tb v).recordError e) := by
  rcases exec_pack_cases s with ⟨m, len, tb, h⟩ | ⟨len, e, -, h⟩
  · exact ⟨m, len, tb, true, ⟨.none, 0⟩, h⟩
  · exact ⟨[], len, s.trail, false, e, h⟩

/-! ### When each error occurs (R161, R163) -/

/-- The front of IN that PACK gets through when OUT has room: the bytes before offset `o` are readable and have codes. -/
structure State.PackFront (s : State) (o : Nat) : Prop where
  le : o ≤ s.inLen.toNat
  readable : s.ReadableTo o
  coded : ∀ b ∈ s.inBytes.take o, codeOf s.ct b ≠ []

/-- How many whole bytes the codes of the bytes before offset `o` make (R161). -/
def State.wholeBytes (s : State) (o : Nat) : Nat := (codeBits s.ct (s.inBytes.take o)).length / 8

theorem State.openPack_fits {s : State} {n : Nat} (h : s.CanHold n) : s.openPack.Fits n :=
  fits_of_canHold h s.openPack_env s.openPack_outLen

theorem State.openPack_not_fits {s : State} {n : Nat} (h : ¬ s.CanHold n) : ¬ s.openPack.Fits n :=
  fun hf => h (canHold_of_fits hf s.openPack_env s.openPack_outLen)

theorem State.PackFront.openPack_inSlice {s : State} {o : Nat} (h : s.PackFront o) :
    s.openPack.inSlice 0 o = s.inBytes.take o := by
  have hslice : s.openPack.inSlice 0 o = s.inSlice 0 o := by simp [State.openPack]
  rw [hslice, State.inSlice_eq_take_drop s (by simpa using h.le), List.drop_zero]

theorem State.PackFront.openPack_coded {s : State} {o : Nat} (h : s.PackFront o) :
    ∀ b ∈ s.openPack.inSlice 0 o, codeOf s.openPack.ct b ≠ [] := by
  rw [h.openPack_inSlice]
  exact h.coded

theorem State.PackFront.openPack_wholeBytes {s : State} {o : Nat} (h : s.PackFront o) :
    (codeBits s.openPack.ct (s.openPack.inSlice 0 o)).length / 8 = s.wholeBytes o := by
  rw [h.openPack_inSlice]
  rfl

/-- PACK at an unreadable offset behind a front it gets through. -/
theorem exec_pack_unreadable {s : State} {o : Nat} (hv : s.ctValid = true) (hlt : o < s.inLen.toNat) (hf : s.PackFront o)
    (hroom : s.CanHold (s.wholeBytes o)) (hbad : s.inBadAt o = true) :
    ∃ len, exec .pack s = .next (s.packFailed len ⟨.srcUnreadable, BitVec.ofNat 64 o⟩) := by
  obtain ⟨u, h⟩ := packAll_unreadable outSink (s := s.openPack) hlt hf.readable hf.openPack_coded hbad
    (hf.openPack_wholeBytes ▸ State.openPack_fits hroom)
  exact ⟨_, exec_pack_of_raised hv h⟩

/-- PACK at a byte without a code behind a front it gets through. -/
theorem exec_pack_noCode {s : State} {o : Nat} (hv : s.ctValid = true) (hlt : o < s.inLen.toNat) (hf : s.PackFront o)
    (hroom : s.CanHold (s.wholeBytes o)) (hok : s.inBadAt o = false) (hno : codeOf s.ct (s.inByte o) = []) :
    ∃ len, exec .pack s = .next (s.packFailed len ⟨.noCode, BitVec.ofNat 64 o⟩) := by
  have hreadable : ∀ k, k ≤ o → s.inBadAt k = false := fun k hk =>
    hk.eq_or_lt.elim (fun heq => heq ▸ hok) (hf.readable k)
  obtain ⟨u, h⟩ := packAll_noCode outSink (s := s.openPack) hlt hreadable hf.openPack_coded hno
    (hf.openPack_wholeBytes ▸ State.openPack_fits hroom)
  exact ⟨_, exec_pack_of_raised hv h⟩

/-- OUT_CAP = `c` is less than the whole bytes of a front of IN, or than the whole padded stream (R162, R163). -/
theorem packAll_fullOut {s : State} {o c : Nat} (hf : s.PackFront o) (hcap : s.env.outCap = some c)
    (hmore : c < s.wholeBytes o ∨ (o = s.inLen.toNat ∧ c < (s.packStream.length + 7) / 8)) :
    FullOut s.env (packAll outByte s.openPack) := by
  rw [← State.openPack_env]
  have hnot {n : Nat} (h : c < n) : ¬ s.openPack.Fits n :=
    State.openPack_not_fits fun hc => Nat.not_le_of_lt h (hc.cap c hcap)
  have hstream : codeBits s.openPack.ct s.openPack.inBytes = s.packStream := by simp [State.openPack, State.packStream]
  have hempty : s.openPack.outLen.toNat ≤ outLimit s.openPack.env := Nat.zero_le _
  rcases hmore with hfront | ⟨rfl, hall⟩
  · exact packAll_full_front hf.le hf.readable hf.openPack_coded hempty (hf.openPack_wholeBytes ▸ hnot hfront)
  · exact packAll_full hf.readable hf.openPack_coded hempty (hstream ▸ hnot hall)

/-- PACK into an OUT that is too small fills it (R64). -/
theorem exec_pack_full {s : State} {o c : Nat} (hv : s.ctValid = true) (hf : s.PackFront o)
    (hcap : s.env.outCap = some c) (hc : c < 2 ^ 64)
    (hmore : c < s.wholeBytes o ∨ (o = s.inLen.toNat ∧ c < (s.packStream.length + 7) / 8)) :
    ∃ len, exec .pack s = .next (s.packFailed len ⟨.dstUnwritable, BitVec.ofNat 64 c⟩) ∧ len.toNat = c := by
  obtain ⟨u, h, hlen⟩ := packAll_fullOut hf hcap hmore
  rw [outLimit_of_cap hcap hc] at h hlen
  exact ⟨_, exec_pack_of_raised hv h, hlen⟩

/-- Settles O25: the ends are `exec_pack_cases`; an error of the source, of the code table or of OUT is the first that
`Pack` meets behind a front it gets through. -/
theorem packErrors : Obligations.PackErrors := by
  unfold Obligations.PackErrors
  refine ⟨?ends, ?source, ?full⟩
  case ends =>
    intro s
    have hnone {t : State} (ht : exec .pack s = .next t) (hv : s.ctValid = false) :
        t.EndsWith .noCodeTable 0 ∧ t.outLen = 0 := by
      obtain rfl : s.packFailed 0 ⟨.noCodeTable, 0⟩ = t := Host.Outcome.next.inj ((exec_pack_noCodeTable hv).symm.trans ht)
      exact ⟨s.packFailed_endsWith _ _, s.packFailed_outLen _ _⟩
    rcases exec_pack_cases s with ⟨m, len, tb, h⟩ | ⟨len, e, he, h⟩
    · exact ⟨_, h, .inl ⟨s.packDone_endsOk m len tb, s.packDone_outValid m len tb⟩, hnone h⟩
    · exact ⟨_, h, .inr ⟨e.cause, e.info, s.packFailed_endsWith len e, he, s.packFailed_outValid len e,
        s.packFailed_trail len e⟩, hnone h⟩
  case source =>
    intro s o hv hlt hok hcode hroom
    have hf : s.PackFront o := ⟨hlt.le, hok, hcode⟩
    cases hbad : s.inBadAt o with
    | true =>
      obtain ⟨len, h⟩ := exec_pack_unreadable hv hlt hf hroom hbad
      exact ⟨_, h, fun _ => s.packFailed_endsWith len _, nofun⟩
    | false =>
      by_cases hno : codeOf s.ct (s.inByte o) = []
      · obtain ⟨len, h⟩ := exec_pack_noCode hv hlt hf hroom hbad hno
        exact ⟨_, h, nofun, fun _ _ => s.packFailed_endsWith len _⟩
      · obtain ⟨t, h, -⟩ := after_pack s
        exact ⟨t, h, nofun, fun _ hcode => absurd hcode hno⟩
  case full =>
    intro s o c hv hle hok hcode hcap hc hmore
    obtain ⟨len, h, hlen⟩ := exec_pack_full hv ⟨hle, hok, hcode⟩ hcap hc hmore
    exact ⟨_, h, s.packFailed_endsWith len _, hlen⟩

/-! ### What PACK leaves unchanged (R160, R163) -/

/-- Settles O26: both ends are one `recordError`, and nothing that it, `State.packEnd`, TRAIL's or OUT_VALID's write touches
is in the frame. -/
theorem packFrame : Obligations.PackFrame := by
  unfold Obligations.PackFrame
  intro s
  obtain ⟨_, _, _, _, _, h⟩ := exec_pack_eq_recordError s
  refine ⟨_, h, ?counts, ?tree, ?codes, ?origLen, ?symCount, ?input, ?walker, ?scratch, ?host⟩
  case origLen | symCount => simp [State.packEnd, State.openPack]
  all_goals constructor <;> simp [State.packEnd, State.openPack]

end Sys2Proof.Machine
end

section
/-! UNPACK as a whole command (44_bit_unpacker.md R170 to R181): what it leaves unchanged, what it answers, what it emits,
and when each of its errors occurs; and the empty payload in DECODE too (R179). -/

namespace Sys2Proof.Machine

/-! ### What UNPACK answers (R180) -/

/-- The state in which UNPACK comes to its end, with the OUT and the OUT_VALID it leaves: the walker's registers and the IN
read offset are given up (R38). -/
def State.unpackEnd (s : State) (m : Memory) (len : Count) (v : Bool) : State :=
  ((s.openUnpack.setOut m len).setOutValid v).dropWalker.dropInOff

/-- The state a successful UNPACK answers. -/
def State.unpackDone (s : State) (m : Memory) (len : Count) : State := (s.unpackEnd m len true).finish

/-- The state an UNPACK answers that ends with the error `e`: OUT has no definite content and OUT_VALID = 0 (R232, R269). -/
def State.unpackFailed (s : State) (len : Count) (e : Raise) : State := (s.unpackEnd [] len false).recordError e

theorem State.unpackDone_endsOk (s : State) (m : Memory) (len : Count) : (s.unpackDone m len).EndsOk :=
  State.finish_endsOk _

theorem State.unpackDone_outValid (s : State) (m : Memory) (len : Count) : (s.unpackDone m len).outValid = true := rfl

theorem State.unpackDone_outLen (s : State) (m : Memory) (len : Count) : (s.unpackDone m len).outLen = len := rfl

theorem State.unpackFailed_endsWith (s : State) (len : Count) (e : Raise) : (s.unpackFailed len e).EndsWith e.cause e.info :=
  ⟨⟨rfl, rfl, rfl⟩, rfl, rfl, rfl⟩

theorem State.unpackFailed_outValid (s : State) (len : Count) (e : Raise) : (s.unpackFailed len e).outValid = false := rfl

theorem State.unpackFailed_outLen (s : State) (len : Count) (e : Raise) : (s.unpackFailed len e).outLen = len := rfl

/-- The walk that UNPACK makes of IN (R171, R180). -/
def State.unpackWalk (s : State) : Res Unit := walk 0 s.trail.toNat s.origLen.toNat s.openUnpack

/-- An error of UNPACK drops OUT, the walker's registers and the IN read offset (R38, R232). -/
theorem State.dropWalker_dropInOff_raise_unpack (s : State) (e : Raise) :
    s.dropWalker.dropInOff.raise .unpack e =
      ((s.setOut [] s.outLen).setOutValid false).dropWalker.dropInOff.recordError e := rfl

/-- What is written last to OUT is what stays of it. -/
theorem State.setOut_setWalk_setInOff_setOut (s : State) (m m' : Memory) (len len' : Count) (c : NodeIdx) (n : BitVec 64)
    (p : BitVec 67) (x : BitVec 64) :
    ((((s.setOut m len).setWalk c n).setBitpos p).setInOff x).setOut m' len' =
      (((s.setOut m' len').setWalk c n).setBitpos p).setInOff x := rfl

theorem exec_unpack_noTree {s : State} (hv : s.treeValid = false) :
    exec .unpack s = .next (s.unpackFailed 0 ⟨.noTree, 0⟩) := by
  show execUnpack s = _
  rw [execUnpack, unpackBody, if_pos (by simpa using hv)]
  dsimp only
  rw [State.dropWalker_dropInOff_raise_unpack, State.openUnpack_outLen, State.unpackFailed, State.unpackEnd]

/-- A raise of the walk is UNPACK's error. -/
theorem exec_unpack_of_raised {s u : State} {e : Raise} (hv : s.treeValid = true) (h : s.unpackWalk = .raised e u) :
    exec .unpack s = .next (s.unpackFailed u.outLen e) := by
  have hshape := walk_shape 0 s.trail.toNat s.origLen.toNat s.openUnpack
  rw [← State.unpackWalk, h] at hshape
  obtain ⟨-, m, len, c, n, p, x, rfl⟩ := hshape
  rw [exec_unpack_bad hv h, State.dropWalker_dropInOff_raise_unpack, State.setOut_setWalk_setInOff_setOut,
    State.dropWalker_dropInOff_setWalk_setInOff, State.unpackFailed, State.unpackEnd]

/-- A walk that comes to its end is UNPACK's success, with the OUT it made. -/
theorem exec_unpack_of_ok {s u : State} {a : Unit} (hv : s.treeValid = true) (h : s.unpackWalk = .ok a u) :
    exec .unpack s = .next (s.unpackDone u.outMem u.outLen) := by
  have hshape := walk_shape 0 s.trail.toNat s.origLen.toNat s.openUnpack
  rw [← State.unpackWalk, h] at hshape
  obtain ⟨m, len, c, n, p, x, rfl⟩ := hshape
  rw [exec_unpack_ok hv h, State.dropWalker_dropInOff_setWalk_setInOff, State.unpackDone, State.unpackEnd]
  simp only [State.setInOff_outMem, State.setBitpos_outMem, State.setWalk_outMem, State.setOut_outMem,
    State.setInOff_outLen, State.setBitpos_outLen, State.setWalk_outLen, State.setOut_outLen]

/-- Either end of UNPACK writes OUT, OUT_VALID and a row of R221, that of no error when it succeeds (R231, R232). -/
theorem exec_unpack_eq_recordError (s : State) :
    ∃ m len v e, exec .unpack s = .next ((s.unpackEnd m len v).recordError e) := by
  cases hv : s.treeValid with
  | false => exact ⟨[], 0, false, ⟨.noTree, 0⟩, exec_unpack_noTree hv⟩
  | true =>
    cases h : s.unpackWalk with
    | ok a u => exact ⟨u.outMem, u.outLen, true, ⟨.none, 0⟩, exec_unpack_of_ok hv h⟩
    | raised e u => exact ⟨[], u.outLen, false, e, exec_unpack_of_raised hv h⟩

/-- Settles O33: both ends are one `recordError`, and nothing that it, `State.unpackEnd` or OUT_VALID's write touches is in
the frame. -/
theorem unpackFrame : Obligations.UnpackFrame := by
  unfold Obligations.UnpackFrame
  intro s
  obtain ⟨_, _, _, _, h⟩ := exec_unpack_eq_recordError s
  refine ⟨_, h, ?counts, ?tree, ?codes, ?header, ?input, ?packer, ?scratch, ?host⟩
  all_goals constructor <;> simp [State.unpackEnd]

/-- The errors of a walk in a well-formed tree are UNPACK's: a missing child is not among them (R177). -/
theorem CleanWalk.mem_mayRaise {node : List Node} {e : Raise} (h : CleanWalk node e) : e.cause ∈ mayRaise .unpack := by
  obtain ⟨hcause, hchild, -⟩ := h
  rcases hcause with hc | hc | hc | hc | hc | hc
  · exact absurd hc hchild
  all_goals
    rw [hc]
    decide

/-- The two ends of UNPACK with a tree: success with ORIG_LEN bytes in OUT, or one of its errors. -/
theorem exec_unpack_cases {s : State} (hv : s.treeValid = true) (htree : s.TreeInv) :
    (∃ m, exec .unpack s = .next (s.unpackDone m s.origLen)) ∨
      ∃ len e, e.cause ∈ mayRaise .unpack ∧ exec .unpack s = .next (s.unpackFailed len e) := by
  cases h : s.unpackWalk with
  | ok a u =>
    have hlen : u.outLen = s.origLen := by
      apply BitVec.eq_of_toNat_eq
      rw [walk_outLen s.origLen.isLt h, State.openUnpack_outLen]
      exact Nat.zero_add _
    exact .inl ⟨u.outMem, hlen ▸ exec_unpack_of_ok hv h⟩
  | raised e u =>
    have hclean := walk_clean (base := 0) (tb := s.trail.toNat) (len := s.origLen.toNat) (s := s.openUnpack)
      (nc := s.ncount) (by simpa using htree hv)
    rw [← State.unpackWalk, h] at hclean
    exact .inr ⟨u.outLen, e, hclean.1.mem_mayRaise, exec_unpack_of_raised hv h⟩

/-! ### Success (R173 to R175, R181) -/

/-- Settles O27: the walk emits the symbols of the codes it reads and stops when ORIG_LEN of them are out. -/
theorem unpackEmitsSymbols : Obligations.UnpackEmitsSymbols := by
  unfold Obligations.UnpackEmitsSymbols
  intro s ct syms rest hv _ hcodes hsyms hlen hbits hread hroom
  exact ⟨s.afterUnpack syms,
    exec_unpack_codes hv (hcodes.spec hsyms) hlen hbits (bitsReadable_of_readableTo (by simpa using hread)) hroom,
    State.finish_endsOk _, State.afterUnpack_outValid s syms, State.afterUnpack_outHolds hroom⟩

/-- Settles O28: the codes of no symbols stand at the front of any payload. -/
theorem unpackNothing : Obligations.UnpackNothing := by
  unfold Obligations.UnpackNothing
  intro s hv hlen
  have hroom : s.CanHold ([] : List Byte).length := ⟨fun _ _ => Nat.zero_le _, by decide⟩
  have hexec : exec .unpack s = .next (s.afterUnpack []) :=
    exec_unpack_codes (ct := s.ct) hv nofun (by rw [hlen]; rfl) rfl nofun hroom
  exact ⟨s.afterUnpack [], hexec, State.finish_endsOk _, State.afterUnpack_outValid s [], State.afterUnpack_outHolds hroom⟩

/-! ### Errors behind the codes of some symbols (R63, R64, R176, R178) -/

/-- With a tree, the usable bits of IN begin with the codes of `syms` and go on with `tail`. -/
structure State.UnpackFront (s : State) (ct : List Code) (syms : List Byte) (tail : List Bool) : Prop where
  treeValid : s.treeValid = true
  codes : CodesOf s.node s.root ct
  symbols : ∀ b ∈ syms, b ∈ leafSymbols s.node
  bits : usableBits s.inBytes s.trail.toNat = codeBits ct syms ++ tail

theorem State.trail_toNat_le (s : State) : s.trail.toNat ≤ 7 := Nat.le_of_lt_succ s.trail.isLt

section
variable {s : State} {ct : List Code} {syms : List Byte} {tail : List Bool}

theorem State.UnpackFront.spec (h : s.UnpackFront ct syms tail) :
    ∀ b ∈ syms, codeOf ct b ≠ [] ∧ LeadsTo s.openUnpack.node s.openUnpack.root (codeOf ct b) b := by
  simpa using h.codes.spec h.symbols

theorem State.UnpackFront.usable (h : s.UnpackFront ct syms tail) :
    usableBits (s.openUnpack.payload 0) s.trail.toNat = codeBits ct syms ++ tail := by
  rw [State.openUnpack_payload, State.payload_zero, h.bits]

theorem State.UnpackFront.inLen_pos (h : s.UnpackFront ct syms tail) (hne : codeBits ct syms ++ tail ≠ []) :
    0 < s.openUnpack.inLen.toNat := by
  rw [State.openUnpack_inLen, ← State.inBytes_length]
  exact usableBits_pos h.bits hne

/-- The bits before the end of the usable bits of a readable IN are readable. -/
theorem State.UnpackFront.bitsReadable (h : s.UnpackFront ct syms tail) (hread : s.Readable) {n : Nat}
    (hn : n ≤ (codeBits ct syms ++ tail).length) : s.openUnpack.BitsReadable 0 n :=
  (bitsReadable_of_usable hread h.bits rfl).of (by simp) hn

/-- The number of bytes in OUT when a walk that began with an empty OUT raises. -/
theorem openUnpack_emitted {u : State} {n : Nat} (h : u.outLen.toNat = s.openUnpack.outLen.toNat + n) :
    u.outLen.toNat = n := by
  rw [h, State.openUnpack_outLen]
  exact Nat.zero_add n

/-- UNPACK that runs out of bits at an Internal node (R178). -/
theorem exec_unpack_exhausted {c : Code} {j l r : NodeIdx} {f : Count} (h : s.UnpackFront ct syms c)
    (hlt : syms.length < s.origLen.toNat) (hin : s.inLen ≠ 0) (hpath : followPath s.node s.root c = some j)
    (hj : nodeAt s.node j = some (.internal f l r)) (hread : s.Readable) (hroom : s.CanHold syms.length) :
    ∃ len, exec .unpack s = .next (s.unpackFailed len ⟨.payloadExhausted, BitVec.ofNat 64 syms.length⟩) ∧
      len.toNat = syms.length := by
  have hpos : 0 < s.openUnpack.inLen.toNat := by
    rw [State.openUnpack_inLen]
    exact Nat.pos_of_ne_zero fun h0 => hin (BitVec.eq_of_toNat_eq h0)
  obtain ⟨u, hw, hu⟩ := walk_exhausted (h.bitsReadable hread (by simp)) (openUnpack_fits hroom) hlt s.origLen.isLt hpos
    s.trail_toNat_le h.usable h.spec (by simpa using hpath) (by simpa using hj)
  exact ⟨_, exec_unpack_of_raised h.treeValid hw, openUnpack_emitted hu⟩

/-- UNPACK that comes to the dummy leaf (R176). -/
theorem exec_unpack_dummyLeaf {c : Code} {b : Bool} {rest : List Bool} {i j : NodeIdx} {sym : Byte}
    (h : s.UnpackFront ct syms (c ++ b :: rest)) (hlt : syms.length < s.origLen.toNat)
    (hpath : followPath s.node s.root c = some i) (hi : childOf s.node i b = some j)
    (hj : nodeAt s.node j = some (.leaf sym 0)) (hread : s.Readable) (hroom : s.CanHold syms.length) :
    ∃ len, exec .unpack s = .next (s.unpackFailed len ⟨.dummyLeaf, BitVec.ofNat 64 syms.length⟩) ∧
      len.toNat = syms.length := by
  have hbits : s.openUnpack.BitsReadable 0 ((codeBits ct syms).length + c.length + 1) :=
    h.bitsReadable hread (by simp only [List.length_append, List.length_cons]; omega)
  obtain ⟨u, hw, hu⟩ := walk_dummy hbits (openUnpack_fits hroom) hlt s.origLen.isLt (h.inLen_pos (by simp))
    s.trail_toNat_le h.usable h.spec (by simpa using hpath) (by simpa using hi) (by simpa using hj)
  exact ⟨_, exec_unpack_of_raised h.treeValid hw, openUnpack_emitted hu⟩

/-- UNPACK that needs the first bit of the unreadable byte `q` (R63, R173). -/
theorem exec_unpack_unreadable {c : Code} {b : Bool} {rest : List Bool} {q : Nat} {j l r : NodeIdx} {f : Count}
    (h : s.UnpackFront ct syms (c ++ b :: rest)) (hlt : syms.length < s.origLen.toNat)
    (hpath : followPath s.node s.root c = some j) (hj : nodeAt s.node j = some (.internal f l r))
    (hq : (codeBits ct syms).length + c.length = 8 * q) (hread : s.ReadableTo q) (hbad : s.inBadAt q = true)
    (hroom : s.CanHold syms.length) :
    ∃ len, exec .unpack s = .next (s.unpackFailed len ⟨.srcUnreadable, BitVec.ofNat 64 q⟩) ∧
      len.toNat = syms.length := by
  have hbits : s.openUnpack.BitsReadable 0 (8 * q) :=
    (bitsReadable_of_readableTo (hread.less (by omega))).congr (by simp)
  obtain ⟨u, hw, hu⟩ := walk_unreadable hbits hq (by simpa using hbad) (openUnpack_fits hroom) hlt s.origLen.isLt
    (h.inLen_pos (by simp)) s.trail_toNat_le h.usable h.spec (by simpa using hpath) (by simpa using hj)
  rw [Nat.zero_add] at hw
  exact ⟨_, exec_unpack_of_raised h.treeValid hw, openUnpack_emitted hu⟩

/-- UNPACK that comes to a symbol when OUT_CAP bytes are out (R64). -/
theorem exec_unpack_full {cap : Nat} (h : s.UnpackFront ct syms tail) (hcap : s.env.outCap = some cap)
    (hsyms : syms.length = cap + 1) (hle : syms.length ≤ s.origLen.toNat)
    (hread : s.ReadableTo (((codeBits ct syms).length + 7) / 8)) :
    ∃ len, exec .unpack s = .next (s.unpackFailed len ⟨.dstUnwritable, BitVec.ofNat 64 cap⟩) ∧ len.toNat = cap := by
  have hlt : cap < 2 ^ 64 := by
    have := s.origLen.isLt
    omega
  have hlimit : outLimit s.openUnpack.env = cap := by rw [State.openUnpack_env, outLimit_of_cap hcap hlt]
  have hne : codeBits ct syms ≠ [] := codeBits_ne_nil (by rintro rfl; cases hsyms) fun b hb => (h.spec b hb).1
  have hpos := h.inLen_pos (List.append_ne_nil_of_left_ne_nil hne tail)
  have hbits : s.openUnpack.BitsReadable 0 (codeBits ct syms).length :=
    (bitsReadable_of_readableTo (by simpa using hread)).congr (by simp)
  have husable := h.usable
  have hspec := h.spec
  obtain rfl | ⟨init, last, rfl⟩ := List.eq_nil_or_concat' syms
  · cases hsyms
  · rw [List.length_append, List.length_singleton, Nat.add_right_cancel_iff] at hsyms
    have hfits : s.openUnpack.Fits init.length := openUnpack_fits ⟨fun c hc => by
      rw [hcap, Option.some.injEq] at hc
      omega, by omega⟩
    have hfull : ¬ s.openUnpack.Fits (init.length + 1) := by
      rw [State.Fits, hlimit]
      omega
    rw [List.length_append, List.length_singleton] at hle
    obtain ⟨u, hw, hu⟩ := walk_full hbits hfits hfull (by omega) s.origLen.isLt hpos s.trail_toNat_le husable hspec
    rw [hlimit] at hw hu
    exact ⟨_, exec_unpack_of_raised h.treeValid hw, hu⟩

end

/-- Settles O29: behind the codes of `syms` the walk takes the bits of the path and has no more. -/
theorem unpackExhausted : Obligations.UnpackExhausted := by
  unfold Obligations.UnpackExhausted
  intro s ct syms c j l r f hv _ hcodes hsyms hlt hin hbits hpath hj hread hroom
  obtain ⟨len, h, hlen⟩ := exec_unpack_exhausted ⟨hv, hcodes, hsyms, hbits⟩ hlt hin hpath hj hread hroom
  exact ⟨_, h, s.unpackFailed_endsWith len _, s.unpackFailed_outValid len _, hlen⟩

/-- Settles O30: behind the codes of `syms` the walk arrives at the dummy leaf, which emits nothing. -/
theorem unpackDummyLeaf : Obligations.UnpackDummyLeaf := by
  unfold Obligations.UnpackDummyLeaf
  intro s ct syms c b rest i j sym hv _ hcodes hsyms hlt hbits hpath hi hj hread hroom
  obtain ⟨len, h, hlen⟩ := exec_unpack_dummyLeaf ⟨hv, hcodes, hsyms, hbits⟩ hlt hpath hi hj hread hroom
  exact ⟨_, h, s.unpackFailed_endsWith len _, s.unpackFailed_outValid len _, hlen⟩

/-- Settles O32: the ends are `exec_unpack_cases`, with the frame of `unpackFrame`; an unreadable byte or a full OUT ends the
walk behind the codes it has read. -/
theorem unpackOutcomes : Obligations.UnpackOutcomes := by
  unfold Obligations.UnpackOutcomes
  refine ⟨?ends, ?unreadable, ?full⟩
  case ends =>
    intro s htree
    obtain ⟨t, ht, hcounts, hsame, hcodes, hheader, -⟩ := unpackFrame s
    refine ⟨t, ht, hsame, hcounts, hcodes, hheader.origLen, hheader.trail, ?_⟩
    cases hv : s.treeValid with
    | false =>
      obtain rfl := Host.Outcome.next.inj (ht.symm.trans (exec_unpack_noTree hv))
      exact ⟨fun _ => ⟨s.unpackFailed_endsWith _ _, s.unpackFailed_outLen _ _⟩,
        .inr ⟨.noTree, 0, s.unpackFailed_endsWith _ _, by decide, s.unpackFailed_outValid _ _⟩⟩
    | true =>
      refine ⟨nofun, ?_⟩
      rcases exec_unpack_cases hv htree with ⟨m, h⟩ | ⟨len, e, he, h⟩
      · obtain rfl := Host.Outcome.next.inj (ht.symm.trans h)
        exact .inl ⟨s.unpackDone_endsOk m _, s.unpackDone_outValid m _, s.unpackDone_outLen m _⟩
      · obtain rfl := Host.Outcome.next.inj (ht.symm.trans h)
        exact .inr ⟨e.cause, e.info, s.unpackFailed_endsWith len e, he, s.unpackFailed_outValid len e⟩
  case unreadable =>
    intro s ct syms c b rest q j l r f hv hcodes hsyms hlt hbits hpath hj hq hread hbad hroom
    obtain ⟨len, h, hlen⟩ :=
      exec_unpack_unreadable ⟨hv, hcodes, hsyms, hbits⟩ hlt hpath hj hq hread hbad hroom
    exact ⟨_, h, s.unpackFailed_endsWith len _, hlen⟩
  case full =>
    intro s ct syms rest cap hv hcodes hsyms hcap hlen hle hbits hread
    obtain ⟨len, h, hout⟩ := exec_unpack_full ⟨hv, hcodes, hsyms, hbits⟩ hcap hlen hle hread
    exact ⟨_, h, s.unpackFailed_endsWith len _, hout⟩

/-! ### The empty payload (R179) -/

/-- DECODE of a good header of two symbols or more whose trailing-bits byte is the last of IN. -/
theorem decodeBody_truncated {s : State} {ft : Vector Count 256} {tb : Byte} (h2 : 2 ≤ (present ft).length)
    (hlt : ftSum ft < 2 ^ 64) (htb : tb.toNat ≤ 7) (hread : s.Readable)
    (hin : s.inBytes = Config.magic ++ leBytes 8 (ftSum ft) ++ leBytes 2 (present ft).length ++
      (present ft).flatMap (fun b => b :: leBytes 8 (ftAt ft b).toNat) ++ [tb]) :
    ∃ u, decodeBody Config.magic s.openDecode =
      .raised ⟨.truncatedPayload, BitVec.ofNat 64 (15 + 9 * (present ft).length)⟩ u := by
  obtain ⟨-, -, -, hlen⟩ := inBytes_split hin
  have hlen15 : s.inLen.toNat = 15 + 9 * (present ft).length := by
    rw [hlen, List.length_singleton]
    omega
  obtain ⟨h0, u, hwalk, -, -, -, hu, -⟩ := decodeBody_at_walk (payload := []) h2 hlt htb
    (fun o ho => hread o (by omega)) (by rw [hin, List.append_nil])
  exact ⟨u, hwalk.trans (walk_truncated h0 (by rw [hu, hlen15]))⟩

/-- Settles O31: in both commands the walk has symbols to produce and no byte at its base. -/
theorem emptyPayload : Obligations.EmptyPayload := by
  unfold Obligations.EmptyPayload
  refine ⟨?unpack, ?decode⟩
  case unpack =>
    intro s hv hlen hin
    have hwalk : s.unpackWalk = .raised ⟨.truncatedPayload, 0⟩ s.openUnpack :=
      walk_truncated (fun h0 => hlen (BitVec.eq_of_toNat_eq h0)) (by rw [State.openUnpack_inLen, hin]; rfl)
    exact ⟨_, exec_unpack_of_raised hv hwalk, s.unpackFailed_endsWith _ _, s.unpackFailed_outValid _ _⟩
  case decode =>
    intro s ft tb h2 hlt htb hread hin
    obtain ⟨u, h⟩ := decodeBody_truncated h2 hlt htb hread hin
    exact ⟨_, exec_decode_bad h, State.raise_endsWith _ _ _, by simp [State.raise, writesOut]⟩

end Sys2Proof.Machine
end

section
/-! How ENCODE and DECODE end (45_container_codec.md R186, R191 to R194, R202): what they answer from every state, the
discard on every exit path, and what they leave unchanged. -/

namespace Sys2Proof.Machine

theorem Keeps.sameHost {pk wk : Prop} {s t : State} (h : Keeps pk wk s t) : SameHost s t :=
  ⟨h.cmd, h.env, h.hostQ, h.hostData, h.inSeed⟩

/-! ### ENCODE -/

/-- The state in which ENCODE's body begins: OUT is open (R187). -/
def State.openEncode (s : State) : State := (s.begin .count).openOut

/-- The state an ENCODE answers whose body comes to `u`, with the bytes of OUT, the OUT_VALID and the row of R221 it
leaves. -/
def State.encodeEnd (u : State) (m : Memory) (v : Bool) (e : Raise) : State :=
  ((u.setOut m u.outLen).setOutValid v).closeEncode.recordError e

/-- The state a successful ENCODE answers (R191): the row written is that of no error (R231). -/
def State.encodeDone (u : State) : State := u.encodeEnd u.outMem true ⟨.none, 0⟩

/-- The state an ENCODE answers that ends with the error `e` (R192, R232). -/
def State.encodeFailed (u : State) (e : Raise) : State := u.encodeEnd [] false e

theorem State.encodeDone_endsOk (u : State) : u.encodeDone.EndsOk := ⟨⟨rfl, rfl, rfl⟩, rfl, rfl, rfl⟩

theorem State.encodeFailed_endsWith (u : State) (e : Raise) : (u.encodeFailed e).EndsWith e.cause e.info :=
  ⟨⟨rfl, rfl, rfl⟩, rfl, rfl, rfl⟩

theorem State.encodeFailed_outValid (u : State) (e : Raise) : (u.encodeFailed e).outValid = false := rfl

/-- R193: the discard is part of every end of ENCODE. -/
theorem State.encodeEnd_discarded (u : State) (m : Memory) (v : Bool) (e : Raise) : (u.encodeEnd m v e).Discarded :=
  ⟨ftAt_ftZero, rfl, rfl, rfl, rfl, rfl, rfl⟩

theorem exec_encode_of_ok {s u : State} {a : Unit} (h : encodeBody Config.magic s.openEncode = .ok a u) :
    exec .encode s = .next u.encodeDone := by
  show execEncode s = _
  rw [execEncode, execEncodeWith, ← State.openEncode, h]
  rfl

theorem exec_encode_of_raised {s u : State} {e : Raise} (h : encodeBody Config.magic s.openEncode = .raised e u) :
    exec .encode s = .next (u.encodeFailed e) := by
  show execEncode s = _
  rw [execEncode, execEncodeWith, ← State.openEncode, h]
  rfl

/-- The two ends of ENCODE, from any state. -/
theorem exec_encode_cases (s : State) :
    ∃ u, Keeps False True s.openEncode u ∧ (exec .encode s = .next u.encodeDone ∨
      ∃ e, e.cause.kind = .io ∧ exec .encode s = .next (u.encodeFailed e)) := by
  have hkeeps := encodeBody_keeps Config.magic s.openEncode
  cases h : encodeBody Config.magic s.openEncode with
  | ok a u =>
    rw [h] at hkeeps
    exact ⟨u, hkeeps, .inl (exec_encode_of_ok h)⟩
  | raised e u =>
    rw [h] at hkeeps
    obtain ⟨hcause, hu⟩ := hkeeps
    have hio : e.cause.kind = .io := by rcases hcause with hc | hc <;> rw [hc] <;> rfl
    exact ⟨u, hu, .inr ⟨e, hio, exec_encode_of_raised h⟩⟩

theorem exec_encode_eq_encodeEnd (s : State) :
    ∃ u m v e, Keeps False True s.openEncode u ∧ exec .encode s = .next (u.encodeEnd m v e) := by
  obtain ⟨u, hu, h | ⟨e, -, h⟩⟩ := exec_encode_cases s
  · exact ⟨u, _, _, _, hu, h⟩
  · exact ⟨u, _, _, _, hu, h⟩

theorem exec_encode_discarded {s t : State} (h : exec .encode s = .next t) : t.Discarded := by
  obtain ⟨u, m, v, e, -, hend⟩ := exec_encode_eq_encodeEnd s
  obtain rfl := Host.Outcome.next.inj (hend.symm.trans h)
  exact u.encodeEnd_discarded m v e

/-- Settles O41: ENCODE's body keeps all of the frame, and nothing that `State.encodeEnd` writes is in it. -/
theorem encodeFrame : Obligations.EncodeFrame := by
  unfold Obligations.EncodeFrame
  intro s
  obtain ⟨u, m, v, e, hu, h⟩ := exec_encode_eq_encodeEnd s
  obtain ⟨hlen, hwritten, hbyte⟩ := hu.sameIn
  obtain ⟨hcmd, henv, hq, hdata, hseed⟩ := hu.sameHost
  obtain ⟨hcur, hemitted, hbitpos⟩ := hu.walker trivial
  exact ⟨_, h, ⟨hlen, hwritten, hbyte⟩, ⟨hcur, hemitted, hbitpos⟩, ⟨hcmd, henv, hq, hdata, hseed⟩, hu.queue, hu.stack⟩

/-! ### DECODE -/

/-- The state a DECODE answers whose body comes to `u`, with the bytes of OUT, the OUT_VALID and the row of R221 it
leaves. -/
def State.decodeEnd (u : State) (m : Memory) (v : Bool) (e : Raise) : State :=
  ((u.setOut m u.outLen).setOutValid v).closeDecode.recordError e

/-- The state a successful DECODE answers (R202): the row written is that of no error (R231). -/
def State.decodeDone (u : State) : State := u.decodeEnd u.outMem true ⟨.none, 0⟩

/-- The state a DECODE answers that ends with the error `e` (R202, R232). -/
def State.decodeFailed (u : State) (e : Raise) : State := u.decodeEnd [] false e

theorem State.decodeDone_endsOk (u : State) : u.decodeDone.EndsOk := ⟨⟨rfl, rfl, rfl⟩, rfl, rfl, rfl⟩

@[simp] theorem State.decodeDone_outValid (u : State) : u.decodeDone.outValid = true := rfl
@[simp] theorem State.decodeDone_outMem (u : State) : u.decodeDone.outMem = u.outMem := rfl
@[simp] theorem State.decodeDone_outLen (u : State) : u.decodeDone.outLen = u.outLen := rfl
@[simp] theorem State.decodeDone_origLen (u : State) : u.decodeDone.origLen = u.origLen := rfl
@[simp] theorem State.decodeDone_symCount (u : State) : u.decodeDone.symCount = u.symCount := rfl
@[simp] theorem State.decodeDone_trail (u : State) : u.decodeDone.trail = u.trail := rfl

theorem State.decodeFailed_endsWith (u : State) (e : Raise) : (u.decodeFailed e).EndsWith e.cause e.info :=
  ⟨⟨rfl, rfl, rfl⟩, rfl, rfl, rfl⟩

@[simp] theorem State.decodeFailed_outValid (u : State) (e : Raise) : (u.decodeFailed e).outValid = false := rfl
@[simp] theorem State.decodeFailed_outLen (u : State) (e : Raise) : (u.decodeFailed e).outLen = u.outLen := rfl
@[simp] theorem State.decodeFailed_origLen (u : State) (e : Raise) : (u.decodeFailed e).origLen = u.origLen := rfl
@[simp] theorem State.decodeFailed_symCount (u : State) (e : Raise) : (u.decodeFailed e).symCount = u.symCount := rfl
@[simp] theorem State.decodeFailed_trail (u : State) (e : Raise) : (u.decodeFailed e).trail = u.trail := rfl

/-- R193: the discard is part of every end of DECODE. -/
theorem State.decodeEnd_discarded (u : State) (m : Memory) (v : Bool) (e : Raise) : (u.decodeEnd m v e).Discarded :=
  ⟨ftAt_ftZero, rfl, rfl, rfl, rfl, rfl, rfl⟩

theorem exec_decode_of_ok {s u : State} {a : Unit} (h : decodeBody Config.magic s.openDecode = .ok a u) :
    exec .decode s = .next u.decodeDone := exec_decode_ok h

theorem exec_decode_of_raised {s u : State} {e : Raise} (h : decodeBody Config.magic s.openDecode = .raised e u) :
    exec .decode s = .next (u.decodeFailed e) := by
  rw [exec_decode_bad h]
  rfl

theorem DecodeError.mem_mayRaise {c : Cause} (h : DecodeError c) : c ∈ mayRaise .decode := by
  cases c <;> simp [DecodeError, Cause.kind, mayRaise] at h ⊢

/-- The two ends of DECODE, from any state: success with ORIG_LEN bytes in OUT, or one of its errors. -/
theorem exec_decode_cases (s : State) :
    ∃ u, Keeps True False s.openDecode u ∧ ((exec .decode s = .next u.decodeDone ∧ u.outLen = u.origLen) ∨
      ∃ e, e.cause ∈ mayRaise .decode ∧ exec .decode s = .next (u.decodeFailed e)) := by
  have hkeeps := decodeBody_keeps Config.magic s.openDecode
  obtain ⟨herror, hlen⟩ := decodeBody_clean Config.magic s.openDecode_ft s.openDecode_outLen
  cases h : decodeBody Config.magic s.openDecode with
  | ok a u =>
    rw [h] at hkeeps
    exact ⟨u, hkeeps, .inl ⟨exec_decode_of_ok h, hlen a u h⟩⟩
  | raised e u =>
    rw [h] at hkeeps herror
    exact ⟨u, hkeeps.2, .inr ⟨e, herror.1.mem_mayRaise, exec_decode_of_raised h⟩⟩

theorem exec_decode_eq_decodeEnd (s : State) :
    ∃ u m v e, Keeps True False s.openDecode u ∧ exec .decode s = .next (u.decodeEnd m v e) := by
  obtain ⟨u, hu, ⟨h, -⟩ | ⟨e, -, h⟩⟩ := exec_decode_cases s
  · exact ⟨u, _, _, _, hu, h⟩
  · exact ⟨u, _, _, _, hu, h⟩

/-- Settles O49: DECODE's body keeps all of the frame, and nothing that `State.decodeEnd` writes is in it. -/
theorem decodeFrame : Obligations.DecodeFrame := by
  unfold Obligations.DecodeFrame
  intro s
  obtain ⟨u, m, v, e, hu, h⟩ := exec_decode_eq_decodeEnd s
  obtain ⟨hlen, hwritten, hbyte⟩ := hu.sameIn
  obtain ⟨hcmd, henv, hq, hdata, hseed⟩ := hu.sameHost
  obtain ⟨hacc, hfill⟩ := hu.packer trivial
  refine ⟨_, h, ?input, ?packer, ?host, ?queue, ?stack⟩
  case input => constructor <;> simp [State.decodeEnd, hlen, hwritten, hbyte]
  case packer => constructor <;> simp [State.decodeEnd, hacc, hfill]
  case host => constructor <;> simp [State.decodeEnd, hcmd, henv, hq, hdata, hseed]
  case queue => simpa [State.decodeEnd] using hu.queue
  case stack => simpa [State.decodeEnd] using hu.stack

/-- Settles O40: every end of the two commands is a `State.encodeEnd` or a `State.decodeEnd`, which discard. -/
theorem codecDiscards : Obligations.CodecDiscards := by
  unfold Obligations.CodecDiscards
  intro s
  obtain ⟨u, m, v, e, -, hencode⟩ := exec_encode_eq_encodeEnd s
  obtain ⟨u', m', v', e', -, hdecode⟩ := exec_decode_eq_decodeEnd s
  exact ⟨⟨_, hencode, u.encodeEnd_discarded m v e⟩, ⟨_, hdecode, u'.decodeEnd_discarded m' v' e'⟩⟩

end Sys2Proof.Machine
end

section
/-! The containers ENCODE writes (45_container_codec.md R190 to R192, R204 to R206): of which table, tree and codes they are
made, what stands in their headers, and when OUT has no room for them. -/

namespace Sys2Proof.Machine

/-! ### The table, the tree and the codes of an input (R189, R206) -/

/-- FCOUNT, BUILD_TREE and GEN_CODES of a readable input that is not empty make its table and its codes. -/
theorem exec_fcount_buildTree_genCodes {s : State} (hread : s.Readable) (h0 : s.inLen ≠ 0) :
    ∃ s1 s2 s3, exec .fcount s = .next s1 ∧ exec .buildTree s1 = .next s2 ∧ exec .genCodes s2 = .next s3 ∧ s3.EndsOk ∧
      s1.ft = tableOf s.inBytes ∧ s3.ct = codesFor s.inBytes := by
  have hlt := inBytes_lt s
  have hne := inBytes_ne_nil h0
  have hsum : ftSum (tableOf s.inBytes) < 2 ^ 64 := ftSum_tableOf hlt ▸ hlt
  exact ⟨_, _, _, exec_fcount_of_readable hread, exec_buildTree_ok (ftSum_tableOf_ne hne hlt) hsum,
    exec_genCodes_of_treeInv rfl (fun _ => treeFor_wf hne hlt), State.codesMade_endsOk _ _, rfl, rfl⟩

theorem present_tableOf_single {bytes : List Byte} {b : Byte} (h0 : bytes ≠ []) (hlt : bytes.length < 2 ^ 64)
    (h : ∀ c ∈ bytes, c = b) : present (tableOf bytes) = [b] := by
  have hmem : b ∈ bytes := by
    obtain ⟨c, hc⟩ := List.exists_mem_of_ne_nil bytes h0
    exact h c hc ▸ hc
  refine ascending_ext (present_ascending _) (List.pairwise_singleton _ b) fun c => ?_
  rw [mem_present, List.mem_singleton]
  constructor
  · intro hc
    by_contra hcb
    have hcount := tableOf_at hlt c
    rw [List.count_eq_zero.mpr fun hcm => hcb (h c hcm)] at hcount
    exact hc (BitVec.eq_of_toNat_eq hcount)
  · rintro rfl
    exact tableOf_pos hlt hmem

/-- R206: the tree of an input of one distinct symbol is that of R134. -/
theorem codesFor_single {bytes : List Byte} {b : Byte} (h0 : bytes ≠ []) (hlt : bytes.length < 2 ^ 64)
    (h : ∀ c ∈ bytes, c = b) :
    codeOf (codesFor bytes) b = [false] ∧ ∀ c, c ≠ b → codeOf (codesFor bytes) c = [] := by
  have hp := present_tableOf_single h0 hlt h
  obtain ⟨hentries, -⟩ := ftSum_single hp
  have hf : ftAt (tableOf bytes) b ≠ 0 := mem_present.mp (hp ▸ List.mem_singleton_self b)
  have hnodes : nodesFor bytes = [.leaf b (ftAt (tableOf bytes) b), .leaf 0 0, .internal (ftAt (tableOf bytes) b) 0 1] :=
    congrArg Forest.node (builtForest_single hentries)
  have hroot : rootFor bytes = 2 := by
    rw [rootFor, builtRoot, ← nodesFor, hnodes]
    rfl
  rw [codesFor, hnodes, hroot]
  exact treeCodes_single hf

/-- Settles O22: GEN_CODES' table is that of the input's bytes. -/
theorem minimumCodeLength : Obligations.MinimumCodeLength := by
  unfold Obligations.MinimumCodeLength
  intro s b hread h0 hall
  obtain ⟨s1, s2, s3, h1, h2, h3, hok, -, hct⟩ := exec_fcount_buildTree_genCodes hread h0
  exact ⟨s1, s2, s3, h1, h2, h3, hok, hct ▸ codesFor_single (inBytes_ne_nil h0) (inBytes_lt s) hall⟩

/-! ### What a successful ENCODE leaves (R191) -/

theorem EncodeHeader.symCount_toNat {s t : State} (h : EncodeHeader s t) :
    t.symCount.toNat = (present (tableOf s.inBytes)).length := by
  have hle := ftEntries_length_le (tableOf s.inBytes)
  rw [h.symCount, present_length, BitVec.toNat_ofNat, Nat.mod_eq_of_lt (by omega)]

theorem EncodeHeader.trail_toNat {s t : State} (h : EncodeHeader s t) :
    t.trail.toNat = (streamFor s.inBytes).length % 8 := by
  rw [h.trail, BitVec.toNat_ofNat]
  exact Nat.mod_mod _ _

/-- Settles O35: ENCODE writes the container of IN's bytes, which is made of their table and their codes. -/
theorem encodeWritesContainer : Obligations.EncodeWritesContainer := by
  unfold Obligations.EncodeWritesContainer
  intro s hread h0
  obtain ⟨s1, s2, s3, h1, h2, h3, hok, hft, hct⟩ := exec_fcount_buildTree_genCodes hread h0
  refine ⟨s1, s2, s3, h1, h2, h3, hok, ?_⟩
  rintro n bits c rfl rfl hc hroom
  have hcontainer : c = containerFor Config.magic s.inBytes := by
    rw [hc, containerFor_eq _ (inBytes_ne_nil h0), State.inBytes_length, hft, hct, streamFor]
  rw [hcontainer] at hroom ⊢
  obtain ⟨t, ht, htok, hvalid, hout, hheader, -, -⟩ := exec_encode_ok hread hroom
  rw [hft, hct]
  exact ⟨t, ht, htok, hvalid, hout, hheader.origLen, hheader.symCount_toNat, hheader.trail_toNat, exec_encode_discarded ht⟩

/-- What a successful ENCODE leaves. -/
theorem encode_success_spec {s t : State} (h : exec .encode s = .next t) (hok : t.EndsOk) :
    t.outValid = true ∧ OutHolds t (containerFor Config.magic s.inBytes) ∧ EncodeHeader s t ∧ t.env = s.env := by
  obtain ⟨hread, hroom⟩ := encode_success h hok
  obtain ⟨u, hu, -, hvalid, hout, hheader, henv, -⟩ := exec_encode_ok hread hroom
  obtain rfl := Host.Outcome.next.inj (h.symm.trans hu)
  exact ⟨hvalid, hout, hheader, henv⟩

/-- Settles O39: OUT holds the container of IN's bytes, which no other part of the state enters. -/
theorem encodeDeterministic : Obligations.EncodeDeterministic := by
  unfold Obligations.EncodeDeterministic
  intro s s' t t' hin ht ht' hok hok'
  obtain ⟨-, hout, -⟩ := encode_success_spec ht hok
  obtain ⟨-, hout', -⟩ := encode_success_spec ht' hok'
  rw [← hin] at hout'
  exact ⟨BitVec.eq_of_toNat_eq (hout.len.trans hout'.len.symm), fun o => (hout.byte o).trans (hout'.byte o).symm⟩

/-! ### The header (R205) -/

/-- Every container, that of the empty input too, begins with the magic, the length and the number of symbols (R96). -/
theorem containerFor_front (magic bytes : List Byte) :
    ∃ rest, containerFor magic bytes = headerFront magic bytes.length (present (tableOf bytes)).length ++ rest := by
  by_cases h0 : bytes = []
  · subst h0
    have hnone : (present (tableOf [])).length = 0 := by
      rw [present_length, tableOf_nil, ftEntries_eq_nil.mpr ftSum_ftZero]
      rfl
    rw [hnone]
    exact ⟨_, containerFor_nil magic⟩
  · rw [containerFor_eq magic h0, List.append_assoc _ [_], List.append_assoc _ (List.flatMap _ _)]
    exact ⟨_, rfl⟩

theorem headerFront_fields {magic : List Byte} (hm : magic.length = 4) (len n : Nat) (rest : List Byte) :
    ((headerFront magic len n ++ rest).drop 4).take 8 = leBytes 8 len ∧
      ((headerFront magic len n ++ rest).drop 12).take 2 = leBytes 2 n := by
  have hassoc : headerFront magic len n ++ rest = magic ++ (leBytes 8 len ++ (leBytes 2 n ++ rest)) := by
    simp only [headerFront, List.append_assoc]
  constructor
  · rw [hassoc, List.drop_left' hm, List.take_left' (leBytes_length 8 len)]
  · rw [hassoc, ← List.append_assoc, List.drop_left' (by rw [List.length_append, hm, leBytes_length]),
      List.take_left' (leBytes_length 2 n)]

/-- Settles O38: the two fields are those of the container that OUT holds. -/
theorem headerConsistency : Obligations.HeaderConsistency := by
  unfold Obligations.HeaderConsistency
  intro s t ht hok
  have hlt := inBytes_lt s
  obtain ⟨rest, hrest⟩ := containerFor_front Config.magic s.inBytes
  obtain ⟨hlen, hcount⟩ := headerFront_fields magic_length s.inBytes.length (present (tableOf s.inBytes)).length rest
  obtain ⟨-, hout, -⟩ := encode_success_spec ht hok
  refine ⟨_, hout, ?len, ?count⟩
  case len =>
    rw [hrest, hlen, leValue_leBytes]
    exact Nat.mod_eq_of_lt hlt
  case count =>
    have hle := ftEntries_length_le (tableOf s.inBytes)
    rw [hrest, hcount, leValue_leBytes, present_length, ← entries_distinct hlt]
    exact Nat.mod_eq_of_lt (by omega)

/-! ### Errors (R192) -/

/-- Settles O37: the container that the run without a limit writes is the one OUT has no room for, and both runs have set the
header registers before they write. -/
theorem encodeErrors : Obligations.EncodeErrors := by
  unfold Obligations.EncodeErrors
  refine ⟨fun s p => exec_encode_bad, ?full, ?ends⟩
  case full =>
    intro s u bytes c hread hu huok hbytes hcap hlt
    obtain ⟨-, hout, hheader, -⟩ := encode_success_spec hu huok
    have hc : c < 2 ^ 64 := hlt.trans (hbytes.len ▸ u.outLen.isLt)
    obtain rfl := hbytes.unique hout
    rw [State.setEnv_inBytes] at hlt
    obtain ⟨t, ht, hw, hvalid, hdisc, hheader'⟩ := exec_encode_full hread fun h => Nat.not_le_of_lt hlt (h.cap c hcap)
    rw [outLimit_of_cap hcap hc] at hw
    have horig : u.origLen = s.inLen := by simpa using hheader.origLen
    have hsyms := hheader.symCount
    have htrail := hheader.trail
    rw [State.setEnv_inBytes] at hsyms htrail
    exact ⟨t, ht, hw, hvalid, hdisc, hheader'.origLen.trans horig.symm, hheader'.symCount.trans hsyms.symm,
      hheader'.trail.trans htrail.symm⟩
  case ends =>
    intro s
    obtain ⟨u, -, h | ⟨e, hio, h⟩⟩ := exec_encode_cases s
    · exact ⟨_, h, .inl u.encodeDone_endsOk⟩
    · exact ⟨_, h, .inr ⟨e.cause, e.info, u.encodeFailed_endsWith e, hio, u.encodeFailed_outValid e⟩⟩

end Sys2Proof.Machine
end

section
/-! The header DECODE reads (45_container_codec.md R195 to R200, R229): each check in its order, with the error it ends
with. -/

namespace Sys2Proof.Machine

/-- What DECODE answers when its body raises. -/
theorem eq_decodeFailed {s t u : State} {e : Raise} (ht : exec .decode s = .next t)
    (h : decodeBody Config.magic s.openDecode = .raised e u) : t = u.decodeFailed e :=
  Host.Outcome.next.inj (ht.symm.trans (exec_decode_of_raised h))

/-! ### The magic (R195) -/

theorem decodeBody_badMagic {s : State} {k : Nat} (hk : k < 4) (hgood : ∀ i, i < k → s.inBytes[i]? = Config.magic[i]?)
    (hbad : s.inBytes[k]? ≠ Config.magic[k]?) (hread : s.ReadableTo (k + 1)) :
    ∃ u, decodeBody Config.magic s.openDecode = .raised ⟨.badMagic, BitVec.ofNat 64 k⟩ u ∧ u.outLen = 0 := by
  obtain ⟨x, hx⟩ := checkMagic_bad (ms := Config.magic) (k := 0) (j := k) (s := s.openDecode)
    (by rw [Nat.zero_add]; exact hread.openDecode) hk (by simpa using hgood) (by simpa using hbad)
  rw [Nat.zero_add] at hx
  exact ⟨_, by rw [decodeBody, hx], by simp⟩

/-- Settles O42: the check of the magic raises at byte `k`. -/
theorem decodeChecksMagic : Obligations.DecodeChecksMagic := by
  unfold Obligations.DecodeChecksMagic
  intro s k hk hgood hbad hread
  obtain ⟨u, h, hlen⟩ := decodeBody_badMagic hk hgood hbad hread
  exact ⟨_, exec_decode_of_raised h, u.decodeFailed_endsWith _, u.decodeFailed_outValid _, hlen⟩

/-! ### The length (R196) -/

/-- The state in which DECODE has read the length. -/
def State.lengthRead (s : State) (x : BitVec 64) (len : Nat) : State :=
  (s.openDecode.setInOff x).setOrigLen (BitVec.ofNat 64 len)

@[simp] theorem State.lengthRead_inBytes (s : State) (x : BitVec 64) (len : Nat) :
    (s.lengthRead x len).inBytes = s.inBytes := by
  simp [State.lengthRead]

@[simp] theorem State.lengthRead_inLen (s : State) (x : BitVec 64) (len : Nat) :
    (s.lengthRead x len).inLen = s.inLen := by
  simp [State.lengthRead]

@[simp] theorem State.lengthRead_env (s : State) (x : BitVec 64) (len : Nat) :
    (s.lengthRead x len).env = s.env := by
  simp [State.lengthRead]

/-- R196: a length of 0 ends the body at once. -/
theorem decodeBody_zero {s : State} {rest : List Byte} (hin : s.inBytes = Config.magic ++ leBytes 8 0 ++ rest)
    (hread : s.ReadableTo 12) : ∃ x, decodeBody Config.magic s.openDecode = .ok () (s.lengthRead x 0) := by
  obtain ⟨x, h⟩ := decodeBody_front (len := 0) hread.openDecode magic_length (by decide) (by simpa using hin)
  exact ⟨x, h⟩

/-- DECODE of a container whose length is 0. -/
theorem exec_decode_zero {s : State} {rest : List Byte} (hin : s.inBytes = Config.magic ++ leBytes 8 0 ++ rest)
    (hread : s.ReadableTo 12) :
    ∃ t, exec .decode s = .next t ∧ t.EndsOk ∧ t.outValid = true ∧ OutHolds t [] ∧ t.origLen = 0 := by
  obtain ⟨x, h⟩ := decodeBody_zero hin hread
  refine ⟨_, exec_decode_of_ok h, State.decodeDone_endsOk _, State.decodeDone_outValid _, outHolds_of ?mem ?len, ?orig⟩
  all_goals simp [State.lengthRead, Memory.setAll]

theorem decodeBody_lengthCut {s : State} {rest : List Byte} (hin : s.inBytes = Config.magic ++ rest) (hcut : rest.length < 8)
    (hread : s.Readable) :
    ∃ u, decodeBody Config.magic s.openDecode = .raised ⟨.truncatedHeader, 12⟩ u ∧ u.origLen = 0 := by
  have hlen : s.inLen.toNat = 4 + rest.length := by
    rw [← State.inBytes_length, hin, List.length_append, magic_length]
  have hopen : s.openDecode.Readable := by simpa using hread
  obtain ⟨x, hx⟩ := checkMagic_ok (ms := Config.magic) (k := 0) (a := []) (c := rest) (s := s.openDecode)
    (fun o ho => hopen o (by rw [magic_length] at ho; simp; omega)) (by simpa using hin) rfl
  obtain ⟨y, hy⟩ := readField_short (need := 12) (addr := 4) (n := 8) (s := s.openDecode.setInOff x) (by simpa using hread)
    (by decide) (by simp; omega)
  have hlength : readLength (s.openDecode.setInOff x) =
      .raised ⟨.truncatedHeader, 12⟩ ((s.openDecode.setInOff x).setInOff y) := by
    rw [readLength, hy]
    rfl
  refine ⟨(s.openDecode.setInOff x).setInOff y, ?body, ?orig⟩
  case body =>
    rw [decodeBody, hx]
    dsimp only
    rw [decodeLength, hlength]
  case orig => simp

/-- Settles O43: a length of 0 ends the body with nothing in OUT, and a cut one is a field that is not all there. -/
theorem decodeReadsLength : Obligations.DecodeReadsLength := by
  unfold Obligations.DecodeReadsLength
  refine ⟨fun s rest => exec_decode_zero, fun s rest hin hcut hread => ?_⟩
  obtain ⟨u, h, horig⟩ := decodeBody_lengthCut hin hcut hread
  exact ⟨_, exec_decode_of_raised h, u.decodeFailed_endsWith _, u.decodeFailed_outValid _, horig⟩

/-! ### The symbol table (R197) -/

/-- Behind the magic and a length that is not 0 an error of the symbol table is DECODE's. -/
theorem decodeBody_of_readTable {s : State} {len : Nat} {rest : List Byte} (h0 : len ≠ 0) (hlt : len < 2 ^ 64)
    (hin : s.inBytes = Config.magic ++ leBytes 8 len ++ rest) (hread : s.ReadableTo 12) :
    ∃ x, ∀ e u, readTable len (s.lengthRead x len) = .raised e u →
      decodeBody Config.magic s.openDecode = .raised e u := by
  obtain ⟨x, hx⟩ := decodeBody_symbols h0 hlt hin hread
  exact ⟨x, fun e u h => by rw [hx, decodeSymbols, ← State.lengthRead, h]⟩

theorem decodeBody_countCut {s : State} {len : Nat} {rest : List Byte} (h0 : len ≠ 0) (hlt : len < 2 ^ 64)
    (hin : s.inBytes = Config.magic ++ leBytes 8 len ++ rest) (hcut : rest.length < 2) (hread : s.Readable) :
    ∃ u, decodeBody Config.magic s.openDecode = .raised ⟨.truncatedHeader, 14⟩ u ∧ u.symCount = 0 := by
  have hlen : s.inLen.toNat = 12 + rest.length := by
    rw [← State.inBytes_length, hin, List.length_append, List.length_append, magic_length, leBytes_length]
  obtain ⟨x, hx⟩ := decodeBody_of_readTable h0 hlt hin fun o ho => hread o (by omega)
  obtain ⟨y, hy⟩ := readField_short (need := 14) (addr := 12) (n := 2) (s := s.lengthRead x len)
    (by simpa [State.lengthRead] using hread) (by decide) (by simp; omega)
  refine ⟨(s.lengthRead x len).setInOff y, hx _ _ ?_, by simp [State.lengthRead]⟩
  rw [readTable, hy]
  rfl

/-- DECODE has read a count of `n` symbols and comes to `u`: what the checks of R229 then give. -/
structure CountRead (s u : State) (len n : Nat) : Prop where
  inBytes : u.inBytes = s.inBytes
  env : u.env = s.env
  symCount : u.symCount = BitVec.ofNat 16 n
  tooLarge : 256 < n → decodeBody Config.magic s.openDecode = .raised ⟨.symcountTooLarge, BitVec.ofNat 64 n⟩ u
  zero : n = 0 → decodeBody Config.magic s.openDecode = .raised ⟨.symcountZero, 0⟩ u
  cut : 1 ≤ n → n ≤ 256 → s.inLen.toNat < 14 + 9 * n →
    decodeBody Config.magic s.openDecode = .raised ⟨.truncatedHeader, BitVec.ofNat 64 (14 + 9 * n)⟩ u
  entries : 1 ≤ n → n ≤ 256 → 14 + 9 * n ≤ s.inLen.toNat → ∀ e v, readEntries n len u = .raised e v →
    decodeBody Config.magic s.openDecode = .raised e v

theorem decode_countRead {s : State} {len n : Nat} {rest : List Byte} (h0 : len ≠ 0) (hlt : len < 2 ^ 64) (hn : n < 2 ^ 16)
    (hin : s.inBytes = headerFront Config.magic len n ++ rest) (hread : s.ReadableTo 14) : ∃ u, CountRead s u len n := by
  obtain ⟨x, hx⟩ := decodeBody_of_readTable (rest := leBytes 2 n ++ rest) h0 hlt (by simpa [headerFront] using hin)
    (hread.less (by omega))
  obtain ⟨y, hy⟩ := readTable_front (len := len) (s := s.lengthRead x len) (hread.congr (by simp)) magic_length hn
    (by simpa using hin)
  rw [State.lengthRead_inLen] at hy
  refine ⟨((s.lengthRead x len).setInOff y).setSymCount (BitVec.ofNat 16 n), by simp, by simp, by simp,
    fun h => hx _ _ ?tooLarge, fun h => hx _ _ ?zero, fun h1 h256 h => hx _ _ ?cut, fun h1 h256 h e v he => hx _ _ ?entries⟩
  case tooLarge => rw [hy, if_pos h]
  case zero => rw [hy, if_neg (by omega), if_pos h]
  case cut => rw [hy, if_neg (by omega), if_neg (by omega), if_pos h]
  case entries => rw [hy, if_neg (by omega), if_neg (by omega), if_neg (by omega), he]

theorem EntriesFrom.of_ascending {es : List (Byte × Count)} (horder : es.Pairwise (fun p p' => p.1.toNat < p'.1.toNat))
    (hfreqs : ∀ p ∈ es, p.2 ≠ 0) : EntriesFrom 0 es :=
  ⟨fun p hp => ⟨Nat.zero_le _, hfreqs p hp⟩, horder⟩

/-- A symbol above those of the entries before it does not break the order. -/
theorem not_lt_nextLow {es : List (Byte × Count)} {sym : Byte} (horder : es.Pairwise (fun p p' => p.1.toNat < p'.1.toNat))
    (h : ∀ p ∈ es, p.1.toNat < sym.toNat) : ¬ sym.toNat < nextLow 0 es := fun hlow => by
  obtain ⟨p, hp, hle⟩ := (lt_nextLow horder sym.toNat).mp hlow
  exact Nat.not_le_of_lt (h p hp) hle

/-- A bad entry behind good ones, its two checks in order. -/
theorem decodeBody_badEntry {s : State} {len n : Nat} {es : List (Byte × Count)} {sym : Byte} {f : Count} {rest : List Byte}
    (h0 : len ≠ 0) (hlt : len < 2 ^ 64) (hn : es.length < n) (h256 : n ≤ 256)
    (hin : s.inBytes = headerFront Config.magic len n ++ entryBytes es ++ (sym :: leBytes 8 f.toNat) ++ rest)
    (hthere : 14 + 9 * n ≤ s.inLen.toNat) (hread : s.ReadableTo (23 + 9 * es.length)) (hes : EntriesFrom 0 es)
    (hbad : sym.toNat < nextLow 0 es ∨ f = 0) :
    ∃ u, decodeBody Config.magic s.openDecode =
      .raised ⟨if sym.toNat < nextLow 0 es then .tableOrder else .zeroFreq, BitVec.ofNat 64 es.length⟩ u := by
  obtain ⟨u, hu⟩ := decode_countRead (n := n) h0 hlt (by omega) (by rw [hin, List.append_assoc, List.append_assoc])
    (hread.less (by omega))
  obtain ⟨r, rfl⟩ := Nat.exists_eq_add_of_lt hn
  obtain ⟨v, hv⟩ := readEntries_bad (s := u) (len := len) (r := r) (hread.congr hu.env) magic_length (hu.inBytes.trans hin)
    rfl hes hbad
  exact ⟨v, hu.entries (by omega) h256 hthere _ _ hv⟩

/-- Good entries whose frequencies do not add up to the length. -/
theorem decodeBody_lengthMismatch {s : State} {len : Nat} {es : List (Byte × Count)} {rest : List Byte}
    (h0 : len ≠ 0) (hlt : len < 2 ^ 64) (h1 : 1 ≤ es.length) (h256 : es.length ≤ 256)
    (hin : s.inBytes = headerFront Config.magic len es.length ++ entryBytes es ++ rest)
    (hread : s.ReadableTo (14 + 9 * es.length)) (hes : EntriesFrom 0 es) (hsum : entrySum es ≠ len) :
    ∃ u, decodeBody Config.magic s.openDecode = .raised ⟨.lengthMismatch, BitVec.ofNat 64 (entrySum es)⟩ u := by
  have hlen := inLen_of_append hin
  rw [headerFront_length magic_length, entryBytes_length] at hlen
  obtain ⟨u, hu⟩ := decode_countRead (n := es.length) h0 hlt (by omega) (by rw [hin, List.append_assoc])
    (hread.less (by omega))
  obtain ⟨x, hx⟩ := readEntries_ok (s := u) (len := len) (hread.congr hu.env) magic_length (hu.inBytes.trans hin) hes
  rw [if_neg hsum] at hx
  exact ⟨_, hu.entries h1 h256 (by omega) _ _ hx⟩

/-- Settles O45: the count is read and checked, then the table's end, then its entries and their sum. -/
theorem decodeChecksTable : Obligations.DecodeChecksTable := by
  unfold Obligations.DecodeChecksTable
  intro s len h0 hlt
  refine ⟨?countCut, ?count, ?entry, ?sum⟩
  case countCut =>
    intro rest hin hcut hread
    obtain ⟨u, h, hsyms⟩ := decodeBody_countCut h0 hlt hin hcut hread
    exact ⟨_, exec_decode_of_raised h, u.decodeFailed_endsWith _, hsyms⟩
  case count =>
    intro n rest hn hin hread
    obtain ⟨u, hu⟩ := decode_countRead h0 hlt hn hin hread
    obtain ⟨t, ht⟩ := decode_total s
    have hlen : s.inLen.toNat = 14 + rest.length := by
      rw [← State.inBytes_length, hin, List.length_append, ← headerFront, headerFront_length magic_length]
    refine ⟨t, ht, fun h => ?_, fun h => ?_, fun h1 h256 h => ?_⟩
    · obtain rfl := eq_decodeFailed ht (hu.tooLarge h)
      refine ⟨u.decodeFailed_endsWith _, ?_⟩
      rw [State.decodeFailed_symCount, hu.symCount, BitVec.toNat_ofNat, Nat.mod_eq_of_lt hn]
    · obtain rfl := eq_decodeFailed ht (hu.zero h)
      exact u.decodeFailed_endsWith _
    · obtain rfl := eq_decodeFailed ht (hu.cut h1 h256 (by omega))
      exact u.decodeFailed_endsWith _
  case entry =>
    intro n es sym f rest hn h256 hin hthere hread horder hfreqs
    have hbad := decodeBody_badEntry h0 hlt hn h256 hin hthere hread (.of_ascending horder hfreqs)
    obtain ⟨t, ht⟩ := decode_total s
    refine ⟨t, ht, fun h => ?_, fun h hf => ?_⟩
    · have hlow := (lt_nextLow horder sym.toNat).mpr h
      obtain ⟨u, hu⟩ := hbad (.inl hlow)
      rw [if_pos hlow] at hu
      obtain rfl := eq_decodeFailed ht hu
      exact u.decodeFailed_endsWith _
    · obtain ⟨u, hu⟩ := hbad (.inr hf)
      rw [if_neg (not_lt_nextLow horder h)] at hu
      obtain rfl := eq_decodeFailed ht hu
      exact u.decodeFailed_endsWith _
  case sum =>
    intro es rest h1 h256 hin hread horder hfreqs hsum
    obtain ⟨u, h⟩ := decodeBody_lengthMismatch h0 hlt h1 h256 hin hread (.of_ascending horder hfreqs) hsum
    have hmod : BitVec.ofNat 64 (countSum (es.map Prod.snd) % 2 ^ 64) = BitVec.ofNat 64 (entrySum es) :=
      BitVec.eq_of_toNat_eq (by simp [entrySum])
    exact ⟨_, exec_decode_of_raised h, hmod ▸ u.decodeFailed_endsWith _⟩

/-! ### The trailing-bits byte (R200) -/

/-- IN begins with a good header of two symbols or more up to its symbol table, the one of `ft`. -/
structure State.GoodHeader (s : State) (ft : Vector Count 256) (rest : List Byte) : Prop where
  two : 2 ≤ (present ft).length
  sum : ftSum ft < 2 ^ 64
  layout : s.inBytes = Config.magic ++ leBytes 8 (ftSum ft) ++ leBytes 2 (present ft).length ++
    (present ft).flatMap (fun b => b :: leBytes 8 (ftAt ft b).toNat) ++ rest

/-- SYM_COUNT and TRAIL of a DECODE that has read a good table. -/
structure State.HeaderIs (u : State) (ft : Vector Count 256) (tb : Nat) : Prop where
  symCount : u.symCount.toNat = (present ft).length
  trail : u.trail.toNat = tb

section
variable {s : State} {ft : Vector Count 256} {rest : List Byte}

/-- Behind a good table DECODE comes to the table's tree; TRAIL is still 0 there. -/
theorem State.GoodHeader.tableRead (h : s.GoodHeader ft rest) (hread : s.ReadableTo (14 + 9 * (present ft).length)) :
    ∃ t, t.HeaderIs ft 0 ∧ t.ft = ft ∧ t.env = s.env ∧ t.inLen = s.inLen ∧ t.inBytes = s.inBytes ∧
      decodeBody Config.magic s.openDecode = decodeTree (present ft).length (ftSum ft) t := by
  obtain ⟨-, t, ht, hft, hbody⟩ := decodeBody_table_read h.two h.sum h.layout hread
  have hle := ftEntries_length_le ft
  refine ⟨t, ⟨?syms, ?trail⟩, hft, by simpa using ht.keeps.env, by simpa using ht.keeps.inLen,
    by simpa using ht.keeps.inBytes, hbody⟩
  case syms => rw [ht.symCount, ← present_length, BitVec.toNat_ofNat, Nat.mod_eq_of_lt (by rw [present_length]; omega)]
  case trail => rw [ht.trail, State.openDecode_trail]; rfl

theorem State.GoodHeader.sum_ne_zero (h : s.GoodHeader ft rest) : ftSum ft ≠ 0 :=
  ftSum_ne_zero_of_present (List.getElem_mem (show 0 < (present ft).length by have := h.two; omega))

/-- The table's tree does not touch the header registers, nor does reading the trailing-bits byte. -/
theorem State.HeaderIs.plant_setInOff {t : State} {tb : Nat} (h : t.HeaderIs ft tb) (nodes : List Node) (root : NodeIdx)
    (x : BitVec 64) : ((t.plant nodes root).setInOff x).HeaderIs ft tb := ⟨h.symCount, h.trail⟩

/-- The tree is built, and the trailing-bits byte is past the end. -/
theorem decodeTree_cut {n len : Nat} {t : State} (hread : t.Readable) (h0 : ftSum t.ft ≠ 0) (hlt : ftSum t.ft < 2 ^ 64)
    (hlen : t.inLen.toNat = 14 + 9 * n) :
    ∃ x, decodeTree n len t = .raised ⟨.truncatedHeader, BitVec.ofNat 64 (15 + 9 * n)⟩
      ((t.plant (builtNodes t.ft) (builtRoot t.ft)).setInOff x) := by
  obtain ⟨x, hx⟩ := readField_short (need := 15 + 9 * n) (addr := 14 + 9 * n) (n := 1)
    (s := t.plant (builtNodes t.ft) (builtRoot t.ft)) (by simpa using hread) (by decide)
    (by rw [State.plant_inLen, hlen]; omega)
  refine ⟨x, ?_⟩
  rw [decodeTree, buildBody_ok h0 hlt]
  dsimp only
  rw [hx]

theorem decodeBody_noTrailing (h : s.GoodHeader ft []) (hread : s.ReadableTo (15 + 9 * (present ft).length)) :
    ∃ u, decodeBody Config.magic s.openDecode =
      .raised ⟨.truncatedHeader, BitVec.ofNat 64 (15 + 9 * (present ft).length)⟩ u ∧ u.HeaderIs ft 0 := by
  obtain ⟨t, ht, hft, henv, hlen, -, hbody⟩ := h.tableRead (hread.less (by omega))
  obtain ⟨-, -, -, hend⟩ := inBytes_split h.layout
  rw [← hlen, List.length_nil, Nat.add_zero] at hend
  obtain ⟨x, hx⟩ := decodeTree_cut (len := ftSum ft) (t := t) ((hread.less (by omega)).congr henv)
    (by rw [hft]; exact h.sum_ne_zero) (by rw [hft]; exact h.sum) hend
  exact ⟨_, hbody.trans hx, ht.plant_setInOff _ _ x⟩

/-- The trailing-bits byte is read and checked. -/
theorem decodeBody_trailing {tb : Byte} (h : s.GoodHeader ft (tb :: rest))
    (hread : s.ReadableTo (15 + 9 * (present ft).length)) :
    ∃ u, u.HeaderIs ft 0 ∧ decodeBody Config.magic s.openDecode =
      if 7 < tb.toNat then .raised ⟨.badTrailingBits, BitVec.ofNat 64 tb.toNat⟩ u
      else decodeWalk (present ft).length tb.toNat (ftSum ft) u := by
  obtain ⟨t, ht, hft, henv, -, hin, hbody⟩ := h.tableRead (hread.less (by omega))
  obtain ⟨a, ha, hlayout, -⟩ := inBytes_split h.layout
  obtain ⟨x, hx⟩ := decodeTree_ok (len := ftSum ft) (s := t) (tb := tb) (a := a) (rest := rest) (hread.congr henv)
    (by rw [hft]; exact h.sum_ne_zero) (by rw [hft]; exact h.sum) (by rw [hin, hlayout]; simp) ha
  exact ⟨_, ht.plant_setInOff _ _ x, hbody.trans hx⟩

/-- Whatever the walk does, TRAIL is then the trailing-bits byte. -/
theorem exec_decode_trailing {tb : Byte} (h : s.GoodHeader ft (tb :: rest)) (htb : tb.toNat ≤ 7)
    (hread : s.ReadableTo (15 + 9 * (present ft).length)) : ∃ t, exec .decode s = .next t ∧ t.HeaderIs ft tb.toNat := by
  obtain ⟨u, hu, hbody⟩ := decodeBody_trailing h hread
  rw [if_neg (by omega)] at hbody
  have hwalk := decodeWalk_trail (n := (present ft).length) (len := ftSum ft) (s := u) htb
  cases hw : decodeWalk (present ft).length tb.toNat (ftSum ft) u with
  | ok a v =>
    rw [hw] at hwalk
    obtain ⟨htrail, hsyms⟩ := hwalk
    exact ⟨_, exec_decode_of_ok (hbody.trans hw), by rw [State.decodeDone_symCount, hsyms, hu.symCount], htrail⟩
  | raised e v =>
    rw [hw] at hwalk
    obtain ⟨-, htrail, hsyms⟩ := hwalk
    exact ⟨_, exec_decode_of_raised (hbody.trans hw), by rw [State.decodeFailed_symCount, hsyms, hu.symCount], htrail⟩

end

/-- Settles O46: the byte is missing, above 7, or goes to TRAIL before the walk. -/
theorem decodeChecksTrailing : Obligations.DecodeChecksTrailing := by
  unfold Obligations.DecodeChecksTrailing
  intro s ft rest h2 hlt hin hread
  have hheader : s.GoodHeader ft rest := ⟨h2, hlt, hin⟩
  cases rest with
  | nil =>
    obtain ⟨u, h, hu⟩ := decodeBody_noTrailing hheader hread
    have htrail : u.trail = 0 := BitVec.eq_of_toNat_eq hu.trail
    exact ⟨_, exec_decode_of_raised h, hu.symCount, fun _ => ⟨u.decodeFailed_endsWith _, htrail⟩, nofun⟩
  | cons tb payload =>
    by_cases htb : 7 < tb.toNat
    · obtain ⟨u, hu, h⟩ := decodeBody_trailing hheader hread
      rw [if_pos htb] at h
      have htrail : u.trail = 0 := BitVec.eq_of_toNat_eq hu.trail
      refine ⟨_, exec_decode_of_raised h, hu.symCount, nofun, fun tb' payload' heq => ?_⟩
      obtain ⟨rfl, rfl⟩ := List.cons.inj heq
      exact ⟨fun _ => ⟨u.decodeFailed_endsWith _, htrail⟩, fun hle => absurd htb (Nat.not_lt.mpr hle)⟩
    · obtain ⟨t, ht, hsyms, htrail⟩ := exec_decode_trailing hheader (Nat.le_of_not_lt htb) hread
      refine ⟨t, ht, hsyms, nofun, fun tb' payload' heq => ?_⟩
      obtain ⟨rfl, rfl⟩ := List.cons.inj heq
      exact ⟨fun hgt => absurd hgt htb, fun _ => htrail⟩

end Sys2Proof.Machine
end

section
/-! What DECODE makes of a container with a good header (45_container_codec.md R199, R201, R202, R207): the fill of the
single-symbol case, the walk of the payload, and when either meets an unreadable byte or an OUT that is full. -/

namespace Sys2Proof.Machine

/-! ### One symbol (R199) -/

/-- `u` is the state in which DECODE begins to fill OUT with `len` bytes: OUT is empty, the header registers are set. -/
structure State.FillStart (s u : State) (len : Nat) : Prop where
  env : u.env = s.env
  outMem : u.outMem = []
  outLen : u.outLen = 0
  origLen : u.origLen = BitVec.ofNat 64 len
  symCount : u.symCount = 1
  trail : u.trail = 0

section
variable {s : State} {b : Byte} {len : Nat} {rest : List Byte}

theorem decodeBody_single (h0 : len ≠ 0) (hlt : len < 2 ^ 64)
    (hin : s.inBytes = Config.magic ++ leBytes 8 len ++ leBytes 2 1 ++ (b :: leBytes 8 len) ++ rest)
    (hread : s.ReadableTo 23) :
    ∃ u, decodeBody Config.magic s.openDecode = fillLoop len b u ∧ s.FillStart u len := by
  have hf : (BitVec.ofNat 64 len).toNat = len := by rw [BitVec.toNat_ofNat, Nat.mod_eq_of_lt hlt]
  have hf0 : BitVec.ofNat 64 len ≠ 0 := fun h => h0 (hf.symm.trans (congrArg BitVec.toNat h))
  have hentry : entryBytes [(b, BitVec.ofNat 64 len)] = b :: leBytes 8 len := by simp [entryBytes, hf]
  have hlayout : s.openDecode.inBytes = headerFront Config.magic len 1 ++ entryBytes [(b, BitVec.ofNat 64 len)] ++ rest := by
    rw [State.openDecode_inBytes, hin, hentry, headerFront]
  have hgood : EntriesFrom 0 [(b, BitVec.ofNat 64 len)] := .of_ascending (List.pairwise_singleton _ _) (by simpa using hf0)
  obtain ⟨t, ht, hbody⟩ := decodeBody_table (len := len) (es := [(b, BitVec.ofNat 64 len)]) hread.openDecode magic_length
    h0 hlt hlayout (Nat.le_refl 1) (by simp) hgood (by simp [entrySum, countSum, hf])
  have hbyte : t.inByte 14 = b := by
    have hlen : s.openDecode.inLen.toNat = 23 + rest.length := by
      rw [inLen_of_append hlayout, headerFront_length magic_length, entryBytes_length]
      rfl
    have hat := s.openDecode.inBytes_getElem? 14
    rw [if_pos (by omega), hlayout, hentry, List.append_assoc,
      List.getElem?_append_right (by rw [headerFront_length magic_length]), headerFront_length magic_length] at hat
    rw [ht.keeps.inByte]
    exact (Option.some.inj hat).symm
  rw [if_pos List.length_singleton, hbyte] at hbody
  exact ⟨_, hbody, ⟨by simpa using ht.keeps.env, by simpa using ht.outMem, by simpa using ht.outLen, ht.origLen, ht.symCount,
    by simpa using ht.trail⟩⟩

/-- DECODE of a container of one symbol: the fill puts it into an empty OUT `len` times. -/
theorem exec_decode_single (h0 : len ≠ 0) (hlt : len < 2 ^ 64)
    (hin : s.inBytes = Config.magic ++ leBytes 8 len ++ leBytes 2 1 ++ (b :: leBytes 8 len) ++ rest)
    (hread : s.ReadableTo 23) (hroom : s.CanHold len) :
    ∃ t, exec .decode s = .next t ∧ t.EndsOk ∧ t.outValid = true ∧ OutHolds t (List.replicate len b) ∧
      t.origLen.toNat = len ∧ t.symCount = 1 ∧ t.trail = 0 := by
  obtain ⟨u, hbody, hu⟩ := decodeBody_single h0 hlt hin hread
  have hfits : u.Fits len := fits_of_canHold hroom hu.env hu.outLen
  rw [fillLoop_ok hfits] at hbody
  refine ⟨_, exec_decode_of_ok hbody, State.decodeDone_endsOk _, State.decodeDone_outValid _, ?holds, ?orig, hu.symCount,
    hu.trail⟩
  case holds => exact outHolds_appendOut (List.length_replicate.symm ▸ hfits) hu.outMem hu.outLen rfl rfl
  case orig =>
    rw [State.decodeDone_origLen, State.appendOut_origLen, hu.origLen, BitVec.toNat_ofNat, Nat.mod_eq_of_lt hlt]

/-- The fill of an OUT that takes fewer than `len` bytes (R64, R272). -/
theorem exec_decode_fillFull {cap : Nat} (hlt : len < 2 ^ 64) (hmore : cap < len) (hcap : s.env.outCap = some cap)
    (hin : s.inBytes = Config.magic ++ leBytes 8 len ++ leBytes 2 1 ++ (b :: leBytes 8 len) ++ rest)
    (hread : s.ReadableTo 23) :
    ∃ u : State, exec .decode s = .next (u.decodeFailed ⟨.dstUnwritable, BitVec.ofNat 64 cap⟩) ∧ u.outLen.toNat = cap := by
  obtain ⟨u, hbody, hu⟩ := decodeBody_single (by omega) hlt hin hread
  have hfull : ¬ u.Fits len := fun h => Nat.not_le_of_lt hmore ((canHold_of_fits h hu.env hu.outLen).cap cap hcap)
  obtain ⟨v, hv, hlen⟩ := fillLoop_full (b := b) (hu.outLen ▸ Nat.zero_le _) hfull
  rw [hu.env, outLimit_of_cap hcap (hmore.trans hlt)] at hv hlen
  exact ⟨v, exec_decode_of_raised (hbody.trans hv), hlen⟩

end

/-- Settles O44: the whole statement is `exec_decode_single`, which the round trip uses too. -/
theorem decodeSingleSymbol : Obligations.DecodeSingleSymbol := by
  unfold Obligations.DecodeSingleSymbol
  exact fun s b len rest => exec_decode_single

/-! ### The walk (R201) -/

/-- The tree DECODE walks is the one BUILD_TREE makes of the header's table (R200). -/
theorem exec_buildTree_node_root {s t : State} (h2 : 2 ≤ (present s.ft).length) (hlt : ftSum s.ft < 2 ^ 64)
    (h : exec .buildTree s = .next t) : t.node = builtNodes s.ft ∧ t.root = builtRoot s.ft := by
  have h0 := ftSum_ne_zero_of_present (List.getElem_mem (show 0 < (present s.ft).length by omega))
  obtain rfl : s.treeBuilt = t := Host.Outcome.next.inj ((exec_buildTree_ok h0 hlt).symm.trans h)
  exact ⟨rfl, rfl⟩

/-- IN is a container whose header is good, of two symbols or more, and whose payload's usable bits begin with the codes of
`syms` in the tree of the header's table and go on with `tail`. -/
structure State.DecodeFront (s : State) (ft : Vector Count 256) (ct : List Code) (syms : List Byte) (tb : Byte)
    (payload : List Byte) (tail : List Bool) : Prop where
  header : s.GoodHeader ft (tb :: payload)
  codes : CodesOf (builtNodes ft) (builtRoot ft) ct
  symbols : ∀ b ∈ syms, b ∈ present ft
  trailing : tb.toNat ≤ 7
  bits : usableBits payload tb.toNat = codeBits ct syms ++ tail

/-- The offset of the payload in a container of two symbols or more (R201). -/
def payloadBase (ft : Vector Count 256) : Nat := 15 + 9 * (present ft).length

/-- `u` is the state in which DECODE begins to walk the payload: the tree is there and OUT is empty. -/
structure State.WalkStart (s u : State) (ft : Vector Count 256) (ct : List Code) (syms : List Byte) (tb : Byte)
    (tail : List Bool) : Prop where
  body : decodeBody Config.magic s.openDecode = walk (payloadBase ft) tb.toNat (ftSum ft) u
  node : u.node = builtNodes ft
  root : u.root = builtRoot ft
  env : u.env = s.env
  inLen : u.inLen = s.inLen
  outMem : u.outMem = []
  outLen : u.outLen = 0
  bits : usableBits (u.payload (payloadBase ft)) tb.toNat = codeBits ct syms ++ tail
  spec : ∀ b ∈ syms, codeOf ct b ≠ [] ∧ LeadsTo u.node u.root (codeOf ct b) b

section
variable {s : State} {ft : Vector Count 256} {ct : List Code} {syms : List Byte} {tb : Byte} {payload : List Byte}
  {tail : List Bool}

theorem State.DecodeFront.inLen (h : s.DecodeFront ft ct syms tb payload tail) :
    s.inLen.toNat = payloadBase ft + payload.length := by
  obtain ⟨-, -, -, hlen⟩ := inBytes_split h.header.layout
  rw [hlen, List.length_cons, payloadBase]
  omega

/-- A payload with a usable bit has a byte. -/
theorem State.DecodeFront.base_lt (h : s.DecodeFront ft ct syms tb payload tail) (hne : codeBits ct syms ++ tail ≠ []) :
    payloadBase ft < s.inLen.toNat := by
  have hpos := usableBits_pos h.bits hne
  rw [h.inLen]
  omega

/-- The usable bits of the payload of a readable IN are readable. -/
theorem State.DecodeFront.bitsReadable (h : s.DecodeFront ft ct syms tb payload tail) (hread : s.Readable) {n : Nat}
    (hn : n ≤ (codeBits ct syms ++ tail).length) : s.BitsReadable (payloadBase ft) n := by
  intro k hk
  have hle : (codeBits ct syms ++ tail).length ≤ 8 * payload.length := by
    rw [← h.bits, usableBits, List.length_take, payloadBits_length]
    omega
  exact hread _ (by rw [h.inLen]; omega)

theorem State.DecodeFront.walkStart (h : s.DecodeFront ft ct syms tb payload tail) (hread : s.ReadableTo (payloadBase ft)) :
    ∃ u, s.WalkStart u ft ct syms tb tail := by
  obtain ⟨h0, u, hbody, hnode, hroot, henv, hlen, hout, hmem, hpayload, -⟩ :=
    decodeBody_at_walk (payload := payload) h.header.two h.header.sum h.trailing hread (by rw [h.header.layout]; simp)
  have hsyms : ∀ b ∈ syms, b ∈ leafSymbols (builtNodes ft) := by
    rw [leafSymbols_builtNodes h0 h.header.sum]
    exact h.symbols
  refine ⟨u, hbody, hnode, hroot, henv, hlen, hmem, hout, ?bits, ?spec⟩
  case bits => rw [payloadBase, hpayload, h.bits]
  case spec =>
    rw [hnode, hroot]
    exact h.codes.spec hsyms

/-- The number of bytes in OUT when a walk that began with an empty OUT raises. -/
theorem State.WalkStart.emitted {u v : State} {n : Nat} (hu : s.WalkStart u ft ct syms tb tail)
    (h : v.outLen.toNat = u.outLen.toNat + n) : v.outLen.toNat = n := by
  rw [h, hu.outLen]
  exact Nat.zero_add n

/-- DECODE of a payload whose usable bits begin with the codes of ORIG_LEN symbols (R174, R175). -/
theorem exec_decode_codes (h : s.DecodeFront ft ct syms tb payload tail) (hlen : syms.length = ftSum ft) (hread : s.Readable)
    (hroom : s.CanHold syms.length) :
    ∃ t, exec .decode s = .next t ∧ t.EndsOk ∧ t.outValid = true ∧ OutHolds t syms := by
  have h0 := h.header.sum_ne_zero
  obtain ⟨u, hu⟩ := h.walkStart fun o ho => hread o (by rw [h.inLen]; omega)
  have hfits : u.Fits syms.length := fits_of_canHold hroom hu.env hu.outLen
  have hne : codeBits ct syms ≠ [] :=
    codeBits_ne_nil (by rintro rfl; exact h0 hlen.symm) fun b hb => (hu.spec b hb).1
  obtain ⟨c, n, p, x, hwalk⟩ := walk_ok ((h.bitsReadable hread (by simp)).congr hu.env) (hlen ▸ hfits) hlen h0 h.header.sum
    (hu.inLen ▸ h.base_lt (List.append_ne_nil_of_left_ne_nil hne tail)) h.trailing hu.bits hu.spec
  exact ⟨_, exec_decode_of_ok (hu.body.trans hwalk), State.decodeDone_endsOk _, State.decodeDone_outValid _,
    outHolds_appendOut hfits hu.outMem hu.outLen rfl rfl⟩

/-- DECODE that runs out of bits at an Internal node (R178). -/
theorem exec_decode_exhausted {j l r : NodeIdx} {f : Count} (h : s.DecodeFront ft ct syms tb payload tail)
    (hlt : syms.length < ftSum ft) (hne : payload ≠ []) (hpath : followPath (builtNodes ft) (builtRoot ft) tail = some j)
    (hj : nodeAt (builtNodes ft) j = some (.internal f l r)) (hread : s.Readable) (hroom : s.CanHold syms.length) :
    ∃ u : State, exec .decode s = .next (u.decodeFailed ⟨.payloadExhausted, BitVec.ofNat 64 syms.length⟩) ∧
      u.outLen.toNat = syms.length := by
  have hpos : 0 < payload.length := List.length_pos_iff.mpr hne
  obtain ⟨u, hu⟩ := h.walkStart fun o ho => hread o (by rw [h.inLen]; omega)
  obtain ⟨v, hv, hlen⟩ := walk_exhausted ((h.bitsReadable hread (by simp)).congr hu.env)
    (fits_of_canHold hroom hu.env hu.outLen) hlt h.header.sum (by rw [hu.inLen, h.inLen]; omega) h.trailing hu.bits hu.spec
    (by rw [hu.node, hu.root]; exact hpath) (by rw [hu.node]; exact hj)
  exact ⟨v, exec_decode_of_raised (hu.body.trans hv), hu.emitted hlen⟩

/-- DECODE that needs the first bit of the unreadable payload byte `q` (R63, R173). -/
theorem exec_decode_walkUnreadable {c : Code} {b : Bool} {rest : List Bool} {q : Nat} {j l r : NodeIdx} {f : Count}
    (h : s.DecodeFront ft ct syms tb payload (c ++ b :: rest)) (hlt : syms.length < ftSum ft)
    (hpath : followPath (builtNodes ft) (builtRoot ft) c = some j)
    (hj : nodeAt (builtNodes ft) j = some (.internal f l r)) (hq : (codeBits ct syms).length + c.length = 8 * q)
    (hread : s.ReadableTo (payloadBase ft + q)) (hbad : s.inBadAt (payloadBase ft + q) = true)
    (hroom : s.CanHold syms.length) :
    ∃ u : State, exec .decode s = .next (u.decodeFailed ⟨.srcUnreadable, BitVec.ofNat 64 (payloadBase ft + q)⟩) ∧
      u.outLen.toNat = syms.length := by
  obtain ⟨u, hu⟩ := h.walkStart (hread.less (by omega))
  obtain ⟨v, hv, hlen⟩ := walk_unreadable ((bitsReadable_of_readableTo (hread.less (by omega))).congr hu.env) hq
    (by rw [State.inBadAt_congr hu.env]; exact hbad) (fits_of_canHold hroom hu.env hu.outLen) hlt h.header.sum
    (hu.inLen ▸ h.base_lt (by simp)) h.trailing hu.bits hu.spec (by rw [hu.node, hu.root]; exact hpath)
    (by rw [hu.node]; exact hj)
  exact ⟨v, exec_decode_of_raised (hu.body.trans hv), hu.emitted hlen⟩

/-- DECODE that comes to a symbol when OUT_CAP bytes are out (R64). -/
theorem exec_decode_walkFull {cap : Nat} (h : s.DecodeFront ft ct syms tb payload tail) (hcap : s.env.outCap = some cap)
    (hsyms : syms.length = cap + 1) (hle : syms.length ≤ ftSum ft)
    (hread : s.ReadableTo (payloadBase ft + ((codeBits ct syms).length + 7) / 8)) :
    ∃ u : State, exec .decode s = .next (u.decodeFailed ⟨.dstUnwritable, BitVec.ofNat 64 cap⟩) ∧ u.outLen.toNat = cap := by
  have hlt : cap < 2 ^ 64 := by
    have := h.header.sum
    omega
  obtain ⟨u, hu⟩ := h.walkStart (hread.less (by omega))
  have hlimit : outLimit u.env = cap := by rw [hu.env, outLimit_of_cap hcap hlt]
  have hne : codeBits ct syms ≠ [] := codeBits_ne_nil (by rintro rfl; cases hsyms) fun b hb => (hu.spec b hb).1
  have hbase := h.base_lt (List.append_ne_nil_of_left_ne_nil hne tail)
  have hbits := hu.bits
  have hspec := hu.spec
  obtain rfl | ⟨init, last, rfl⟩ := List.eq_nil_or_concat' syms
  · cases hsyms
  · rw [List.length_append, List.length_singleton] at hsyms hle
    have hinit : init.length = cap := Nat.add_right_cancel hsyms
    have hout : u.outLen.toNat = 0 := congrArg BitVec.toNat hu.outLen
    obtain ⟨v, hv, hlen⟩ := walk_full ((bitsReadable_of_readableTo hread).congr hu.env)
      (by rw [State.Fits, hout, hlimit]; omega) (by rw [State.Fits, hout, hlimit]; omega) (by omega) h.header.sum
      (hu.inLen ▸ hbase) h.trailing hbits hspec
    rw [hlimit] at hv hlen
    exact ⟨v, exec_decode_of_raised (hu.body.trans hv), hlen⟩

end

/-- Settles O47: the walk emits the symbols of the codes it reads, all of them or as many as the payload has. -/
theorem decodeWalksPayload : Obligations.DecodeWalksPayload := by
  unfold Obligations.DecodeWalksPayload
  intro s w w0 ct syms tb payload tail hw h2 hlt hcodes hsyms htb hne hread hroom hin hbits
  obtain ⟨hnode, hroot⟩ := exec_buildTree_node_root h2 hlt hw
  rw [hnode, hroot] at hcodes ⊢
  have hfront : s.DecodeFront w0.ft ct syms tb payload tail := ⟨⟨h2, hlt, by rw [hin]; simp⟩, hcodes, hsyms, htb, hbits⟩
  obtain ⟨t, ht⟩ := decode_total s
  refine ⟨t, ht, fun hlen => ?_, fun j l r f hless hpath hj => ?_⟩
  · obtain ⟨t', ht', hok⟩ := exec_decode_codes hfront hlen hread hroom
    obtain rfl := Host.Outcome.next.inj (ht.symm.trans ht')
    exact hok
  · obtain ⟨u, hu, hlen⟩ := exec_decode_exhausted hfront hless hne hpath hj hread hroom
    obtain rfl := Host.Outcome.next.inj (ht.symm.trans hu)
    exact ⟨u.decodeFailed_endsWith _, u.decodeFailed_outValid _, hlen⟩

/-- Settles O48: the ends are `exec_decode_cases`; an IOError comes at the first unreadable byte of the header, in the
fill or in the walk. -/
theorem decodeLengthHolds : Obligations.DecodeLengthHolds := by
  unfold Obligations.DecodeLengthHolds
  refine ⟨?ends, ?header, ?fill, ?walk⟩
  case ends =>
    intro s
    obtain ⟨u, -, ⟨h, hlen⟩ | ⟨e, he, h⟩⟩ := exec_decode_cases s
    · exact ⟨_, h, u.decodeEnd_discarded _ _ _, .inl ⟨u.decodeDone_endsOk, u.decodeDone_outValid, hlen⟩⟩
    · exact ⟨_, h, u.decodeEnd_discarded _ _ _,
        .inr ⟨e.cause, e.info, u.decodeFailed_endsWith e, he, u.decodeFailed_outValid e⟩⟩
  case header =>
    intro s p hp hlt hbad hread
    obtain ⟨u, h, hlen⟩ := decodeBody_unreadable hp hlt hbad hread
    exact ⟨_, exec_decode_of_raised h, u.decodeFailed_endsWith _, hlen⟩
  case fill =>
    intro s b len cap rest hlt hmore hcap hin hread
    obtain ⟨u, h, hlen⟩ := exec_decode_fillFull hlt hmore hcap hin hread
    exact ⟨_, h, u.decodeFailed_endsWith _, hlen⟩
  case walk =>
    rintro s w w0 ct syms tb payload tail n hw rfl h2 hlt hcodes hsyms htb hin hbits
    obtain ⟨hnode, hroot⟩ := exec_buildTree_node_root h2 hlt hw
    rw [hnode, hroot] at hcodes ⊢
    have hfront : s.DecodeFront w0.ft ct syms tb payload tail := ⟨⟨h2, hlt, by rw [hin]; simp⟩, hcodes, hsyms, htb, hbits⟩
    constructor
    · rintro c b rest q j l r f rfl hless hpath hj hq hread hbad hroom
      obtain ⟨u, h, hlen⟩ := exec_decode_walkUnreadable hfront hless hpath hj hq hread hbad hroom
      exact ⟨_, h, u.decodeFailed_endsWith _, hlen⟩
    · intro cap hcap hlen hle hread
      obtain ⟨u, h, hout⟩ := exec_decode_walkFull hfront hcap hlen hle hread
      exact ⟨_, h, u.decodeFailed_endsWith _, hout⟩

end Sys2Proof.Machine
end

section
/-! The round trip (45_container_codec.md R203): DECODE of a container that ENCODE wrote gives the bytes back. -/

namespace Sys2Proof.Machine

/-- A list of bytes whose table has one symbol is that symbol as often as the list is long. -/
theorem eq_replicate_of_present {bytes : List Byte} {b : Byte} (hlt : bytes.length < 2 ^ 64)
    (h : present (tableOf bytes) = [b]) : bytes = List.replicate bytes.length b :=
  List.eq_replicate_of_mem fun _ hc => List.mem_singleton.mp (h ▸ mem_present.mpr (tableOf_pos hlt hc))

theorem containerFor_single {bytes : List Byte} {b : Byte} (h0 : bytes ≠ []) (hlt : bytes.length < 2 ^ 64)
    (h : present (tableOf bytes) = [b]) :
    ∃ rest, containerFor Config.magic bytes =
      Config.magic ++ leBytes 8 bytes.length ++ leBytes 2 1 ++ (b :: leBytes 8 bytes.length) ++ rest := by
  have hcount : (ftAt (tableOf bytes) b).toNat = bytes.length := by
    rw [tableOf_at hlt, eq_replicate_of_present hlt h, List.count_replicate_self, List.length_replicate]
  refine ⟨[BitVec.ofNat 8 ((streamFor bytes).length % 8)] ++ packedBytes (streamFor bytes), ?_⟩
  rw [containerFor_eq _ h0, h, List.flatMap_singleton, hcount, List.append_assoc]
  rfl

/-- A container of two symbols or more has a good header, and the usable bits of its payload are the codes of its bytes. -/
theorem decodeFront_of_containerFor {s : State} {bytes : List Byte} (h0 : bytes ≠ []) (hlt : bytes.length < 2 ^ 64)
    (h2 : 2 ≤ (present (tableOf bytes)).length) (hin : s.inBytes = containerFor Config.magic bytes) :
    s.DecodeFront (tableOf bytes) (codesFor bytes) bytes (BitVec.ofNat 8 ((streamFor bytes).length % 8))
      (packedBytes (streamFor bytes)) [] := by
  have hsum := ftSum_tableOf hlt
  have htb : (BitVec.ofNat 8 ((streamFor bytes).length % 8)).toNat = (streamFor bytes).length % 8 := by
    rw [BitVec.toNat_ofNat, Nat.mod_eq_of_lt (by omega)]
  refine ⟨⟨h2, hsum ▸ hlt, ?layout⟩, codesFor_of h0 hlt, fun b hb => mem_present.mpr (tableOf_pos hlt hb), by omega, ?bits⟩
  case layout => rw [hin, containerFor_eq _ h0, hsum, List.append_assoc _ [_], List.singleton_append]
  case bits => rw [htb, usableBits_packedBytes_self, List.append_nil, streamFor]

/-- DECODE of the container of `bytes`, by the number of its symbols (R196, R199, R201). -/
theorem exec_decode_containerFor {s : State} {bytes : List Byte} (hlt : bytes.length < 2 ^ 64)
    (hin : s.inBytes = containerFor Config.magic bytes) (hread : ∀ n, s.ReadableTo n) (hroom : s.CanHold bytes.length) :
    ∃ t, exec .decode s = .next t ∧ t.EndsOk ∧ t.outValid = true ∧ OutHolds t bytes := by
  by_cases h0 : bytes = []
  · subst h0
    rw [containerFor_nil, List.append_assoc] at hin
    obtain ⟨t, ht, hok, hvalid, hout, -⟩ := exec_decode_zero hin (hread 12)
    exact ⟨t, ht, hok, hvalid, hout⟩
  · have hpos := ftEntries_pos (ftSum_tableOf_ne h0 hlt)
    rw [← present_length] at hpos
    rcases Nat.eq_or_lt_of_le hpos with h1 | h2
    · obtain ⟨b, hb⟩ := List.length_eq_one_iff.mp h1.symm
      obtain ⟨rest, hcontainer⟩ := containerFor_single h0 hlt hb
      obtain ⟨t, ht, hok, hvalid, hout, -⟩ := exec_decode_single (fun h => h0 (List.length_eq_zero_iff.mp h)) hlt
        (hin.trans hcontainer) (hread 23) hroom
      rw [← eq_replicate_of_present hlt hb] at hout
      exact ⟨t, ht, hok, hvalid, hout⟩
    · exact exec_decode_codes (decodeFront_of_containerFor h0 hlt h2 hin) (ftSum_tableOf hlt).symm (hread _) hroom

theorem State.readableTo_of_inBad_nil {s : State} (h : s.env.inBad = []) (n : Nat) : s.ReadableTo n :=
  fun o _ => State.inBadAt_of_inBad_nil h o

/-- Settles O50: ENCODE leaves the container of the bytes in OUT, MOVEOUT puts it into IN, and DECODE of a container gives
the bytes it was made of. -/
theorem roundTrip : Obligations.RoundTrip := by
  unfold Obligations.RoundTrip
  intro s bytes hlt hbad
  have hin : (s.loadBytes bytes).inBytes = bytes := loadBytes_inBytes s hlt
  have henv : (s.loadBytes bytes).env = s.env := rfl
  obtain ⟨t, ht, -⟩ := after_encode (s.loadBytes bytes)
  refine ⟨s.loadBytes bytes, t, hostStep_loadIn_of_lt s hlt, ht, ?succeeds, ?back⟩
  case succeeds =>
    intro hcap h58
    have hroom : (s.loadBytes bytes).CanHold (containerFor Config.magic (s.loadBytes bytes).inBytes).length :=
      ⟨fun c hc => absurd (hcap.symm.trans hc) nofun, hin.symm ▸ containerFor_length_lt h58⟩
    obtain ⟨t', ht', hok, -⟩ := exec_encode_ok (s := s.loadBytes bytes) (State.readableTo_of_inBad_nil hbad _) hroom
    obtain rfl := Host.Outcome.next.inj (ht.symm.trans ht')
    exact hok
  case back =>
    intro hok hroom
    obtain ⟨hvalid, hout, -, htenv⟩ := encode_success_spec ht hok
    rw [hin] at hout
    have huenv : t.moveOut.env = s.env := by rw [State.moveOut_env, htenv, henv]
    obtain ⟨v, hv⟩ := exec_decode_containerFor hlt (moveOut_inBytes hout)
      (State.readableTo_of_inBad_nil (by rw [huenv, hbad])) (hroom.congr huenv)
    exact ⟨t.moveOut, v, hostStep_moveOut_of_valid hvalid, hv⟩

end Sys2Proof.Machine
end

section
/-! Errors (60_exceptions.md R225, R231, R232): what the two ends of a command write, and which command can end with which
cause. -/

namespace Sys2Proof.Machine

/-! ### What `finish` and `raise` write (R231, R232) -/

theorem State.raise_of_writesOut (s : State) {i : Instr} (e : Raise) (h : writesOut i = true) :
    s.raise i e = s.dropOut.recordError e := if_pos h

theorem State.raise_of_not_writesOut (s : State) {i : Instr} (e : Raise) (h : writesOut i = false) :
    s.raise i e = s.recordError e := if_neg (Bool.eq_false_iff.mp h)

theorem writesOut_eq_true_iff_mem (i : Instr) : writesOut i = true ↔ i ∈ [Instr.pack, .unpack, .encode, .decode] := by
  cases i <;> decide

theorem writesOut_eq_false_iff_mem (i : Instr) :
    writesOut i = false ↔ i ∈ [Instr.clear, .fcount, .buildTree, .genCodes] := by
  cases i <;> decide

/-- Settles O54: `raise` is `recordError`, after `dropOut` exactly when the command writes OUT. -/
theorem finishAndRaise : Obligations.FinishAndRaise := by
  unfold Obligations.FinishAndRaise
  constructor
  case left =>
    intro s
    rfl
  case right =>
    intro s i e
    refine ⟨s.raise_endsWith i e, fun hi => ?writes, fun hi => ?keeps⟩
    case writes =>
      rw [s.raise_of_writesOut e ((writesOut_eq_true_iff_mem i).mpr hi)]
      rfl
    case keeps =>
      rw [s.raise_of_not_writesOut e ((writesOut_eq_false_iff_mem i).mpr hi)]
      rfl

/-! ### Which command can end with which cause (R225) -/

/-- The error registers hold a row of R221, that of no error or of a cause which R225 gives the command `i`. -/
structure State.ErrorOf (i : Instr) (t : State) : Prop where
  kind : t.errKind = t.errCause.kind
  cause : t.errCause = .none ∨ t.errCause ∈ mayRaise i

theorem State.EndsOk.errorOf {t : State} (h : t.EndsOk) (i : Instr) : t.ErrorOf i where
  kind := by rw [h.kind, h.cause, Cause.kind]
  cause := .inl h.cause

theorem State.EndsWith.errorOf {t : State} {i : Instr} {c : Cause} {info : BitVec 64} (h : t.EndsWith c info)
    (hc : c ∈ mayRaise i) : t.ErrorOf i where
  kind := by rw [h.kind, h.cause]
  cause := .inr (h.cause.symm ▸ hc)

theorem State.Cleared.errorOf {t : State} (h : t.Cleared) (i : Instr) : t.ErrorOf i where
  kind := by rw [h.errKind, h.errCause, Cause.kind]
  cause := .inl h.errCause

theorem exec_fcount_errorOf (s : State) : ∃ t, exec .fcount s = .next t ∧ t.ErrorOf .fcount := by
  rcases exec_fcount_cases s with ⟨_, _, h⟩ | ⟨_, h⟩
  · exact ⟨_, h, (State.finish_endsOk _).errorOf _⟩
  · exact ⟨_, h, (State.raise_endsWith _ _ _).errorOf (List.mem_singleton_self _)⟩

/-- Its errors are those of the two checks of R133. -/
theorem exec_buildTree_errorOf (s : State) : ∃ t, exec .buildTree s = .next t ∧ t.ErrorOf .buildTree := by
  refine ⟨_, exec_buildTree s, ?_⟩
  unfold State.afterBuildTree
  split_ifs
  · exact (State.raise_endsWith _ _ _).errorOf (by decide)
  · exact (State.raise_endsWith _ _ _).errorOf (by decide)
  · exact (State.finish_endsOk _).errorOf _

theorem exec_genCodes_errorOf (s : State) : ∃ t, exec .genCodes s = .next t ∧ t.ErrorOf .genCodes := by
  cases hv : s.treeValid with
  | false => exact ⟨_, exec_genCodes_noTree hv, (State.raise_endsWith _ _ _).errorOf (by decide)⟩
  | true =>
    obtain ⟨ct, h⟩ := exec_genCodes_of_valid hv
    exact ⟨_, h, (s.codesMade_endsOk ct).errorOf _⟩

theorem exec_pack_errorOf (s : State) : ∃ t, exec .pack s = .next t ∧ t.ErrorOf .pack := by
  rcases exec_pack_cases s with ⟨m, len, tb, h⟩ | ⟨len, e, he, h⟩
  · exact ⟨_, h, (s.packDone_endsOk m len tb).errorOf _⟩
  · exact ⟨_, h, (s.packFailed_endsWith len e).errorOf he⟩

/-- Only here is the tree invariant needed: without it a walk can meet a missing child (R177). -/
theorem exec_unpack_errorOf {s : State} (htree : s.TreeInv) : ∃ t, exec .unpack s = .next t ∧ t.ErrorOf .unpack := by
  cases hv : s.treeValid with
  | false => exact ⟨_, exec_unpack_noTree hv, (s.unpackFailed_endsWith 0 _).errorOf (by decide)⟩
  | true =>
    rcases exec_unpack_cases hv htree with ⟨m, h⟩ | ⟨len, e, he, h⟩
    · exact ⟨_, h, (s.unpackDone_endsOk m s.origLen).errorOf _⟩
    · exact ⟨_, h, (s.unpackFailed_endsWith len e).errorOf he⟩

/-- The causes of an IOError are those that R225 gives ENCODE. -/
theorem mem_mayRaise_encode {c : Cause} (h : c.kind = .io) : c ∈ mayRaise .encode := by
  cases c <;> simp [Cause.kind, mayRaise] at h ⊢

theorem exec_encode_errorOf (s : State) : ∃ t, exec .encode s = .next t ∧ t.ErrorOf .encode := by
  obtain ⟨u, -, h | ⟨e, he, h⟩⟩ := exec_encode_cases s
  · exact ⟨_, h, u.encodeDone_endsOk.errorOf _⟩
  · exact ⟨_, h, (u.encodeFailed_endsWith e).errorOf (mem_mayRaise_encode he)⟩

theorem exec_decode_errorOf (s : State) : ∃ t, exec .decode s = .next t ∧ t.ErrorOf .decode := by
  obtain ⟨u, -, ⟨h, -⟩ | ⟨e, he, h⟩⟩ := exec_decode_cases s
  · exact ⟨_, h, u.decodeDone_endsOk.errorOf _⟩
  · exact ⟨_, h, (u.decodeFailed_endsWith e).errorOf he⟩

/-- The rows of R225, one a command. -/
theorem exec_errorOf (i : Instr) {s : State} (htree : s.TreeInv) : ∃ t, exec i s = .next t ∧ t.ErrorOf i := by
  cases i with
  | clear => exact ⟨_, exec_clear s, s.afterClear_cleared.errorOf _⟩
  | fcount => exact exec_fcount_errorOf s
  | buildTree => exact exec_buildTree_errorOf s
  | genCodes => exact exec_genCodes_errorOf s
  | pack => exact exec_pack_errorOf s
  | unpack => exact exec_unpack_errorOf htree
  | encode => exact exec_encode_errorOf s
  | decode => exact exec_decode_errorOf s

/-- Settles O52: each command ends as its row of R225 allows; a walk in a well-formed tree never misses a child (R177). -/
theorem errorKindsByCommand : Obligations.ErrorKindsByCommand := by
  unfold Obligations.ErrorKindsByCommand
  intro i s htree
  obtain ⟨t, ht, hkind, hcause⟩ := exec_errorOf i htree
  exact ⟨t, ht, hkind, hcause⟩

end Sys2Proof.Machine
end

section
/-! Nothing runs until the host writes CMD (70_reset_and_hazards.md R260): what the other host actions can write. -/

namespace Sys2Proof.Machine

/-! ### Host actions other than a CMD write and reset -/

/-- `s` with the host's program `q` and, from `v`, what a host action other than a CMD write and reset can write: the
host-writable registers (R47), IN (R93), the environment, and what the host's read returns. -/
def State.withHostWrites (s : State) (q : List HostAction) (v : State) : State :=
  { s with
    ft := v.ft, origLen := v.origLen, trail := v.trail, inMem := v.inMem, inLen := v.inLen, env := v.env, hostQ := q,
    hostData := v.hostData, draws := v.draws }

theorem State.writeRegister_eq_withHostWrites (s : State) (r : Reg) (v : BitVec 64) :
    s.writeRegister r v = s.withHostWrites s.hostQ (s.writeRegister r v) := by
  cases r <;> rfl

/-- CMD has one number (R48). -/
theorem eq_zero_of_regOf_cmd {n : Nat} (h : regOf n = .cmd) : n = 0x000 := by
  have plain : ∀ n ≤ 0x00C, plainReg n = .cmd → n = 0x000 := by decide
  unfold regOf at h
  split at h
  case isTrue hn => exact plain n hn h
  case isFalse => split_ifs at h

theorem hostStep_writeReg_of_ne_cmd {n : Nat} (s : State) (v : BitVec 64) (h : n ≠ 0x000) :
    hostStep (.writeReg n v) s = .next (s.writeRegister (regOf n) v) := if_neg fun hr => h (eq_zero_of_regOf_cmd hr)

theorem hostStep_eq_withHostWrites {a : HostAction} {s t : State} (hcmd : ∀ v, a ≠ .writeReg 0x000 v) (hreset : a ≠ .reset)
    (he : hostStep a s = .next t) : t = s.withHostWrites s.hostQ t := by
  cases a with
  | writeReg n v =>
    have hn : n ≠ 0x000 := fun hn => hcmd v (hn ▸ rfl)
    rw [hostStep_writeReg_of_ne_cmd s v hn] at he
    cases he
    exact s.writeRegister_eq_withHostWrites _ v
  | loadIn bytes =>
    rw [hostStep] at he
    split at he <;> cases he
    exact s.loadBytes_frame bytes
  | moveOut =>
    rw [hostStep] at he
    split at he <;> cases he
    exact s.moveOut_frame
  | reset => exact absurd rfl hreset
  | readReg | writeIn | readIn | readOut | setEnv =>
    cases he
    rfl

/-! ### Steps -/

theorem step_of_hostQ_nil {s : State} (h : s.hostQ = []) : step s = .next s := by
  simp [step, h]

/-- An idle step that neither writes CMD nor resets runs nothing. -/
theorem step_eq_withHostWrites {s u : State} {a : HostAction} {rest : List HostAction} (hb : s.busy = false)
    (hq : s.hostQ = a :: rest) (hcmd : ∀ v, a ≠ .writeReg 0x000 v) (hreset : a ≠ .reset) (he : step s = .next u) :
    u = s.withHostWrites rest u := by
  rw [step_of_idle hb hq] at he
  exact hostStep_eq_withHostWrites hcmd hreset he

/-! ### Reset -/

/-- State.reset and the reset action are both a `State.resetWith`. -/
theorem exists_eq_resetWith {s t : State} (h : t = State.reset ∨ hostStep .reset s = .next t) :
    ∃ draw env hostQ hostData, t = State.resetWith draw env hostQ hostData := by
  rcases h with rfl | h
  · exact ⟨_, _, _, _, rfl⟩
  · cases h
    exact ⟨_, _, _, _, rfl⟩

/-- Settles O6: every reset is one `State.resetWith`; an idle step that neither resets nor writes CMD changes only what
`State.withHostWrites` replaces. -/
theorem nothingRunsAfterReset : Obligations.NothingRunsAfterReset := by
  unfold Obligations.NothingRunsAfterReset
  refine ⟨?reset, ?action⟩
  case reset =>
    intro s t ht
    obtain ⟨draw, env, hostQ, hostData, rfl⟩ := exists_eq_resetWith ht
    have hc := State.resetWith_cleared draw env hostQ hostData
    exact ⟨hc.phase, hc.status, hc, rfl, Memory.get?_nil, step_of_hostQ_nil⟩
  case action =>
    intro s u a rest hb hq hcmd he
    split_ifs with ha
    · rw [ha] at hq
      rw [step_of_idle hb hq] at he
      cases he
      exact ⟨State.resetWith_cleared _ _ _ _, rfl⟩
    · rw [step_eq_withHostWrites hb hq hcmd ha he]
      exact ⟨rfl, rfl, rfl, rfl, rfl, rfl, rfl, rfl, ⟨rfl, rfl, rfl, rfl⟩, ⟨rfl, rfl⟩, ⟨rfl, rfl, fun _ => rfl⟩, ⟨rfl, rfl⟩,
        ⟨rfl, rfl, rfl⟩, ⟨rfl, rfl, rfl⟩, rfl⟩

end Sys2Proof.Machine
end
